-- ==== Sys2Proof/Word.lean ====
section
/-! DEFINITION. The word types of the VZ-4T: bytes and 32-bit region words (00_scope.md, Conventions). -/

namespace Sys2Proof

/-- A byte of a word or of memory. -/
abbrev Byte := BitVec 8

/-- A region word: 32 bits at a 4-byte-aligned offset. -/
abbrev Word := BitVec 32

end Sys2Proof
end

