-- ==== Sys2Proof/Codes.lean ====
section
/-! DEFINITION. The enumerated names of the part (13_region_map_and_record_layouts.md, section 13.7, and the rules that
introduce each). Their numeric codes are in Sys2Proof/Machine/Layout.lean. -/

namespace Sys2Proof

/-- R32: the reply codes of a reply-format burst. -/
inductive ReplyCode
  | ok
  | refused
  | check
  | full
deriving DecidableEq, Repr, Inhabited

/-- R6: the twelve states of a record; R3: the stage field names one of them or is absent. -/
inductive RecState
  | vacant
  | expected
  | probing
  | assigning
  | ranging
  | equalising
  | loading
  | granting
  | active
  | held
  | halted
  | withdrawing
deriving DecidableEq, Repr, Inhabited

/-- R13: the fifteen fault codes, and NONE. -/
inductive FaultCode
  | none
  | addressTaken
  | assignRefused
  | noAnswer
  | noEcho
  | unstable
  | tooFar
  | weakLight
  | equaliseRefused
  | profileRefused
  | sourceChanged
  | noSlots
  | grantRefused
  | flapping
  | legFault
  | rogue
deriving DecidableEq, Repr, Inhabited

/-- R2, R8: hold points. -/
inductive HoldPoint
  | none
  | addressed
  | ranged
  | loaded
deriving DecidableEq, Repr, Inhabited

/-- R2, R101: destination modes. -/
inductive DestMode
  | inc
  | fixed
deriving DecidableEq, Repr, Inhabited

/-- R64: hail modes. -/
inductive HailMode
  | off
  | single
  | continuous
deriving DecidableEq, Repr, Inhabited

/-- R162: the result codes of a command slot, and NONE. -/
inductive ResultCode
  | none
  | ok
  | aborted
  | badKind
  | badField
  | wrongState
  | dupAddress
  | dupSerial
  | groupFull
  | legOff
  | legFault
  | legHunting
  | legBusy
  | addressOwned
  | refused
  | silent
  | unsettled
  | partialAnswer
deriving DecidableEq, Repr, Inhabited

/-- R41: the five leg states. -/
inductive LegState
  | dark
  | running
  | suspended
  | hunting
  | faulted
deriving DecidableEq, Repr, Inhabited

/-- R71: the outcomes of a hail window. -/
inductive WindowOutcome
  | none
  | empty
  | hails
  | garbled
deriving DecidableEq, Repr, Inhabited

/-- R131, R135: survey results and per-leg outcomes. -/
inductive SurveyOut
  | none
  | dark
  | lit
  | blazing
  | notRun
  | legFault
deriving DecidableEq, Repr, Inhabited

/-- R146: hunt phases. -/
inductive HuntPhase
  | idle
  | starting
  | confirming
  | muting
  | surveying
  | unmuting
deriving DecidableEq, Repr, Inhabited

/-- R141: hunt results. -/
inductive HuntResult
  | none
  | found
  | noRogue
  | strayRogue
  | aborted
  | legFault
deriving DecidableEq, Repr, Inhabited

/-- R158: command slot states. -/
inductive SlotState
  | idle
  | queued
  | running
  | done
deriving DecidableEq, Repr, Inhabited

/-- R185: config status. -/
inductive CommitStatus
  | none
  | applied
  | rejected
deriving DecidableEq, Repr, Inhabited

/-- R183: reasons of a rejected commit. -/
inductive CommitReason
  | range
  | legOccupied
  | reachLocked
  | ringBusy
deriving DecidableEq, Repr, Inhabited

/-- R73: dispositions of a ring entry. -/
inductive Disposition
  | stray
  | wrongLeg
  | halted
deriving DecidableEq, Repr, Inhabited

/-- R107: states of a pin-table entry. -/
inductive PinState
  | free
  | openEntry
  | closed
deriving DecidableEq, Repr, Inhabited

/-- R179: owners of the memory port. -/
inductive PortOwner
  | free
  | controller
  | engine
deriving DecidableEq, Repr, Inhabited

/-- R179: the two clients of the engine port. -/
inductive Client
  | load
  | ring
deriving DecidableEq, Repr, Inhabited

/-- R44: classes of a directive queue entry. -/
inductive QClass
  | urgent
  | stage
  | service
deriving DecidableEq, Repr, Inhabited

/-- R166: the eight latched causes. -/
inductive Cause
  | cmdDone
  | recActive
  | recHalted
  | huntEnd
  | ringOverrun
  | issueIgnored
  | legFault
  | configDone
deriving DecidableEq, Repr, Inhabited

/-- R178: the part between the fall of RESETn and the end of the clearing, and in operation. -/
inductive ResetPhase
  | low
  | clearing
  | running
deriving DecidableEq, Repr, Inhabited

/-- R172: the classes of a region word. -/
inductive WordClass
  | plain
  | mirrored
  | action
  | live
  | liveRead
  | watched
deriving DecidableEq, Repr, Inhabited

/-- R162, R163: the results a SURVEY command that has been RUNNING can end with. -/
inductive SurveyEnd
  | ok
  | aborted
  | legFault
deriving DecidableEq, Repr, Inhabited

/-- R135: the outcomes of a leg's part of an all-legs SURVEY. -/
inductive PartEnd
  | notRun
  | dark
  | lit
  | blazing
  | legFault
deriving DecidableEq, Repr, Inhabited

end Sys2Proof
end

