-- ==== Sys2Proof/Config.lean ====
section
/-! DEFINITION. What the spec leaves open: free values, each an opaque constant without a body. The number each is applied
to comes from the counter Dev.seed of the state, or is the index of the byte concerned. -/

namespace Sys2Proof

/-- R178, R81: whether byte `i` of the word access cut by RESETn (controller write: byte lane i; ring entry write: byte i of the
entry, in the word being written) holds its new value. FREE VALUE, notes/assumptions/12.md. -/
opaque Config.cutKeepsNew : Nat → Nat → Bool

/-- R178, R181: how many word accesses of a ring entry burst cut by RESETn had completed. FREE VALUE,
notes/assumptions/12.md. -/
opaque Config.cutWords : Nat → Fin 8

/-- R132, R143: the result given to a one-leg SURVEY command that shared a survey of a hunt which is aborted.
FREE VALUE, notes/assumptions/13.md. -/
opaque Config.sharedSurveyResult : Nat → SurveyEnd

/-- R132, R143: the outcome given to the leg's part of an all-legs SURVEY that shared a survey of a hunt which is aborted.
FREE VALUE, notes/assumptions/13.md. -/
opaque Config.sharedSurveyPart : Nat → PartEnd

end Sys2Proof
end

