-- ==== Sys2Proof/Syntax.lean ====
section
/-! DEFINITION. The commands of the block: one constructor of Instr per row of spec/opcode_table.json, with the row's
operands. A leg is `Fin 4`, a record `Fin 256`, a command slot `Fin 16`. -/

namespace Sys2Proof

/-- R29: the upstream cycle and control slot in which a burst began, where it began in one. -/
structure Placement where
  cycle : BitVec 16
  slot  : Fin 8
deriving DecidableEq, Repr

/-- 13.1: the MIRRORED words, by the block that holds them. -/
inductive MirrorWord
  | config (i : Fin 60)                    -- configuration block word i
  | param (n : Fin 16) (i : Fin 12)        -- parameter word i of command slot n
  | enrolment (r : Fin 256) (i : Fin 6)    -- enrolment word i of record r
deriving DecidableEq, Repr

/-- What a controller read names: the level word of a record, the word of the row, or any other address (notes/assumptions/11.md). -/
inductive ReadAddr
  | level (r : Fin 256)
  | word (addr : BitVec 24)
deriving DecidableEq, Repr

/-- The commands and events of opcode_table.json. -/
inductive Instr
  | resetAsserted
  | resetReleased (straps : BitVec 4)
  | clearingEnd
  | fltAsserted (l : Fin 4)
  | fltDeasserted (l : Fin 4)
  | cycleStart
  | paceTimerExpiry (l : Fin 4)
  | replyBurst (l : Fin 4) (src : BitVec 12) (tag : BitVec 6) (code : ReplyCode) (data : List Byte) (level : Byte)
      (delay : Nat) (place : Option Placement)
  | decodedHail (l : Fin 4) (serial : BitVec 64) (kind count level : Byte) (received : BitVec 16)
  | garbledBurst (l : Fin 4) (place : Option Placement)
  | sendWindowEnd (l : Fin 4)
  | directiveFirstSend (l : Fin 4)
  | directiveRetry (l : Fin 4)
  | hailWindowOpen (l : Fin 4)
  | hailWindowEnd (l : Fin 4)
  | surveyWindowOpen (l : Fin 4)
  | surveyWindowEnd (l : Fin 4) (lit : Nat)
  | channelHandover (l : Fin 4)
  | huntEntersHunting (l : Fin 4)
  | waitingListAdmit (l : Fin 4)
  | pinWaitServe
  | engineBurstBegin
  | chunkFetchComplete
  | ringEntryWriteComplete
  | memoryAccessComplete
  | accessWithdrawn
  | passedWrite (addr : BitVec 24) (data : Word) (be : BitVec 4)
  | mirroredWrite (w : MirrorWord) (data : Word) (be : BitVec 4)
  | watchedWrite (i : Fin 8192) (data : Word) (be : BitVec 4)
  | levelRead (w : ReadAddr) (be : BitVec 4)
  | commit (data : Word) (be : BitVec 4)
  | clearWrite (data : Word) (be : BitVec 4)
  | tailWrite (data : Word) (be : BitVec 4)
  | go (n : Fin 16) (data : Word) (be : BitVec 4)
  | abort (n : Fin 16) (data : Word) (be : BitVec 4)
  | clear (n : Fin 16) (data : Word) (be : BitVec 4)
  | invalidIssueValue (n : Fin 16) (data : Word) (be : BitVec 4)
  | enrol
  | withdraw
  | continueRecord
  | peek
  | poke
  | call
  | groupOrEstateCall
  | evict
  | survey
  | allLegsSurvey
  | hunt
  | resume
  | badKind
  | strayHailFormatBurst (l : Fin 4) (serial : BitVec 64) (kind count level : Byte) (place : Option Placement)
deriving DecidableEq, Repr

end Sys2Proof
end

