-- ==== Sys2Proof/WellFormed.lean ====
section
/-! DEFINITION. Which commands can be sent at all: the bounds the spec puts on operands that the types do not. The machine
gives every command a meaning, well-formed or not; these checks say what a sender keeps to. -/

namespace Sys2Proof

/-- R29, R35: a reply carries 0..8 data bytes, none with another code than OK, and a level code of 1..255. -/
def replyWf (code : ReplyCode) (data : List Byte) (level : Byte) : Bool :=
  decide (data.length ≤ 8) && (decide (code = .ok) || data.isEmpty) && decide (level ≠ 0)

/-- R159, R168, R176, R183: an action write has at least one byte enabled. -/
def actionWf (be : BitVec 4) : Bool := decide (be ≠ 0)

/-- R159: the issue field is bits 0..7 of the merged value; where the write enables byte 0 its own byte is the field. -/
def issueWf (p : Nat → Bool) (data : Word) (be : BitVec 4) : Bool :=
  actionWf be && (!be.getLsbD 0 || p (data.toNat % 256))

/-- The operands of a command lie in the spec's ranges. -/
def Instr.wf : Instr → Bool
  | .resetAsserted => true
  | .resetReleased _ => true
  | .clearingEnd => true
  | .fltAsserted _ => true
  | .fltDeasserted _ => true
  | .cycleStart => true
  | .paceTimerExpiry _ => true
  | .replyBurst _ _ _ code data level _ _ => replyWf code data level
  | .decodedHail _ _ _ _ level _ => decide (level ≠ 0)
  | .garbledBurst _ _ => true
  | .sendWindowEnd _ => true
  | .directiveFirstSend _ => true
  | .directiveRetry _ => true
  | .hailWindowOpen _ => true
  | .hailWindowEnd _ => true
  | .surveyWindowOpen _ => true
  | .surveyWindowEnd _ lit => decide (lit ≤ 2048)
  | .channelHandover _ => true
  | .huntEntersHunting _ => true
  | .waitingListAdmit _ => true
  | .pinWaitServe => true
  | .engineBurstBegin => true
  | .chunkFetchComplete => true
  | .ringEntryWriteComplete => true
  | .memoryAccessComplete => true
  | .accessWithdrawn => true
  | .passedWrite _ _ _ => true
  | .mirroredWrite _ _ be => actionWf be
  | .watchedWrite _ _ be => actionWf be
  | .levelRead _ _ => true
  | .commit _ be => actionWf be
  | .clearWrite _ be => actionWf be
  | .tailWrite _ be => actionWf be
  | .go _ data be => issueWf (· == 1) data be
  | .abort _ data be => issueWf (· == 2) data be
  | .clear _ data be => issueWf (· == 3) data be
  | .invalidIssueValue _ data be => issueWf (fun v => v == 0 || decide (3 < v)) data be
  | .enrol => true
  | .withdraw => true
  | .continueRecord => true
  | .peek => true
  | .poke => true
  | .call => true
  | .groupOrEstateCall => true
  | .evict => true
  | .survey => true
  | .allLegsSurvey => true
  | .hunt => true
  | .resume => true
  | .badKind => true
  | .strayHailFormatBurst _ _ _ _ level _ => decide (level ≠ 0)

end Sys2Proof
end

