-- ==== Sys2Proof/Machine/State.lean ====
section
/-! DEFINITION. The state of the VZ-4T as plain data, and State.reset. Every piece of state the spec names has one home here
(INVENTORY.md, ## State). The blocks' state is `Dev`; the bus, the mirrors, the memory and the configuration stand beside it. -/

namespace Sys2Proof.Machine

/-! ## Directives (02_the_drop_protocol.md, 03_leg_controllers_and_the_directive_queue.md) -/

/-- R30: the target of a directive. -/
inductive Target
  | individual (a : BitVec 12)
  | group (a : BitVec 12)
  | estate
  | serial (x : BitVec 64)
deriving DecidableEq, Repr

/-- R33, R34, R35: the directive kinds with their bodies. A LOAD's data bytes are not in the queue entry (R103): it names the
store offset and count of the bytes its fetch will read. -/
inductive Body
  | probe
  | assign (addr group : BitVec 12) (groupRank legRank : Nat)
  | range
  | equalise (delay : Nat)
  | load (chunk dest : Nat) (mode : DestMode) (src len : Nat) (final : Bool)
  | grant (label : Nat) (slots : List Nat)
  | dismiss
  | mute
  | unmute
  | peek (off len : Nat)
  | poke (off : Nat) (data : List Byte)
  | call (body : List Byte)
  | level
deriving DecidableEq, Repr

/-- R31: a directive without its tag. -/
structure Directive where
  target : Target
  body   : Body
deriving DecidableEq, Repr

/-- R44, R140: where a directive comes from. -/
inductive Origin
  | record (r : Nat)
  | cmd (n : Nat)
  | level (r : Nat)
  | hunt (r : Nat)
deriving DecidableEq, Repr

/-- R44: an entry of the directive queue; the list's order is the join order. -/
structure Entry where
  dir    : Directive
  origin : Origin
deriving DecidableEq, Repr

/-- R48: a record on the waiting list with the directive it carries. -/
structure Waiter where
  r   : Nat
  dir : Directive
deriving DecidableEq, Repr

/-- R50, R51: where a directive that owns the channel stands. -/
inductive SendPhase
  /-- R111, R112: a LOAD whose chunk fetch has not completed. -/
  | fetching
  /-- R50: first sent in a cycle after `since`. -/
  | ready (since : BitVec 16)
  /-- R51: sent in cycle `c`, its window open. -/
  | listening (c : BitVec 16)
  /-- R51: the window of the send of cycle `c` ended in cycle `ended`; the next send is awaited. -/
  | spacing (c ended : BitVec 16)
deriving DecidableEq, Repr

/-- R53: what the leg controller keeps for a CALL to a group or the estate. -/
structure CallSets where
  expected    : List (BitVec 12)
  answered    : List (BitVec 12)
  okSeen      : Bool
  refusedSeen : Bool
  unsettled   : Bool
  others      : List (BitVec 12)
deriving DecidableEq, Repr

/-- R50 to R53, R116, R186: a directive that owns the channel. -/
structure InFlight where
  dir       : Directive
  origin    : Origin
  phase     : SendPhase
  reach     : Nat                    -- R186: the reach target kept from the hand-over
  tag       : Option (BitVec 6)      -- R31: taken at the first send
  sends     : Nat
  attempts  : Nat                    -- A
  spacing   : Nat                    -- S
  window    : Nat                    -- W
  unsettled : Bool                   -- R51: a CHECK or FULL answer was drawn
  call      : Option CallSets        -- R53: from the first send of a group or estate CALL
  disturbed : Bool                   -- R116
  data      : List Byte              -- R112: the bytes fetched for a LOAD
deriving DecidableEq, Repr

/-- R31: a directive as sent downstream. -/
structure Sent where
  cycle : BitVec 16
  tag   : BitVec 6
  dir   : Directive
  data  : List Byte
deriving DecidableEq, Repr

/-! ## Windows, surveys and the hunt (chapters 4 and 8) -/

/-- R69, R71: a hail window that owns the channel. -/
structure HailWindow where
  since  : BitVec 16                      -- the cycle of the hand-over
  reach  : Nat                            -- R186
  opened : Option (BitVec 16 × Nat)       -- w₁ and n, once open
  hails  : Bool                           -- a hail was decoded
  others : Bool                           -- a garbled or reply-format burst was heard
deriving DecidableEq, Repr

/-- R128: the requesters of a survey. -/
structure Requesters where
  auto  : Bool
  slots : List Nat
  hunt  : Bool
deriving DecidableEq, Repr

/-- R130: a survey window that has opened. -/
structure SurveyOpen where
  first     : BitVec 16
  length    : Nat
  threshold : Nat
deriving DecidableEq, Repr

/-- R128, R130: a survey window that owns the channel. -/
structure SurveyWindow where
  since  : BitVec 16
  reach  : Nat                            -- R186
  reqs   : Requesters
  opened : Option SurveyOpen
  lit    : Nat                            -- the running count of lit samples
deriving DecidableEq, Repr

/-- R42: the channel owner with its work. -/
inductive Chan
  | free
  | directive (x : InFlight)
  | hail (w : HailWindow)
  | survey (w : SurveyWindow)
deriving DecidableEq, Repr

/-- R136, R138, R146: the hunt context. -/
structure Hunt where
  phase       : HuntPhase
  owner       : Option Nat                -- the owning command slot
  cands       : List Nat                  -- the candidate list
  half        : List Nat                  -- the muted half H
  todo        : List Nat                  -- records of this pass still to be muted or unmuted
  newList     : List Nat                  -- the list judged at the survey's end
  final       : Bool                      -- R139: the final step is being made
  steps       : Nat                       -- survey steps, 0..255 saturating
  lastResult  : HuntResult
  lastCulprit : Option Nat
deriving DecidableEq, Repr

/-- R136, R146: no hunt. -/
def Hunt.idle : Hunt :=
  { phase := .idle, owner := none, cands := [], half := [], todo := [], newList := [], final := false, steps := 0,
    lastResult := .none, lastCulprit := none }

/-! ## The roster (chapter 1) -/

/-- R2: the enrolment copy. The profile is none when `noProfile`. -/
structure Enrolment where
  serial    : BitVec 64
  leg       : Fin 4
  addr      : BitVec 12
  group     : BitVec 12
  start     : Nat
  lenCode   : Nat
  dest      : Nat
  mode      : DestMode
  noProfile : Bool
  demand    : Nat
  hold      : HoldPoint
deriving DecidableEq, Repr

/-- R1, R19: the zero copy. -/
def Enrolment.zero : Enrolment :=
  { serial := 0, leg := 0, addr := 0, group := 0, start := 0, lenCode := 0, dest := 0, mode := .inc, noProfile := false,
    demand := 0, hold := .none }

/-- R89: the ranging context. -/
structure Ranging where
  limit : Nat
  sends : Nat
  ref   : Option (Nat × Byte)
deriving DecidableEq, Repr

/-- R2, R3, R4: a roster record. -/
structure Rec where
  enrol       : Enrolment
  state       : RecState
  stage       : Option RecState
  fault       : FaultCode
  addressed   : Bool
  assignSent  : Bool
  muted       : Bool
  waiting     : Bool
  pinWait     : Bool
  levelFresh  : Bool
  levelWanted : Bool
  hails       : Nat
  rehails     : Nat
  groupRank   : Option Nat
  legRank     : Nat
  measured    : Option Nat
  equalise    : Option Nat
  label       : Option Nat
  slotList    : List Nat
  freeCount   : Nat
  level       : Byte
  chunksAck   : Nat
  chunksTotal : Nat
  attempts    : Nat
  ranging     : Option Ranging            -- R89
  held        : Option Directive          -- R143: a stage directive held behind an UNMUTE
  pin         : Option Nat                -- R107: the pin-table entry used
deriving DecidableEq, Repr

/-- R3, R4: a VACANT record. -/
def Rec.vacant : Rec :=
  { enrol := .zero, state := .vacant, stage := none, fault := .none, addressed := false, assignSent := false, muted := false,
    waiting := false, pinWait := false, levelFresh := false, levelWanted := false, hails := 0, rehails := 0, groupRank := none,
    legRank := 0, measured := none, equalise := none, label := none, slotList := [], freeCount := 0, level := 0, chunksAck := 0,
    chunksTotal := 0, attempts := 0, ranging := none, held := none, pin := none }

/-! ## Legs (chapter 3) -/

/-- R27: a cycle marker. -/
structure Marker where
  cycle    : BitVec 16
  hailOpen : Bool
  quiet    : Bool
deriving DecidableEq, Repr

/-- R40: the quiet span of a send: its cycle, its window, and the reach target with which its last upstream cycle began (R28,
R186); none while that cycle has not begun. -/
structure QuietSpan where
  first  : BitVec 16
  window : Nat
  began  : Option Nat
deriving DecidableEq, Repr

/-- R41 to R63: one leg controller with its slot map and survey unit. -/
structure Leg where
  st         : LegState
  wasSusp    : Bool
  flt        : Bool
  chan       : Chan
  tagCtr     : BitVec 6
  queue      : List Entry
  waiting    : List Waiter
  pendSurvey : Option Requesters
  pendHail   : Bool
  mode       : HailMode
  timer      : Nat
  running    : Bool
  paced      : Bool                       -- the model's own: PACE_TIMER_EXPIRY has made this cycle start's decrease
  reload     : Nat
  lastWindow : WindowOutcome
  stray      : Nat
  lastSurvey : SurveyOut
  lastCount  : Nat
  hunt       : Hunt
  slotMap    : List (Nat × Nat)           -- R118: traffic slot and label; an unlisted slot is free
  marker     : Option Marker
  quiet      : Bool                       -- R57: the QUIET line
  quietTail  : List QuietSpan             -- R51: the spans that outlive their ANSWERED directive
  lastSent   : Option Sent
deriving DecidableEq, Repr

/-- R63: a leg after RESETn, with the level its FLT pin has. -/
def Leg.afterReset (flt : Bool) : Leg :=
  { st := .dark, wasSusp := false, flt := flt, chan := .free, tagCtr := 0, queue := [], waiting := [], pendSurvey := none,
    pendHail := false, mode := .off, timer := 0, running := false, paced := false, reload := 0, lastWindow := .none, stray := 0,
    lastSurvey := .none, lastCount := 0, hunt := .idle, slotMap := [], marker := none, quiet := false, quietTail := [],
    lastSent := none }

/-- The four legs. -/
structure Legs where
  l0 : Leg
  l1 : Leg
  l2 : Leg
  l3 : Leg
deriving DecidableEq, Repr

/-! ## Engines, command slots, ring (chapters 4, 6, 10, 11) -/

/-- R107: a pin-table entry. -/
structure Pin where
  st      : PinState
  start   : Nat
  lenCode : Nat
  users   : Nat
deriving DecidableEq, Repr

/-- R107: a FREE entry. -/
def Pin.free : Pin := { st := .free, start := 0, lenCode := 0, users := 0 }

/-- R111: a chunk fetch: its leg, the store offset and the count of the chunk's bytes. -/
structure Fetch where
  leg : Fin 4
  src : Nat
  len : Nat
deriving DecidableEq, Repr

/-- R179, R181, R114: the engine burst on the port; `discard` marks a fetch whose LOAD has ended. -/
inductive Burst
  | fetch (f : Fetch) (discard : Bool)
  | ring
deriving DecidableEq, Repr

/-- R73: a discovery ring entry. -/
structure RingEntry where
  serial : BitVec 64
  leg    : Fin 4
  disp   : Disposition
  kind   : Byte
  count  : Byte
  cycle  : BitVec 16
  level  : Byte
  rec_   : Option Nat
deriving DecidableEq, Repr

/-- R74, R75: the discovery ring's state. -/
structure Ring where
  head      : Nat
  tail      : Nat
  overrun   : Bool
  badTail   : Bool
  writeList : List RingEntry
deriving DecidableEq, Repr

/-- R81. -/
def Ring.afterReset : Ring := { head := 0, tail := 0, overrun := false, badTail := false, writeList := [] }

/-- R189: the detail of a result: data length, detail A and B, words 14 and 15. -/
structure Detail where
  len : Nat
  a   : Nat
  b   : Nat
  w14 : Word
  w15 : Word
deriving DecidableEq, Repr

/-- R158: zero detail. -/
def Detail.zero : Detail := { len := 0, a := 0, b := 0, w14 := 0, w15 := 0 }

/-- R158: a command slot. `parts` is empty but for an all-legs SURVEY (R135), where it holds each leg's part once ended. -/
structure Slot where
  st     : SlotState
  params : List Word
  result : ResultCode
  detail : Detail
  parts  : List (Option (SurveyOut × Nat))
deriving DecidableEq, Repr

/-- R158: an IDLE slot: captured command zero, result NONE, detail zero. -/
def Slot.idle : Slot :=
  { st := .idle, params := List.replicate 12 0, result := .none, detail := .zero, parts := [] }

/-- The state of the part's blocks other than the pass-through unit, the arbiter's port and the commit handler. The maps list
only what differs from a VACANT record, an IDLE slot and a FREE pin-table entry. -/
structure Dev where
  recs     : List (Nat × Rec)
  legs     : Legs
  slots    : List (Nat × Slot)
  intake   : List Nat                     -- R158
  causes   : BitVec 8                     -- R166
  pins     : List (Nat × Pin)             -- R107
  pinWait  : List Nat                     -- R109
  fetches  : List Fetch                   -- R111
  requests : List Client                  -- R179
  burst    : Option Burst                 -- R179
  ring     : Ring
  seed     : Nat                          -- the model's own: the next free value
deriving DecidableEq, Repr

/-- The blocks after RESETn; the arguments are the levels of the FLT pins and the free-value counter. -/
def Dev.afterReset (f0 f1 f2 f3 : Bool) (seed : Nat) : Dev :=
  { recs := [], legs := ⟨.afterReset f0, .afterReset f1, .afterReset f2, .afterReset f3⟩, slots := [], intake := [],
    causes := 0, pins := [], pinWait := [], fetches := [], requests := [], burst := none, ring := .afterReset, seed := seed }

/-! ## Configuration (chapter 12) -/

/-- R182: the thirteen applied fields of a leg. -/
structure LegConfig where
  enable     : Bool
  reach      : Nat
  replyWin   : Nat
  attempts   : Nat
  spacing    : Nat
  hailMode   : HailMode
  pace       : Nat
  hailLen    : Nat
  surveyLen  : Nat
  threshold  : Nat
  strayLimit : Nat
  autoHunt   : Bool
  minLevel   : Nat
deriving DecidableEq, Repr

/-- R182: a leg's applied fields after RESETn. -/
def LegConfig.zero : LegConfig :=
  { enable := false, reach := 0, replyWin := 0, attempts := 0, spacing := 0, hailMode := .off, pace := 0, hailLen := 0,
    surveyLen := 0, threshold := 0, strayLimit := 0, autoHunt := false, minLevel := 0 }

/-- R182: the applied configuration. -/
structure Applied where
  mask        : BitVec 9
  rehailLimit : Nat
  rangeTol    : Nat
  ringCap     : Nat
  leg0        : LegConfig
  leg1        : LegConfig
  leg2        : LegConfig
  leg3        : LegConfig
deriving DecidableEq, Repr

/-- R182: the applied configuration after RESETn. -/
def Applied.afterReset : Applied :=
  { mask := 0, rehailLimit := 0, rangeTol := 0, ringCap := 16, leg0 := .zero, leg1 := .zero, leg2 := .zero, leg3 := .zero }

/-- R185: the config status. -/
structure ConfigStatus where
  status : CommitStatus
  field  : Option Nat
  reason : Option CommitReason
  count  : BitVec 16
deriving DecidableEq, Repr

/-- R185. -/
def ConfigStatus.afterReset : ConfigStatus := { status := .none, field := none, reason := none, count := 0 }

/-- What a block reads of the rest of the part: the applied configuration and the cycle number. -/
structure Env where
  cfg   : Applied
  cycle : BitVec 16
deriving DecidableEq, Repr

/-! ## The bus (chapter 11) -/

/-- R171: a controller access. -/
structure Access where
  addr  : BitVec 24
  data  : Word
  be    : BitVec 4
  write : Bool
deriving DecidableEq, Repr

/-- R173, R178: a controller access that has been passed to memory, and the memory word it found there. -/
structure Passing where
  acc : Access
  old : Word
deriving DecidableEq, Repr

/-- R179, R173: the port and the controller's access. -/
structure Bus where
  port      : PortOwner
  passCount : Nat
  held      : Option Access
  passing   : Option Passing
  rdata     : Word
deriving DecidableEq, Repr

/-- R179: the port after clearing, no access presented. -/
def Bus.afterReset : Bus := { port := .free, passCount := 0, held := none, passing := none, rdata := 0 }

/-- The machine. -/
structure State where
  phase   : ResetPhase
  base    : BitVec 4
  cycle   : BitVec 16
  applied : Applied
  cstat   : ConfigStatus
  mirrors : List (Nat × Word)             -- R174: by word index (offset / 4); an unlisted mirror is 0
  mem     : List Host.Cell
  bus     : Bus
  dev     : Dev
  pending : List Instr                    -- the model's own: commands waiting, first in first out
deriving DecidableEq, Repr

/-- The machine right after reset: the clearing has just ended (R178), every block at the reset value its rule gives, memory
with nothing listed, straps and FLT pins 0 (notes/assumptions/2.md). -/
def State.reset : State :=
  { phase := .running, base := 0, cycle := 0, applied := .afterReset, cstat := .afterReset, mirrors := [], mem := [],
    bus := .afterReset, dev := .afterReset false false false false 0, pending := [] }

/-- Why the machine can stop with a fault. The spec gives no behaviour that stops the part, so no meaning raises it. -/
inductive Fault
  /-- Raised by nothing. SAFE: were it raised, a run would only end early. -/
  | stopped
deriving DecidableEq, Repr

/-- Why a command can be refused. -/
inductive Refusal
  /-- Raised by `exec` for a command that has no meaning yet. SAFE: a run only ends early. -/
  | notModelled (mnemonic : String)
deriving DecidableEq, Repr

end Sys2Proof.Machine
end

