-- ==== Sys2Proof/Machine/Layout.lean ====
section
/-! DEFINITION. The region map and the numeric codes of 13_region_map_and_record_layouts.md, and the constants of the drop
protocol. Offsets are byte offsets from the region base; a word's offset is a multiple of 4. -/

namespace Sys2Proof.Machine

/-! ## Constants -/

/-- R26: delay units in a cycle. -/
def unitsPerCycle : Nat := 31250

/-- R44: the capacity of a directive queue. -/
def queueCap : Nat := 12

/-- R107: pin-table entries. -/
def pinCount : Nat := 16

/-- R180: the pass count at which an engine burst goes first. -/
def passLimit : Nat := 8

/-- R130: samples of signal-detect in a cycle. -/
def samplesPerCycle : Nat := 256

/-- R28: the traffic slots. -/
def trafficSlots : List Nat := List.range' 8 40

/-- R28: how many whole downstream cycles the end of an upstream cycle lies after the downstream cycle that follows its own:
upstream cycle c ends in downstream cycle c + 1 + lag. -/
def lag (reach : Nat) : Nat := reach / unitsPerCycle

/-- Cycles from `a` to `b` on the wrapping cycle number (R26). -/
def cyclesFrom (a b : BitVec 16) : Nat := (b - a).toNat

/-! ## Bits and bytes (R188) -/

/-- Bits `lo` to `lo + n - 1` of a word, as a number. -/
def field (w : Word) (lo n : Nat) : Nat := w.toNat / 2 ^ lo % 2 ^ n

/-- Byte `k` of a word: bits 8k..8k+7. -/
def byteOf (w : Word) (k : Nat) : Byte := BitVec.ofNat 8 (field w (8 * k) 8)

/-- The word of four byte-sized numbers, byte 0 first. -/
def packBytes (b0 b1 b2 b3 : Nat) : Word :=
  BitVec.ofNat 32 (b0 % 256 + 256 * (b1 % 256) + 65536 * (b2 % 256) + 16777216 * (b3 % 256))

/-- The word of two 16-bit numbers, the low half first. -/
def packHalves (h0 h1 : Nat) : Word := BitVec.ofNat 32 (h0 % 65536 + 65536 * (h1 % 65536))

/-- 1 for true. -/
def bit (b : Bool) : Nat := if b then 1 else 0

/-- R174: a word whose enabled byte lanes come from `new` and the others from `old`. -/
def mergeBytes (be : BitVec 4) (new old : Word) : Word :=
  let pick k := if be.getLsbD k then (byteOf new k).toNat else (byteOf old k).toNat
  packBytes (pick 0) (pick 1) (pick 2) (pick 3)

/-- Bytes run from byte 0 of the lowest word upward (13, head of the chapter). -/
def bytesWord (bs : List Byte) : Word :=
  let b k := ((bs[k]?).getD 0).toNat
  packBytes (b 0) (b 1) (b 2) (b 3)

/-- The bytes of a list of words, lowest first. -/
def wordsBytes (ws : List Word) : List Byte := ws.flatMap fun w => [byteOf w 0, byteOf w 1, byteOf w 2, byteOf w 3]

end Sys2Proof.Machine

namespace Sys2Proof

/-! ## Codes (13.7) -/

def RecState.code : RecState → Nat
  | .vacant => 0
  | .expected => 1
  | .probing => 2
  | .assigning => 3
  | .ranging => 4
  | .equalising => 5
  | .loading => 6
  | .granting => 7
  | .active => 8
  | .held => 9
  | .halted => 10
  | .withdrawing => 11

/-- R6: the six stages. -/
def RecState.isStage : RecState → Bool
  | .probing | .assigning | .ranging | .equalising | .loading | .granting => true
  | .vacant | .expected | .active | .held | .halted | .withdrawing => false

/-- 13.2: the bit of each latched cause. -/
def Cause.index : Cause → Nat
  | .cmdDone => 0
  | .recActive => 1
  | .recHalted => 2
  | .huntEnd => 3
  | .ringOverrun => 4
  | .issueIgnored => 5
  | .legFault => 6
  | .configDone => 7

/-- A cause's bit as a byte. -/
def Cause.mask (c : Cause) : BitVec 8 := 1#8 <<< c.index

def FaultCode.code : FaultCode → Nat
  | .none => 0
  | .addressTaken => 1
  | .assignRefused => 2
  | .noAnswer => 3
  | .noEcho => 4
  | .unstable => 5
  | .tooFar => 6
  | .weakLight => 7
  | .equaliseRefused => 8
  | .profileRefused => 9
  | .sourceChanged => 10
  | .noSlots => 11
  | .grantRefused => 12
  | .flapping => 13
  | .legFault => 14
  | .rogue => 15

def HailMode.code : HailMode → Nat
  | .off => 0
  | .single => 1
  | .continuous => 2

def ResultCode.code : ResultCode → Nat
  | .none => 0
  | .ok => 1
  | .aborted => 2
  | .badKind => 3
  | .badField => 4
  | .wrongState => 5
  | .dupAddress => 6
  | .dupSerial => 7
  | .groupFull => 8
  | .legOff => 9
  | .legFault => 10
  | .legHunting => 11
  | .legBusy => 12
  | .addressOwned => 13
  | .refused => 14
  | .silent => 15
  | .unsettled => 16
  | .partialAnswer => 17

def LegState.code : LegState → Nat
  | .dark => 0
  | .running => 1
  | .suspended => 2
  | .hunting => 3
  | .faulted => 4

def WindowOutcome.code : WindowOutcome → Nat
  | .none => 0
  | .empty => 1
  | .hails => 2
  | .garbled => 3

def SurveyOut.code : SurveyOut → Nat
  | .none => 0
  | .dark => 1
  | .lit => 2
  | .blazing => 3
  | .notRun => 4
  | .legFault => 5

def HuntPhase.code : HuntPhase → Nat
  | .idle => 0
  | .starting => 1
  | .confirming => 2
  | .muting => 3
  | .surveying => 4
  | .unmuting => 5

def HuntResult.code : HuntResult → Nat
  | .none => 0
  | .found => 1
  | .noRogue => 2
  | .strayRogue => 3
  | .aborted => 4
  | .legFault => 5

def SlotState.code : SlotState → Nat
  | .idle => 0
  | .queued => 1
  | .running => 2
  | .done => 3

def CommitStatus.code : CommitStatus → Nat
  | .none => 0
  | .applied => 1
  | .rejected => 2

def CommitReason.code : CommitReason → Nat
  | .range => 1
  | .legOccupied => 2
  | .reachLocked => 3
  | .ringBusy => 4

def Disposition.code : Disposition → Nat
  | .stray => 1
  | .wrongLeg => 2
  | .halted => 3

end Sys2Proof

namespace Sys2Proof.Machine

/-- R42: the code of the channel owner. -/
def Chan.code : Chan → Nat
  | .free => 0
  | .directive _ => 1
  | .hail _ => 2
  | .survey _ => 3

/-! ## Region map (13.1) -/

def offConfig (f : Nat) : Nat := 4 * f
def offCommit : Nat := 0x00FC
def offSummary : Nat := 0x0100
def offClear : Nat := 0x0104
def offRingHead : Nat := 0x0108
def offRingStatus : Nat := 0x010C
def offTail : Nat := 0x0110
def offSlot (n : Nat) : Nat := 0x0400 + 64 * n
def offIssue (n : Nat) : Nat := offSlot n + 48
def offLeg (l : Nat) : Nat := 0x0800 + 256 * l
def offRecord (r : Nat) : Nat := 0x1000 + 64 * r
def offRing (i : Nat) : Nat := 0x5000 + 32 * i
def offStore : Nat := 0x8000

/-- R172, 13.1, 13.4: the class of the word at a region offset. -/
def classOf (off : Nat) : WordClass :=
  if off < 0x00F0 then .mirrored
  else if off < 0x00F8 then .live
  else if off < 0x00FC then .plain
  else if off < 0x0100 then .action
  else if off < 0x0104 then .live
  else if off < 0x0108 then .action
  else if off < 0x0110 then .live
  else if off < 0x0114 then .action
  else if off < 0x0400 then .plain
  else if off < 0x0800 then
    let i := (off - 0x0400) % 64 / 4
    if i < 12 then .mirrored else if i = 12 then .action else .live
  else if off < 0x0C00 then .live
  else if off < 0x1000 then .plain
  else if off < 0x5000 then
    let i := (off - 0x1000) % 64 / 4
    if i < 6 then .mirrored else if i < 8 then .plain else if i < 15 then .live else .liveRead
  else if off < 0x8000 then .plain
  else .watched

/-- R171: whether a 24-bit address lies in the region of base strap value `base`. -/
def inRegion (base : BitVec 4) (addr : BitVec 24) : Bool := decide (addr.toNat / 65536 = base.toNat)

/-- R171: the word offset of an address inside the region: its two lowest bits dropped. -/
def wordOffset (addr : BitVec 24) : Nat := addr.toNat % 65536 / 4 * 4

/-- R171: the address of a region offset. -/
def regionAddr (base : BitVec 4) (off : Nat) : BitVec 24 := BitVec.ofNat 24 (base.toNat * 65536 + off)

end Sys2Proof.Machine

namespace Sys2Proof

/-- R171: the address a read names, at the region base. -/
def ReadAddr.address (base : BitVec 4) : ReadAddr → BitVec 24
  | .level r => Machine.regionAddr base (Machine.offRecord r + 60)
  | .word addr => addr

/-- 13.1: the offset of a MIRRORED word named by its block. -/
def MirrorWord.offset : MirrorWord → Nat
  | .config i => Machine.offConfig i
  | .param n i => Machine.offSlot n + 4 * i.val
  | .enrolment r i => Machine.offRecord r + 4 * i.val

end Sys2Proof
end

