-- ==== Sys2Proof/Machine/Ops.lean ====
section
/-! DEFINITION. The named operations over the state's maps: sparse maps in canonical form, memory, mirrors, records, legs,
command slots and pin-table entries. -/

namespace Sys2Proof.Machine

/-! ## Sparse maps

A list of key and value pairs, keys strictly rising, no value equal to what an unlisted key reads as. -/

/-- The value at a key. -/
def Sparse.get {β : Type} (d : β) : List (Nat × β) → Nat → β
  | [], _ => d
  | (k, v) :: m, i => if i = k then v else Sparse.get d m i

/-- Store a value at a key, keeping the canonical form. -/
def Sparse.set {β : Type} [DecidableEq β] (d : β) : List (Nat × β) → Nat → β → List (Nat × β)
  | [], i, v => if v = d then [] else [(i, v)]
  | (k, w) :: m, i, v =>
    if i < k then (if v = d then (k, w) :: m else (i, v) :: (k, w) :: m)
    else if i = k then (if v = d then m else (i, v) :: m)
    else (k, w) :: Sparse.set d m i v

/-- The canonical form, keys from `lo` up. -/
def Sparse.wfFrom {β : Type} [DecidableEq β] (d : β) : Nat → List (Nat × β) → Bool
  | _, [] => true
  | lo, (k, v) :: m => decide (lo ≤ k) && decide (v ≠ d) && Sparse.wfFrom d (k + 1) m

/-- The canonical form. -/
def Sparse.wf {β : Type} [DecidableEq β] (d : β) (m : List (Nat × β)) : Bool := Sparse.wfFrom d 0 m

/-! ## Memory (R171, R173, R181) -/

/-- What a byte of memory that nothing has written reads as (DESIGN CHOICE, notes/assumptions/3.md). -/
def Memory.unwritten : Byte := 0

/-- The canonical form of a memory. -/
def Memory.wf (m : List Host.Cell) : Bool := Sparse.wf Memory.unwritten m

/-- One byte of memory. -/
def Memory.read (m : List Host.Cell) (a : Nat) : Byte := Sparse.get Memory.unwritten m a

/-- Write one byte of memory. -/
def Memory.write (m : List Host.Cell) (a : Nat) (b : Byte) : List Host.Cell := Sparse.set Memory.unwritten m a b

/-- Write a run of bytes from an address upward. -/
def Memory.writeList (m : List Host.Cell) (a : Nat) : List Byte → List Host.Cell
  | [] => m
  | b :: bs => Memory.writeList (Memory.write m a b) (a + 1) bs

/-- Read a run of `n` bytes from an address upward. -/
def Memory.readList (m : List Host.Cell) (a : Nat) : Nat → List Byte
  | 0 => []
  | n + 1 => Memory.read m a :: Memory.readList m (a + 1) n

/-- The word at a word-aligned address, byte 0 at the lowest address (notes/assumptions/1.md). -/
def Memory.readWord (m : List Host.Cell) (a : Nat) : Word :=
  packBytes (Memory.read m a).toNat (Memory.read m (a + 1)).toNat (Memory.read m (a + 2)).toNat (Memory.read m (a + 3)).toNat

/-- Write byte lane `k` of a word at the word-aligned address `a`, if the byte enables take it. -/
def Memory.writeLane (be : BitVec 4) (v : Word) (a : Nat) (m : List Host.Cell) (k : Nat) : List Host.Cell :=
  if be.getLsbD k then Memory.write m (a + k) (byteOf v k) else m

/-- R173, R174: the enabled bytes of a word go to memory. -/
def Memory.writeWord (m : List Host.Cell) (a : Nat) (be : BitVec 4) (v : Word) : List Host.Cell :=
  [0, 1, 2, 3].foldl (Memory.writeLane be v a) m

/-- The word-aligned memory address of an access (R171). -/
def Access.wordAddr (a : Access) : Nat := a.addr.toNat / 4 * 4

/-! ## Mirrors (R174) -/

/-- The mirror of the word at a region offset. -/
def Mirrors.word (ms : List (Nat × Word)) (off : Nat) : Word := Sparse.get 0 ms (off / 4)

/-- The mirror of the word at a region offset takes a value. -/
def Mirrors.put (ms : List (Nat × Word)) (off : Nat) (v : Word) : List (Nat × Word) := Sparse.set 0 ms (off / 4) v

/-! ## Legs -/

/-- Leg n's controller. -/
def Legs.get (x : Legs) : Fin 4 → Leg
  | 0 => x.l0
  | 1 => x.l1
  | 2 => x.l2
  | 3 => x.l3

/-- Replace leg n's controller. -/
def Legs.set (x : Legs) (l : Fin 4) (g : Leg) : Legs :=
  match l with
  | 0 => { x with l0 := g }
  | 1 => { x with l1 := g }
  | 2 => { x with l2 := g }
  | 3 => { x with l3 := g }

/-- The four leg numbers in order. -/
def allLegs : List (Fin 4) := [0, 1, 2, 3]

/-- The applied fields of leg n. -/
def Applied.leg (c : Applied) : Fin 4 → LegConfig
  | 0 => c.leg0
  | 1 => c.leg1
  | 2 => c.leg2
  | 3 => c.leg3

def Dev.leg (d : Dev) (l : Fin 4) : Leg := d.legs.get l
def Dev.putLeg (d : Dev) (l : Fin 4) (g : Leg) : Dev := { d with legs := d.legs.set l g }
def Dev.modLeg (d : Dev) (l : Fin 4) (f : Leg → Leg) : Dev := d.putLeg l (f (d.leg l))

/-! ## Records -/

/-- Record r of the roster (R1: each one always exists). -/
def Dev.record (d : Dev) (r : Nat) : Rec := Sparse.get Rec.vacant d.recs r
def Dev.putRec (d : Dev) (r : Nat) (x : Rec) : Dev := { d with recs := Sparse.set Rec.vacant d.recs r x }
def Dev.modRec (d : Dev) (r : Nat) (f : Rec → Rec) : Dev := d.putRec r (f (d.record r))

/-- The non-VACANT records in ascending order of index. -/
def Dev.enrolled (d : Dev) : List (Nat × Rec) := d.recs.filter fun p => decide (p.2.state ≠ .vacant)

/-- R1: the records "on a leg": the non-VACANT records whose enrolment copy names it, in ascending order of index. -/
def Dev.recordsOn (d : Dev) (l : Fin 4) : List (Nat × Rec) := d.enrolled.filter fun p => decide (p.2.enrol.leg = l)

/-! ## Command slots and pin-table entries -/

def Dev.slot (d : Dev) (n : Nat) : Slot := Sparse.get Slot.idle d.slots n
def Dev.putSlot (d : Dev) (n : Nat) (x : Slot) : Dev := { d with slots := Sparse.set Slot.idle d.slots n x }
def Dev.modSlot (d : Dev) (n : Nat) (f : Slot → Slot) : Dev := d.putSlot n (f (d.slot n))

def Dev.pin (d : Dev) (i : Nat) : Pin := Sparse.get Pin.free d.pins i
def Dev.putPin (d : Dev) (i : Nat) (p : Pin) : Dev := { d with pins := Sparse.set Pin.free d.pins i p }

/-! ## Lists -/

/-- The first element that satisfies `p`, and the list without it. -/
def takeFirst {α : Type} (p : α → Bool) : List α → Option (α × List α)
  | [] => none
  | x :: xs => if p x then some (x, xs) else (takeFirst p xs).map fun y => (y.1, x :: y.2)

/-- The last element that satisfies `p`, and the list without it. -/
def takeLast {α : Type} (p : α → Bool) (xs : List α) : Option (α × List α) :=
  (takeFirst p xs.reverse).map fun y => (y.1, y.2.reverse)

/-- The list without every occurrence of a value. -/
def without (xs : List Nat) (r : Nat) : List Nat := xs.filter fun x => decide (x ≠ r)

/-- R5: the lowest of 0..n-1 that is not in use. -/
def lowestFree (used : List Nat) (n : Nat) : Nat := ((List.range n).find? fun k => !used.contains k).getD 0

/-- Add one, saturating. -/
def satInc (x top : Nat) : Nat := if x < top then x + 1 else x

/-- What the blocks read of the rest of the part. -/
def State.env (s : State) : Env := { cfg := s.applied, cycle := s.cycle }

end Sys2Proof.Machine
end

