-- ==== Sys2Proof/Machine/Flags.lean ====
section
/-! DEFINITION. The attention causes and the ATTN level (R166 to R169), the ring's conditions (R74, R78), and the two flags of
the cycle markers (R27, R57). -/

namespace Sys2Proof.Machine

/-! ## Attention -/

/-- R166: the event of a cause sets it; a set cause stays set. -/
def Dev.latch (d : Dev) (c : Cause) : Dev := { d with causes := d.causes ||| c.mask }

/-- Whether a cause is set. -/
def Dev.isSet (d : Dev) (c : Cause) : Bool := d.causes.getLsbD c.index

/-! ## The ring's conditions -/

/-- R74: (head − tail) mod C. -/
def Ring.count (g : Ring) (cap : Nat) : Nat := (g.head + cap - g.tail) % cap

/-- R74, R78: full at C − 1, and while bad-tail is set. -/
def Ring.full (g : Ring) (cap : Nat) : Bool := g.badTail || decide (g.count cap = cap - 1)

/-- R74, R167: RING_PENDING. -/
def Ring.pendingNow (g : Ring) : Bool := decide (g.head ≠ g.tail) && !g.badTail

/-- R169: some latched cause that is set, or RING_PENDING while true, has its mask bit set. -/
def State.attnWanted (s : State) : Bool :=
  decide (s.dev.causes &&& s.applied.mask.setWidth 8 ≠ 0) || (s.dev.ring.pendingNow && s.applied.mask.getLsbD 8)

/-- R169: the ATTN pin; low while RESETn is low and during the clearing. -/
def State.attn (s : State) : Bool := decide (s.phase = .running) && s.attnWanted

/-- R178, R181: the wait line: an access is held, or has been passed and not completed. -/
def State.waitLine (s : State) : Bool := s.bus.held.isSome || decide (s.bus.port = .controller)

/-! ## Marker flags -/

/-- R40: the quiet directives. -/
def Body.quiet : Body → Bool
  | .probe => true
  | .assign _ _ _ _ => true
  | .range => true
  | .equalise _ => false
  | .load _ _ _ _ _ _ => false
  | .grant _ _ => false
  | .dismiss => false
  | .mute => false
  | .unmute => false
  | .peek _ _ => false
  | .poke _ _ => false
  | .call _ => false
  | .level => false

/-- R51: cycle e + S begins before the window has ended, e being the last cycle of the window: upstream cycle e ends one cycle and the
reach target after the start of downstream cycle e (R28). A cycle that begins just as the window ends does not begin before. -/
def InFlight.spacingShort (x : InFlight) : Bool := decide (x.spacing * unitsPerCycle < unitsPerCycle + x.reach)

/-- R51: whether a directive in its retry spacing is sent again in cycle `c`: in cycle e + S, or, where that begins before the
window has ended, in the first cycle that begins after the cycle in which it ended. -/
def InFlight.retryDue (x : InFlight) (c : BitVec 16) : Bool :=
  match x.phase with
  | .spacing sent ended =>
    decide (x.window + x.spacing ≤ cyclesFrom sent c) && !(x.spacingShort && decide (c = ended))
  | .fetching => false
  | .ready _ => false
  | .listening _ => false

/-- R43, R50: whether a directive that took the channel is first sent in cycle `c`: a cycle after the hand-over. -/
def InFlight.firstDue (x : InFlight) (c : BitVec 16) : Bool :=
  match x.phase with
  | .ready since => decide (c ≠ since)
  | .fetching => false
  | .listening _ => false
  | .spacing _ _ => false

/-- R40: cycle `c` is one of the cycles first..first + W of a quiet span. -/
def spanCovers (first : BitVec 16) (w : Nat) (c : BitVec 16) : Bool := decide (cyclesFrom first c ≤ w)

/-- R28, R186: by the start of downstream cycle `c` the span's last upstream cycle, first + W, has begun, the reach target after the
start of downstream cycle first + W. -/
def QuietSpan.lastBegun (p : QuietSpan) (reach : Nat) (c : BitVec 16) : Bool :=
  decide (p.window * unitsPerCycle + reach ≤ cyclesFrom p.first c * unitsPerCycle)

/-- R186: the reach target is used at the start of the last upstream cycle, and kept from then on (notes/assumptions/33.md). -/
def QuietSpan.noteReach (p : QuietSpan) (reach : Nat) (c : BitVec 16) : QuietSpan :=
  if p.began.isNone && p.lastBegun reach c then { p with began := some reach } else p

/-- R28, R40, R186: at the start of downstream cycle `c` the span still runs: it ends with upstream cycle first + W, one cycle
after that one began, or, not begun yet, will begin by the applied reach target. -/
def QuietSpan.runs (p : QuietSpan) (reach : Nat) (c : BitVec 16) : Bool :=
  decide (cyclesFrom p.first c * unitsPerCycle < (p.window + 1) * unitsPerCycle + p.began.getD reach)

/-- R40, R51: a quiet span of a directive that has ended runs on the leg in cycle `c`: bursts are decoded at any position. -/
def Leg.quietSpanRuns (g : Leg) (reach : Nat) (c : BitVec 16) : Bool := g.quietTail.any fun p => p.runs reach c

/-- R27, R40: the quiet flag a directive calls for in cycle `c`. -/
def InFlight.quietIn (x : InFlight) (c : BitVec 16) : Bool :=
  x.dir.body.quiet &&
    (match x.phase with
     | .listening sent => spanCovers sent x.window c
     | .ready _ => x.firstDue c
     | .spacing _ _ => x.retryDue c
     | .fetching => false)

/-- R69: cycle `c` is one of a hail window's cycles; a window not yet open opens in it. -/
def HailWindow.covers (w : HailWindow) (c : BitVec 16) : Bool :=
  match w.opened with
  | some (first, n) => decide (cyclesFrom first c < n)
  | none => decide (c ≠ w.since)

/-- R130: cycle `c` is one of a survey window's cycles; a window not yet open opens in it. -/
def SurveyWindow.covers (w : SurveyWindow) (c : BitVec 16) : Bool :=
  match w.opened with
  | some o => decide (cyclesFrom o.first c < o.length)
  | none => decide (c ≠ w.since)

/-- R27: the hail-open flag of the marker of cycle `c`. -/
def Leg.hailOpenIn (g : Leg) (c : BitVec 16) : Bool :=
  match g.chan with
  | .hail w => w.covers c
  | .free => false
  | .directive _ => false
  | .survey _ => false

/-- R27: the quiet flag of the marker of cycle `c`. -/
def Leg.quietIn (g : Leg) (c : BitVec 16) : Bool :=
  g.quietTail.any (fun p => spanCovers p.first p.window c) ||
    (match g.chan with
     | .hail w => w.covers c
     | .survey w => w.covers c
     | .directive x => x.quietIn c
     | .free => false)

/-- R40, R51, R186: the spans that outlive their directive at the start of cycle `c`, whatever the leg's state: those that still
run, with the reach target their last upstream cycle has begun with. -/
def Leg.ageSpans (g : Leg) (reach : Nat) (c : BitVec 16) : Leg :=
  { g with quietTail := (g.quietTail.map fun p => p.noteReach reach c).filter fun p => p.runs reach c }

/-- R26, R27, R57: the marker of cycle `c` and the QUIET line: none on a DARK leg, both flags clear on a FAULTED one. -/
def Leg.sendMarker (g : Leg) (c : BitVec 16) : Leg :=
  match g.st with
  | .dark => { g with marker := none, quiet := false }
  | .faulted => { g with marker := some ⟨c, false, false⟩, quiet := false }
  | .running | .suspended | .hunting =>
    { g with marker := some ⟨c, g.hailOpenIn c, g.quietIn c⟩, quiet := g.quietIn c }

/-- R27, R57: the marker of the current cycle carries the flags of the work that begins in it. -/
def Leg.markNow (g : Leg) (c : BitVec 16) : Leg :=
  { g with marker := some ⟨c, g.hailOpenIn c, g.quietIn c⟩, quiet := g.quietIn c }

end Sys2Proof.Machine
end

