-- ==== Sys2Proof/Machine/Operands.lean ====
section
/-! DEFINITION. The operands a block reads: the fields of a captured command (13.3), of a record's enrolment words (13.4) and
of the configuration block (13.2, R182), each from the bits its layout gives and no others (R188). -/

namespace Sys2Proof.Machine

/-! ## Captured commands (13.3) -/

/-- Parameter word i of a captured command. -/
def param (ps : List Word) (i : Nat) : Word := (ps[i]?).getD 0

/-- A numeric parameter is the whole word. -/
def paramNat (ps : List Word) (i : Nat) : Nat := (param ps i).toNat

/-- The kind: bits 0..7 of parameter word 0. -/
def kindOf (ps : List Word) : Nat := field (param ps 0) 0 8

/-- A parameter that names a leg, 0..3. -/
def paramLeg (ps : List Word) (i : Nat) : Option (Fin 4) :=
  if h : paramNat ps i < 4 then some ⟨paramNat ps i, h⟩ else none

/-- The bytes of parameter words i.. in order. -/
def paramBytes (ps : List Word) (i words : Nat) : List Byte := wordsBytes ((List.range words).map fun k => param ps (i + k))

/-- The twelve parameter words of slot n as the mirrors hold them (R160). -/
def captureParams (ms : List (Nat × Word)) (n : Nat) : List Word :=
  (List.range 12).map fun i => Mirrors.word ms (offSlot n + 4 * i)

/-- R30: the target a 12-bit drop address names, where a CALL may name it. -/
def callTarget (a : BitVec 12) : Target :=
  if a.toNat < 0xE00 then .individual a else if a.toNat < 0xEFF then .group a else .estate

/-- R148: a CALL's target parameter is in range: not 0x000, not in 0xF00..0xFFF, a 12-bit address. -/
def callTargetOk (v : Nat) : Bool := decide (1 ≤ v) && decide (v < 0xF00)

/-- The target parameter names a group or the estate. -/
def isGroupTarget (v : Nat) : Bool := decide (0xE00 ≤ v) && decide (v < 0xF00)

/-- The examination row that a captured command falls to (R161). -/
inductive ExamRow
  | enrol
  | withdraw
  | continueRecord
  | peek
  | poke
  | call
  | groupCall
  | evict
  | survey
  | allSurvey
  | hunt
  | resume
  | badKind
deriving DecidableEq, Repr

/-- R161, 13.3: the kind's row; a CALL by its target, a SURVEY by its leg. -/
def examRow (ps : List Word) : ExamRow :=
  match kindOf ps with
  | 1 => .enrol
  | 2 => .withdraw
  | 3 => .continueRecord
  | 4 => .peek
  | 5 => .poke
  | 6 => if isGroupTarget (paramNat ps 2) then .groupCall else .call
  | 7 => .evict
  | 8 => if paramNat ps 1 = 4 then .allSurvey else .survey
  | 9 => .hunt
  | 10 => .resume
  | _ => .badKind

/-! ## Enrolment words (13.4) -/

/-- An enrolment as its words give it, before any check. -/
structure EnrolFields where
  serial    : BitVec 64
  leg       : Nat
  hold      : Nat
  demand    : Nat
  addr      : BitVec 12
  group     : BitVec 12
  start     : Nat
  lenCode   : Nat
  noProfile : Bool
  dest      : Nat
  mode      : Nat
deriving DecidableEq, Repr

/-- The enrolment words of record r in the mirrors. -/
def enrolFields (ms : List (Nat × Word)) (r : Nat) : EnrolFields :=
  let w i := Mirrors.word ms (offRecord r + 4 * i)
  { serial := w 1 ++ w 0
    leg := field (w 2) 0 8
    hold := field (w 2) 8 8
    demand := field (w 2) 16 8
    addr := BitVec.ofNat 12 (field (w 3) 0 12)
    group := BitVec.ofNat 12 (field (w 3) 16 12)
    start := field (w 4) 0 16
    lenCode := field (w 4) 16 10
    noProfile := (w 4).getLsbD 31
    dest := field (w 5) 0 10
    mode := field (w 5) 16 8 }

/-- The hold point of a code. -/
def holdOf : Nat → HoldPoint
  | 1 => .addressed
  | 2 => .ranged
  | 3 => .loaded
  | _ => .none

/-- The destination mode of a code. -/
def modeOf : Nat → DestMode
  | 1 => .fixed
  | _ => .inc

/-- The bytes a profile's destination range takes: all of it in INC mode, one window in FIXED mode (R10). -/
def destSpan (f : EnrolFields) : Nat := if f.mode = 0 then f.lenCode + 1 else min (f.lenCode + 1) 16

/-- R10 check 2: the number of the first enrolment field that fails, in field order (13.3: serial 2 … hold point 11). -/
def enrolBadField (f : EnrolFields) : Option Nat :=
  if f.serial = 0 then some 2
  else if 3 < f.leg then some 3
  else if f.addr.toNat < 1 ∨ 0xDFF < f.addr.toNat then some 4
  else if f.group ≠ 0 ∧ (f.group.toNat < 0xE00 ∨ 0xEFE < f.group.toNat) then some 5
  else if ¬ f.noProfile ∧ 32767 < f.start then some 6
  else if ¬ f.noProfile ∧ 32768 < f.start + f.lenCode + 1 then some 7
  else if ¬ f.noProfile ∧ 1 < f.mode then some 9
  else if ¬ f.noProfile ∧ 1024 < f.dest + destSpan f then some 9
  else if 8 < f.demand then some 10
  else if 3 < f.hold then some 11
  else none

/-- R2: the enrolment copy of checked fields. -/
def EnrolFields.copy (f : EnrolFields) : Enrolment :=
  { serial := f.serial, leg := Fin.ofNat 4 f.leg, addr := f.addr, group := f.group, start := f.start, lenCode := f.lenCode,
    dest := f.dest, mode := modeOf f.mode, noProfile := f.noProfile, demand := f.demand, hold := holdOf f.hold }

/-! ## Configuration fields (R182) -/

/-- The mirror value of configuration field f: nine bits for the attention mask, else bits 0..15 (13.2). -/
def configValue (ms : List (Nat × Word)) (f : Nat) : Nat :=
  if f = 0 then field (Mirrors.word ms (offConfig f)) 0 9 else field (Mirrors.word ms (offConfig f)) 0 16

/-- R182: the field of leg L at position k. -/
def legField (l k : Nat) : Nat := 4 + 13 * l + k

/-- A value lies in lo..hi. -/
def within (lo hi v : Nat) : Bool := decide (lo ≤ v) && decide (v ≤ hi)

/-- R182: the range of the per-leg field at position k. -/
def legRangeOk (k v : Nat) : Bool :=
  match k with
  | 0 => within 0 1 v
  | 1 => within 1000 62500 v
  | 2 => within 1 8 v
  | 3 => within 1 15 v
  | 4 => within 2 250 v
  | 5 => within 0 2 v
  | 6 => within 16 4095 v
  | 7 => within 1 4 v
  | 8 => within 1 8 v
  | 9 => within 1 2047 v
  | 10 => within 0 255 v
  | 11 => within 0 1 v
  | _ => within 0 255 v

/-- R182: the range of field f. -/
def rangeOk (f v : Nat) : Bool :=
  match f with
  | 0 => true
  | 1 => within 1 15 v
  | 2 => within 0 255 v
  | 3 => within 16 384 v
  | _ => legRangeOk ((f - 4) % 13) v

/-- The hail mode of a code (13.7). -/
def hailModeOf : Nat → HailMode
  | 1 => .single
  | 2 => .continuous
  | _ => .off

/-- The applied fields of leg L as the mirrors hold them. -/
def readLegConfig (ms : List (Nat × Word)) (l : Nat) : LegConfig :=
  let v k := configValue ms (legField l k)
  { enable := v 0 = 1, reach := v 1, replyWin := v 2, attempts := v 3, spacing := v 4, hailMode := hailModeOf (v 5), pace := v 6,
    hailLen := v 7, surveyLen := v 8, threshold := v 9, strayLimit := v 10, autoHunt := v 11 = 1, minLevel := v 12 }

/-- R183: the configuration block as the mirrors hold it. -/
def readApplied (ms : List (Nat × Word)) : Applied :=
  { mask := BitVec.ofNat 9 (configValue ms 0), rehailLimit := configValue ms 1, rangeTol := configValue ms 2,
    ringCap := configValue ms 3, leg0 := readLegConfig ms 0, leg1 := readLegConfig ms 1, leg2 := readLegConfig ms 2,
    leg3 := readLegConfig ms 3 }

end Sys2Proof.Machine
end

