-- ==== Sys2Proof/Machine/Queue.lean ====
section
/-! DEFINITION. The directive queue and the waiting list (R44 to R49), a command slot's completion (R163), the engine request
list (R179) and the end of a directive in flight by abandonment (R52, R114). -/

namespace Sys2Proof.Machine

/-! ## Completion of a command slot -/

/-- R162, R163: the slot enters DONE with its result and detail, and CMD_DONE latches, in one event. -/
def Dev.complete (d : Dev) (n : Nat) (res : ResultCode) (x : Detail) : Dev :=
  (d.modSlot n fun s => { s with st := .done, result := res, detail := x, parts := [] }).latch .cmdDone

/-! ## Classes and entries -/

/-- R44: the class of a directive, fixed by what it is for. A MUTE is placed on the channel and never queued (R43). -/
def Body.cls : Body → QClass
  | .probe => .stage
  | .assign _ _ _ _ => .stage
  | .range => .stage
  | .equalise _ => .stage
  | .load _ _ _ _ _ _ => .stage
  | .grant _ _ => .stage
  | .dismiss => .urgent
  | .mute => .urgent
  | .unmute => .urgent
  | .peek _ _ => .service
  | .poke _ _ => .service
  | .call _ => .service
  | .level => .service

def Entry.cls (e : Entry) : QClass := e.dir.body.cls

/-- R44: the entries that count as a record's one entry: its own and level requests for it. -/
def Origin.ofRecord (o : Origin) (r : Nat) : Bool := decide (o = .record r) || decide (o = .level r)

/-- Record r has an entry in the queue. -/
def Leg.hasEntry (g : Leg) (r : Nat) : Bool := g.queue.any fun e => e.origin.ofRecord r

/-- Record r is on the waiting list. -/
def Leg.isWaiting (g : Leg) (r : Nat) : Bool := g.waiting.any fun w => decide (w.r = r)

/-- The directive in flight, if a directive owns the channel. -/
def Leg.inFlight (g : Leg) : Option InFlight :=
  match g.chan with
  | .directive x => some x
  | .free => none
  | .hail _ => none
  | .survey _ => none

/-- Record r has a directive in flight whose origin is the record or its level request. -/
def Leg.hasFlight (g : Leg) (r : Nat) : Bool :=
  match g.inFlight with
  | some x => x.origin.ofRecord r
  | none => false

/-- Record r has an entry, a waiting place or a directive in flight. -/
def Leg.busyWith (g : Leg) (r : Nat) : Bool := g.hasEntry r || g.isWaiting r || g.hasFlight r

/-- R45: the head of the queue and the queue without it: the oldest URGENT entry, else the oldest STAGE entry, else the oldest
SERVICE entry. -/
def takeHead (q : List Entry) : Option (Entry × List Entry) :=
  match takeFirst (fun e => decide (e.cls = .urgent)) q with
  | some y => some y
  | none =>
    match takeFirst (fun e => decide (e.cls = .stage)) q with
    | some y => some y
    | none => takeFirst (fun e => decide (e.cls = .service)) q

/-- R47: the entry an URGENT directive evicts and the queue without it: the newest SERVICE entry, else the newest STAGE entry. -/
def takeVictim (q : List Entry) : Option (Entry × List Entry) :=
  match takeLast (fun e => decide (e.cls = .service)) q with
  | some y => some y
  | none => takeLast (fun e => decide (e.cls = .stage)) q

/-! ## The waiting list -/

/-- R48: while the queue has room, the front of the waiting list joins it. The queue, the list, and the records admitted. -/
def admitList : List Entry → List Waiter → List Entry × List Waiter × List Nat
  | q, [] => (q, [], [])
  | q, w :: ws =>
    if q.length < queueCap then
      let y := admitList (q ++ [⟨w.dir, .record w.r⟩]) ws
      (y.1, y.2.1, w.r :: y.2.2)
    else (q, w :: ws, [])

/-- Clear the WAITING flag of a record. -/
def Dev.clearWaiting (d : Dev) (r : Nat) : Dev := d.modRec r fun x => { x with waiting := false }

/-- R48: the front of the waiting list of leg l takes every free place of its queue; WAITING clears. -/
def Dev.fillQueue (d : Dev) (l : Fin 4) : Dev :=
  let y := admitList (d.leg l).queue (d.leg l).waiting
  y.2.2.foldl Dev.clearWaiting (d.modLeg l fun g => { g with queue := y.1, waiting := y.2.1 })

/-- R46: record r joins the back of the waiting list with its directive, and WAITING is set. -/
def Dev.waitBack (d : Dev) (l : Fin 4) (r : Nat) (dir : Directive) : Dev :=
  (d.modLeg l fun g => { g with waiting := g.waiting ++ [⟨r, dir⟩] }).modRec r fun x => { x with waiting := true }

/-- R47: an evicted record joins the front of the waiting list. -/
def Dev.waitFront (d : Dev) (l : Fin 4) (r : Nat) (dir : Directive) : Dev :=
  (d.modLeg l fun g => { g with waiting := ⟨r, dir⟩ :: g.waiting }).modRec r fun x => { x with waiting := true }

/-! ## Offers (R46, R47) -/

/-- The queue of leg l has a free place. -/
def Leg.hasRoom (g : Leg) : Bool := decide (g.queue.length < queueCap)

/-- An entry joins the queue at the back. -/
def Dev.enqueue (d : Dev) (l : Fin 4) (dir : Directive) (o : Origin) : Dev :=
  d.modLeg l fun g => { g with queue := g.queue ++ [⟨dir, o⟩] }

/-- R46: a record's STAGE directive joins the queue, or its record the back of the waiting list. -/
def Dev.offerStage (d : Dev) (l : Fin 4) (r : Nat) (dir : Directive) : Dev :=
  if (d.leg l).hasRoom then d.enqueue l dir (.record r) else d.waitBack l r dir

/-- R47: what becomes of an evicted entry. -/
def Dev.evicted (d : Dev) (l : Fin 4) (e : Entry) : Dev :=
  match e.origin with
  | .cmd n => d.complete n .legBusy .zero
  | .level _ => d
  | .record r => d.waitFront l r e.dir
  | .hunt _ => d

/-- R46, R47: an URGENT directive joins the queue, in an evicted entry's place when the queue is full. `false` when all twelve
entries are URGENT: nothing is evicted and it has not joined. -/
def Dev.offerUrgent (d : Dev) (l : Fin 4) (dir : Directive) (o : Origin) : Dev × Bool :=
  if (d.leg l).hasRoom then (d.enqueue l dir o, true)
  else
    match takeVictim (d.leg l).queue with
    | some (e, q) => (((d.modLeg l fun g => { g with queue := q ++ [⟨dir, o⟩] }).evicted l e), true)
    | none => (d, false)

/-- R47: an URGENT directive of a record, which waits when all twelve entries are URGENT. -/
def Dev.offerUrgentRecord (d : Dev) (l : Fin 4) (r : Nat) (dir : Directive) : Dev :=
  let y := d.offerUrgent l dir (.record r)
  if y.2 then y.1 else d.waitBack l r dir

/-! ## Removal -/

/-- R12 step 1, R49: record r's entry leaves the queue, and the place it frees is filled (R48); or the record leaves the
waiting list and WAITING clears. -/
def Dev.unqueue (d : Dev) (l : Fin 4) (r : Nat) : Dev :=
  match takeFirst (fun e => e.origin.ofRecord r) (d.leg l).queue with
  | some (_, q) => (d.modLeg l fun g => { g with queue := q }).fillQueue l
  | none =>
    if (d.leg l).isWaiting r then
      (d.modLeg l fun g => { g with waiting := g.waiting.filter fun w => decide (w.r ≠ r) }).clearWaiting r
    else d

/-- R149, R164: a command's entry leaves the queue, and the place it frees is filled (R48). -/
def Dev.unqueueCmd (d : Dev) (l : Fin 4) (n : Nat) : Dev :=
  match takeFirst (fun e => decide (e.origin = .cmd n)) (d.leg l).queue with
  | some (_, q) => (d.modLeg l fun g => { g with queue := q }).fillQueue l
  | none => d

/-! ## Engine requests (R76, R111, R179) -/

/-- The load engine asks for one burst for the front of the fetch list, when it has none asked for or running. -/
def Dev.wantsLoad (d : Dev) : Bool :=
  !d.fetches.isEmpty && !d.requests.contains .load &&
    (match d.burst with
     | some (.fetch _ _) => false
     | some .ring => true
     | none => true)

/-- The discovery writer asks for one burst for the front of the write list, when it has none asked for or running. -/
def Dev.wantsRing (d : Dev) : Bool :=
  !d.ring.writeList.isEmpty && !d.requests.contains .ring &&
    (match d.burst with
     | some (.fetch _ _) => true
     | some .ring => false
     | none => true)

/-- R179: each client with work and no burst asked for joins the back of the request list. -/
def Dev.syncRequests (d : Dev) : Dev :=
  { d with
    requests := d.requests ++ (if d.wantsLoad then [.load] else []) ++ (if d.wantsRing then [.ring] else []) }

/-- R114: a fetch of leg l at the front of the list, whose burst has not begun, has its request withdrawn. -/
def Dev.withdrawLoad (d : Dev) (l : Fin 4) : Dev :=
  match d.fetches with
  | f :: _ => if f.leg = l then { d with requests := d.requests.filter fun c => decide (c ≠ Client.load) } else d
  | [] => d

/-- R114: a fetch burst of leg l that is running goes on with its bytes discarded; a request not yet begun is withdrawn. -/
def Dev.endFetch (d : Dev) (l : Fin 4) : Dev :=
  match d.burst with
  | some (.fetch f false) => if f.leg = l then { d with burst := some (.fetch f true) } else d
  | some (.fetch _ true) => d
  | some .ring => d.withdrawLoad l
  | none => d.withdrawLoad l

/-- R114: the fetch of leg l leaves the fetch list. -/
def Dev.forgetFetch (d : Dev) (l : Fin 4) : Dev := { d with fetches := d.fetches.filter fun f => decide (f.leg ≠ l) }

/-- R114: the fetch of leg l's LOAD is ended, and the next fetch is asked for. -/
def Dev.cancelFetch (d : Dev) (l : Fin 4) : Dev := ((d.endFetch l).forgetFetch l).syncRequests

/-! ## Abandonment (R52) -/

/-- R4, R52: an UNMUTE's outcome clears MUTED, whatever the outcome is. -/
def Dev.clearMuted (d : Dev) (r : Nat) : Dev := d.modRec r fun x => { x with muted := false }

/-- The effect of the end of a directive on MUTED: an UNMUTE clears it. -/
def Dev.unmuteEnded (d : Dev) (x : InFlight) : Dev :=
  match x.dir.body, x.origin with
  | .unmute, .record r => d.clearMuted r
  | .unmute, .hunt r => d.clearMuted r
  | _, _ => d

/-- R52: the directive in flight on leg l ends ABANDONED: no further send, its quiet span and the current tag end with it, the
channel is FREE, its fetch is ended (R114). Its origin is dealt with by the event that abandons it. -/
def Dev.abandon (d : Dev) (l : Fin 4) : Dev :=
  match (d.leg l).inFlight with
  | some x => ((d.modLeg l fun g => { g with chan := .free }).cancelFetch l).unmuteEnded x
  | none => d

end Sys2Proof.Machine
end

