-- ==== Sys2Proof/Machine/Stage.lean ====
section
/-! DEFINITION. The roster's work on a record (chapters 1, 5, 6, 7): forming a stage's directive, the pin table and pin-wait
list, the slot map, dropping stage resources, halting, holding, becoming VACANT, and entering a state. -/

namespace Sys2Proof.Machine

/-! ## Forming the directive of a stage (R82, R103, R122) -/

/-- R101: the number of chunks of a profile. -/
def Enrolment.chunks (x : Enrolment) : Nat := (x.lenCode + 16) / 16

/-- R101, R103: the LOAD of chunk k. -/
def Enrolment.loadBody (x : Enrolment) (k : Nat) : Body :=
  let final := decide (k + 1 = x.chunks)
  .load k (match x.mode with | .inc => x.dest + 16 * k | .fixed => x.dest) x.mode (x.start + 16 * k)
    (if final then x.lenCode + 1 - 16 * k else 16) final

/-- The directive a record's stage now needs, from its enrolment copy and live fields; none where the record is in no stage, or
in LOADING without a pin-table entry. The LOAD's chunk is the one after those acknowledged (R104). -/
def Rec.stageDirective (x : Rec) : Option Directive :=
  let here (b : Body) : Option Directive := some ⟨.individual x.enrol.addr, b⟩
  match x.state with
  | .probing => here .probe
  | .assigning =>
    some ⟨.serial x.enrol.serial, .assign x.enrol.addr x.enrol.group (x.groupRank.getD 0) x.legRank⟩
  | .ranging => here .range
  | .equalising => here (.equalise (x.equalise.getD 0))
  | .loading => if x.pin.isSome then here (x.enrol.loadBody x.chunksAck) else none
  | .granting => here (.grant (x.label.getD 0) x.slotList)
  | .vacant | .expected | .active | .held | .halted | .withdrawing => none

/-- R49, R82, R102: offer the directive record r's stage needs, unless an UNMUTE (or a LEVEL) of the record is outstanding: then it
is formed at that one's outcome. A hunt's own UNMUTE of the record in flight does not defer it (notes/assumptions/35.md).
That the next chunk at a LOAD's OK (R104) and a further RANGE (R91, R93) also wait for an UNMUTE that an abort has queued meanwhile is
the model's choice (notes/assumptions/38.md). -/
def Dev.offerWork (d : Dev) (r : Nat) : Dev :=
  let x := d.record r
  match x.stageDirective with
  | some dir => if (d.leg x.enrol.leg).busyWith r then d else d.offerStage x.enrol.leg r dir
  | none => d

/-! ## The pin table (R107 to R110) -/

/-- The lowest-numbered FREE entry. -/
def Dev.freePin (d : Dev) : Option Nat := (List.range pinCount).find? fun i => decide ((d.pin i).st = .free)

/-- R107: an entry holds the record's range. -/
def Pin.hasRange (p : Pin) (x : Enrolment) : Bool := decide (p.start = x.start) && decide (p.lenCode = x.lenCode)

/-- The OPEN entry of a range. -/
def Dev.openPin (d : Dev) (x : Enrolment) : Option Nat :=
  (List.range pinCount).find? fun i => decide ((d.pin i).st = .openEntry) && (d.pin i).hasRange x

/-- Record r becomes a user of entry i. -/
def Dev.joinPin (d : Dev) (i r : Nat) : Dev :=
  (d.putPin i { d.pin i with users := (d.pin i).users + 1 }).modRec r fun x => { x with pin := some i, pinWait := false }

/-- Entry i becomes OPEN with a range and no user yet. -/
def Dev.openFree (d : Dev) (i : Nat) (x : Enrolment) : Dev :=
  d.putPin i { st := .openEntry, start := x.start, lenCode := x.lenCode, users := 0 }

/-- R108: record r's pin request. -/
def Dev.pinRequest (d : Dev) (r : Nat) : Dev :=
  let x := (d.record r).enrol
  match d.openPin x with
  | some i => d.joinPin i r
  | none =>
    match d.freePin with
    | some i => (d.openFree i x).joinPin i r
    | none => ({ d with pinWait := d.pinWait ++ [r] }).modRec r fun y => { y with pinWait := true, pin := none }

/-- R109: serve the pin-wait list once: the front record takes FREE entry i, the waiters of its range join it, and each has its
LOAD for chunk 0 formed in the order served. -/
def Dev.servePin (d : Dev) (i r : Nat) (rest : List Nat) : Dev :=
  let x := (d.record r).enrol
  let same (q : Nat) : Bool :=
    decide ((d.record q).enrol.start = x.start) && decide ((d.record q).enrol.lenCode = x.lenCode)
  let served := r :: rest.filter same
  let d1 := ({ d with pinWait := rest.filter fun q => !same q }).openFree i x
  let d2 := served.foldl (fun y q => y.joinPin i q) d1
  served.foldl Dev.offerWork d2

/-- R109: serve the list while a FREE entry and a waiting record remain; `n` bounds the rounds. -/
def Dev.servePins (d : Dev) : Nat → Dev
  | 0 => d
  | n + 1 =>
    match d.pinWait, d.freePin with
    | r :: rest, some i => (d.servePin i r rest).servePins n
    | _ :: _, none => d
    | [], _ => d

/-- R109: serve the pin-wait list. -/
def Dev.servePinWait (d : Dev) : Dev := d.servePins d.pinWait.length

/-- R110: a use of entry i ends; at 0 users the entry becomes FREE and the pin-wait list is served. -/
def Dev.dropPinUse (d : Dev) (i : Nat) : Dev :=
  let p := d.pin i
  if p.users ≤ 1 then (d.putPin i .free).servePinWait else d.putPin i { p with users := p.users - 1 }

/-- R110: record r's pin-table use, or its place in the pin-wait list, is released. -/
def Dev.pinRelease (d : Dev) (r : Nat) : Dev :=
  let x := d.record r
  if x.pinWait then
    ({ d with pinWait := without d.pinWait r }).modRec r fun y => { y with pinWait := false }
  else
    match x.pin with
    | some i => (d.modRec r fun y => { y with pin := none }).dropPinUse i
    | none => d

/-! ## The slot map (R118 to R124) -/

/-- R118: the free traffic slots of a leg, lowest first. -/
def Leg.freeSlots (g : Leg) : List Nat := trafficSlots.filter fun s => decide (Sparse.get 0 g.slotMap s = 0)

/-- R124: every entry that holds the record's label is freed; its label and slot list become absent. -/
def Dev.slotRelease (d : Dev) (r : Nat) : Dev :=
  let x := d.record r
  match x.label with
  | some b =>
    (d.modLeg x.enrol.leg fun g => { g with slotMap := g.slotMap.filter fun p => decide (p.2 ≠ b) }).modRec r
      fun y => { y with label := none, slotList := [] }
  | none => d

/-! ## Dropping stage resources (R12) -/

/-- R12 step 2: record r's directive in flight, or its level request's, is abandoned. -/
def Dev.abandonOf (d : Dev) (l : Fin 4) (r : Nat) : Dev := if (d.leg l).hasFlight r then d.abandon l else d

/-- R12: the record's queue entry or waiting place, its directive in flight, its pin-table use and its slots, in that order; with
them the ranging context (R94, R100) and a directive held behind an UNMUTE. -/
def Dev.drop (d : Dev) (r : Nat) : Dev :=
  let l := (d.record r).enrol.leg
  let d1 := (d.unqueue l r).abandonOf l r
  let d2 := (d1.pinRelease r).slotRelease r
  d2.modRec r fun x => { x with ranging := none, held := none }

/-! ## Stopping a record -/

/-- R13: the record enters HALTED with a fault, its stage field as given. -/
def Dev.haltWith (d : Dev) (r : Nat) (f : FaultCode) (stage : Option RecState) : Dev :=
  ((d.drop r).modRec r fun x => { x with state := .halted, stage := stage, fault := f }).latch .recHalted

/-- R13: the record is stopped in the state it is in. -/
def Dev.halt (d : Dev) (r : Nat) (f : FaultCode) : Dev := d.haltWith r f (some (d.record r).state)

/-- R141: the culprit of a hunt: HALTED with ROGUE; one found HELD or HALTED keeps its stage field. -/
def Dev.haltRogue (d : Dev) (r : Nat) : Dev :=
  let x := d.record r
  d.haltWith r .rogue (match x.state with
    | .held => x.stage
    | .halted => x.stage
    | _ => some x.state)

/-- R19: the record becomes VACANT. -/
def Dev.vacate (d : Dev) (r : Nat) : Dev := (d.drop r).putRec r .vacant

/-- R8: the record is held after the stage `st`. -/
def Dev.hold (d : Dev) (r : Nat) (st : RecState) : Dev :=
  (d.drop r).modRec r fun x => { x with state := .held, stage := some st, fault := .none }

/-! ## Entering a state (R7, R9) -/

/-- R7: entering ACTIVE. -/
def Dev.enterActive (d : Dev) (r : Nat) : Dev :=
  (d.modRec r fun x => { x with state := .active, stage := none, fault := .none, ranging := none }).latch .recActive

/-- R119, R120: the request to the slot map: the lowest free slots under the label of the lowest, and the GRANT; or HALTED with
NO_SLOTS. -/
def Dev.allocate (d : Dev) (r : Nat) : Dev :=
  let x := d.record r
  let l := x.enrol.leg
  let free := (d.leg l).freeSlots
  if x.enrol.demand ≤ free.length then
    let taken := free.take x.enrol.demand
    let b := taken.headD 0
    let d1 := d.modLeg l fun g => { g with slotMap := taken.foldl (fun m s => Sparse.set 0 m s b) g.slotMap }
    (d1.modRec r fun y =>
      { y with label := some b, slotList := taken, freeCount := free.length - x.enrol.demand }).offerWork r
  else (d.modRec r fun y => { y with freeCount := free.length }).halt r .noSlots

/-- R9, R84, R89, R95, R102, R119: entering a stage. -/
def Dev.enterStage (e : Env) (d : Dev) (r : Nat) (st : RecState) : Dev :=
  let x := d.record r
  let c := e.cfg.leg x.enrol.leg
  let y : Rec := { x with state := st, stage := none, fault := .none, attempts := 0, ranging := none, held := none }
  match st with
  | .probing => (d.putRec r y).offerWork r
  | .assigning => (d.putRec r y).offerWork r
  | .ranging =>
    (d.putRec r { y with measured := none, equalise := none, ranging := some ⟨max 2 c.attempts, 0, none⟩ }).offerWork r
  | .equalising => (d.putRec r { y with equalise := some (c.reach - x.measured.getD 0) }).offerWork r
  | .loading =>
    ((d.putRec r { y with chunksAck := 0, chunksTotal := x.enrol.chunks }).pinRequest r).offerWork r
  | .granting => (d.putRec r y).allocate r
  | .vacant | .expected | .active | .held | .halted | .withdrawing => d

/-- R7: the state after EQUALISING, with its skips. -/
def Enrolment.afterEqualising (x : Enrolment) : RecState :=
  if !x.noProfile then .loading else if x.demand = 0 then .active else .granting

/-- R7: the state after LOADING, with its skip. -/
def Enrolment.afterLoading (x : Enrolment) : RecState := if x.demand = 0 then .active else .granting

/-- R7: the record enters its next state, ACTIVE or a stage. -/
def Dev.moveTo (e : Env) (d : Dev) (r : Nat) (st : RecState) : Dev :=
  if st = .active then d.enterActive r else d.enterStage e r st

end Sys2Proof.Machine
end

