-- ==== Sys2Proof/Machine/Hunt.lean ====
section
/-! DEFINITION. Surveys and the rogue hunt (08_survey_and_rogue_hunt.md): survey requests and their requesters, stray bursts,
the steps of a hunt, its end, and the offers of UNMUTEs (R60, R143). -/

namespace Sys2Proof.Machine

/-! ## Survey requests (R129) -/

/-- R128: no requester. -/
def Requesters.empty : Requesters := { auto := false, slots := [], hunt := false }

/-- R132: a request with no requester left is dropped. -/
def Requesters.isEmpty (q : Requesters) : Bool := !q.auto && q.slots.isEmpty && !q.hunt

/-- R128: two requests joined; each command slot at most once. -/
def Requesters.join (q p : Requesters) : Requesters :=
  { auto := q.auto || p.auto, slots := q.slots ++ p.slots.filter fun n => !q.slots.contains n, hunt := q.hunt || p.hunt }

/-- R129: a survey request becomes the pending survey, joins it, or waits behind an open window. -/
def Dev.requestSurvey (d : Dev) (l : Fin 4) (q : Requesters) : Dev :=
  d.modLeg l fun g =>
    { g with pendSurvey := some (match g.pendSurvey with
        | some p => p.join q
        | none => q) }

/-- R129: the request of the automatic mark, of a command slot, of the hunt. -/
def Requesters.ofAuto : Requesters := { Requesters.empty with auto := true }
def Requesters.ofSlot (n : Nat) : Requesters := { Requesters.empty with slots := [n] }
def Requesters.ofHunt : Requesters := { Requesters.empty with hunt := true }

/-! ## Stray bursts (R56) -/

/-- R56: a stray burst on leg l. -/
def Dev.strayBurst (e : Env) (d : Dev) (l : Fin 4) : Dev :=
  let g := d.leg l
  let n := satInc g.stray 255
  let limit := (e.cfg.leg l).strayLimit
  if limit ≠ 0 ∧ limit ≤ n ∧ (g.st = .running ∨ g.st = .suspended) then
    (d.modLeg l fun g => { g with stray := 0 }).requestSurvey l .ofAuto
  else d.modLeg l fun g => { g with stray := n }

/-! ## The results given to command requesters (R134, R135) -/

/-- R189: the detail of a one-leg SURVEY. -/
def Detail.survey (l : Nat) (o : SurveyOut) (c : Nat) : Detail :=
  { Detail.zero with a := l, b := o.code, w14 := BitVec.ofNat 32 c }

/-- The outcome and count of a part, NOT_RUN with 0 where it has not ended (R164). -/
def partOut (p : Option (SurveyOut × Nat)) : SurveyOut × Nat := p.getD (.notRun, 0)

/-- R189: the detail of an all-legs SURVEY. -/
def Detail.allLegs (ps : List (Option (SurveyOut × Nat))) : Detail :=
  let o k := (partOut ((ps[k]?).getD none)).1.code
  let c k := (partOut ((ps[k]?).getD none)).2
  { Detail.zero with a := o 0 + 16 * o 1, b := o 2 + 16 * o 3, w14 := packHalves (c 0) (c 1), w15 := packHalves (c 2) (c 3) }

/-- R135: the all-legs SURVEY of slot n completes with OK when the last leg's part has ended. -/
def Dev.settleParts (d : Dev) (n : Nat) (ps : List (Option (SurveyOut × Nat))) : Dev :=
  if ps.all Option.isSome then d.complete n .ok (.allLegs ps) else d.modSlot n fun s => { s with parts := ps }

/-- R134, R135: leg l's survey has ended for slot n: `part` is the outcome of an all-legs part, `res` and `det` the result of a
one-leg SURVEY. -/
def Dev.answerSlot (d : Dev) (l : Fin 4) (n : Nat) (res : ResultCode) (det : Detail) (part : SurveyOut × Nat) : Dev :=
  let s := d.slot n
  if s.parts.isEmpty then d.complete n res det else d.settleParts n (s.parts.set l.val (some part))

/-- R131, R134, R135: a window on leg l reached its end. -/
def Dev.answerEnd (d : Dev) (l : Fin 4) (o : SurveyOut) (c n : Nat) : Dev := d.answerSlot l n .ok (.survey l.val o c) (o, c)

/-- R132, R134, R135: FLT closed or dropped a survey on leg l. -/
def Dev.answerFault (d : Dev) (l : Fin 4) (n : Nat) : Dev :=
  d.answerSlot l n .legFault (.survey l.val .none 0) (.legFault, 0)

/-- The result code of a SURVEY's end. -/
def surveyEndCode : SurveyEnd → ResultCode
  | .ok => .ok
  | .aborted => .aborted
  | .legFault => .legFault

/-- The outcome of a part's end. -/
def partEndOut : PartEnd → SurveyOut
  | .notRun => .notRun
  | .dark => .dark
  | .lit => .lit
  | .blazing => .blazing
  | .legFault => .legFault

/-- R132, R143: a survey of an aborted hunt closed or was dropped under another requester. The spec gives no result: it is a
free value (notes/assumptions/13.md). -/
def Dev.answerShared (d : Dev) (l : Fin 4) (n : Nat) : Dev :=
  { d.answerSlot l n (surveyEndCode (Config.sharedSurveyResult d.seed)) (.survey l.val .none 0)
      (partEndOut (Config.sharedSurveyPart d.seed), 0) with
    seed := d.seed + 1 }

/-! ## Steps of a hunt (R136 to R140) -/

/-- R136: a hunt starts on leg l. The last result and culprit stand until it ends (R146). -/
def Dev.startHunt (d : Dev) (l : Fin 4) (owner : Option Nat) : Dev :=
  d.modLeg l fun g =>
    { g with hunt := { Hunt.idle with
        phase := .starting, owner := owner, lastResult := g.hunt.lastResult, lastCulprit := g.hunt.lastCulprit } }

/-- R136: a STARTING hunt whose channel is FREE takes the leg into HUNTING and requests its confirming survey; the pending hail
window is dropped (R68). -/
def Dev.enterHunting (d : Dev) (l : Fin 4) : Dev :=
  let g := d.leg l
  if g.hunt.phase = .starting ∧ g.chan = .free ∧ (g.st = .running ∨ g.st = .suspended) then
    (d.modLeg l fun g =>
      { g with st := .hunting, pendHail := false, hunt := { g.hunt with phase := .confirming } }).requestSurvey l .ofHunt
  else d

/-- R189: the detail of a HUNT. -/
def Detail.hunt (r : HuntResult) (steps : Nat) (culprit : Option Nat) : Detail :=
  { Detail.zero with a := r.code, b := steps, w14 := BitVec.ofNat 32 (culprit.getD 0xFFFF) }

/-- R141: the result of the owning command. -/
def huntCommandResult : HuntResult → ResultCode
  | .none => .none
  | .found => .ok
  | .noRogue => .ok
  | .strayRogue => .ok
  | .aborted => .aborted
  | .legFault => .legFault

/-- R41, R141: the leg state after a hunt that took the leg into HUNTING. A hunt ends with LEG_FAULT only once FLT has taken the
leg to FAULTED (R58, R144), where it stays. -/
def legAfterHunt (st : LegState) (r : HuntResult) : LegState :=
  if st = .hunting then (match r with
    | .strayRogue => .suspended
    | .none | .found | .noRogue | .aborted | .legFault => .running) else st

/-- R141, R146: the hunt context after the end of a hunt. -/
def Hunt.ended (h : Hunt) (r : HuntResult) (culprit : Option Nat) : Hunt :=
  { Hunt.idle with steps := h.steps, lastResult := r, lastCulprit := culprit }

/-- R141: the hunt on leg l ends with a result; for FOUND with a culprit. -/
def Dev.endHunt (d : Dev) (l : Fin 4) (r : HuntResult) (culprit : Option Nat) : Dev :=
  let h := (d.leg l).hunt
  let d1 := (d.modLeg l fun g =>
    { g with
      hunt := g.hunt.ended r culprit
      st := legAfterHunt g.st r
      pendHail := g.pendHail && decide (legAfterHunt g.st r = .running) }).latch .huntEnd
  let d2 := match culprit with
    | some c => d1.haltRogue c
    | none => d1
  match h.owner with
  | some n => d2.complete n (huntCommandResult r) (.hunt r h.steps culprit)
  | none => d2

/-- R138, R139: the next step on a list of at least one candidate: the final step on one, else the mutes of the first half. -/
def Hunt.nextStep (h : Hunt) (cands : List Nat) : Hunt :=
  match cands with
  | [c] => { h with phase := .muting, cands := [c], half := [], todo := [c], newList := [], final := true }
  | cs =>
    let half := cs.take ((cs.length + 1) / 2)
    { h with phase := .muting, cands := cs, half := half, todo := half, newList := [], final := false }

/-- R138: the bisection goes on with a list, or ends with STRAY_ROGUE when it is empty. -/
def Dev.bisect (d : Dev) (l : Fin 4) (cands : List Nat) : Dev :=
  match cands with
  | [] => d.endHunt l .strayRogue none
  | c :: cs => d.modLeg l fun g => { g with hunt := g.hunt.nextStep (c :: cs) }

/-- The channel of the leg is owned by a hunt directive. -/
def Leg.huntFlight (g : Leg) : Bool :=
  match g.inFlight with
  | some x => (match x.origin with
    | .hunt _ => true
    | .record _ | .cmd _ | .level _ => false)
  | none => false

/-- R138, R139: once every MUTE of the pass has its outcome the hunt surveys; once every UNMUTE has, the list becomes the new
one and the next step begins, or the final step ends with STRAY_ROGUE. -/
def Dev.huntProgress (d : Dev) (l : Fin 4) : Dev :=
  let g := d.leg l
  if g.hunt.todo = [] ∧ g.huntFlight = false then
    match g.hunt.phase with
    | .muting => (d.modLeg l fun g => { g with hunt := { g.hunt with phase := .surveying } }).requestSurvey l .ofHunt
    | .unmuting => if g.hunt.final then d.endHunt l .strayRogue none else d.bisect l g.hunt.newList
    | .idle | .starting | .confirming | .surveying => d
  else d

/-- R137: the candidates of leg l, in ascending order of index. -/
def Dev.candidates (d : Dev) (l : Fin 4) : List Nat :=
  ((d.recordsOn l).filter fun p =>
    p.2.addressed && decide (p.2.state ≠ .withdrawing) && !(decide (p.2.state = .halted) && decide (p.2.fault = .rogue))).map (·.1)

/-- R138: the list judged by a survey that is not the final step's. -/
def Hunt.judged (h : Hunt) (o : SurveyOut) : List Nat :=
  if o = .dark then h.half else h.cands.filter fun r => !h.half.contains r

/-- R137, R138, R139: the hunt acts on the result of its survey; the survey steps count increases. -/
def Dev.huntJudge (d : Dev) (l : Fin 4) (o : SurveyOut) : Dev :=
  let d1 := d.modLeg l fun g => { g with hunt := { g.hunt with steps := satInc g.hunt.steps 255 } }
  let h := (d1.leg l).hunt
  match h.phase with
  | .confirming => if o = .dark then d1.endHunt l .noRogue none else d1.bisect l (d1.candidates l)
  | .surveying =>
    if h.final then
      if o = .dark then
        match h.cands with
        | c :: _ => d1.endHunt l .found (some c)
        | [] => d1.endHunt l .strayRogue none
      else (d1.modLeg l fun g => { g with hunt := { g.hunt with phase := .unmuting, todo := g.hunt.cands } }).huntProgress l
    else
      (d1.modLeg l fun g =>
        { g with hunt := { g.hunt with phase := .unmuting, todo := g.hunt.half, newList := g.hunt.judged o } }).huntProgress l
  | .idle | .starting | .muting | .unmuting => d1

/-- R142: a withdrawn candidate leaves the candidate list and H; a hunt directive to it is abandoned and the hunt goes on. -/
def Dev.leaveHunt (d : Dev) (l : Fin 4) (r : Nat) : Dev :=
  if (d.leg l).hunt.cands.contains r then
    let d1 := d.modLeg l fun g =>
      { g with hunt := { g.hunt with
          cands := without g.hunt.cands r, half := without g.hunt.half r, todo := without g.hunt.todo r,
          newList := without g.hunt.newList r } }
    let d2 := match (d1.leg l).inFlight with
      | some x => if x.origin = Origin.hunt r then d1.abandon l else d1
      | none => d1
    d2.huntProgress l
  else d

/-! ## UNMUTEs owed (R60, R143) -/

/-- R60: the records of leg l owed an UNMUTE at the leg's recovery. -/
def Dev.mutedOn (d : Dev) (l : Fin 4) : List Nat :=
  ((d.recordsOn l).filter fun p => p.2.muted && !(decide (p.2.state = .halted) && decide (p.2.fault = .rogue))).map (·.1)

/-- R44: an UNMUTE of record r. -/
def Rec.unmute (x : Rec) : Directive := ⟨.individual x.enrol.addr, .unmute⟩

/-- R60: offer an UNMUTE for record r. -/
def Dev.offerUnmute (d : Dev) (l : Fin 4) (r : Nat) : Dev := d.offerUrgentRecord l r (d.record r).unmute

/-- Record r has an UNMUTE queued, waiting or in flight. -/
def Leg.hasUnmute (g : Leg) (r : Nat) : Bool :=
  g.queue.any (fun e => decide (e.origin = .record r) && decide (e.dir.body = .unmute)) ||
    g.waiting.any (fun w => decide (w.r = r) && decide (w.dir.body = .unmute)) ||
    (match g.inFlight with
     | some x => decide (x.origin = .record r) && decide (x.dir.body = .unmute)
     | none => false)

/-- R143: the UNMUTE of record r takes the place of the entry it holds in the queue: a STAGE directive is held with the record,
a LEVEL request is dropped; a waiting STAGE directive is held and the UNMUTE is offered. -/
def Dev.unmuteInPlace (d : Dev) (l : Fin 4) (r : Nat) : Dev :=
  let x := d.record r
  match takeFirst (fun e => e.origin.ofRecord r) (d.leg l).queue with
  | some (e, q) =>
    let d1 := d.modLeg l fun g => { g with queue := q ++ [⟨x.unmute, .record r⟩] }
    if e.cls = .stage then d1.modRec r fun y => { y with held := some e.dir } else d1
  | none =>
    match (d.leg l).waiting.find? (fun w => decide (w.r = r)) with
    | some w =>
      let d1 := (d.modLeg l fun g => { g with waiting := g.waiting.filter fun v => decide (v.r ≠ r) }).clearWaiting r
      (if w.dir.body.cls = .stage then d1.modRec r fun y => { y with held := some w.dir } else d1).offerUnmute l r
    | none => d.offerUnmute l r

/-- R157: a LEVEL of record r in flight is dropped when an UNMUTE is offered for the record at the end of an aborted hunt: it ends
ABANDONED (notes/assumptions/39.md). A STAGE directive of the record in flight goes on. -/
def Dev.dropLevelFlight (d : Dev) (l : Fin 4) (r : Nat) : Dev :=
  match (d.leg l).inFlight with
  | some x => if x.origin = .level r then d.abandon l else d
  | none => d

/-- R143, R157: one of the offers at the end of an aborted hunt. -/
def Dev.unmuteAfterAbort (l : Fin 4) (d : Dev) (r : Nat) : Dev :=
  if (d.record r).state = .withdrawing ∨ (d.leg l).hasUnmute r then d
  else (d.dropLevelFlight l r).unmuteInPlace l r

/-- R132, R143: the survey a hunt requested, pending or open on leg l, is dropped or closed; its other requesters are answered. -/
def Dev.dropHuntSurvey (d : Dev) (l : Fin 4) : Dev :=
  let g := d.leg l
  let d1 := match g.pendSurvey with
    | some q => if q.hunt then
        q.slots.foldl (fun y n => y.answerShared l n) (d.modLeg l fun g => { g with pendSurvey := none }) else d
    | none => d
  match g.chan with
  | .survey w => if w.reqs.hunt then
      w.reqs.slots.foldl (fun y n => y.answerShared l n) (d1.modLeg l fun g => { g with chan := .free }) else d1
  | .free => d1
  | .directive _ => d1
  | .hail _ => d1

/-- R143: the hunt of leg l is aborted: its directive is abandoned, its survey dropped, it ends with ABORTED, and the owed
UNMUTEs are offered in ascending order of record index. -/
def Dev.abortHunt (d : Dev) (l : Fin 4) : Dev :=
  let d1 := if (d.leg l).huntFlight then d.abandon l else d
  let d2 := (d1.dropHuntSurvey l).endHunt l .aborted none
  (d2.mutedOn l).foldl (Dev.unmuteAfterAbort l) d2

end Sys2Proof.Machine
end

