-- ==== Sys2Proof/Machine/Outcome.lean ====
section
/-! DEFINITION. The outcome of a directive and what it does (R52): the stage rules of chapters 5, 6 and 7, the results of
commands (chapter 9), the hunt's next step, and the level of the record that answered (R25). -/

namespace Sys2Proof.Machine

/-- R51: an outcome ANSWERED (with code OK or not, data, level code and, for RANGE, measured delay), SILENT or UNSETTLED. -/
inductive Ending
  | answered (ok : Bool) (data : List Byte) (level : Byte) (delay : Nat)
  | silent
  | unsettled
deriving DecidableEq, Repr

/-! ## Levels (R25) -/

/-- R25: a record's level code is updated, and LEVEL_FRESH set where the level was wanted. -/
def Rec.setLevel (x : Rec) (v : Byte) : Rec :=
  { x with level := v, levelFresh := x.levelFresh || x.levelWanted, levelWanted := false }

/-- The record of leg l that has a drop address is changed by `f`; none has it, nothing changes. -/
def Dev.modSource (d : Dev) (l : Fin 4) (src : BitVec 12) (f : Rec → Rec) : Dev :=
  match (d.recordsOn l).find? fun p => decide (p.2.enrol.addr = src) with
  | some p => d.modRec p.1 f
  | none => d

/-- R25, R54: a reply updates the level of the record of leg l whose drop address it carries. -/
def Dev.levelUpdate (d : Dev) (l : Fin 4) (src : BitVec 12) (v : Byte) : Dev := d.modSource l src fun x => x.setLevel v

/-- R25, R54, R157: a reply that leaves LEVEL_WANTED and LEVEL_FRESH as they are sets the level code alone. -/
def Dev.levelNote (d : Dev) (l : Fin 4) (src : BitVec 12) (v : Byte) : Dev := d.modSource l src fun x => { x with level := v }

/-! ## Stage outcomes -/

/-- R88: the ASSIGN was answered OK: ADDRESSED is set, and the record is held or ranged (R8). -/
def Dev.assigned (e : Env) (d : Dev) (r : Nat) : Dev :=
  let d1 := d.modRec r fun x => { x with addressed := true }
  if (d.record r).enrol.hold = .addressed then d1.hold r .assigning else d1.enterStage e r .ranging

/-- The absolute difference of two delays (R91). -/
def delayDiff (a b : Nat) : Nat := max a b - min a b

/-- R89, R91, R93: the stage continues with a further RANGE while sends are left, else the record halts with `f`. With an UNMUTE queued
beside the RANGE that ended, the further one is formed at the UNMUTE's outcome: the model's choice (notes/assumptions/38.md). -/
def Dev.rangeAgain (d : Dev) (r : Nat) (c : Ranging) (f : FaultCode) : Dev :=
  let d1 := d.modRec r fun x => { x with ranging := some c }
  if c.sends < c.limit then d1.offerWork r else d1.halt r f

/-- R92: ranging has agreed on a delay at a level. -/
def Dev.rangeAgreed (e : Env) (d : Dev) (r delay : Nat) (level : Byte) : Dev :=
  let x := d.record r
  let c := e.cfg.leg x.enrol.leg
  if c.reach < delay then d.halt r .tooFar
  else if level.toNat < c.minLevel then d.halt r .weakLight
  else (d.modRec r fun y => { y with measured := some delay, ranging := none }).enterStage e r .equalising

/-- R89: the ranging context; the one a record in RANGING has. -/
def Rec.rangingCtx (x : Rec) : Ranging := x.ranging.getD ⟨2, 0, none⟩

/-- R91: a RANGE was answered OK with an echo. -/
def Dev.echo (e : Env) (d : Dev) (r delay : Nat) (level : Byte) : Dev :=
  let c := (d.record r).rangingCtx
  let isRef : Ranging := { c with ref := some (delay, level) }
  match c.ref with
  | some (ref, _) =>
    if delayDiff delay ref ≤ e.cfg.rangeTol then d.rangeAgreed e r delay level else d.rangeAgain r isRef .unstable
  | none => d.rangeAgain r isRef .unstable

/-- R93: a RANGE ended SILENT or UNSETTLED. -/
def Dev.noEcho (d : Dev) (r : Nat) : Dev :=
  let c := (d.record r).rangingCtx
  d.rangeAgain r c (match c.ref with
    | some _ => .unstable
    | none => .noEcho)

/-- R98: the record completes EQUALISING. -/
def Dev.equalised (e : Env) (d : Dev) (r : Nat) : Dev :=
  let x := (d.record r).enrol
  if x.hold = .ranged ∨ (x.hold = .loaded ∧ x.noProfile) then d.hold r .equalising else d.moveTo e r x.afterEqualising

/-- R105: the record completes LOADING: its pin-table use is released first. -/
def Dev.loaded (e : Env) (d : Dev) (r : Nat) : Dev :=
  let x := (d.record r).enrol
  let d1 := d.pinRelease r
  if x.hold = .loaded then d1.hold r .loading else d1.moveTo e r x.afterLoading

/-- R104, R116: chunk k was answered OK. -/
def Dev.chunkOk (e : Env) (d : Dev) (r k : Nat) (final disturbed : Bool) : Dev :=
  let d1 := d.modRec r fun x => { x with chunksAck := k + 1 }
  if disturbed then d1.halt r .sourceChanged else if final then d1.loaded e r else d1.offerWork r

/-- R49, R82: at the outcome of an UNMUTE or a LEVEL, a stage directive held with the record is offered again, or the one its
stage now needs is formed and offered. -/
def Dev.offerOwed (d : Dev) (r : Nat) : Dev :=
  let x := d.record r
  match x.held with
  | some dir =>
    let d1 := d.modRec r fun y => { y with held := none }
    if (d1.leg x.enrol.leg).busyWith r then d1 else d1.offerStage x.enrol.leg r dir
  | none => d.offerWork r

/-- R83, R85, R88, R91, R93, R97, R104, R123, R18, R52: the outcome of a record's directive moves the record, which is still in
the stage that formed it. -/
def Dev.recordOutcome (e : Env) (d : Dev) (r : Nat) (x : InFlight) (o : Ending) : Dev :=
  match x.dir.body with
  | .probe =>
    (match o with
     | .silent => d.enterStage e r .assigning
     | .answered _ _ _ _ => d.halt r .addressTaken
     | .unsettled => d.halt r .addressTaken)
  | .assign _ _ _ _ =>
    (match o with
     | .answered true _ _ _ => d.assigned e r
     | .answered false _ _ _ => d.halt r .assignRefused
     | .silent => d.halt r .noAnswer
     | .unsettled => d.halt r .noAnswer)
  | .range =>
    (match o with
     | .answered true _ level delay => d.echo e r delay level
     | .answered false _ _ _ => d.halt r .noEcho
     | .silent => d.noEcho r
     | .unsettled => d.noEcho r)
  | .equalise _ =>
    (match o with
     | .answered true _ _ _ => d.equalised e r
     | .answered false _ _ _ => d.halt r .equaliseRefused
     | .silent => d.halt r .noAnswer
     | .unsettled => d.halt r .noAnswer)
  | .load k _ _ _ _ final =>
    (match o with
     | .answered true _ _ _ => d.chunkOk e r k final x.disturbed
     | .answered false _ _ _ => d.halt r (if x.disturbed then .sourceChanged else .profileRefused)
     | .silent => d.halt r (if x.disturbed then .sourceChanged else .noAnswer)
     | .unsettled => d.halt r (if x.disturbed then .sourceChanged else .noAnswer))
  | .grant _ _ =>
    (match o with
     | .answered true _ _ _ => d.enterActive r
     | .answered false _ _ _ => d.halt r .grantRefused
     | .silent => d.halt r .noAnswer
     | .unsettled => d.halt r .noAnswer)
  | .dismiss => d.vacate r
  | .unmute => (d.clearMuted r).offerOwed r
  | .mute => d
  | .peek _ _ => d
  | .poke _ _ => d
  | .call _ => d
  | .level => d

/-! ## Results of commands (chapter 9) -/

/-- R149, R189: the detail of a PEEK, POKE, EVICT or individual CALL. -/
def Detail.service (sends : Nat) (level : Byte) (data : List Byte) : Detail :=
  { len := data.length, a := sends, b := level.toNat, w14 := bytesWord (data.take 4), w15 := bytesWord (data.drop 4) }

/-- R154, R189: the detail of a group or estate CALL; all counts zero before its first send. -/
def Detail.groupCall (sends : Nat) (k : Option CallSets) : Detail :=
  match k with
  | some k =>
    { len := 0, a := sends, b := min k.others.length 255, w14 := packHalves k.expected.length k.answered.length,
      w15 := BitVec.ofNat 32 (bit k.okSeen + 2 * bit k.refusedSeen) }
  | none => { Detail.zero with a := sends }

/-- R30: the directive's target is a group or the estate. -/
def Target.isMany : Target → Bool
  | .individual _ => false
  | .group _ => true
  | .estate => true
  | .serial _ => false

/-- R149, R154: the detail of a directive that ended without a judged outcome. -/
def InFlight.cutDetail (x : InFlight) : Detail :=
  if x.dir.target.isMany then .groupCall x.sends x.call else .service x.sends 0 []

/-- R150, R152: the data bytes a result keeps: those of an OK answer to a PEEK or an individual CALL. -/
def Body.keepsData : Body → Bool
  | .peek _ _ => true
  | .call _ => true
  | .probe => false
  | .assign _ _ _ _ => false
  | .range => false
  | .equalise _ => false
  | .load _ _ _ _ _ _ => false
  | .grant _ _ => false
  | .dismiss => false
  | .mute => false
  | .unmute => false
  | .poke _ _ => false
  | .level => false

/-- R153: the result of a group or estate CALL from what was collected. -/
def CallSets.result (k : CallSets) : ResultCode :=
  if k.refusedSeen then .refused
  else if k.expected.all (fun a => k.answered.contains a) then .ok
  else if !k.answered.isEmpty then .partialAnswer
  else if k.unsettled then .unsettled
  else .silent

/-- R150, R151, R152, R155: the result of a directive with one target. -/
def Ending.result : Ending → ResultCode
  | .answered true _ _ _ => .ok
  | .answered false _ _ _ => .refused
  | .silent => .silent
  | .unsettled => .unsettled

/-- R150 to R155: the detail of a directive with one target. -/
def Ending.detail (o : Ending) (x : InFlight) : Detail :=
  match o with
  | .answered true data level _ => .service x.sends level (if x.dir.body.keepsData then data.take 8 else [])
  | .answered false _ level _ => .service x.sends level []
  | .silent => .service x.sends 0 []
  | .unsettled => .service x.sends 0 []

/-- R149, R153: the outcome of a command's directive completes its slot. -/
def Dev.commandOutcome (d : Dev) (n : Nat) (x : InFlight) (o : Ending) : Dev :=
  match x.call with
  | some k => d.complete n k.result (.groupCall x.sends (some k))
  | none => d.complete n o.result (o.detail x)

/-! ## Delivery (R51, R52) -/

/-- R52: an outcome is delivered to its origin. -/
def Dev.deliver (e : Env) (d : Dev) (l : Fin 4) (x : InFlight) (o : Ending) : Dev :=
  match x.origin with
  | .record r => d.recordOutcome e r x o
  | .level r => d.offerOwed r
  | .cmd n => d.commandOutcome n x o
  | .hunt _ => (d.unmuteEnded x).huntProgress l

/-- R51: the quiet span of the last send of a quiet directive that ends ANSWERED in cycle `now` runs to its end; its upstream cycles
up to now began by the reach target the directive kept (R186). -/
def InFlight.tailSpan (x : InFlight) (o : Ending) (now : BitVec 16) : List QuietSpan :=
  match o, x.phase with
  | .answered _ _ _ _, .listening c =>
    if x.dir.body.quiet then [(⟨c, x.window, none⟩ : QuietSpan).noteReach x.reach now] else []
  | _, _ => []

/-- R51, R42: the directive in flight on leg l ends with an outcome: the channel becomes FREE and the outcome is delivered. R83 lets
the roster's move and the hand-over of the channel come in either order; DESIGN CHOICE: the move is taken first, and the hand-over
is a later step (notes/assumptions/8.md). -/
def Dev.finish (e : Env) (d : Dev) (l : Fin 4) (x : InFlight) (o : Ending) : Dev :=
  (d.modLeg l fun g => { g with chan := .free, quietTail := g.quietTail ++ x.tailSpan o e.cycle }).deliver e l x o

end Sys2Proof.Machine
end

