-- ==== Sys2Proof/Machine/Channel.lean ====
section
/-! DEFINITION. The channel of a leg: hand-over (R43), sends and retries (R50, R51), the judgement of replies (R53, R54, R55)
and of the other bursts, hail and survey windows (R69, R71, R130, R131), the pace timer (R65) and the cycle (R26). -/

namespace Sys2Proof.Machine

/-! ## Hand-over (R43) -/

/-- R42, R43, R111: a directive takes the channel; a LOAD's fetch joins the fetch list. -/
def Dev.takeDirective (e : Env) (d : Dev) (l : Fin 4) (dir : Directive) (o : Origin) : Dev :=
  let x : InFlight :=
    { dir := dir, origin := o, phase := .ready e.cycle, reach := (e.cfg.leg l).reach, tag := none, sends := 0, attempts := 0,
      spacing := 0, window := 0, unsettled := false, call := none, disturbed := false, data := [] }
  match dir.body with
  | .load _ _ _ src len _ =>
    let d1 := d.modLeg l fun g => { g with chan := .directive { x with phase := .fetching } }
    ({ d1 with fetches := d1.fetches ++ [⟨l, src, len⟩] } : Dev).syncRequests
  | _ => d.modLeg l fun g => { g with chan := .directive x }

/-- R43, R138: the hunt's next step, when the leg is HUNTING and a record is still to be muted or unmuted. -/
def Leg.huntStep (g : Leg) : Option (Nat × Body × List Nat) :=
  match g.st, g.hunt.phase, g.hunt.todo with
  | .hunting, .muting, r :: rest => some (r, .mute, rest)
  | .hunting, .unmuting, r :: rest => some (r, .unmute, rest)
  | _, _, _ => none

/-- R43: the leg hands a FREE channel on. -/
def Leg.mayHandOver (g : Leg) : Bool :=
  decide (g.chan = .free) && (decide (g.st = .running) || decide (g.st = .suspended) || decide (g.st = .hunting))

/-- R43, R45, R48: the head of the queue takes the channel and leaves the queue; its place is filled. -/
def Dev.takeQueueHead (e : Env) (d : Dev) (l : Fin 4) : Dev :=
  match takeHead (d.leg l).queue with
  | some (x, q) => ((d.modLeg l fun g => { g with queue := q }).takeDirective e l x.dir x.origin).fillQueue l
  | none => d

/-- R43: the first ready claimant takes the FREE channel: the hunt's next step, a pending survey, a pending hail window, the
head of the queue. A STARTING hunt enters HUNTING before the hand-over is made (R136). -/
def Dev.handOver (e : Env) (d0 : Dev) (l : Fin 4) : Dev :=
  let d := d0.enterHunting l
  let g := d.leg l
  if g.mayHandOver then
    match g.huntStep with
    | some (r, b, rest) =>
      (d.modLeg l fun g => { g with hunt := { g.hunt with todo := rest } }).takeDirective e l
        ⟨.individual (d.record r).enrol.addr, b⟩ (.hunt r)
    | none =>
      match g.pendSurvey with
      | some q =>
        d.modLeg l fun g =>
          { g with
            pendSurvey := none
            chan := .survey { since := e.cycle, reach := (e.cfg.leg l).reach, reqs := q, opened := none, lit := 0 } }
      | none =>
        if g.pendHail && decide (g.st = .running) then
          d.modLeg l fun g =>
            { g with
              pendHail := false
              chan := .hail { since := e.cycle, reach := (e.cfg.leg l).reach, opened := none, hails := false, others := false } }
        else if g.st = .running ∨ g.st = .suspended then d.takeQueueHead e l else d
  else d

/-! ## Sends (R50, R51) -/

/-- R38: the highest rank that sets a group or estate call's window, over the non-VACANT records of the leg. -/
def Dev.callRanks (d : Dev) (l : Fin 4) : Target → List Nat
  | .group a => ((d.recordsOn l).filter fun p => decide (p.2.enrol.group = a)).filterMap fun p => p.2.groupRank
  | .estate => (d.recordsOn l).map fun p => p.2.legRank
  | .individual _ => []
  | .serial _ => []

/-- R38: P = ⌈(h + 1)/8⌉, 0 with no such record. -/
def rankCycles (rs : List Nat) : Nat :=
  match rs.max? with
  | some h => (h + 8) / 8
  | none => 0

/-- R50: the reply window W of a directive. -/
def Dev.replyWindow (e : Env) (d : Dev) (l : Fin 4) (dir : Directive) : Nat :=
  match dir.body with
  | .range => 3
  | _ => rankCycles (d.callRanks l dir.target) + (e.cfg.leg l).replyWin

/-- R53: the expected set of a group or estate call; none for a directive with one target. -/
def Dev.callSets (d : Dev) (l : Fin 4) (t : Target) : Option CallSets :=
  let sets (ps : List (Nat × Rec)) : CallSets :=
    { expected := (ps.filter fun p => p.2.addressed).map fun p => p.2.enrol.addr, answered := [], okSeen := false,
      refusedSeen := false, unsettled := false, others := [] }
  match t with
  | .group a => some (sets ((d.recordsOn l).filter fun p => decide (p.2.enrol.group = a)))
  | .estate => some (sets (d.recordsOn l))
  | .individual _ => none
  | .serial _ => none

/-- R50, R89: the attempts A of a directive: for a RANGE no more than the sends its stage has left. -/
def Dev.attemptsFor (e : Env) (d : Dev) (l : Fin 4) (dir : Directive) (o : Origin) : Nat :=
  match dir.body, o with
  | .range, .record r =>
    let c := (d.record r).rangingCtx
    min (e.cfg.leg l).attempts (c.limit - c.sends)
  | _, _ => (e.cfg.leg l).attempts

/-- R3, R50: the record whose attempts used counts a send. -/
def Origin.countedRecord : Origin → Option Nat
  | .record r => some r
  | .level r => some r
  | .hunt r => some r
  | .cmd _ => none

/-- R3, R89: a send adds one to the record's attempts used, and to the range sends when it is a RANGE. -/
def Rec.countSend (x : Rec) (b : Body) : Rec :=
  { x with
    attempts := satInc x.attempts 255
    ranging := if b = .range then x.ranging.map fun c => { c with sends := c.sends + 1 } else x.ranging }

/-- R87, R140: a first send sets ASSIGN_SENT for a record's ASSIGN and MUTED for a hunt's MUTE. -/
def Rec.markFirstSend (x : Rec) (b : Body) : Rec :=
  match b with
  | .assign _ _ _ _ => { x with assignSent := true }
  | .mute => { x with muted := true }
  | _ => x

/-- A send goes out in the current cycle with its tag: the directive, its body's fetched bytes, and its marker (R27, R40). -/
def Dev.sendNow (e : Env) (d : Dev) (l : Fin 4) (x : InFlight) (t : BitVec 6) : Dev :=
  d.modLeg l fun g =>
    ({ g with
        chan := .directive { x with phase := .listening e.cycle, tag := some t, sends := x.sends + 1 }
        lastSent := some ⟨e.cycle, t, x.dir, x.data⟩ } : Leg).markNow e.cycle

/-- R50: the first send of the directive that took the channel of leg l, in a cycle after the hand-over or its fetch. -/
def Dev.firstSend (e : Env) (d : Dev) (l : Fin 4) : Dev :=
  let g := d.leg l
  match g.inFlight with
  | some x =>
    if x.firstDue e.cycle then
      let y : InFlight :=
        { x with
          attempts := d.attemptsFor e l x.dir x.origin
          spacing := (e.cfg.leg l).spacing
          window := d.replyWindow e l x.dir
          call := d.callSets l x.dir.target }
      let d1 := (d.modLeg l fun g => { g with tagCtr := g.tagCtr + 1 }).sendNow e l y g.tagCtr
      match x.origin.countedRecord with
      | some r => d1.modRec r fun z => (z.countSend x.dir.body).markFirstSend x.dir.body
      | none => d1
    else d
  | none => d

/-- R51: the directive in its retry spacing on leg l is sent again with the same tag, body and target. -/
def Dev.retrySend (e : Env) (d : Dev) (l : Fin 4) : Dev :=
  match (d.leg l).inFlight with
  | some x =>
    if x.retryDue e.cycle then
      let d1 := d.sendNow e l x (x.tag.getD 0)
      match x.origin.countedRecord with
      | some r => d1.modRec r fun z => z.countSend x.dir.body
      | none => d1
    else d
  | none => d

/-- R28, R51: the upstream cycle c + W of the open send has ended by the current cycle. -/
def InFlight.windowOver (x : InFlight) (now : BitVec 16) : Bool :=
  match x.phase with
  | .listening c => decide (x.window + 1 + lag x.reach ≤ cyclesFrom c now)
  | .fetching => false
  | .ready _ => false
  | .spacing _ _ => false

/-- R53: what a group or estate call ends with when it is not sent again. -/
def CallSets.ending (k : CallSets) : Ending :=
  if !k.answered.isEmpty then .answered true [] 0 0 else if k.unsettled then .unsettled else .silent

/-- R53: every expected address is in the answered set. -/
def CallSets.complete (k : CallSets) : Bool := k.expected.all fun a => k.answered.contains a

/-- R51, R53: a send's reply window has ended without an answer that ended the directive. -/
def Dev.sendWindowEnd (e : Env) (d : Dev) (l : Fin 4) : Dev :=
  match (d.leg l).inFlight with
  | some x =>
    (match x.phase with
     | .listening c =>
       if x.windowOver e.cycle then
         let again := d.modLeg l fun g => { g with chan := .directive { x with phase := .spacing c e.cycle } }
         match x.call with
         | some k =>
           if k.complete then d.finish e l x (.answered true [] 0 0)
           else if x.sends < x.attempts then again
           else d.finish e l x k.ending
         | none =>
           if x.sends < x.attempts then again
           else d.finish e l x (if x.unsettled then .unsettled else .silent)
       else d
     | .fetching => d
     | .ready _ => d
     | .spacing _ _ => d)
  | none => d

/-! ## Bursts (R54, R55) -/

/-- R26, R41: a leg that decodes bursts at all. -/
def Leg.decodes (g : Leg) : Bool := decide (g.st = .running) || decide (g.st = .suspended) || decide (g.st = .hunting)

/-- R28, R51: a FREE channel's leg decodes a burst that began in a control slot, and any burst in the rest of a quiet span. -/
def Leg.decodesFree (g : Leg) (reach : Nat) (c : BitVec 16) (p : Option Placement) : Bool :=
  g.decodes && (p.isSome || g.quietSpanRuns reach c)

/-- R40, R51: a quiet span of an ended directive runs on leg l now. -/
def Dev.inQuietSpan (e : Env) (d : Dev) (l : Fin 4) : Bool := (d.leg l).quietSpanRuns (e.cfg.leg l).reach e.cycle

/-- R28, R40: while a hail window owns the channel, bursts are decoded once it is open, and before that in the rest of a quiet
span. -/
def Dev.hailHears (e : Env) (d : Dev) (l : Fin 4) (w : HailWindow) : Bool := w.opened.isSome || d.inQuietSpan e l

/-- R28: the placement lies in an upstream cycle c+1..c+W of the open send. -/
def InFlight.inWindow (x : InFlight) (p : Option Placement) : Bool :=
  match x.phase, p with
  | .listening c, some q => within 1 x.window (cyclesFrom c q.cycle)
  | _, _ => false

/-- The directive is sent and its window open. -/
def InFlight.isListening (x : InFlight) : Bool :=
  match x.phase with
  | .listening _ => true
  | .fetching => false
  | .ready _ => false
  | .spacing _ _ => false

/-- R28, R40: where a burst is decoded while a directive owns the channel: any position of a quiet span; otherwise the control
slots of the reply window. That a burst in control slots 1 to 7 of an individual directive's window is decoded at all is the model's
choice (notes/assumptions/37.md). -/
def InFlight.hears (x : InFlight) (p : Option Placement) : Bool :=
  if x.dir.body.quiet then x.isListening else x.inWindow p

/-- R36, R38: a reply is heard in control slot 0, or in all eight for a call to a group or the estate. -/
def InFlight.hearsReply (x : InFlight) (p : Option Placement) : Bool :=
  x.hears p &&
    (x.dir.body.quiet || x.dir.target.isMany ||
      (match p with
       | some q => decide (q.slot = 0)
       | none => false))

/-- R54: the sources that answer a directive with one target: the address, or any source for an ASSIGN. -/
def Target.answeredBy (t : Target) (src : BitVec 12) : Bool :=
  match t with
  | .individual a => decide (src = a)
  | .serial _ => true
  | .group _ => false
  | .estate => false

/-- R30: an individual address. -/
def isIndividual (a : BitVec 12) : Bool := decide (1 ≤ a.toNat) && decide (a.toNat ≤ 0xDFF)

/-- R150: an OK reply to a PEEK that carries another number of data bytes than requested does not end it. -/
def Body.okEnds (b : Body) (data : List Byte) : Bool :=
  match b with
  | .peek _ len => decide (data.length = len)
  | _ => true

/-- R51: whether an answer ends a directive with one target, and with which code. -/
def Body.endingCode (b : Body) (code : ReplyCode) (data : List Byte) : Option Bool :=
  match code with
  | .ok => if b.okEnds data then some true else none
  | .refused => some false
  | .check => none
  | .full => none

/-- R37: a measured delay beyond the counter's reach is taken as 65,535. -/
def clampDelay (v : Nat) : Nat := min v 65535

/-- R25: the answer comes from the record's drop address: an ASSIGN's counts only from the newly given one. -/
def InFlight.levelFrom (x : InFlight) (src : BitVec 12) : Bool :=
  match x.dir.body with
  | .assign a _ _ _ => decide (src = a)
  | _ => true

/-- R157: an answer with CHECK or FULL to a LEVEL leaves LEVEL_WANTED set, since the LEVEL may yet end UNSETTLED. -/
def InFlight.leavesWanted (x : InFlight) (code : ReplyCode) : Bool :=
  match x.dir.body, code with
  | .level, .check => true
  | .level, .full => true
  | _, _ => false

/-- R25: the level of the record an answer comes from; where LEVEL_WANTED stays, the level code alone is set
(notes/assumptions/36.md). -/
def Dev.answerLevel (d : Dev) (l : Fin 4) (x : InFlight) (src : BitVec 12) (code : ReplyCode) (v : Byte) : Dev :=
  if x.levelFrom src then (if x.leavesWanted code then d.levelNote l src v else d.levelUpdate l src v) else d

/-- R25, R51, R54, R157: an answer to the directive in flight. -/
def Dev.answer (e : Env) (d : Dev) (l : Fin 4) (x : InFlight) (src : BitVec 12) (code : ReplyCode) (data : List Byte)
    (level : Byte) (delay : Nat) : Dev :=
  let d1 := d.answerLevel l x src code level
  match x.dir.body.endingCode code data with
  | some ok => d1.finish e l x (.answered ok data level (clampDelay delay))
  | none => d1.modLeg l fun g => { g with chan := .directive { x with unsettled := true } }

/-- An address joins a set once. -/
def addOnce (xs : List (BitVec 12)) (a : BitVec 12) : List (BitVec 12) := if xs.contains a then xs else xs ++ [a]

/-- R53: an expected member's answer. -/
def CallSets.member (k : CallSets) (src : BitVec 12) (code : ReplyCode) : CallSets :=
  match code with
  | .ok => { k with answered := addOnce k.answered src, okSeen := true }
  | .refused => { k with answered := addOnce k.answered src, refusedSeen := true }
  | .check => { k with unsettled := true }
  | .full => { k with unsettled := true }

/-- R53, R54: a reply with the current tag to a group or estate call. -/
def Dev.callReply (e : Env) (d : Dev) (l : Fin 4) (x : InFlight) (k : CallSets) (src : BitVec 12) (code : ReplyCode)
    (level : Byte) : Dev :=
  let keep (k' : CallSets) : Dev :=
    (d.levelUpdate l src level).modLeg l fun g => { g with chan := .directive { x with call := some k' } }
  if k.expected.contains src then keep (k.member src code)
  else if isIndividual src then keep { k with others := addOnce k.others src }
  else d.strayBurst e l

/-- R54, R55, R70: a reply-format burst handed to the leg controller of leg l. -/
def Dev.reply (e : Env) (d : Dev) (l : Fin 4) (src : BitVec 12) (tag : BitVec 6) (code : ReplyCode) (data : List Byte)
    (level : Byte) (delay : Nat) (p : Option Placement) : Dev :=
  match (d.leg l).chan with
  | .free => d
  | .survey _ => d
  | .hail w =>
    if d.hailHears e l w then
      (d.modLeg l fun g => { g with chan := .hail { w with others := true } }).strayBurst e l
    else d
  | .directive x =>
    if !(x.hearsReply p || d.inQuietSpan e l) then d
    else if x.tag ≠ some tag then d
    else
      match x.call with
      | some k => d.callReply e l x k src code level
      | none => if x.dir.target.answeredBy src then d.answer e l x src code data level delay else d.strayBurst e l

/-- R55, R71: a garbled burst on leg l. -/
def Dev.garbled (e : Env) (d : Dev) (l : Fin 4) (p : Option Placement) : Dev :=
  let g := d.leg l
  match g.chan with
  | .free => if g.decodesFree (e.cfg.leg l).reach e.cycle p then d.strayBurst e l else d
  | .survey _ => d
  | .directive _ => d
  | .hail w => if d.hailHears e l w then d.modLeg l fun g => { g with chan := .hail { w with others := true } } else d

/-- R54, R55: a hail-format burst decoded outside a hail window is stray, also in control slots 1 to 7 of an individual directive's
reply window, where no reply is heard: the model's choice (notes/assumptions/37.md). -/
def Dev.strayHail (e : Env) (d : Dev) (l : Fin 4) (p : Option Placement) : Dev :=
  let g := d.leg l
  match g.chan with
  | .free => if g.decodesFree (e.cfg.leg l).reach e.cycle p then d.strayBurst e l else d
  | .directive x => if x.hears p || d.inQuietSpan e l then d.strayBurst e l else d
  | .survey _ => d
  | .hail _ => d

/-! ## Hail windows (R69, R71) -/

/-- R69: the hail window that took the channel of leg l opens in a cycle after the hand-over, reading its length. -/
def Dev.openHail (e : Env) (d : Dev) (l : Fin 4) : Dev :=
  match (d.leg l).chan with
  | .hail w =>
    if w.opened = none ∧ e.cycle ≠ w.since then
      d.modLeg l fun g =>
        ({ g with chan := .hail { w with opened := some (e.cycle, (e.cfg.leg l).hailLen) } } : Leg).markNow e.cycle
    else d
  | .free => d
  | .directive _ => d
  | .survey _ => d

/-- R71: the outcome of a window from what was heard in it. -/
def HailWindow.outcome (w : HailWindow) : WindowOutcome := if w.hails then .hails else if w.others then .garbled else .empty

/-- R69: the last upstream cycle of an open window has ended by the current cycle. -/
def HailWindow.over (w : HailWindow) (now : BitVec 16) : Bool :=
  match w.opened with
  | some (first, n) => decide (n + lag w.reach ≤ cyclesFrom first now)
  | none => false

/-- R69, R71: the end of the hail window of leg l. -/
def Dev.endHail (e : Env) (d : Dev) (l : Fin 4) : Dev :=
  match (d.leg l).chan with
  | .hail w => if w.over e.cycle then d.modLeg l fun g => { g with chan := .free, lastWindow := w.outcome } else d
  | .free => d
  | .directive _ => d
  | .survey _ => d

/-! ## Survey windows (R130, R131, R133) -/

/-- R130: the survey window that took the channel of leg l opens in a cycle after the hand-over. -/
def Dev.openSurvey (e : Env) (d : Dev) (l : Fin 4) : Dev :=
  match (d.leg l).chan with
  | .survey w =>
    if w.opened = none ∧ e.cycle ≠ w.since then
      d.modLeg l fun g =>
        ({ g with
            chan := .survey { w with opened := some ⟨e.cycle, (e.cfg.leg l).surveyLen, (e.cfg.leg l).threshold⟩ } } : Leg).markNow
          e.cycle
    else d
  | .free => d
  | .directive _ => d
  | .hail _ => d

/-- R130: the last upstream cycle of an open survey window has ended by the current cycle. -/
def SurveyWindow.over (w : SurveyWindow) (now : BitVec 16) : Bool :=
  match w.opened with
  | some o => decide (o.length + lag w.reach ≤ cyclesFrom o.first now)
  | none => false

/-- R131: the judgement of a count of lit samples. -/
def judgeSurvey (c n threshold : Nat) : SurveyOut :=
  if c = samplesPerCycle * n then .blazing else if threshold ≤ c then .lit else .dark

/-- R56, R131: the survey window ends: its result and count stand, and a DARK result zeroes the stray count. -/
def Leg.recordSurvey (g : Leg) (o : SurveyOut) (c : Nat) : Leg :=
  { g with chan := .free, lastSurvey := o, lastCount := c, stray := if o = .dark then 0 else g.stray }

/-- R131, R133: what a judged survey window does: the last result and count are set, a DARK result zeroes the stray count, each
requester is answered, the hunt acts, and an automatic survey may start a hunt. -/
def Dev.surveyDone (e : Env) (d : Dev) (l : Fin 4) (q : Requesters) (o : SurveyOut) (c : Nat) : Dev :=
  let d1 := d.modLeg l fun g => g.recordSurvey o c
  let d2 := q.slots.foldl (fun y n => y.answerEnd l o c n) d1
  if q.hunt then d2.huntJudge l o
  else
    let g := d2.leg l
    if q.auto ∧ o ≠ .dark ∧ (e.cfg.leg l).autoHunt ∧ (g.st = .running ∨ g.st = .suspended) ∧ g.hunt.phase = .idle then
      d2.startHunt l none
    else d2

/-- R130, R131: the survey window of leg l reaches its end, `lit` more samples having shown light. -/
def Dev.endSurvey (e : Env) (d : Dev) (l : Fin 4) (lit : Nat) : Dev :=
  match (d.leg l).chan with
  | .survey w =>
    (match w.opened with
     | some s =>
       if w.over e.cycle then
         let c := min (w.lit + lit) (samplesPerCycle * s.length)
         d.surveyDone e l w.reqs (judgeSurvey c s.length s.threshold) c
       else d
     | none => d)
  | .free => d
  | .directive _ => d
  | .hail _ => d

/-! ## The pace timer and the cycle (R26, R65, R68) -/

/-- R65, R68: the decrease that takes a running timer to 0, with its reload and its request in the one event. A running timer
whose mode is OFF, which no run reaches, stops. -/
def Leg.expire (g : Leg) : Leg :=
  let h : Leg := { g with timer := g.reload, pendHail := g.pendHail || decide (g.st = .running) }
  match g.mode with
  | .continuous => h
  | .single => { h with running := false, mode := .off }
  | .off => { g with timer := 0, running := false }

/-- R65: a running timer decreases by one. -/
def Leg.decrease (g : Leg) : Leg := if g.timer ≤ 1 then g.expire else { g with timer := g.timer - 1 }

/-- R65: the decrease at the start of a cycle, where PACE_TIMER_EXPIRY has not made it already (notes/assumptions/9.md). -/
def Leg.countDown (g : Leg) : Leg :=
  let h := if g.running ∧ g.paced = false then g.decrease else g
  { h with paced := false }

/-- R65: PACE_TIMER_EXPIRY: the leg's decrease of the cycle start now due, taken ahead of the rest of that start, where it takes
the timer to 0 (notes/assumptions/9.md). -/
def Leg.paceExpiry (g : Leg) : Leg :=
  if g.running ∧ g.paced = false ∧ g.timer ≤ 1 then { g.expire with paced := true } else g

/-- R26, R27, R65: leg l at the start of cycle c. -/
def Leg.startCycle (g : Leg) (reach : Nat) (c : BitVec 16) : Leg := (g.countDown.sendMarker c).ageSpans reach c

end Sys2Proof.Machine
end

