-- ==== Sys2Proof/Machine/Discovery.lean ====
section
/-! DEFINITION. The discovery writer (chapter 4) and what a hail does to a record (R20 to R23, R72): the ring's write list, its
bursts, the disposition of a hail. -/

namespace Sys2Proof.Machine

/-! ## The ring (R74 to R78) -/

/-- R75, R76, R78: an entry is lost: the overrun marker is set and RING_OVERRUN latches. -/
def Dev.loseEntry (d : Dev) : Dev := ({ d with ring := { d.ring with overrun := true } } : Dev).latch .ringOverrun

/-- R75: the ring has no room for an entry offered now. -/
def Ring.noRoom (g : Ring) (cap : Nat) : Bool := g.full cap || decide (cap - 1 ≤ g.count cap + g.writeList.length)

/-- R75: an entry offered joins the back of the write list, or is lost. -/
def Dev.offerRing (e : Env) (d : Dev) (x : RingEntry) : Dev :=
  if d.ring.noRoom e.cfg.ringCap then d.loseEntry
  else ({ d with ring := { d.ring with writeList := d.ring.writeList ++ [x] } } : Dev).syncRequests

/-- R77: the tail field of a tail write. -/
def Ring.takeTail (g : Ring) (cap v : Nat) : Ring :=
  if v < cap then { g with overrun := false, tail := v, badTail := false } else { g with overrun := false, badTail := true }

/-- R76: the entry's burst is complete: it leaves the write list and the head advances. -/
def Ring.advance (g : Ring) (cap : Nat) : Ring := { g with head := (g.head + 1) % cap, writeList := g.writeList.drop 1 }

/-- 13.5: the eight words of an entry. -/
def RingEntry.words (x : RingEntry) : List Word :=
  [x.serial.setWidth 32, (x.serial >>> 32).setWidth 32,
   packBytes x.leg.val x.disp.code x.kind.toNat x.count.toNat,
   BitVec.ofNat 32 (x.cycle.toNat + 65536 * x.level.toNat),
   (BitVec.ofNat 16 (x.rec_.getD 0xFFFF)).setWidth 32, 0, 0, 0]

/-- The 32 bytes of an entry. -/
def RingEntry.bytes (x : RingEntry) : List Byte := wordsBytes x.words

/-! ## Hails (R20 to R23, R70, R72) -/

/-- R22: a restart of record r. -/
def Dev.restart (e : Env) (d : Dev) (r : Nat) : Dev :=
  let x := d.record r
  let found := if x.state = .held then x.stage else some x.state
  let d1 := (d.drop r).modRec r fun y =>
    { y with
      addressed := false, assignSent := false, measured := none, equalise := none, label := none, slotList := [],
      chunksAck := 0, chunksTotal := 0, stage := none, rehails := y.rehails + 1 }
  if e.cfg.rehailLimit < (d1.record r).rehails then d1.haltWith r .flapping found else d1.enterStage e r .probing

/-- R20 to R23: a matched hail acts by the record's state; `lost` is the entry a HALTED or WITHDRAWING record calls for. -/
def Dev.matchedHail (e : Env) (d : Dev) (r : Nat) (entry : Disposition → Option Nat → RingEntry) : Dev :=
  let d1 := d.modRec r fun x => { x with hails := satInc x.hails 255 }
  let x := d1.record r
  match x.state with
  | .expected => d1.enterStage e r .probing
  | .probing | .assigning => d1
  | .ranging | .equalising | .loading | .granting | .active => d1.restart e r
  | .held => if x.addressed then d1.restart e r else d1
  | .halted => (d1.modRec r fun y => { y with addressed := false }).offerRing e (entry .halted (some r))
  | .withdrawing => (d1.vacate r).offerRing e (entry .stray none)
  | .vacant => d1

/-- R72: the disposition of a decoded hail on leg l. -/
def Dev.dispose (e : Env) (d : Dev) (l : Fin 4) (serial : BitVec 64) (kind count level : Byte) (received : BitVec 16) : Dev :=
  let entry (p : Disposition) (r : Option Nat) : RingEntry :=
    { serial := serial, leg := l, disp := p, kind := kind, count := count, cycle := received, level := level, rec_ := r }
  match d.enrolled.find? fun p => decide (p.2.enrol.serial = serial) with
  | some (r, x) => if x.enrol.leg = l then d.matchedHail e r entry else d.offerRing e (entry .wrongLeg (some r))
  | none => d.offerRing e (entry .stray none)

/-- R55, R70: a hail decoded while a hail window owns the channel of leg l. -/
def Dev.hailHeard (e : Env) (d : Dev) (l : Fin 4) (serial : BitVec 64) (kind count level : Byte) (received : BitVec 16) : Dev :=
  match (d.leg l).chan with
  | .hail w =>
    if d.hailHears e l w then
      (d.modLeg l fun g => { g with chan := .hail { w with hails := true } }).dispose e l serial kind count level received
    else d
  | .free => d
  | .directive _ => d
  | .survey _ => d

/-! ## The profile store (R115, R116) -/

/-- R115: the written bytes of a watched word touch an OPEN entry's range. `off` is the word's store offset. -/
def Pin.touched (p : Pin) (off : Nat) (be : BitVec 4) : Bool :=
  decide (p.st = .openEntry) &&
    [0, 1, 2, 3].any fun k => be.getLsbD k && decide (p.start ≤ off + k) && decide (off + k ≤ p.start + p.lenCode)

/-- R115: the entries a write disturbs. -/
def Dev.touchedPins (d : Dev) (off : Nat) (be : BitVec 4) : List Nat :=
  (List.range pinCount).filter fun i => (d.pin i).touched off be

/-- R107: the users of a pin-table entry, in ascending order of index. -/
def Dev.pinUsers (d : Dev) (i : Nat) : List Nat := (d.enrolled.filter fun p => decide (p.2.pin = some i)).map (·.1)

/-- Record r's LOAD owns the channel of leg l. -/
def Leg.loadFlight (g : Leg) (r : Nat) : Bool :=
  match g.inFlight with
  | some x => decide (x.origin = .record r) &&
    (match x.dir.body with
     | .load _ _ _ _ _ _ => true
     | _ => false)
  | none => false

/-- R116: the LOAD in flight is marked disturbed. -/
def Leg.markDisturbed (g : Leg) : Leg :=
  match g.chan with
  | .directive x => { g with chan := .directive { x with disturbed := true } }
  | .free => g
  | .hail _ => g
  | .survey _ => g

/-- R116: a user of a closed entry halts at once, or at the outcome of the LOAD that has taken the channel. -/
def Dev.disturbUser (d : Dev) (r : Nat) : Dev :=
  let l := (d.record r).enrol.leg
  if (d.leg l).loadFlight r then d.modLeg l Leg.markDisturbed else d.halt r .sourceChanged

/-- R115: an entry becomes CLOSED, keeping its range and users. -/
def Dev.closePin (d : Dev) (i : Nat) : Dev := d.putPin i { d.pin i with st := .closed }

/-- R115, R116: a watched write of the enabled bytes at a store offset is reported. -/
def Dev.watchedReport (d : Dev) (off : Nat) (be : BitVec 4) : Dev :=
  let is := d.touchedPins off be
  let users := is.flatMap d.pinUsers
  users.foldl Dev.disturbUser (is.foldl Dev.closePin d)

end Sys2Proof.Machine
end

