-- ==== Sys2Proof/Machine/Command.lean ====
section
/-! DEFINITION. Command intake (chapter 10) and the commands it examines: record commands (R10 to R17), service commands
(R148, R149, R155), surveys and hunts (R134 to R136), RESUME (R147), ABORT (R164). Each examination acts on the slot at the front
of the intake order (R161). -/

namespace Sys2Proof.Machine

/-! ## Examination (R161) -/

/-- R161: the slot at the front of the intake order is examined when its captured command falls to this row: it leaves the
intake order and `f` acts on its parameters. -/
def Dev.examine (d : Dev) (row : ExamRow) (f : Dev → Nat → List Word → Dev) : Dev :=
  match d.intake with
  | n :: rest =>
    let ps := (d.slot n).params
    if examRow ps = row then f { d with intake := rest } n ps else d
  | [] => d

/-- R162: the command is refused: DONE at once, nothing else changed. -/
def Dev.refuse (d : Dev) (n : Nat) (r : ResultCode) (x : Detail) : Dev := d.complete n r x

/-- R165, R189: BAD_FIELD with the number of the failing field. -/
def Dev.badField (d : Dev) (n f : Nat) : Dev := d.complete n .badField { Detail.zero with a := f }

/-- R161: the slot waits for its work. -/
def Dev.nowRunning (d : Dev) (n : Nat) : Dev := d.modSlot n fun s => { s with st := .running }

/-! ## Record commands (R10 to R17) -/

/-- R165, R189: the detail of a record command: the record's state and fault code after the examination. -/
def Dev.recordDetail (d : Dev) (r : Nat) : Detail :=
  let x := d.record r
  { Detail.zero with a := r, b := x.state.code, w14 := packBytes x.fault.code 0 0 0 }

/-- R165, R189: the detail of an ENROL with OK, with the ranks. -/
def Dev.enrolledDetail (d : Dev) (r : Nat) : Detail :=
  let x := d.record r
  { Detail.zero with a := r, b := x.state.code, w14 := packBytes x.fault.code x.legRank (x.groupRank.getD 0xFF) 0 }

/-- R1: the other non-VACANT records. -/
def Dev.others (d : Dev) (r : Nat) : List Rec := (d.enrolled.filter fun p => decide (p.1 ≠ r)).map (·.2)

/-- R5: the non-VACANT members of a group on a leg, other than record r. -/
def Dev.groupMembers (d : Dev) (r : Nat) (l : Fin 4) (group : BitVec 12) : List Rec :=
  (d.others r).filter fun x => decide (x.enrol.leg = l) && decide (x.enrol.group = group)

/-- R10 checks 3 to 6. -/
def Dev.enrolConflict (d : Dev) (r : Nat) (c : Enrolment) : Option ResultCode :=
  if (d.leg c.leg).st = .dark then some .legOff
  else if (d.others r).any (fun x => decide (x.enrol.leg = c.leg) && decide (x.enrol.addr = c.addr)) then some .dupAddress
  else if (d.others r).any (fun x => decide (x.enrol.serial = c.serial)) then some .dupSerial
  else if c.group ≠ 0 ∧ 64 ≤ (d.groupMembers r c.leg c.group).length then some .groupFull
  else none

/-- R5: the leg rank of a record enrolled now. -/
def Dev.newLegRank (d : Dev) (r : Nat) (c : Enrolment) : Nat :=
  lowestFree (((d.others r).filter fun x => decide (x.enrol.leg = c.leg)).map fun x => x.legRank) 256

/-- R5: the group rank of a record enrolled now; absent with no group. -/
def Dev.newGroupRank (d : Dev) (r : Nat) (c : Enrolment) : Option Nat :=
  if c.group = 0 then none else some (lowestFree ((d.groupMembers r c.leg c.group).filterMap fun x => x.groupRank) 64)

/-- R10, R11: an examined ENROL of record r with its enrolment words. -/
def Dev.enrolRecord (d : Dev) (n r : Nat) (f : EnrolFields) : Dev :=
  if (d.record r).state ≠ .vacant then d.refuse n .wrongState (d.recordDetail r)
  else
    match enrolBadField f with
    | some k => d.badField n k
    | none =>
      let c := f.copy
      match d.enrolConflict r c with
      | some code => d.refuse n code (d.recordDetail r)
      | none =>
        let d1 := d.putRec r { Rec.vacant with
          enrol := c, state := .expected, legRank := d.newLegRank r c, groupRank := d.newGroupRank r c }
        d1.complete n .ok (d1.enrolledDetail r)

/-- R1, R10: the record parameter of a record command. -/
def Dev.onRecord (d : Dev) (n : Nat) (ps : List Word) (f : Nat → Dev) : Dev :=
  if paramNat ps 1 < 256 then f (paramNat ps 1) else d.badField n 1

/-- R10, R11: examination of ENROL. -/
def Dev.examineEnrol (ms : List (Nat × Word)) (d : Dev) (n : Nat) (ps : List Word) : Dev :=
  d.onRecord n ps fun r => d.enrolRecord n r (enrolFields ms r)

/-- R17: the record's withdrawal begins: its DISMISS is queued at class URGENT; a hunt candidate leaves its hunt (R142). -/
def Dev.beginWithdrawal (d : Dev) (r : Nat) : Dev :=
  let x := (d.record r).enrol
  let d1 := (d.drop r).modRec r fun y => { y with state := .withdrawing, stage := none, fault := .none }
  (d1.offerUrgentRecord x.leg r ⟨.individual x.addr, .dismiss⟩).leaveHunt x.leg r

/-- R17: an examined WITHDRAW of record r. -/
def Dev.withdrawRecord (d : Dev) (n r : Nat) : Dev :=
  let x := d.record r
  if x.state = .vacant ∨ x.state = .withdrawing then d.refuse n .wrongState (d.recordDetail r)
  else
    let d1 :=
      if (d.leg x.enrol.leg).st ≠ .faulted ∧ (x.addressed ∨ x.assignSent) then d.beginWithdrawal r else d.vacate r
    d1.complete n .ok (d1.recordDetail r)

/-- R17: examination of WITHDRAW. -/
def Dev.examineWithdraw (d : Dev) (n : Nat) (ps : List Word) : Dev := d.onRecord n ps fun r => d.withdrawRecord n r

/-- R13, R14: the stage a CONTINUE of a HALTED record enters. -/
def Rec.continueTarget (x : Rec) : RecState :=
  if x.fault = .flapping then .probing
  else
    match x.stage with
    | some .probing => .probing
    | some .assigning => .assigning
    | some st => if x.addressed then st else .probing
    | none => .probing

/-- R15: the state a CONTINUE of a HELD record enters. -/
def Rec.heldTarget (x : Rec) : RecState :=
  match x.stage with
  | some .assigning => .ranging
  | some .equalising => x.enrol.afterEqualising
  | _ => x.enrol.afterLoading

/-- R14, R15: the record goes on. -/
def Dev.continueOn (e : Env) (d : Dev) (r : Nat) : Dev :=
  let x := d.record r
  if x.state = .halted then
    (d.modRec r fun y => { y with rehails := if x.fault = .flapping then 0 else y.rehails }).enterStage e r x.continueTarget
  else d.moveTo e r x.heldTarget

/-- R16: why a CONTINUE is refused. -/
def Dev.continueRefusal (d : Dev) (r : Nat) : Option ResultCode :=
  let x := d.record r
  if x.state ≠ .held ∧ x.state ≠ .halted then some .wrongState
  else if x.state = .halted ∧ x.fault = .rogue then some .wrongState
  else if (d.leg x.enrol.leg).st = .faulted then some .legFault
  else none

/-- R14, R15, R16: an examined CONTINUE of record r. -/
def Dev.continueRecord (e : Env) (d : Dev) (n r : Nat) : Dev :=
  match d.continueRefusal r with
  | some code => d.refuse n code (d.recordDetail r)
  | none =>
    let d1 := d.continueOn e r
    d1.complete n .ok (d1.recordDetail r)

/-- R14 to R16: examination of CONTINUE. -/
def Dev.examineContinue (e : Env) (d : Dev) (n : Nat) (ps : List Word) : Dev := d.onRecord n ps fun r => d.continueRecord e n r

/-! ## Service commands (R148, R149, R155) -/

/-- R136, R148: the leg is HUNTING, or its hunt is STARTING. -/
def Leg.huntBusy (g : Leg) : Bool := decide (g.st = .hunting) || decide (g.hunt.phase = .starting)

/-- R148 checks 3 to 5, R134, R136: the refusal of a command on a leg. -/
def Leg.refusal (g : Leg) : Option ResultCode :=
  if g.st = .dark then some .legOff
  else if g.st = .faulted then some .legFault
  else if g.huntBusy then some .legHunting
  else none

/-- R46, R148: a command's SERVICE directive joins the queue and the slot runs, or the command completes with LEG_BUSY. -/
def Dev.offerService (d : Dev) (l : Fin 4) (n : Nat) (dir : Directive) : Dev :=
  if (d.leg l).hasRoom then (d.enqueue l dir (.cmd n)).nowRunning n else d.refuse n .legBusy .zero

/-- R148: PEEK and POKE after their range check: WRONG_STATE, the leg's refusals, the address held, the offer. -/
def Dev.offerToRecord (d : Dev) (n r : Nat) (b : Body) : Dev :=
  let x := d.record r
  if x.state = .vacant then d.refuse n .wrongState .zero
  else
    match (d.leg x.enrol.leg).refusal with
    | some code => d.refuse n code .zero
    | none =>
      if x.state = .withdrawing ∨ x.addressed = false then d.refuse n .wrongState .zero
      else d.offerService x.enrol.leg n ⟨.individual x.enrol.addr, b⟩

/-- R148 check 1 for PEEK and POKE. -/
def pageBadField (ps : List Word) : Option Nat :=
  if 255 < paramNat ps 1 then some 1
  else if 255 < paramNat ps 2 then some 2
  else if ¬ within 1 8 (paramNat ps 3) then some 3
  else none

/-- R148, R149: examination of PEEK. -/
def Dev.examinePeek (d : Dev) (n : Nat) (ps : List Word) : Dev :=
  match pageBadField ps with
  | some k => d.badField n k
  | none => d.offerToRecord n (paramNat ps 1) (.peek (paramNat ps 2) (paramNat ps 3))

/-- R148, R149: examination of POKE. -/
def Dev.examinePoke (d : Dev) (n : Nat) (ps : List Word) : Dev :=
  match pageBadField ps with
  | some k => d.badField n k
  | none => d.offerToRecord n (paramNat ps 1) (.poke (paramNat ps 2) ((paramBytes ps 4 2).take (paramNat ps 3)))

/-- R148 check 1 for CALL. -/
def callBadField (ps : List Word) : Option Nat :=
  if 3 < paramNat ps 1 then some 1
  else if ¬ callTargetOk (paramNat ps 2) then some 2
  else if ¬ within 1 16 (paramNat ps 3) then some 3
  else none

/-- R148, R149: a CALL to the target its parameters name. -/
def Dev.examineAnyCall (d : Dev) (n : Nat) (ps : List Word) : Dev :=
  match callBadField ps, paramLeg ps 1 with
  | some k, _ => d.badField n k
  | none, none => d.badField n 1
  | none, some l =>
    match (d.leg l).refusal with
    | some code => d.refuse n code .zero
    | none =>
      d.offerService l n
        ⟨callTarget (BitVec.ofNat 12 (paramNat ps 2)), .call ((paramBytes ps 4 4).take (paramNat ps 3))⟩

/-- R148 check 1 for EVICT. -/
def evictBadField (ps : List Word) : Option Nat :=
  if 3 < paramNat ps 1 then some 1
  else if ¬ within 1 0xDFF (paramNat ps 2) then some 2
  else none

/-- R155: the DISMISS of an EVICT is offered at class URGENT; a queue of twelve URGENT entries refuses it. -/
def Dev.offerEvict (d : Dev) (l : Fin 4) (n : Nat) (a : BitVec 12) : Dev :=
  let y := d.offerUrgent l ⟨.individual a, .dismiss⟩ (.cmd n)
  if y.2 then y.1.nowRunning n else d.refuse n .legBusy .zero

/-- R148: a non-VACANT record on the leg has the drop address. -/
def Dev.ownsAddress (d : Dev) (l : Fin 4) (a : BitVec 12) : Bool :=
  (d.recordsOn l).any fun p => decide (p.2.enrol.addr = a)

/-- R148, R155, R156: examination of EVICT. -/
def Dev.examineEvict (d : Dev) (n : Nat) (ps : List Word) : Dev :=
  match evictBadField ps, paramLeg ps 1 with
  | some k, _ => d.badField n k
  | none, none => d.badField n 1
  | none, some l =>
    match (d.leg l).refusal with
    | some code => d.refuse n code .zero
    | none =>
      let a := BitVec.ofNat 12 (paramNat ps 2)
      if d.ownsAddress l a then d.refuse n .addressOwned .zero else d.offerEvict l n a

/-! ## SURVEY, HUNT, RESUME (R134, R135, R136, R147) -/

/-- R134: examination of SURVEY for one leg. -/
def Dev.examineSurvey (d : Dev) (n : Nat) (ps : List Word) : Dev :=
  match paramLeg ps 1 with
  | none => d.badField n 1
  | some l =>
    match (d.leg l).refusal with
    | some code => d.refuse n code (.survey l.val .none 0)
    | none => (d.requestSurvey l (.ofSlot n)).nowRunning n

/-- R135: the legs on which an all-legs SURVEY makes a request. -/
def Dev.surveyLegs (d : Dev) : List (Fin 4) := allLegs.filter fun l => (d.leg l).refusal.isNone

/-- R135: examination of SURVEY with leg value 4. -/
def Dev.examineAllSurvey (d : Dev) (n : Nat) (_ps : List Word) : Dev :=
  let legs := d.surveyLegs
  let parts := allLegs.map fun l => if legs.contains l then none else some (SurveyOut.notRun, 0)
  let d1 := (d.nowRunning n).settleParts n parts
  legs.foldl (fun y l => y.requestSurvey l (.ofSlot n)) d1

/-- R136: examination of HUNT. -/
def Dev.examineHunt (d : Dev) (n : Nat) (ps : List Word) : Dev :=
  match paramLeg ps 1 with
  | none => d.badField n 1
  | some l =>
    match (d.leg l).refusal with
    | some code => d.refuse n code (.hunt .none 0 none)
    | none => (d.startHunt l (some n)).nowRunning n

/-- R165, R189: the detail of a RESUME. -/
def Dev.resumeDetail (d : Dev) (l : Fin 4) : Detail := { Detail.zero with a := l.val, b := (d.leg l).st.code }

/-- R41, R147, R161: examination of RESUME. -/
def Dev.examineResume (d : Dev) (n : Nat) (ps : List Word) : Dev :=
  match paramLeg ps 1 with
  | none => d.badField n 1
  | some l =>
    if (d.leg l).st = .suspended then
      let d1 := d.modLeg l fun g => { g with st := .running }
      d1.complete n .ok (d1.resumeDetail l)
    else d.refuse n .wrongState (d.resumeDetail l)

/-- R161, R165, R189: a kind value that names no command; the detail is the captured kind word. -/
def Dev.examineBadKind (d : Dev) (n : Nat) (ps : List Word) : Dev :=
  d.complete n .badKind { Detail.zero with w14 := param ps 0 }

/-! ## GO, ABORT, CLEAR (R159, R160, R164, R165) -/

/-- R160: the slot captures its parameters and joins the back of the intake order. -/
def Dev.capture (d : Dev) (n : Nat) (ps : List Word) : Dev :=
  { d.modSlot n fun s => { s with st := .queued, params := ps, result := .none, detail := .zero, parts := [] } with
    intake := d.intake ++ [n] }

/-- R159: an issue write that is ignored. -/
def Dev.ignoreIssue (d : Dev) : Dev := d.latch .issueIgnored

/-- R159, R160: GO. -/
def Dev.issueGo (d : Dev) (n : Nat) (ps : List Word) : Dev :=
  match (d.slot n).st with
  | .idle => d.capture n ps
  | .done => d.capture n ps
  | .queued => d.ignoreIssue
  | .running => d.ignoreIssue

/-- R165: CLEAR. -/
def Dev.issueClear (d : Dev) (n : Nat) : Dev :=
  match (d.slot n).st with
  | .done => d.putSlot n .idle
  | .idle => d
  | .queued => d
  | .running => d

/-- The leg whose queue holds slot n's directive. -/
def Leg.queuesCmd (g : Leg) (n : Nat) : Bool := g.queue.any fun x => decide (x.origin = .cmd n)

/-- Slot n's directive is in flight on the leg. -/
def Leg.fliesCmd (g : Leg) (n : Nat) : Bool :=
  match g.inFlight with
  | some x => decide (x.origin = .cmd n)
  | none => false

/-- R164: a service command is aborted on leg l: its entry is removed, or its directive in flight abandoned. -/
def Dev.abortServiceOn (n : Nat) (d : Dev) (l : Fin 4) : Dev :=
  let g := d.leg l
  if g.fliesCmd n then d.abandon l else if g.queuesCmd n then d.unqueueCmd l n else d

/-- R164: the detail of an aborted service command: sends made and, for a group or estate call, its counts, as they stood. -/
def Dev.abortedDetail (d : Dev) (n : Nat) : Detail :=
  match (allLegs.filterMap fun l => (d.leg l).inFlight).find? fun x => decide (x.origin = .cmd n) with
  | some x => x.cutDetail
  | none => .zero

/-- R132: slot n leaves the requesters of a survey. -/
def Requesters.leave (q : Requesters) (n : Nat) : Requesters := { q with slots := without q.slots n }

/-- R129, R132: slot n leaves the pending survey of a leg, which is dropped when no requester remains. -/
def Leg.leavePending (g : Leg) (n : Nat) : Leg :=
  match g.pendSurvey with
  | some q => { g with pendSurvey := if (q.leave n).isEmpty then none else some (q.leave n) }
  | none => g

/-- R132: slot n leaves the open window of a leg, which closes at once when it was its only requester. -/
def Leg.leaveWindow (g : Leg) (n : Nat) : Leg :=
  match g.chan with
  | .survey w =>
    if w.reqs.slots.contains n then
      { g with chan := if (w.reqs.leave n).isEmpty then .free else .survey { w with reqs := w.reqs.leave n } }
    else g
  | .free => g
  | .directive _ => g
  | .hail _ => g

/-- R132, R134: slot n leaves the survey of leg l. -/
def Dev.leaveSurvey (n : Nat) (d : Dev) (l : Fin 4) : Dev := d.modLeg l fun g => (g.leavePending n).leaveWindow n

/-- R164: an all-legs SURVEY is aborted: it leaves the survey on every leg whose part has not ended. -/
def Dev.abortAllSurvey (d : Dev) (n : Nat) : Dev :=
  let ps := (d.slot n).parts
  (allLegs.foldl (Dev.leaveSurvey n) d).complete n .aborted (.allLegs ps)

/-- R134, R164: a SURVEY of one leg is aborted. -/
def Dev.abortSurvey (d : Dev) (n : Nat) : Dev :=
  let ps := (d.slot n).params
  (allLegs.foldl (Dev.leaveSurvey n) d).complete n .aborted (.survey (paramNat ps 1) .none 0)

/-- R143, R164: the hunt that slot n owns is aborted. -/
def Dev.abortHuntOf (d : Dev) (n : Nat) : Dev :=
  match allLegs.find? fun l => decide ((d.leg l).hunt.owner = some n) with
  | some l => d.abortHunt l
  | none => d

/-- R164: a RUNNING command is aborted by its kind. -/
def Dev.abortRunning (d : Dev) (n : Nat) : Dev :=
  match examRow (d.slot n).params with
  | .peek | .poke | .call | .groupCall | .evict =>
    (allLegs.foldl (Dev.abortServiceOn n) d).complete n .aborted (d.abortedDetail n)
  | .survey => d.abortSurvey n
  | .allSurvey => d.abortAllSurvey n
  | .hunt => d.abortHuntOf n
  | .enrol | .withdraw | .continueRecord | .resume | .badKind => d

/-- R159, R164: ABORT. -/
def Dev.issueAbort (d : Dev) (n : Nat) : Dev :=
  match (d.slot n).st with
  | .queued => ({ d with intake := without d.intake n } : Dev).complete n .aborted .zero
  | .running => d.abortRunning n
  | .idle => d
  | .done => d

/-- R159: an issue write acts on the issue field, bits 0..7 of the merged value. -/
def Dev.issue (d : Dev) (n : Nat) (ps : List Word) (v : Nat) : Dev :=
  match v with
  | 1 => d.issueGo n ps
  | 2 => d.issueAbort n
  | 3 => d.issueClear n
  | _ => d.ignoreIssue

end Sys2Proof.Machine
end

