-- ==== Sys2Proof/Machine/Commit.lean ====
section
/-! DEFINITION. The commit handler (12_configuration_and_commit.md): validation of the 56 fields, the apply, and what each
changed field does to a leg at once (R64, R66, R67, R56, R61, R62, R187). -/

namespace Sys2Proof.Machine

/-! ## Validation (R183, R184) -/

/-- R61, R132: requests and windows of commands on a leg. -/
def Leg.surveysSlot (g : Leg) : Bool :=
  (match g.pendSurvey with
   | some q => !q.slots.isEmpty
   | none => false) ||
    (match g.chan with
     | .survey w => !w.reqs.slots.isEmpty
     | .free => false
     | .directive _ => false
     | .hail _ => false)

/-- A command's directive is queued or in flight on the leg. -/
def Leg.carriesCmd (g : Leg) : Bool :=
  let isCmd (o : Origin) : Bool := match o with
    | .cmd _ => true
    | .record _ => false
    | .level _ => false
    | .hunt _ => false
  g.queue.any (fun x => isCmd x.origin) ||
    (match g.inFlight with
     | some x => isCmd x.origin
     | none => false)

/-- R184: leg l is occupied: a non-VACANT record, a command RUNNING on it, or a hunt STARTING or running. -/
def Dev.occupied (d : Dev) (l : Fin 4) : Bool :=
  let g := d.leg l
  !(d.recordsOn l).isEmpty || g.surveysSlot || g.carriesCmd || decide (g.hunt.phase ≠ .idle)

/-- R184: a record of leg l is in a state other than VACANT and EXPECTED. -/
def Dev.pastExpected (d : Dev) (l : Fin 4) : Bool := (d.recordsOn l).any fun p => decide (p.2.state ≠ .expected)

/-- R184: the state condition of the per-leg field at position k of leg l, taking the value v. -/
def legStateReason (old : Applied) (d : Dev) (l : Fin 4) (k v : Nat) : Option CommitReason :=
  match k with
  | 0 => if (old.leg l).enable ∧ v = 0 ∧ d.occupied l then some .legOccupied else none
  | 1 => if v ≠ (old.leg l).reach ∧ d.pastExpected l then some .reachLocked else none
  | _ => none

/-- R79, R184: a new ring capacity. -/
def ringStateReason (old : Applied) (g : Ring) (v : Nat) : Option CommitReason :=
  if v ≠ old.ringCap ∧ ¬ (g.badTail = false ∧ g.head = g.tail ∧ g.tail < v) then some .ringBusy else none

/-- R183: the check of field f with the value v: its range, then its state condition. -/
def checkField (old : Applied) (d : Dev) (f v : Nat) : Option CommitReason :=
  if ¬ rangeOk f v then some .range
  else if f = 3 then ringStateReason old d.ring v
  else if f < 4 then none
  else legStateReason old d (Fin.ofNat 4 ((f - 4) / 13)) ((f - 4) % 13) v

/-- R183: the first field that fails, with its reason. -/
def firstBadField (old : Applied) (ms : List (Nat × Word)) (d : Dev) : Option (Nat × CommitReason) :=
  (List.range 56).findSome? fun f => (checkField old d f (configValue ms f)).map fun r => (f, r)

/-! ## The apply (R186) -/

/-- R64, R66, R67: the pace timer of a leg at an applied commit. -/
def Leg.commitTimer (g : Leg) (c : LegConfig) : Leg :=
  let starts := decide (g.st ≠ .dark) && decide (g.mode = .off) && decide (c.hailMode ≠ .off)
  let run := if g.st = .dark ∨ c.hailMode = .off then false else if starts then true else g.running
  let t := if starts then c.pace else if run = false ∧ c.pace ≠ g.reload then c.pace else g.timer
  { g with mode := c.hailMode, reload := c.pace, timer := t, running := run }

/-- R61, R187: a DARK leg is turned on. Quiet spans that still run stand (notes/assumptions/29.md). -/
def Leg.enableLeg (g : Leg) : Leg :=
  { g with
    st := if g.flt then .faulted else .running
    wasSusp := false, chan := .free, tagCtr := 0, queue := [], waiting := [], pendSurvey := none, pendHail := false,
    lastWindow := .none, stray := 0, lastSurvey := .none, lastCount := 0,
    timer := g.reload, running := decide (g.mode ≠ .off) }

/-- R62, R187: an unoccupied leg is turned off. -/
def Leg.disableLeg (g : Leg) : Leg :=
  { g with
    st := .dark, wasSusp := false, chan := .free, queue := [], waiting := [], pendSurvey := none, pendHail := false,
    running := false, stray := 0, quiet := false, marker := none }

/-- R56: a commit that changes the stray limit zeroes the stray count. -/
def Leg.commitStray (g : Leg) (old new : LegConfig) : Leg :=
  if old.strayLimit ≠ new.strayLimit then { g with stray := 0 } else g

/-- R61, R62, R187: the enable of a leg is applied. -/
def Leg.commitEnable (g : Leg) (new : LegConfig) : Leg :=
  if g.st = .dark ∧ new.enable then g.enableLeg else if g.st ≠ .dark ∧ new.enable = false then g.disableLeg else g

/-- R56, R64, R187: a leg at an applied commit, its other fields first and its enable after them. -/
def Leg.commitLeg (g : Leg) (old new : LegConfig) : Leg := ((g.commitTimer new).commitStray old new).commitEnable new

/-- R61: a leg entered FAULTED at an enabling commit. -/
def enabledFaulted (g h : Leg) : Bool := decide (g.st = .dark) && decide (h.st = .faulted)

/-- R186: leg l at an applied commit; LEG_FAULT latches when it enters FAULTED. -/
def Dev.applyLeg (old new : Applied) (d : Dev) (l : Fin 4) : Dev :=
  let g := d.leg l
  let h := g.commitLeg (old.leg l) (new.leg l)
  let d1 := d.putLeg l h
  if enabledFaulted g h then d1.latch .legFault else d1

/-- R183: a commit: applied as a whole or rejected, counted, and CONFIG_DONE latched. -/
def State.commitNow (s : State) : State :=
  let s1 : State := match firstBadField s.applied s.mirrors s.dev with
    | some (f, r) =>
      { s with cstat := { status := .rejected, field := some f, reason := some r, count := s.cstat.count + 1 } }
    | none =>
      let new := readApplied s.mirrors
      { s with
        applied := new
        cstat := { status := .applied, field := none, reason := none, count := s.cstat.count + 1 }
        dev := allLegs.foldl (Dev.applyLeg s.applied new) s.dev }
  { s1 with dev := s1.dev.latch .configDone }

end Sys2Proof.Machine
end

