-- ==== Sys2Proof/Machine/Live.lean ====
section
/-! DEFINITION. What the LIVE words read (R175, R188, R189; 13.2 to 13.6). -/

namespace Sys2Proof.Machine

/-- An absent byte field reads 0xFF (R188). -/
def absentFF (v : Option Nat) : Nat := v.getD 0xFF

/-- 13.2, R185: config status word i. -/
def ConfigStatus.word (c : ConfigStatus) (i : Nat) : Word :=
  if i = 0 then packBytes c.status.code (absentFF c.field) ((c.reason.map CommitReason.code).getD 0) 0
  else BitVec.ofNat 32 c.count.toNat

/-- R170: the attention summary word. -/
def State.summaryWord (s : State) : Word :=
  BitVec.ofNat 32 (s.dev.causes.toNat + 256 * bit s.dev.ring.pendingNow + 2147483648 * bit s.attn)

/-- R80: the ring status word; the count reads C − 1 while bad-tail is set. -/
def Ring.statusWord (g : Ring) (cap : Nat) : Word :=
  BitVec.ofNat 32 ((if g.badTail then cap - 1 else g.count cap) + 65536 * bit g.overrun + 131072 * bit g.badTail)

/-- R189: result word 13 + i of a slot: the state alone unless it is DONE. -/
def Slot.word (x : Slot) (i : Nat) : Word :=
  let d := x.detail
  match x.st with
  | .done =>
    if i = 0 then packBytes (x.st.code + 16 * (d.len % 16)) x.result.code d.a d.b else if i = 1 then d.w14 else d.w15
  | .idle | .queued | .running => if i = 0 then BitVec.ofNat 32 x.st.code else 0

/-- 13.4: the flag byte of a record. -/
def Rec.flags (x : Rec) : Nat :=
  bit x.addressed + 2 * bit x.assignSent + 4 * bit x.muted + 8 * bit x.waiting + 16 * bit x.pinWait + 32 * bit x.levelFresh
    + 64 * bit x.levelWanted

/-- R24: the level word. -/
def Rec.levelWord (x : Rec) : Word := BitVec.ofNat 32 (x.level.toNat + 256 * bit x.levelFresh)

/-- 13.4: the group rank byte: 0xFF where the record has no group; a VACANT record's live words read zero or absent (R19). -/
def Rec.word (x : Rec) (i : Nat) : Word :=
  let slotByte k := (x.slotList[k]?).getD 0
  match i with
  | 8 => packBytes x.state.code ((x.stage.map RecState.code).getD 0) x.fault.code x.flags
  | 9 => packBytes x.hails x.rehails (absentFF x.groupRank) x.legRank
  | 10 => packHalves (x.measured.getD 0) (x.equalise.getD 0)
  | 11 => packBytes (bit x.measured.isSome + 2 * bit x.equalise.isSome) x.attempts x.chunksAck x.chunksTotal
  | 12 => packBytes (x.label.getD 0) x.slotList.length x.freeCount 0
  | 13 => packBytes (slotByte 0) (slotByte 1) (slotByte 2) (slotByte 3)
  | 14 => packBytes (slotByte 4) (slotByte 5) (slotByte 6) (slotByte 7)
  | 15 => x.levelWord
  | _ => 0

/-- R31, R63: the current tag. -/
def Leg.currentTag (g : Leg) : Option (BitVec 6) := g.inFlight.bind InFlight.tag

/-- R118: the byte of a traffic slot in the slot map view. -/
def Leg.slotByte (g : Leg) (s : Nat) : Nat := Sparse.get 0 g.slotMap s

/-- R63, 13.6: word i of a leg status block. -/
def Leg.word (g : Leg) (i : Nat) : Word :=
  match i with
  | 0 => packBytes g.st.code g.chan.code (absentFF (g.currentTag.map BitVec.toNat)) g.mode.code
  | 1 =>
    BitVec.ofNat 32 (g.queue.length % 16 + 256 * (g.waiting.length % 512) + 16777216 * bit g.pendSurvey.isSome
      + 33554432 * bit g.pendHail)
  | 2 => BitVec.ofNat 32 (g.timer % 4096 + 32768 * bit g.running + 65536 * (g.reload % 4096))
  | 3 => packBytes g.lastWindow.code g.stray g.lastSurvey.code 0
  | 4 => BitVec.ofNat 32 (g.lastCount % 4096)
  | 5 => packBytes g.hunt.phase.code g.hunt.lastResult.code g.hunt.steps g.hunt.half.length
  | 6 => packHalves (g.hunt.cands.length % 512) (g.hunt.lastCulprit.getD 0xFFFF)
  | _ =>
    if 8 ≤ i ∧ i < 18 then
      let s := 8 + 4 * (i - 8)
      packBytes (g.slotByte s) (g.slotByte (s + 1)) (g.slotByte (s + 2)) (g.slotByte (s + 3))
    else 0

/-- R175, R188: the value of the LIVE word at a region offset. -/
def State.liveWord (s : State) (off : Nat) : Word :=
  if off < 0x00F8 then s.cstat.word ((off - 0x00F0) / 4)
  else if off < 0x0104 then s.summaryWord
  else if off < 0x010C then BitVec.ofNat 32 s.dev.ring.head
  else if off < 0x0400 then s.dev.ring.statusWord s.applied.ringCap
  else if off < 0x0800 then (s.dev.slot ((off - 0x0400) / 64)).word ((off - 0x0400) % 64 / 4 - 13)
  else if off < 0x0C00 then (s.dev.leg (Fin.ofNat 4 ((off - 0x0800) / 256))).word ((off - 0x0800) % 256 / 4)
  else (s.dev.record ((off - 0x1000) / 64)).word ((off - 0x1000) % 64 / 4)

end Sys2Proof.Machine
end

