-- ==== Sys2Proof/Machine/FltLine.lean ====
section
/-! DEFINITION. A leg's FLT line (R58, R59, R60, R132, R144): the flush of the leg and its recovery. -/

namespace Sys2Proof.Machine

/-! ## FLT asserted (R58, R59) -/

/-- R71: a hail window closed early by FLT records its outcome from what was heard before the close; one not yet open in which
nothing was heard records none (notes/assumptions/21.md). -/
def Leg.windowOutcomeNow (g : Leg) : WindowOutcome :=
  match g.chan with
  | .hail w => if w.opened.isSome || w.hails || w.others then w.outcome else g.lastWindow
  | .free => g.lastWindow
  | .directive _ => g.lastWindow
  | .survey _ => g.lastWindow

/-- R41, R42, R57, R58, R59: the leg controller enters FAULTED with its channel FREE, nothing queued, waiting or pending. The span of
the directive in flight ends with it (R52); the spans of directives that ended ANSWERED run on (R40, R51). -/
def Leg.enterFaulted (g : Leg) : Leg :=
  { g with
    st := .faulted
    wasSusp := decide (g.st = .suspended)
    lastWindow := g.windowOutcomeNow
    chan := .free, queue := [], waiting := [], pendSurvey := none, pendHail := false, quiet := false }

/-- R52, R58, R59: a record's directive is flushed: a stage record halts, a withdrawal ends VACANT, an UNMUTE leaves the record
as it is. -/
def Dev.flushRecord (d : Dev) (r : Nat) (b : Body) : Dev :=
  match b.cls, b with
  | .stage, _ => d.halt r .legFault
  | _, .dismiss => d.vacate r
  | _, _ => d

/-- R52, R58: a directive is flushed, `x` being the detail its command completes with. -/
def Dev.flush (d : Dev) (dir : Directive) (o : Origin) (x : Detail) : Dev :=
  match o with
  | .record r => d.flushRecord r dir.body
  | .cmd n => d.complete n .legFault x
  | .level _ => d
  | .hunt _ => d

/-- R58: an entry of the emptied queue. -/
def Dev.flushEntry (d : Dev) (e : Entry) : Dev := d.flush e.dir e.origin .zero

/-- R59: a record leaves the emptied waiting list. -/
def Dev.flushWaiter (d : Dev) (w : Waiter) : Dev := (d.clearWaiting w.r).flushRecord w.r w.dir.body

/-- R52, R58: the directive that was in flight ends FLUSHED; an UNMUTE clears MUTED, one that has taken the channel and is not yet sent
too: the model's choice (notes/assumptions/40.md). -/
def Dev.flushFlight (d : Dev) (f : Option InFlight) : Dev :=
  match f with
  | some x => (d.unmuteEnded x).flush x.dir x.origin x.cutDetail
  | none => d

/-- The records of leg l that are in a stage, in ascending order of index. -/
def Dev.stageRecordsOn (d : Dev) (l : Fin 4) : List Nat :=
  ((d.recordsOn l).filter fun p => p.2.state.isStage).map (·.1)

/-- The command requesters of the surveys open and pending on a leg. -/
def Leg.surveySlots (g : Leg) : List Nat :=
  (match g.chan with
   | .survey w => w.reqs.slots
   | .free => []
   | .directive _ => []
   | .hail _ => []) ++
    (match g.pendSurvey with
     | some q => q.slots
     | none => [])

/-- R59: the records of leg l leave the pin-wait list before any entry is freed. -/
def Dev.clearPinWait (d : Dev) (l : Fin 4) : Dev :=
  let mine (r : Nat) : Bool := decide ((d.record r).enrol.leg = l)
  (d.pinWait.filter mine).foldl (fun y r => y.modRec r fun x => { x with pinWait := false })
    { d with pinWait := d.pinWait.filter fun r => !mine r }

/-- R59, R144: a hunt that is STARTING or running on leg l ends with LEG_FAULT. -/
def Dev.faultHunt (d : Dev) (l : Fin 4) : Dev :=
  if (d.leg l).hunt.phase = .idle then d else d.endHunt l .legFault none

/-- R58, R59: leg l, which was as `g`, enters FAULTED and everything on it is dealt with by its origin. -/
def Dev.faultLeg (d : Dev) (l : Fin 4) : Dev :=
  let g := d.leg l
  let d1 := (((d.clearPinWait l).modLeg l Leg.enterFaulted).latch .legFault).cancelFetch l
  let d2 := g.queue.foldl Dev.flushEntry (d1.flushFlight g.inFlight)
  let d3 := g.waiting.foldl Dev.flushWaiter d2
  let d4 := (d3.stageRecordsOn l).foldl (fun y r => y.halt r .legFault) d3
  (g.surveySlots.foldl (fun y n => y.answerFault l n) d4).faultHunt l

/-- R58: a leg on which FLT acts. -/
def Leg.canFault (g : Leg) : Bool := decide (g.st = .running) || decide (g.st = .suspended) || decide (g.st = .hunting)

/-- The FLT pin of leg l. -/
def Dev.setFlt (d : Dev) (l : Fin 4) (v : Bool) : Dev := d.modLeg l fun g => { g with flt := v }

/-- R58, R60: FLT is asserted on leg l. -/
def Dev.fltAssert (d : Dev) (l : Fin 4) : Dev :=
  if (d.leg l).canFault then (d.setFlt l true).faultLeg l else d.setFlt l true

/-! ## FLT deasserted (R60) -/

/-- R41, R60: a FAULTED leg recovers. -/
def Leg.recover (g : Leg) : Leg := { g with st := if g.wasSusp then .suspended else .running, wasSusp := false }

/-- R60: FLT is deasserted on leg l. -/
def Dev.fltRelease (d : Dev) (l : Fin 4) : Dev :=
  let d1 := d.setFlt l false
  if (d.leg l).st = .faulted then
    let d2 := d1.modLeg l Leg.recover
    (d2.mutedOn l).foldl (fun y r => y.offerUnmute l r) d2
  else d1

end Sys2Proof.Machine
end

