-- ==== Sys2Proof/Machine/Bus.lean ====
section
/-! DEFINITION. The pass-through unit and the memory arbiter (11_the_pass_through_bus.md): a controller access presented, held,
taken and completed (R171 to R177), the engine bursts (R179 to R181), and what RESETn does to them (R178). -/

namespace Sys2Proof.Machine

/-! ## The acts of ACTION words (R176) -/

/-- R168: the latched causes named in the low byte clear. -/
def Dev.clearCauses (d : Dev) (v : Word) : Dev := { d with causes := d.causes &&& ~~~(v.setWidth 8) }

/-- R77: a tail write. -/
def Dev.writeTail (d : Dev) (cap : Nat) (v : Word) : Dev := { d with ring := d.ring.takeTail cap (field v 0 16) }

/-- The command slot of an issue word's offset (13.1). -/
def issueSlot (off : Nat) : Nat := (off - 0x0400) / 64

/-- R159, R176: an issue write of the merged value v to slot n. -/
def State.issueWrite (s : State) (n : Nat) (v : Word) : State :=
  { s with dev := s.dev.issue n (captureParams s.mirrors n) (field v 0 8) }

/-- R176: the owner of the ACTION word at an offset acts on its merged value. -/
def State.act (s : State) (off : Nat) (v : Word) : State :=
  if off = offCommit then s.commitNow
  else if off = offClear then { s with dev := s.dev.clearCauses v }
  else if off = offTail then { s with dev := s.dev.writeTail s.applied.ringCap v }
  else s.issueWrite (issueSlot off) v

/-! ## An access that uses the port (R173, R174, R177) -/

/-- R174: the merged value of a write to the mirrored word at an offset. -/
def State.merged (s : State) (a : Access) (off : Nat) : Word := mergeBytes a.be a.data (Mirrors.word s.mirrors off)

/-- R174: the mirror at an offset takes a value. -/
def State.putMirror (s : State) (off : Nat) (v : Word) : State := { s with mirrors := Mirrors.put s.mirrors off v }

/-- R172, R173: what a write with a byte enabled does to the part at the word offset `off` when it is taken. -/
def State.writeEffect (s : State) (a : Access) (off : Nat) : State :=
  match classOf off with
  | .mirrored => s.putMirror off (s.merged a off)
  | .action => (s.putMirror off (s.merged a off)).act off (s.merged a off)
  | .watched => { s with dev := s.dev.watchedReport (off - offStore) a.be }
  | .plain => s
  | .live => s
  | .liveRead => s

/-- R171, R173: the effect of an access on the part's state when it is taken. -/
def State.takenEffect (s : State) (a : Access) : State :=
  if a.write ∧ a.be ≠ 0 ∧ inRegion s.base a.addr then s.writeEffect a (wordOffset a.addr) else s

/-- R179, R180: the pass count after a controller access passes. A request list that a withdrawal emptied leaves the count as it was until
a burst begins: the model's choice (notes/assumptions/41.md). -/
def State.countPass (s : State) : Nat := if s.dev.requests.isEmpty then s.bus.passCount else s.bus.passCount + 1

/-- R173, R179: an access is passed to memory: the port is CONTROLLER, a write's enabled bytes go to memory, a read shows
memory's word (notes/assumptions/18.md). -/
def State.toMemory (s : State) (a : Access) : State :=
  let old := Memory.readWord s.mem a.wordAddr
  { s with
    bus := { s.bus with
      port := .controller, passCount := s.countPass, held := none, passing := some ⟨a, old⟩
      rdata := if a.write then s.bus.rdata else old }
    mem := if a.write then Memory.writeWord s.mem a.wordAddr a.be a.data else s.mem }

/-- R173: an access that uses the port is taken. -/
def State.pass (s : State) (a : Access) : State := (s.toMemory a).takenEffect a

/-! ## LIVE accesses (R175) -/

/-- R24: the level request that a read of record r's level word makes. -/
def Dev.askLevel (d : Dev) (r : Nat) : Dev :=
  let x := d.record r
  let g := d.leg x.enrol.leg
  if x.state = .active ∧ g.busyWith r = false ∧ (g.st = .running ∨ g.st = .suspended) ∧ g.hasRoom then
    d.enqueue x.enrol.leg ⟨.individual x.enrol.addr, .level⟩ (.level r)
  else d

/-- R24: the effect of a read of record r's level word. -/
def Dev.levelTaken (d : Dev) (r : Nat) : Dev :=
  if (d.record r).state = .vacant then d
  else (d.modRec r fun x => { x with levelFresh := false, levelWanted := true }).askLevel r

/-- R175: the effect of a read of the LIVE word at an offset on its owner. -/
def State.readEffect (s : State) (off : Nat) : State :=
  match classOf off with
  | .liveRead => { s with dev := s.dev.levelTaken ((off - 0x1000) / 64) }
  | .plain => s
  | .mirrored => s
  | .action => s
  | .live => s
  | .watched => s

/-- The controller data lines. -/
def State.answerWith (s : State) (v : Word) : State := { s with bus := { s.bus with rdata := v } }

/-- R175: an access to a LIVE word is answered and completed; the value is the one from before the read's effect. -/
def State.takeLive (s : State) (a : Access) : State :=
  if a.write then s
  else if a.be = 0 then s.answerWith 0
  else (s.answerWith (s.liveWord (wordOffset a.addr))).readEffect (wordOffset a.addr)

/-! ## The choice at the port (R173, R180) -/

/-- R175: the word is one that the part answers itself. -/
def liveClass : WordClass → Bool
  | .live | .liveRead => true
  | .plain | .mirrored | .action | .watched => false

/-- R171, R173: the access uses the memory port. -/
def State.usesPort (s : State) (a : Access) : Bool := !(inRegion s.base a.addr && liveClass (classOf (wordOffset a.addr)))

/-- R180: at a FREE port the controller access goes before the front engine request. -/
def State.controllerFirst (s : State) : Bool := s.dev.requests.isEmpty || decide (s.bus.passCount < passLimit)

/-- R173: the access is held on the wait line. -/
def State.hold (s : State) (a : Access) : State := { s with bus := { s.bus with held := some a } }

/-! ## Engine bursts begin (R76, R179, R180) -/

/-- R180: the port goes to the front engine request. -/
def State.engineTurn (s : State) : Bool :=
  decide (s.bus.port = .free) && (s.bus.held.isNone || decide (s.bus.passCount = passLimit))

/-- R179: the front request leaves the list as its burst begins. -/
def State.startBurst (s : State) (b : Burst) (rest : List Client) : State :=
  { s with
    bus := { s.bus with port := .engine, passCount := 0 }
    dev := { s.dev with burst := some b, requests := rest } }

/-- R76: a ring that is full when the burst is about to begin drops the entry unwritten. DESIGN CHOICE: the writer's next request
joins before the FREE port is given on (notes/assumptions/26.md). -/
def Dev.dropEntry (d : Dev) (rest : List Client) : Dev :=
  (({ d with requests := rest, ring := { d.ring with writeList := d.ring.writeList.drop 1 } } : Dev).loseEntry).syncRequests

/-- R76, R179: the front request's burst begins at the FREE port; a ring entry that finds the ring full is dropped instead. -/
def State.burstBegin (s : State) : State :=
  match s.dev.requests with
  | .load :: rest =>
    match s.dev.fetches with
    | f :: _ => s.startBurst (.fetch f false) rest
    | [] => s
  | .ring :: rest =>
    if s.dev.ring.full s.applied.ringCap then { s with dev := s.dev.dropEntry rest } else s.startBurst .ring rest
  | [] => s

/-! ## The port is given (R180) -/

/-- R180: a FREE port is given to a claimant: the held controller access while it may pass, else the front engine request; after
a dropped ring entry the choice is made again, `n` bounding the rounds. -/
def State.grantPort : Nat → State → State
  | 0, s => s
  | n + 1, s =>
    if s.bus.port = .free then
      match s.bus.held with
      | some a => if s.controllerFirst then s.pass a else s.burstBegin.grantPort n
      | none => if s.dev.requests.isEmpty then s else s.burstBegin.grantPort n
    else s

/-- R180: the arbiter gives the port whenever it is FREE and a claimant waits. -/
def State.settle (s : State) : State := s.grantPort (s.dev.ring.writeList.length + 1)

/-- R180: the blocks change to `d`; an engine request they make at a FREE port takes it at once. -/
def State.askPort (s : State) (d : Dev) : State :=
  let t : State := { s with dev := d }
  if d.requests = s.dev.requests then t else t.settle

/-- R180: ENGINE_BURST_BEGIN: the FREE port goes to the front engine request in its turn (notes/assumptions/25.md). -/
def State.engineBegins (s : State) : State := if s.engineTurn then s.burstBegin.settle else s

/-- R173, R179: the port as the controller's access leaves it. -/
def State.released (s : State) : State :=
  if s.bus.port = .controller then { s with bus := { s.bus with port := .free, passing := none } } else s

/-- R173, R179: the port is given up and goes to the next claimant. -/
def State.freePort (s : State) : State := ({ s with bus := { s.bus with port := .free, passing := none } } : State).settle

/-- R173: memory completes the controller access that was passed to it. -/
def State.memoryComplete (s : State) : State := if s.bus.port = .controller then s.freePort else s

/-- R173, R180: an access that uses the port joins the claimants; any other is answered. -/
def State.offerAccess (s : State) (a : Access) : State :=
  if s.usesPort a then (s.released.hold a).settle else s.memoryComplete.takeLive a

/-- R173, R178: the controller presents an access. It presents its next one only after the previous has completed
(notes/assumptions/10.md); with one held the bus is busy (notes/assumptions/5.md). -/
def State.present (s : State) (a : Access) : State :=
  if s.bus.held.isSome then s else if s.phase = .running then s.offerAccess a else s.hold a

/-- R173: the controller withdraws the strobe of a held access. -/
def State.withdrawAccess (s : State) : State := { s with bus := { s.bus with held := none } }

/-! ## Engine bursts complete (R76, R112, R181) -/

/-- R112: the bytes of a completed fetch are placed in the LOAD of leg l, first sent in a later cycle. -/
def Leg.placeChunk (g : Leg) (c : BitVec 16) (bs : List Byte) : Leg :=
  match g.chan with
  | .directive x => { g with chan := .directive { x with phase := .ready c, data := bs } }
  | .free => g
  | .hail _ => g
  | .survey _ => g

/-- The memory address of a region offset (R171). -/
def State.regionByte (s : State) (off : Nat) : Nat := s.base.toNat * 65536 + off

/-- R111: the bytes of a chunk in the profile store. -/
def State.chunkBytes (s : State) (f : Fetch) : List Byte :=
  Memory.readList s.mem (s.regionByte (offStore + f.src)) f.len

/-- R112, R114: a chunk fetch's last word access completes. -/
def Dev.fetchDone (d : Dev) (c : BitVec 16) (f : Fetch) (discard : Bool) (bs : List Byte) : Dev :=
  let d1 := if discard then d else ({ d with fetches := d.fetches.drop 1 } : Dev).modLeg f.leg fun g => g.placeChunk c bs
  ({ d1 with burst := none } : Dev).syncRequests

/-- R112: CHUNK_FETCH_COMPLETE. -/
def State.fetchComplete (s : State) : State :=
  match s.dev.burst with
  | some (.fetch f discard) => ({ s with dev := s.dev.fetchDone s.cycle f discard (s.chunkBytes f) } : State).freePort
  | some .ring => s
  | none => s

/-- R76, R79: a ring entry burst's last word access completes. -/
def Dev.entryDone (d : Dev) (cap : Nat) : Dev := ({ d with burst := none, ring := d.ring.advance cap } : Dev).syncRequests

/-- The bytes of the ring entry being written. -/
def Ring.frontBytes (g : Ring) : List Byte :=
  match g.writeList with
  | x :: _ => x.bytes
  | [] => []

/-- The memory address the ring's next entry is written to (R73, R76). -/
def State.headAddr (s : State) : Nat := s.regionByte (offRing s.dev.ring.head)

/-- R76: RING_ENTRY_WRITE_COMPLETE. -/
def State.entryComplete (s : State) : State :=
  match s.dev.burst with
  | some .ring =>
    ({ s with
        mem := Memory.writeList s.mem s.headAddr s.dev.ring.frontBytes
        dev := s.dev.entryDone s.applied.ringCap } : State).freePort
  | some (.fetch _ _) => s
  | none => s

/-! ## RESETn (R178) -/

/-- R178, R181: byte i of a cut ring entry is written when its word's access had completed; in the word then being written it is
so by a free value, and so is the number of completed accesses (notes/assumptions/12.md). -/
def cutWritten (seed i : Nat) : Bool :=
  decide (i / 4 < (Config.cutWords seed).val) || (decide (i / 4 = (Config.cutWords seed).val) && Config.cutKeepsNew seed i)

/-- R178, R181: the bytes of a cut ring entry, from byte i on: the words come in ascending order. -/
def cutBytes (seed : Nat) : Nat → List Byte → List Byte → List Byte
  | i, n :: ns, o :: os => (if cutWritten seed i then n else o) :: cutBytes seed (i + 1) ns os
  | _, _, _ => []

/-- R178: byte lane k of the word a cut write found, put back where the free value says so. -/
def cutLane (seed : Nat) (p : Passing) (m : List Host.Cell) (k : Nat) : List Host.Cell :=
  if p.acc.be.getLsbD k && !Config.cutKeepsNew seed k then Memory.write m (p.acc.wordAddr + k) (byteOf p.old k) else m

/-- R178: memory after a controller access being passed is cut. -/
def cutPass (seed : Nat) (m : List Host.Cell) (p : Option Passing) : List Host.Cell :=
  match p with
  | some p => if p.acc.write then [0, 1, 2, 3].foldl (cutLane seed p) m else m
  | none => m

/-- R81, R178: memory after a ring entry burst is cut. -/
def State.cutEntry (s : State) (m : List Host.Cell) : List Host.Cell :=
  match s.dev.burst with
  | some .ring =>
    Memory.writeList m s.headAddr (cutBytes s.dev.seed 0 s.dev.ring.frontBytes (Memory.readList m s.headAddr 32))
  | some (.fetch _ _) => m
  | none => m

/-- R178: the access on the wait line after RESETn falls: the one held, or the one that was being passed. -/
def Bus.heldAtReset (b : Bus) : Option Access :=
  match b.held with
  | some a => some a
  | none => b.passing.map fun p => p.acc

/-- R114, R178: the engine bursts, the fetch list and the requests end. -/
def Dev.cutEngines (d : Dev) : Dev := { d with burst := none, requests := [], fetches := [], seed := d.seed + 1 }

/-- R178: RESETn falls. -/
def State.resetFalls (s : State) : State :=
  if s.phase = .low then s
  else
    { s with
      phase := .low
      mem := s.cutEntry (cutPass s.dev.seed s.mem s.bus.passing)
      bus := { s.bus with port := .free, passing := none, held := s.bus.heldAtReset }
      dev := s.dev.cutEngines }

/-- The blocks at their reset values, with the levels of the FLT pins kept. -/
def Dev.cleared (d : Dev) : Dev := Dev.afterReset (d.leg 0).flt (d.leg 1).flt (d.leg 2).flt (d.leg 3).flt d.seed

/-- R171, R178: RESETn rises: the straps are sampled, the mirrors zeroed and every block brought to its reset values. -/
def State.resetRises (s : State) (straps : BitVec 4) : State :=
  if s.phase = .low then
    { s with
      phase := .clearing, base := straps, cycle := 0, applied := .afterReset, cstat := .afterReset, mirrors := []
      bus := { Bus.afterReset with held := s.bus.held, rdata := s.bus.rdata }
      dev := s.dev.cleared }
  else s

/-- R178: the clearing ends and the access being presented is taken as a new one. -/
def State.clearingEnds (s : State) : State :=
  if s.phase = .clearing then
    match s.bus.held with
    | some a => ({ s with phase := .running, bus := { s.bus with held := none } } : State).present a
    | none => { s with phase := .running }
  else s

end Sys2Proof.Machine
end

