-- ==== Sys2Proof/Machine/ExecReset.lean ====
section
/-! DEFINITION. The meanings of the reset and clock commands: RESET_ASSERTED, RESET_RELEASED, CLEARING_END, CYCLE_START. With
them `State.running` and `State.asking`, the two forms of an event inside the part. -/

namespace Sys2Proof.Machine

/-- The answer of every meaning. -/
abbrev Answer := Host.Outcome State Fault Refusal

/-- An event of the part's blocks. Nothing happens in them while RESETn is low or the part clears its state (R178). -/
def State.running (s : State) (f : Env → Dev → Dev) : State :=
  if s.phase = .running then { s with dev := f s.env s.dev } else s

/-- R180: an event of the part's blocks that may ask for an engine burst. -/
def State.asking (s : State) (f : Env → Dev → Dev) : State :=
  if s.phase = .running then s.askPort (f s.env s.dev) else s

/-- R178. -/
def execResetAsserted (s : State) : Answer := .next s.resetFalls

/-- R171, R178. -/
def execResetReleased (straps : BitVec 4) (s : State) : Answer := .next (s.resetRises straps)

/-- R26, R178. -/
def execClearingEnd (s : State) : Answer := .next s.clearingEnds

/-- R26, R27, R57, R65: a cycle begins on the four legs. -/
def Dev.startCycle (d : Dev) (cfg : Applied) (c : BitVec 16) : Dev :=
  { d with legs :=
      ⟨d.legs.l0.startCycle cfg.leg0.reach c, d.legs.l1.startCycle cfg.leg1.reach c,
        d.legs.l2.startCycle cfg.leg2.reach c, d.legs.l3.startCycle cfg.leg3.reach c⟩ }

/-- R26: the cycle number advances. -/
def State.nextCycle (s : State) : State :=
  if s.phase = .running then { s with cycle := s.cycle + 1, dev := s.dev.startCycle s.applied (s.cycle + 1) } else s

/-- R26. -/
def execCycleStart (s : State) : Answer := .next s.nextCycle

end Sys2Proof.Machine
end

