-- ==== Sys2Proof/Machine/ExecBurst.lean ====
section
/-! DEFINITION. The meanings of the bursts a leg hears (R54, R55, R70). -/

namespace Sys2Proof.Machine

/-- R54, R55. -/
def execReplyBurst (l : Fin 4) (src : BitVec 12) (tag : BitVec 6) (code : ReplyCode) (data : List Byte) (level : Byte)
    (delay : Nat) (place : Option Placement) (s : State) : Answer :=
  .next (s.running fun e d => d.reply e l src tag code data level delay place)

/-- R70, R72. -/
def execDecodedHail (l : Fin 4) (serial : BitVec 64) (kind count level : Byte) (received : BitVec 16) (s : State) : Answer :=
  .next (s.asking fun e d => d.hailHeard e l serial kind count level received)

/-- R55, R71. -/
def execGarbledBurst (l : Fin 4) (place : Option Placement) (s : State) : Answer :=
  .next (s.running fun e d => d.garbled e l place)

/-- R55, R56. What the hail carries plays no part. -/
def execStrayHailFormatBurst (l : Fin 4) (_serial : BitVec 64) (_kind _count _level : Byte) (place : Option Placement)
    (s : State) : Answer :=
  .next (s.running fun e d => d.strayHail e l place)

end Sys2Proof.Machine
end

