-- ==== Sys2Proof/Machine/ExecBus.lean ====
section
/-! DEFINITION. The meanings of the controller's accesses, of their completion, and of the engines' events. A write row presents
the access; its address and byte enables decide what it does (notes/assumptions/10.md). -/

namespace Sys2Proof.Machine

/-! ## Engines -/

/-- R109. -/
def execPinWaitServe (s : State) : Answer := .next (s.running fun _ d => d.servePinWait)

/-- R76, R180. -/
def execEngineBurstBegin (s : State) : Answer := .next (if s.phase = .running then s.engineBegins else s)

/-- R112. -/
def execChunkFetchComplete (s : State) : Answer := .next (if s.phase = .running then s.fetchComplete else s)

/-- R76. -/
def execRingEntryWriteComplete (s : State) : Answer := .next (if s.phase = .running then s.entryComplete else s)

/-! ## Completion and withdrawal -/

/-- R173. -/
def execMemoryAccessComplete (s : State) : Answer := .next (if s.phase = .running then s.memoryComplete else s)

/-- R173. -/
def execAccessWithdrawn (s : State) : Answer := .next s.withdrawAccess

/-! ## Writes and reads -/

/-- The controller writes the word at a region offset. -/
def State.writeAt (s : State) (off : Nat) (data : Word) (be : BitVec 4) : State :=
  s.present ⟨regionAddr s.base off, data, be, true⟩

/-- R171, R172: a write to an address. -/
def execPassedWrite (addr : BitVec 24) (data : Word) (be : BitVec 4) (s : State) : Answer :=
  .next (s.present ⟨addr, data, be, true⟩)

/-- R174. -/
def execMirroredWrite (w : MirrorWord) (data : Word) (be : BitVec 4) (s : State) : Answer :=
  .next (s.writeAt w.offset data be)

/-- R115, R177. -/
def execWatchedWrite (i : Fin 8192) (data : Word) (be : BitVec 4) (s : State) : Answer :=
  .next (s.writeAt (offStore + 4 * i.val) data be)

/-- R24, R171 to R175: a controller read; of a record's level word it is the row proper (notes/assumptions/11.md). -/
def execLevelRead (w : ReadAddr) (be : BitVec 4) (s : State) : Answer := .next (s.present ⟨w.address s.base, 0, be, false⟩)

/-- R176, R183. -/
def execCommit (data : Word) (be : BitVec 4) (s : State) : Answer := .next (s.writeAt offCommit data be)

/-- R168. -/
def execClearWrite (data : Word) (be : BitVec 4) (s : State) : Answer := .next (s.writeAt offClear data be)

/-- R77. -/
def execTailWrite (data : Word) (be : BitVec 4) (s : State) : Answer := .next (s.writeAt offTail data be)

/-- R159, R160: the issue field of the merged value is GO. -/
def execGo (n : Fin 16) (data : Word) (be : BitVec 4) (s : State) : Answer := .next (s.writeAt (offIssue n) data be)

/-- R159, R164: the issue field of the merged value is ABORT. -/
def execAbort (n : Fin 16) (data : Word) (be : BitVec 4) (s : State) : Answer := .next (s.writeAt (offIssue n) data be)

/-- R159, R165: the issue field of the merged value is CLEAR. -/
def execClear (n : Fin 16) (data : Word) (be : BitVec 4) (s : State) : Answer := .next (s.writeAt (offIssue n) data be)

/-- R159: the issue field of the merged value names no act. -/
def execInvalidIssueValue (n : Fin 16) (data : Word) (be : BitVec 4) (s : State) : Answer :=
  .next (s.writeAt (offIssue n) data be)

end Sys2Proof.Machine
end

