-- ==== Sys2Proof/Machine/ExecExam.lean ====
section
/-! DEFINITION. The meanings of the thirteen examinations of the slot at the front of the intake order (R161). One whose row is
not that of the front slot's captured command has no effect (notes/assumptions/5.md). -/

namespace Sys2Proof.Machine

/-- R10, R11. -/
def execEnrol (s : State) : Answer := .next (s.running fun _ d => d.examine .enrol (Dev.examineEnrol s.mirrors))

/-- R17. -/
def execWithdraw (s : State) : Answer := .next (s.running fun _ d => d.examine .withdraw Dev.examineWithdraw)

/-- R14, R15, R16. -/
def execContinue (s : State) : Answer := .next (s.running fun e d => d.examine .continueRecord (Dev.examineContinue e))

/-- R148, R150. -/
def execPeek (s : State) : Answer := .next (s.running fun _ d => d.examine .peek Dev.examinePeek)

/-- R148, R151. -/
def execPoke (s : State) : Answer := .next (s.running fun _ d => d.examine .poke Dev.examinePoke)

/-- R148, R152. -/
def execCall (s : State) : Answer := .next (s.running fun _ d => d.examine .call Dev.examineAnyCall)

/-- R148, R153. -/
def execGroupOrEstateCall (s : State) : Answer := .next (s.running fun _ d => d.examine .groupCall Dev.examineAnyCall)

/-- R148, R155. -/
def execEvict (s : State) : Answer := .next (s.running fun _ d => d.examine .evict Dev.examineEvict)

/-- R134. -/
def execSurvey (s : State) : Answer := .next (s.running fun _ d => d.examine .survey Dev.examineSurvey)

/-- R135. -/
def execAllLegsSurvey (s : State) : Answer := .next (s.running fun _ d => d.examine .allSurvey Dev.examineAllSurvey)

/-- R136. -/
def execHunt (s : State) : Answer := .next (s.running fun _ d => d.examine .hunt Dev.examineHunt)

/-- R147. -/
def execResume (s : State) : Answer := .next (s.running fun _ d => d.examine .resume Dev.examineResume)

/-- R161, R165. -/
def execBadKind (s : State) : Answer := .next (s.running fun _ d => d.examine .badKind Dev.examineBadKind)

end Sys2Proof.Machine
end

