-- ==== Sys2Proof/Machine/ExecLeg.lean ====
section
/-! DEFINITION. The meanings of the events of a leg: its lines, its timer, its channel, its sends and windows. -/

namespace Sys2Proof.Machine

/-! ## Lines and timer -/

/-- R58 to R60: FLT is asserted; outside operation only the pin's level is kept (R61, R178). -/
def execFltAsserted (l : Fin 4) (s : State) : Answer :=
  .next { s with dev := if s.phase = .running then s.dev.fltAssert l else s.dev.setFlt l true }

/-- R60: FLT is deasserted; outside operation only the pin's level is kept. -/
def execFltDeasserted (l : Fin 4) (s : State) : Answer :=
  .next { s with dev := if s.phase = .running then s.dev.fltRelease l else s.dev.setFlt l false }

/-- R65, R68. -/
def execPaceTimerExpiry (l : Fin 4) (s : State) : Answer := .next (s.running fun _ d => d.modLeg l Leg.paceExpiry)

/-! ## The channel -/

/-- R43. -/
def execChannelHandover (l : Fin 4) (s : State) : Answer := .next (s.asking fun e d => d.handOver e l)

/-- R136. -/
def execHuntEntersHunting (l : Fin 4) (s : State) : Answer := .next (s.running fun _ d => d.enterHunting l)

/-- R48. -/
def execWaitingListAdmit (l : Fin 4) (s : State) : Answer := .next (s.running fun _ d => d.fillQueue l)

/-! ## Sends -/

/-- R50. -/
def execDirectiveFirstSend (l : Fin 4) (s : State) : Answer := .next (s.running fun e d => d.firstSend e l)

/-- R51. -/
def execDirectiveRetry (l : Fin 4) (s : State) : Answer := .next (s.running fun e d => d.retrySend e l)

/-- R51, R53. -/
def execSendWindowEnd (l : Fin 4) (s : State) : Answer := .next (s.running fun e d => d.sendWindowEnd e l)

/-! ## Windows -/

/-- R69. -/
def execHailWindowOpen (l : Fin 4) (s : State) : Answer := .next (s.running fun e d => d.openHail e l)

/-- R71. -/
def execHailWindowEnd (l : Fin 4) (s : State) : Answer := .next (s.running fun e d => d.endHail e l)

/-- R130. -/
def execSurveyWindowOpen (l : Fin 4) (s : State) : Answer := .next (s.running fun e d => d.openSurvey e l)

/-- R131. -/
def execSurveyWindowEnd (l : Fin 4) (lit : Nat) (s : State) : Answer := .next (s.running fun e d => d.endSurvey e l lit)

end Sys2Proof.Machine
end

