-- ==== Sys2Proof/Machine/Dispatch.lean ====
section
/-! DEFINITION. The meaning of every command, one arm per row of spec/opcode_table.json. -/

namespace Sys2Proof.Machine

def exec (i : Instr) (s : State) : Host.Outcome State Fault Refusal :=
  match i with
  | .resetAsserted => Sys2Proof.Machine.execResetAsserted s
  | .resetReleased straps => Sys2Proof.Machine.execResetReleased straps s
  | .clearingEnd => Sys2Proof.Machine.execClearingEnd s
  | .fltAsserted l => Sys2Proof.Machine.execFltAsserted l s
  | .fltDeasserted l => Sys2Proof.Machine.execFltDeasserted l s
  | .cycleStart => Sys2Proof.Machine.execCycleStart s
  | .paceTimerExpiry l => Sys2Proof.Machine.execPaceTimerExpiry l s
  | .replyBurst l src tag code data level delay place => Sys2Proof.Machine.execReplyBurst l src tag code data level delay place s
  | .decodedHail l serial kind count level received => Sys2Proof.Machine.execDecodedHail l serial kind count level received s
  | .garbledBurst l place => Sys2Proof.Machine.execGarbledBurst l place s
  | .sendWindowEnd l => Sys2Proof.Machine.execSendWindowEnd l s
  | .directiveFirstSend l => Sys2Proof.Machine.execDirectiveFirstSend l s
  | .directiveRetry l => Sys2Proof.Machine.execDirectiveRetry l s
  | .hailWindowOpen l => Sys2Proof.Machine.execHailWindowOpen l s
  | .hailWindowEnd l => Sys2Proof.Machine.execHailWindowEnd l s
  | .surveyWindowOpen l => Sys2Proof.Machine.execSurveyWindowOpen l s
  | .surveyWindowEnd l lit => Sys2Proof.Machine.execSurveyWindowEnd l lit s
  | .channelHandover l => Sys2Proof.Machine.execChannelHandover l s
  | .huntEntersHunting l => Sys2Proof.Machine.execHuntEntersHunting l s
  | .waitingListAdmit l => Sys2Proof.Machine.execWaitingListAdmit l s
  | .pinWaitServe => Sys2Proof.Machine.execPinWaitServe s
  | .engineBurstBegin => Sys2Proof.Machine.execEngineBurstBegin s
  | .chunkFetchComplete => Sys2Proof.Machine.execChunkFetchComplete s
  | .ringEntryWriteComplete => Sys2Proof.Machine.execRingEntryWriteComplete s
  | .memoryAccessComplete => Sys2Proof.Machine.execMemoryAccessComplete s
  | .accessWithdrawn => Sys2Proof.Machine.execAccessWithdrawn s
  | .passedWrite addr data be => Sys2Proof.Machine.execPassedWrite addr data be s
  | .mirroredWrite w data be => Sys2Proof.Machine.execMirroredWrite w data be s
  | .watchedWrite k data be => Sys2Proof.Machine.execWatchedWrite k data be s
  | .levelRead w be => Sys2Proof.Machine.execLevelRead w be s
  | .commit data be => Sys2Proof.Machine.execCommit data be s
  | .clearWrite data be => Sys2Proof.Machine.execClearWrite data be s
  | .tailWrite data be => Sys2Proof.Machine.execTailWrite data be s
  | .go n data be => Sys2Proof.Machine.execGo n data be s
  | .abort n data be => Sys2Proof.Machine.execAbort n data be s
  | .clear n data be => Sys2Proof.Machine.execClear n data be s
  | .invalidIssueValue n data be => Sys2Proof.Machine.execInvalidIssueValue n data be s
  | .enrol => Sys2Proof.Machine.execEnrol s
  | .withdraw => Sys2Proof.Machine.execWithdraw s
  | .continueRecord => Sys2Proof.Machine.execContinue s
  | .peek => Sys2Proof.Machine.execPeek s
  | .poke => Sys2Proof.Machine.execPoke s
  | .call => Sys2Proof.Machine.execCall s
  | .groupOrEstateCall => Sys2Proof.Machine.execGroupOrEstateCall s
  | .evict => Sys2Proof.Machine.execEvict s
  | .survey => Sys2Proof.Machine.execSurvey s
  | .allLegsSurvey => Sys2Proof.Machine.execAllLegsSurvey s
  | .hunt => Sys2Proof.Machine.execHunt s
  | .resume => Sys2Proof.Machine.execResume s
  | .badKind => Sys2Proof.Machine.execBadKind s
  | .strayHailFormatBurst l serial kind count level place => Sys2Proof.Machine.execStrayHailFormatBurst l serial kind count level place s

end Sys2Proof.Machine
end

