-- ==== Sys2Proof/Machine/Step.lean ====
section
/-! DEFINITION. One step of the block: the command at the front of the queue; with none waiting the block idles
(notes/assumptions/4.md). -/

namespace Sys2Proof.Machine

/-- The state with its queue of commands replaced. -/
def State.withPending (s : State) (q : List Instr) : State := { s with pending := q }

/-- Take the front command and run its meaning with the queue's rest; idle on an empty queue. -/
def step (s : State) : Host.Outcome State Fault Refusal :=
  match s.pending with
  | [] => .next s
  | c :: rest => exec c (s.withPending rest)

/-- The state with the command that a word spells at the front of its queue; unchanged where the word spells none. -/
def State.withFetchWord (s : State) (nbits w : Nat) : State :=
  match Sys2Proof.decodeTableWord nbits w with
  | some c => s.withPending (c :: s.pending)
  | none => s

end Sys2Proof.Machine
end

