-- ==== Sys2Proof/Safety.lean ====
section
/-! DEFINITION. What must hold of the machine in every state a step leads to from a state in which it holds: the invariants that
the obligations speak of; and the words the obligations are written in. -/

namespace Sys2Proof.Machine

/-- Memory and the mirrors are in their one canonical form: equal contents are equal data. -/
def State.contentsCanonical (s : State) : Prop := Memory.wf s.mem = true ∧ Sparse.wf 0 s.mirrors = true

/-- The maps of the blocks are canonical: records, command slots, pin table, slot maps. -/
def Dev.mapsCanonical (d : Dev) : Prop :=
  Sparse.wf Rec.vacant d.recs = true ∧ Sparse.wf Slot.idle d.slots = true ∧ Sparse.wf Pin.free d.pins = true ∧
    ∀ l, Sparse.wf 0 (d.leg l).slotMap = true

/-- R44, R46, R48: the queue holds at most twelve entries, and a record waits only while it is full. -/
def Leg.queueKept (g : Leg) : Prop := g.queue.length ≤ queueCap ∧ (g.waiting ≠ [] → g.queue.length = queueCap)

/-- R42: the channel of a DARK or FAULTED leg is FREE. -/
def Leg.channelKept (g : Leg) : Prop := (g.st = .dark ∨ g.st = .faulted) → g.chan = .free

/-- R3: the stage field is present only in HELD and HALTED, and a fault code stands exactly in HALTED. -/
def Rec.fieldsKept (x : Rec) : Prop :=
  (x.stage ≠ none → x.state = .held ∨ x.state = .halted) ∧ (x.fault ≠ .none ↔ x.state = .halted)

/-- R73, R74, R79: the head and the tail are entry indices of the ring. -/
def Ring.within (g : Ring) (cap : Nat) : Prop := g.head < cap ∧ g.tail < cap

/-- R182: the ring capacity lies in its range. -/
def Applied.capKept (c : Applied) : Prop := 16 ≤ c.ringCap ∧ c.ringCap ≤ 384

/-- R178, R179, R180: the port is ENGINE exactly while a burst runs and CONTROLLER exactly while a passed access stands; each client
asks at most once; the pass count is 0..8; outside operation nothing is on the port or asked of it. -/
def State.portKept (s : State) : Prop :=
  (s.bus.port = .engine ↔ s.dev.burst.isSome = true) ∧
  (s.bus.port = .controller ↔ s.bus.passing.isSome = true) ∧
  s.dev.requests.Nodup ∧
  s.bus.passCount ≤ passLimit ∧
  (s.phase ≠ .running → s.bus.port = .free ∧ s.dev.requests = [])

/-- The invariants of the blocks under the applied configuration. -/
def State.blocksKept (s : State) : Prop :=
  s.dev.mapsCanonical ∧ (∀ l, (s.dev.leg l).queueKept ∧ (s.dev.leg l).channelKept) ∧ (∀ r, (s.dev.record r).fieldsKept) ∧
    s.dev.ring.within s.applied.ringCap ∧ s.applied.capKept

/-- The invariant of the machine. -/
def State.Inv (s : State) : Prop := s.blocksKept ∧ s.portKept

/-! ## Words of the statements -/

/-- The part operates, no access is held, and a controller access presented now that uses the port is passed at once (R173, R180). -/
def State.accepts (s : State) : Prop :=
  s.phase = .running ∧ s.bus.held = none ∧ (s.bus.port = .free ∨ s.bus.port = .controller) ∧
    (s.dev.requests = [] ∨ s.bus.passCount < passLimit)

/-- Memory after a write of the enabled bytes of `v` at a word-aligned address: those bytes, and every other byte as before. -/
def storesOnly (m m' : List Host.Cell) (addr : Nat) (be : BitVec 4) (v : Word) : Prop :=
  ∀ x, Memory.read m' x =
    if addr ≤ x ∧ x < addr + 4 ∧ be.getLsbD (x - addr) = true then byteOf v (x - addr) else Memory.read m x

/-- The mirror at an offset takes a value and every other mirror stands. -/
def mirrorsOnly (ms ms' : List (Nat × Word)) (off : Nat) (v : Word) : Prop :=
  ∀ o, Mirrors.word ms' o = if o / 4 = off / 4 then v else Mirrors.word ms o

/-- The controller's write of a word at a region offset. -/
def State.writeAccess (s : State) (off : Nat) (data : Word) (be : BitVec 4) : Access := ⟨regionAddr s.base off, data, be, true⟩

/-- A write is passed to memory: its enabled bytes are stored, it stands on the port, and the reset phase, the base, the cycle number
and the queue of commands are unchanged. With no engine request waiting the pass count stands (notes/assumptions/41.md). -/
def State.writePassed (s t : State) (a : Access) : Prop :=
  storesOnly s.mem t.mem a.wordAddr a.be a.data ∧
  t.bus = { port := .controller, passCount := if s.dev.requests = [] then s.bus.passCount else s.bus.passCount + 1, held := none,
            passing := some ⟨a, Memory.readWord s.mem a.wordAddr⟩, rdata := s.bus.rdata } ∧
  t.phase = s.phase ∧ t.base = s.base ∧ t.cycle = s.cycle ∧ t.pending = s.pending

/-- The applied configuration and the config status stand. -/
def State.sameConfig (s t : State) : Prop := t.applied = s.applied ∧ t.cstat = s.cstat

/-- The access that a command makes, at the region base `b`. -/
def accessOf (b : BitVec 4) : Instr → Option Access
  | .passedWrite addr data be => some ⟨addr, data, be, true⟩
  | .mirroredWrite w data be => some ⟨regionAddr b w.offset, data, be, true⟩
  | .watchedWrite i data be => some ⟨regionAddr b (offStore + 4 * i.val), data, be, true⟩
  | .levelRead w be => some ⟨w.address b, 0, be, false⟩
  | .commit data be => some ⟨regionAddr b offCommit, data, be, true⟩
  | .clearWrite data be => some ⟨regionAddr b offClear, data, be, true⟩
  | .tailWrite data be => some ⟨regionAddr b offTail, data, be, true⟩
  | .go n data be => some ⟨regionAddr b (offIssue n), data, be, true⟩
  | .abort n data be => some ⟨regionAddr b (offIssue n), data, be, true⟩
  | .clear n data be => some ⟨regionAddr b (offIssue n), data, be, true⟩
  | .invalidIssueValue n data be => some ⟨regionAddr b (offIssue n), data, be, true⟩
  | _ => none

/-- R162, R163: slot n enters DONE with a result and detail and CMD_DONE latches; every other slot stands. -/
def slotDone (d d' : Dev) (n : Nat) (res : ResultCode) (x : Detail) : Prop :=
  d'.slot n = { d.slot n with st := .done, result := res, detail := x, parts := [] } ∧
    d'.isSet .cmdDone = true ∧ ∀ m, m ≠ n → d'.slot m = d.slot m

/-- The slot at the front of the intake order, with its captured parameters, falls to an examination row. -/
def State.examines (s : State) (row : ExamRow) (n : Nat) (rest : List Nat) (ps : List Word) : Prop :=
  s.phase = .running ∧ s.dev.intake = n :: rest ∧ (s.dev.slot n).params = ps ∧ examRow ps = row

/-- A record without its level code and level flags and without what says where its work stands. -/
def Rec.plan (x : Rec) : Rec :=
  { x with
    level := 0, levelFresh := false, levelWanted := false, waiting := false, pinWait := false, muted := false, label := none
    slotList := [], ranging := none, held := none, pin := none }

/-- R13: record r is HALTED with a fault and a stage field and REC_HALTED latched; its address, delays, ranks and counts stand. -/
def haltedWith (d d' : Dev) (r : Nat) (f : FaultCode) (st : RecState) : Prop :=
  (d'.record r).plan = { (d.record r).plan with state := .halted, stage := some st, fault := f } ∧ d'.isSet .recHalted = true

/-- Every record but r keeps its state, address, delays, ranks and counts. -/
def othersKeep (d d' : Dev) (r : Nat) : Prop := ∀ q, q ≠ r → (d'.record q).plan = (d.record q).plan

/-- The directive in flight on leg l is `x`, a directive with one target whose window is open, and a reply from `src` with tag
`tag` is an answer to it, heard where it was placed (R36, R54). -/
def State.answers (s : State) (l : Fin 4) (x : InFlight) (src : BitVec 12) (tag : BitVec 6) (p : Option Placement) : Prop :=
  s.phase = .running ∧ (s.dev.leg l).chan = .directive x ∧ x.tag = some tag ∧ x.call = none ∧
    x.dir.target.answeredBy src = true ∧ x.hearsReply p = true

/-- The directive in flight on leg l is `x`, with one target, and the window of its last send has ended (R51). -/
def State.windowEnded (s : State) (l : Fin 4) (x : InFlight) (c : BitVec 16) : Prop :=
  s.phase = .running ∧ (s.dev.leg l).chan = .directive x ∧ x.phase = .listening c ∧ x.call = none ∧
    x.window + 1 + lag x.reach ≤ cyclesFrom c s.cycle

/-- The command `c` ends the directive `x` in flight on leg l, which has one target: an OK or REFUSED answer to it, or the end of its last
send's window (R51). -/
def State.endsBy (s : State) (l : Fin 4) (x : InFlight) (c : Instr) : Prop :=
  (∃ src tag code data level delay p, c = .replyBurst l src tag code data level delay p ∧ s.answers l x src tag p ∧
    (code = .ok ∨ code = .refused)) ∨
  (∃ c0, c = .sendWindowEnd l ∧ s.windowEnded l x c0 ∧ x.attempts ≤ x.sends)

/-- An issue write passed at once whose merged value's issue field is ABORT, to a slot that is RUNNING (R159, R164). -/
def State.abortsRunning (s : State) (n : Fin 16) (data : Word) (be : BitVec 4) : Prop :=
  s.accepts ∧ s.contentsCanonical ∧ s.Inv ∧ be ≠ 0 ∧
    field (mergeBytes be data (Mirrors.word s.mirrors (offIssue n))) 0 8 = 2 ∧ (s.dev.slot n).st = .running

/-- A directive just handed the channel in cycle c (R50): nothing sent, no tag, the reach target kept. -/
def takenNow (dir : Directive) (o : Origin) (ph : SendPhase) (reach : Nat) : InFlight :=
  { dir := dir, origin := o, phase := ph, reach := reach, tag := none, sends := 0, attempts := 0, spacing := 0, window := 0,
    unsettled := false, call := none, disturbed := false, data := [] }

/-- R10: the range checks on the enrolment fields. -/
def EnrolFields.inRange (f : EnrolFields) : Prop :=
  f.serial ≠ 0 ∧ f.leg ≤ 3 ∧ 1 ≤ f.addr.toNat ∧ f.addr.toNat ≤ 0xDFF ∧
    (f.group = 0 ∨ (0xE00 ≤ f.group.toNat ∧ f.group.toNat ≤ 0xEFE)) ∧ f.demand ≤ 8 ∧ f.hold ≤ 3 ∧
    (f.noProfile = true ∨
      (f.start ≤ 32767 ∧ f.start + f.lenCode + 1 ≤ 32768 ∧ f.mode ≤ 1 ∧
        f.dest + (if f.mode = 0 then f.lenCode + 1 else min (f.lenCode + 1) 16) ≤ 1024))

/-- Record r of another index is on leg l: non-VACANT, and not the record being enrolled. -/
def Dev.otherOn (d : Dev) (r q : Nat) (l : Fin 4) : Prop :=
  q ≠ r ∧ (d.record q).state ≠ .vacant ∧ (d.record q).enrol.leg = l

/-- The directives of record r that leg l holds: in flight, queued, waiting. -/
def Leg.directivesOf (g : Leg) (r : Nat) : List Directive :=
  (match g.inFlight with
   | some x => if x.origin = .record r then [x.dir] else []
   | none => []) ++
  (g.queue.filter fun e => decide (e.origin = .record r)).map Entry.dir ++
  (g.waiting.filter fun w => decide (w.r = r)).map Waiter.dir

/-- R46: where the queue of leg l has room and record r neither an entry nor a waiting place, record r's directive with body `b` for its
drop address joins the back of the queue. -/
def offered (d d' : Dev) (l : Fin 4) (r : Nat) (b : Body) : Prop :=
  (d.leg l).queue.length < 12 → (d.leg l).hasEntry r = false → (d.leg l).isWaiting r = false →
    (d'.leg l).queue = (d.leg l).queue ++ [⟨⟨.individual (d.record r).enrol.addr, b⟩, .record r⟩]

/-- Record r is a non-VACANT record of leg l in the state `st`, and its stage directive with body `b` is the one in flight. -/
def Dev.stageInFlight (d : Dev) (l : Fin 4) (r : Nat) (x : InFlight) (st : RecState) : Prop :=
  (d.record r).state = st ∧ (d.record r).enrol.leg = l ∧ x.origin = .record r

end Sys2Proof.Machine
end

