-- ==== Sys2Proof/Certificates/Slice0/Obligations.lean ====
section
/-! DEFINITION. The statements for the provers. Their words (what a write does, a slot that completes, a record that halts) are in
Sys2Proof/Safety.lean. -/

open Sys2Proof Sys2Proof.Machine

/-! ## The step, reset and the invariants -/

/-- A step takes the command at the front of the queue and is its meaning on the state with the queue's rest; with no command waiting the
block idles (the model's choice, notes/assumptions/4.md). -/
def Obligations.StepRunsFrontCommand : Prop :=
  (∀ (c : Instr) (rest : List Instr) (s : State), step { s with pending := c :: rest } = exec c { s with pending := rest }) ∧
  (∀ s : State, s.pending = [] → step s = .next s)

/-- The state after reset holds the values the rules give: cycle number 0 (R26), every leg as in R63, R64 and R146, records VACANT
(R1), slots IDLE (R158), causes clear (R166), the ring empty with capacity 16 (R81, R182), the pin table FREE (R107), the slot maps
free (R118), every mirror zero (R174), the port FREE (R179), no commit yet (R185). The straps, the FLT levels and the bus's data
lines are the model's choice (notes/assumptions/2.md). -/
def Obligations.ResetHoldsSpecValues : Prop :=
  let s := State.reset
  s.cycle = 0 ∧ s.phase = .running ∧
  (∀ l, let g := s.dev.leg l
    g.st = .dark ∧ g.chan = .free ∧ g.currentTag = none ∧ g.tagCtr = 0 ∧ g.queue = [] ∧ g.waiting = [] ∧ g.pendSurvey = none ∧
    g.pendHail = false ∧ g.mode = .off ∧ g.timer = 0 ∧ g.running = false ∧ g.reload = 0 ∧ g.lastWindow = .none ∧ g.stray = 0 ∧
    g.lastSurvey = .none ∧ g.lastCount = 0 ∧ g.hunt = Hunt.idle ∧ g.quiet = false ∧ ∀ k, g.slotByte k = 0) ∧
  (∀ r, s.dev.record r = Rec.vacant) ∧
  (∀ n, s.dev.slot n = Slot.idle) ∧ s.dev.intake = [] ∧
  (∀ c, s.dev.isSet c = false) ∧ s.dev.ring.pendingNow = false ∧ s.attn = false ∧
  s.dev.ring = { head := 0, tail := 0, overrun := false, badTail := false, writeList := [] } ∧ s.applied.ringCap = 16 ∧
  s.applied.mask = 0 ∧ (∀ l, s.applied.leg l = LegConfig.zero) ∧
  (∀ i, (s.dev.pin i).st = .free) ∧ s.dev.pinWait = [] ∧ s.dev.fetches = [] ∧
  (∀ off, Mirrors.word s.mirrors off = 0) ∧
  s.bus.port = .free ∧ s.bus.passCount = 0 ∧ s.dev.requests = [] ∧
  s.cstat = { status := .none, field := none, reason := none, count := 0 }

/-- The reset state satisfies the invariants, and its memory and mirrors are canonical. -/
def Obligations.ResetSatisfiesInvariants : Prop := State.reset.Inv ∧ State.reset.contentsCanonical

/-- Every step keeps the invariant: queues of at most twelve entries and waiting only behind a full one (R44, R48), no owner on a
DARK or FAULTED leg's channel (R42), fault code and stage field only where R3 has them, head and tail inside the ring (R74), the
ring capacity in its range (R182), the port's owner and its requests as R179 has them. -/
def Obligations.EveryStepKeepsTheInvariant : Prop := ∀ s t : State, s.Inv → step s = .next t → t.Inv

/-- Every step keeps memory and the mirrors in their one canonical form. -/
def Obligations.EveryStepKeepsContentsCanonical : Prop :=
  ∀ s t : State, s.contentsCanonical → step s = .next t → t.contentsCanonical

/-! ## RESETn (R178) -/

/-- RESETn falls. An access being passed is held with the wait line, the engine bursts, requests and fetches end, and memory keeps
every byte but those of a cut write, each of which has its old or its new value; of a cut ring entry the words came in ascending
order (R181), so one word parts those written from those that stand (how far it came is a free value, notes/assumptions/12.md). The
blocks' other state stands until the
clearing (the model's choice, notes/assumptions/28.md). With RESETn low already nothing changes (the model's choice,
notes/assumptions/5.md). -/
def Obligations.ResetAssertedCutsTheBus : Prop :=
  ∀ s : State, s.contentsCanonical →
    (s.phase = .low → exec .resetAsserted s = .next s) ∧
    (s.phase ≠ .low → ∃ t, exec .resetAsserted s = .next t ∧
      t.phase = .low ∧ t.attn = false ∧
      t.bus = { s.bus with port := .free, passing := none
                           held := match s.bus.held with
                             | some a => some a
                             | none => s.bus.passing.map Passing.acc } ∧
      t.dev = { s.dev with burst := none, requests := [], fetches := [], seed := t.dev.seed } ∧
      t.mirrors = s.mirrors ∧ t.base = s.base ∧ t.cycle = s.cycle ∧ s.sameConfig t ∧ t.pending = s.pending ∧
      ∀ x, Memory.read t.mem x = Memory.read s.mem x ∨
        (∃ (p : Passing) (k : Nat), s.bus.passing = some p ∧ p.acc.write = true ∧ k < 4 ∧ p.acc.be.getLsbD k = true ∧
          x = p.acc.wordAddr + k ∧ Memory.read t.mem x = byteOf p.old k) ∨
        (s.dev.burst = some .ring ∧ s.headAddr ≤ x ∧
          s.dev.ring.frontBytes[x - s.headAddr]? = some (Memory.read t.mem x))) ∧
    (s.phase ≠ .low → s.dev.burst = some .ring → s.bus.passing = none → s.dev.ring.writeList ≠ [] →
      ∃ t w, exec .resetAsserted s = .next t ∧ w < 8 ∧ ∀ i, i < 32 →
        (i / 4 < w → s.dev.ring.frontBytes[i]? = some (Memory.read t.mem (s.headAddr + i))) ∧
        (w < i / 4 → Memory.read t.mem (s.headAddr + i) = Memory.read s.mem (s.headAddr + i)))

/-- RESETn rises: the straps are the base, the mirrors are zero, every block has its reset values, an access stays held, and memory
stands. The FLT pins keep their levels.
The clearing ends: with no access presented only the phase changes; a write or a read that is presented is taken as a new one (a read
carries no data). -/
def Obligations.ResetReleasedThenCleared : Prop :=
  (∀ (s : State) (straps : BitVec 4), s.phase = .low →
    ∃ t, exec (.resetReleased straps) s = .next t ∧
      t.phase = .clearing ∧ t.base = straps ∧ t.cycle = 0 ∧ t.attn = false ∧
      t.applied = Applied.afterReset ∧ t.cstat = ConfigStatus.afterReset ∧
      (∀ off, Mirrors.word t.mirrors off = 0) ∧ t.mem = s.mem ∧ t.pending = s.pending ∧
      t.bus.port = .free ∧ t.bus.passCount = 0 ∧ t.bus.passing = none ∧ t.bus.held = s.bus.held ∧
      (∀ r, t.dev.record r = Rec.vacant) ∧ (∀ n, t.dev.slot n = Slot.idle) ∧ (∀ i, t.dev.pin i = Pin.free) ∧
      (∀ l, t.dev.leg l = Leg.afterReset (s.dev.leg l).flt) ∧ t.dev.ring = Ring.afterReset ∧ t.dev.causes = 0 ∧
      t.dev.intake = [] ∧ t.dev.pinWait = [] ∧ t.dev.fetches = [] ∧ t.dev.requests = [] ∧ t.dev.burst = none) ∧
  (∀ s : State, s.phase = .clearing → s.bus.port = .free →
    (s.bus.held = none → exec .clearingEnd s = .next { s with phase := .running }) ∧
    (∀ a, s.bus.held = some a → a.write = true →
      exec .clearingEnd s =
        exec (.passedWrite a.addr a.data a.be) { s with phase := .running, bus := { s.bus with held := none } }) ∧
    (∀ addr be, s.bus.held = some ⟨addr, 0, be, false⟩ →
      exec .clearingEnd s = exec (.levelRead (.word addr) be) { s with phase := .running, bus := { s.bus with held := none } }))

/-- An access presented while the part is not in operation is held and nothing else changes (R178); so is a write that uses the port
while an engine burst has it (R173, R181). -/
def Obligations.AccessIsHeldOffThePort : Prop :=
  ∀ (s : State) (c : Instr) (a : Access), accessOf s.base c = some a → s.bus.held = none →
    (s.phase ≠ .running ∨ (s.bus.port = .engine ∧ s.usesPort a = true)) →
    exec c s = .next { s with bus := { s.bus with held := some a } }

/-! ## Controller accesses (chapter 11) -/

/-- A write that reaches memory only (R171, R172): outside the region, to a PLAIN word, or with no byte enabled to a word that uses the
port. Its enabled bytes are stored and no block, mirror or configuration changes.
A write to a LIVE word is completed: memory is not written and nothing of the part changes (R172, R175), whatever the byte
enables and whether or not an engine burst has the port. A controller access passed before has completed by then (deduced,
notes/assumptions/10.md), as AccessCompletesOrIsWithdrawn says. -/
def Obligations.PassedWriteByClass : Prop :=
  (∀ (s : State) (addr : BitVec 24) (data : Word) (be : BitVec 4), s.accepts → s.contentsCanonical →
    (inRegion s.base addr = false ∨ classOf (wordOffset addr) = .plain ∨ (be = 0 ∧ liveClass (classOf (wordOffset addr)) = false)) →
    ∃ t, exec (.passedWrite addr data be) s = .next t ∧ s.writePassed t ⟨addr, data, be, true⟩ ∧
      t.mirrors = s.mirrors ∧ s.sameConfig t ∧ t.dev = s.dev) ∧
  (∀ (s : State) (addr : BitVec 24) (data : Word) (be : BitVec 4), s.phase = .running → s.bus.held = none →
    inRegion s.base addr = true → liveClass (classOf (wordOffset addr)) = true →
    (s.bus.port ≠ .controller → exec (.passedWrite addr data be) s = .next s) ∧
    (s.bus.port = .controller → s.dev.requests = [] →
      exec (.passedWrite addr data be) s = .next { s with bus := { s.bus with port := .free, passing := none } }) ∧
    (s.bus.port = .controller → exec (.passedWrite addr data be) s = exec .memoryAccessComplete s))

/-- A write to a MIRRORED word with a byte enabled: memory's enabled bytes and the mirror take the written bytes, the mirror's other
bytes stand, and nothing else of the part changes (R172, R174).
R174: the merged value, byte by byte: the written byte of an enabled lane, the mirror's byte of another. -/
def Obligations.MirroredWriteSetsMirrorAndMemory : Prop :=
  (∀ (s : State) (w : MirrorWord) (data : Word) (be : BitVec 4), s.accepts → s.contentsCanonical → be ≠ 0 →
    ∃ t, exec (.mirroredWrite w data be) s = .next t ∧ s.writePassed t (s.writeAccess w.offset data be) ∧
      mirrorsOnly s.mirrors t.mirrors w.offset (mergeBytes be data (Mirrors.word s.mirrors w.offset)) ∧
      s.sameConfig t ∧ t.dev = s.dev) ∧
  (∀ (be : BitVec 4) (new old : Word) (k : Nat), k < 4 →
    byteOf (mergeBytes be new old) k = if be.getLsbD k then byteOf new k else byteOf old k)

/-- A watched write is stored, changes no mirror, and is reported to the load engine. Where no OPEN entry holds a written byte no
block changes (R115, R177). Where one OPEN entry holds one and one record uses it, the entry closes, and the record halts at once with
SOURCE_CHANGED, or, while its LOAD owns the channel, that LOAD is marked disturbed (R116). -/
def Obligations.WatchedWriteReachesTheLoadEngine : Prop :=
  ∀ (s : State) (i : Fin 8192) (data : Word) (be : BitVec 4), s.accepts → s.contentsCanonical → s.Inv → be ≠ 0 →
    ∃ t, exec (.watchedWrite i data be) s = .next t ∧ s.writePassed t (s.writeAccess (offStore + 4 * i.val) data be) ∧
      t.mirrors = s.mirrors ∧ s.sameConfig t ∧
      (s.dev.touchedPins (4 * i.val) be = [] → t.dev = s.dev) ∧
      (∀ k r, s.dev.touchedPins (4 * i.val) be = [k] → s.dev.pinUsers k = [r] → (s.dev.record r).state = .loading →
        (if (s.dev.leg (s.dev.record r).enrol.leg).loadFlight r then
          t.dev = (s.dev.closePin k).modLeg (s.dev.record r).enrol.leg Leg.markDisturbed
        else haltedWith s.dev t.dev r .sourceChanged .loading ∧ othersKeep s.dev t.dev r))

/-- A read of a record's level word with a byte enabled returns the level code and LEVEL_FRESH as they stood, then clears LEVEL_FRESH
and sets LEVEL_WANTED; a LEVEL joins the queue exactly where R24's four conditions hold. Memory, the mirrors and the port's owner
stand, and the read is not held behind an engine burst (R175).
The live words (13.2 to 13.7, R188, R189): config status, summary, ring head and status (R80, R170, R185), a slot's result words, which
show the state alone unless it is DONE, the leg status block (R63) and a record's words 8 to 14, field by field, absent values as R188
encodes them.
A level read of a VACANT record returns zero and changes nothing; with no byte enabled the read of any record's level word
returns zero and has no effect (R24, R175).
A read of any other word, which the command's operand names too (notes/assumptions/11.md): of a LIVE word it returns the word as it
stands, or zero with no byte enabled, off the port, and changes nothing (R172, R175); a read that uses the port, in the region or
outside it, is passed: memory's word is on the data lines (in every lane: notes/assumptions/18.md), the port is CONTROLLER, the pass
counts while an engine request stands,
and memory, mirrors, configuration and blocks are unchanged (R171, R172, R173, R179, R180). -/
def Obligations.LevelReadMarksAndMayQueue : Prop :=
  (∀ (s : State) (r : Fin 256) (be : BitVec 4), s.phase = .running → s.bus.held = none → s.bus.port ≠ .controller → s.Inv → be ≠ 0 →
    (s.dev.record r).state ≠ .vacant →
    let x := s.dev.record r
    let l := x.enrol.leg
    let g := s.dev.leg l
    ∃ d, exec (.levelRead (.level r) be) s =
        .next { s with dev := d, bus := { s.bus with rdata := BitVec.ofNat 32 (x.level.toNat + 256 * bit x.levelFresh) } } ∧
      d.record r = { x with levelFresh := false, levelWanted := true } ∧ (∀ q, q ≠ r.val → d.record q = s.dev.record q) ∧
      d.leg l = (if x.state = .active ∧ g.busyWith r = false ∧ (g.st = .running ∨ g.st = .suspended) ∧ g.queue.length < queueCap then
        { g with queue := g.queue ++ [⟨⟨.individual x.enrol.addr, .level⟩, .level r⟩] } else g) ∧
      (∀ k, k ≠ l → d.leg k = s.dev.leg k)) ∧
  (∀ (s : State) (r : Fin 256) (be : BitVec 4), s.phase = .running → s.bus.held = none → s.bus.port ≠ .controller →
    (be = 0 ∨ s.dev.record r = Rec.vacant) →
    exec (.levelRead (.level r) be) s = .next { s with bus := { s.bus with rdata := 0 } }) ∧
  (∀ (s : State) (addr : BitVec 24) (be : BitVec 4), s.phase = .running → s.bus.held = none → s.bus.port ≠ .controller →
    inRegion s.base addr = true → classOf (wordOffset addr) = .live →
    exec (.levelRead (.word addr) be) s =
      .next { s with bus := { s.bus with rdata := if be = 0 then 0 else s.liveWord (wordOffset addr) } }) ∧
  (∀ (s : State) (addr : BitVec 24) (be : BitVec 4), s.accepts →
    (inRegion s.base addr = false ∨ liveClass (classOf (wordOffset addr)) = false) →
    let a : Access := ⟨addr, 0, be, false⟩
    let v := Memory.readWord s.mem a.wordAddr
    exec (.levelRead (.word addr) be) s = .next { s with bus :=
      { port := .controller, passCount := if s.dev.requests = [] then s.bus.passCount else s.bus.passCount + 1, held := none
        passing := some ⟨a, v⟩, rdata := v } }) ∧
  (∀ s : State,
    let word (off : Nat) : Word := s.liveWord off
    let ring := s.dev.ring
    let cap := s.applied.ringCap
    word 0x00F0 = packBytes s.cstat.status.code (s.cstat.field.getD 0xFF) ((s.cstat.reason.map CommitReason.code).getD 0) 0 ∧
    word 0x00F4 = BitVec.ofNat 32 s.cstat.count.toNat ∧
    word 0x0100 = BitVec.ofNat 32 (s.dev.causes.toNat + 256 * bit ring.pendingNow + 2147483648 * bit s.attn) ∧
    word 0x0108 = BitVec.ofNat 32 ring.head ∧
    word 0x010C = BitVec.ofNat 32 ((if ring.badTail then cap - 1 else (ring.head + cap - ring.tail) % cap) + 65536 * bit ring.overrun +
      131072 * bit ring.badTail) ∧
    (∀ n : Fin 16, let x := s.dev.slot n
      let y := x.detail
      if x.st = .done then
        word (offSlot n + 52) = packBytes (3 + 16 * (y.len % 16)) x.result.code y.a y.b ∧ word (offSlot n + 56) = y.w14 ∧
          word (offSlot n + 60) = y.w15
      else word (offSlot n + 52) = BitVec.ofNat 32 x.st.code ∧ word (offSlot n + 56) = 0 ∧ word (offSlot n + 60) = 0) ∧
    (∀ l : Fin 4, let g := s.dev.leg l
      let w (i : Nat) : Word := word (offLeg l + 4 * i)
      w 0 = packBytes g.st.code g.chan.code ((g.currentTag.map BitVec.toNat).getD 0xFF) g.mode.code ∧
      w 1 = BitVec.ofNat 32 (g.queue.length % 16 + 256 * (g.waiting.length % 512) + 16777216 * bit g.pendSurvey.isSome +
        33554432 * bit g.pendHail) ∧
      w 2 = BitVec.ofNat 32 (g.timer % 4096 + 32768 * bit g.running + 65536 * (g.reload % 4096)) ∧
      w 3 = packBytes g.lastWindow.code g.stray g.lastSurvey.code 0 ∧
      w 4 = BitVec.ofNat 32 (g.lastCount % 4096) ∧
      w 5 = packBytes g.hunt.phase.code g.hunt.lastResult.code g.hunt.steps g.hunt.half.length ∧
      w 6 = packHalves (g.hunt.cands.length % 512) (g.hunt.lastCulprit.getD 0xFFFF) ∧
      (∀ k, 8 ≤ k → k < 48 → byteOf (w (6 + k / 4)) (k % 4) = BitVec.ofNat 8 (g.slotByte k)) ∧
      ∀ i, i = 7 ∨ (18 ≤ i ∧ i < 64) → w i = 0) ∧
    (∀ r : Fin 256, let x := s.dev.record r
      let w (i : Nat) : Word := word (offRecord r + 4 * i)
      w 8 = packBytes x.state.code ((x.stage.map RecState.code).getD 0) x.fault.code
        (bit x.addressed + 2 * bit x.assignSent + 4 * bit x.muted + 8 * bit x.waiting + 16 * bit x.pinWait + 32 * bit x.levelFresh +
          64 * bit x.levelWanted) ∧
      w 9 = packBytes x.hails x.rehails (x.groupRank.getD 0xFF) x.legRank ∧
      w 10 = packHalves (x.measured.getD 0) (x.equalise.getD 0) ∧
      w 11 = packBytes (bit x.measured.isSome + 2 * bit x.equalise.isSome) x.attempts x.chunksAck x.chunksTotal ∧
      w 12 = packBytes (x.label.getD 0) x.slotList.length x.freeCount 0 ∧
      ∀ k, k < 8 → byteOf (w (13 + k / 4)) (k % 4) = BitVec.ofNat 8 ((x.slotList[k]?).getD 0))) ∧
  ([RecState.vacant, .expected, .probing, .assigning, .ranging, .equalising, .loading, .granting, .active, .held, .halted,
      .withdrawing].map RecState.code = List.range 12 ∧
    [FaultCode.none, .addressTaken, .assignRefused, .noAnswer, .noEcho, .unstable, .tooFar, .weakLight, .equaliseRefused,
      .profileRefused, .sourceChanged, .noSlots, .grantRefused, .flapping, .legFault, .rogue].map FaultCode.code = List.range 16 ∧
    [ResultCode.none, .ok, .aborted, .badKind, .badField, .wrongState, .dupAddress, .dupSerial, .groupFull, .legOff, .legFault,
      .legHunting, .legBusy, .addressOwned, .refused, .silent, .unsettled, .partialAnswer].map ResultCode.code = List.range 18 ∧
    [SlotState.idle, .queued, .running, .done].map SlotState.code = List.range 4 ∧
    [LegState.dark, .running, .suspended, .hunting, .faulted].map LegState.code = List.range 5 ∧
    [HailMode.off, .single, .continuous].map HailMode.code = List.range 3 ∧
    [WindowOutcome.none, .empty, .hails, .garbled].map WindowOutcome.code = List.range 4 ∧
    [SurveyOut.none, .dark, .lit, .blazing, .notRun, .legFault].map SurveyOut.code = List.range 6 ∧
    [HuntPhase.idle, .starting, .confirming, .muting, .surveying, .unmuting].map HuntPhase.code = List.range 6 ∧
    [HuntResult.none, .found, .noRogue, .strayRogue, .aborted, .legFault].map HuntResult.code = List.range 6 ∧
    [CommitStatus.none, .applied, .rejected].map CommitStatus.code = List.range 3 ∧
    [CommitReason.range, .legOccupied, .reachLocked, .ringBusy].map CommitReason.code = [1, 2, 3, 4] ∧
    Chan.free.code = 0 ∧ (∀ x, (Chan.directive x).code = 1) ∧ (∀ w, (Chan.hail w).code = 2) ∧ (∀ w, (Chan.survey w).code = 3) ∧
    (∀ g : Leg, (∀ x, g.chan = .directive x → g.currentTag = x.tag) ∧ ((∀ x, g.chan ≠ .directive x) → g.currentTag = none)))

/-- Memory completes the controller's access: the port is freed (R173, R179); with no access passed nothing changes (the model's
choice, notes/assumptions/5.md). A port freed goes to its next claimant at once (R180): with no access held and no engine request it
is FREE and nothing else changes; a held access passes while no engine request stands or the pass count is below 8; else the front
engine request's burst begins and the pass count is 0. A held read that passes shows memory's whole word on the data lines, the lanes
it did not enable too: the model's choice (notes/assumptions/18.md). On its mirror and its owner, and on all else, a held access has at
the freed port the effect of its row presented at a FREE port (R173, R174, R176).
A withdrawn access is dropped: it changes no mirror, no memory and reaches no owner (R173). -/
def Obligations.AccessCompletesOrIsWithdrawn : Prop :=
  (∀ s : State, s.phase = .running →
    exec .memoryAccessComplete s = .next (if s.bus.port = .controller then s.freePort else s)) ∧
  (∀ s : State,
    (s.bus.held = none → s.dev.requests = [] → s.freePort = { s with bus := { s.bus with port := .free, passing := none } }) ∧
    (∀ a, s.bus.held = some a → (s.dev.requests = [] ∨ s.bus.passCount < 8) →
      let v := Memory.readWord s.mem a.wordAddr
      s.freePort.bus =
        { port := .controller, passCount := if s.dev.requests = [] then s.bus.passCount else s.bus.passCount + 1, held := none
          passing := some ⟨a, v⟩, rdata := if a.write then s.bus.rdata else v } ∧
      s.freePort.mem = (if a.write then Memory.writeWord s.mem a.wordAddr a.be a.data else s.mem)) ∧
    (∀ rest b, (s.bus.held = none ∨ s.bus.passCount = 8) →
      ((∃ f fs, s.dev.requests = .load :: rest ∧ s.dev.fetches = f :: fs ∧ b = .fetch f false) ∨
        (s.dev.requests = .ring :: rest ∧ s.dev.ring.full s.applied.ringCap = false ∧ b = .ring)) →
      s.freePort = { s with
        bus := { s.bus with port := .engine, passing := none, passCount := 0 }
        dev := { s.dev with burst := some b, requests := rest } }) ∧
    (∀ a c, s.phase = .running → s.bus.held = some a → s.usesPort a = true → accessOf s.base c = some a →
      exec c { s with bus := { s.bus with port := .free, passing := none, held := none } } = .next s.freePort)) ∧
  (∀ s : State, exec .accessWithdrawn s = .next { s with bus := { s.bus with held := none } })

/-! ## Attention, ring tail, issue words (R167 to R169, R77, R159) -/

/-- A clear write clears the latched causes whose bit is one in the merged value and leaves the others (R168). -/
def Obligations.ClearWriteClearsNamedCauses : Prop :=
  ∀ (s : State) (data : Word) (be : BitVec 4), s.accepts → s.contentsCanonical → be ≠ 0 →
    let v := mergeBytes be data (Mirrors.word s.mirrors offClear)
    ∃ t, exec (.clearWrite data be) s = .next t ∧ s.writePassed t (s.writeAccess offClear data be) ∧
      mirrorsOnly s.mirrors t.mirrors offClear v ∧ s.sameConfig t ∧
      t.dev = { s.dev with causes := t.dev.causes } ∧
      ∀ c : Cause, t.dev.isSet c = (s.dev.isSet c && !v.getLsbD c.index)

/-- RING_PENDING is a live cause: true while head and tail differ and bad-tail is clear, false otherwise; it is bit 8 of the summary
word, and a clear write does not act on it (R167). -/
def Obligations.RingPendingIsALiveCause : Prop :=
  ∀ s : State,
    (s.dev.ring.pendingNow = true ↔ s.dev.ring.head ≠ s.dev.ring.tail ∧ s.dev.ring.badTail = false) ∧
    (s.summaryWord.getLsbD 8 = s.dev.ring.pendingNow) ∧
    ∀ (v : Word), (s.dev.clearCauses v).ring = s.dev.ring ∧ (∀ c, (s.dev.latch c).ring = s.dev.ring)

/-- ATTN is high exactly when, in operation, a set latched cause or a true RING_PENDING has its mask bit set (R169). -/
def Obligations.AttnIsTheMaskedLevel : Prop :=
  ∀ s : State, s.attn = true ↔
    s.phase = .running ∧ ((∃ c : Cause, s.dev.isSet c = true ∧ s.applied.mask.getLsbD c.index = true) ∨
      (s.dev.ring.pendingNow = true ∧ s.applied.mask.getLsbD 8 = true))

/-- A tail write: mirror and memory take the merged value; the overrun marker clears; a tail field below C becomes the tail and clears
bad-tail; one of C or more sets bad-tail (R77). With no byte enabled it passes to memory and has no effect. -/
def Obligations.TailWriteMovesTheTail : Prop :=
  ∀ (s : State) (data : Word) (be : BitVec 4), s.accepts → s.contentsCanonical →
    let v := mergeBytes be data (Mirrors.word s.mirrors offTail)
    let f := field v 0 16
    ∃ t, exec (.tailWrite data be) s = .next t ∧ s.writePassed t (s.writeAccess offTail data be) ∧ s.sameConfig t ∧
      (be = 0 → t.mirrors = s.mirrors ∧ t.dev = s.dev) ∧
      (be ≠ 0 → mirrorsOnly s.mirrors t.mirrors offTail v ∧ t.dev = { s.dev with ring := t.dev.ring } ∧
        t.dev.ring.overrun = false ∧ t.dev.ring.head = s.dev.ring.head ∧ t.dev.ring.writeList = s.dev.ring.writeList ∧
        (f < s.applied.ringCap → t.dev.ring.tail = f ∧ t.dev.ring.badTail = false) ∧
        (s.applied.ringCap ≤ f → t.dev.ring.tail = s.dev.ring.tail ∧ t.dev.ring.badTail = true)) ∧
      t.dev.ring.pendingNow = (decide (t.dev.ring.head ≠ t.dev.ring.tail) && !t.dev.ring.badTail) ∧
      t.dev.ring.full t.applied.ringCap =
        (t.dev.ring.badTail || decide ((t.dev.ring.head + t.applied.ringCap - t.dev.ring.tail) % t.applied.ringCap =
          t.applied.ringCap - 1))

/-- A GO, ABORT or CLEAR of slot n and an invalid issue value: the write itself, and the issue field of the merged value acts on the slot
by its state (R159, R160, R164 while QUEUED, R165). The issue word's mirror is no parameter word, so the capture is of the parameter
words as they stand. -/
def Obligations.IssueWriteActsOnTheSlot : Prop :=
  ∀ (s : State) (n : Fin 16) (data : Word) (be : BitVec 4) (c : Instr), s.accepts → s.contentsCanonical → s.Inv → be ≠ 0 →
    c ∈ [Instr.go n data be, .abort n data be, .clear n data be, .invalidIssueValue n data be] →
    let v := mergeBytes be data (Mirrors.word s.mirrors (offIssue n))
    let x := s.dev.slot n
    ∃ t, exec c s = .next t ∧ s.writePassed t (s.writeAccess (offIssue n) data be) ∧
      mirrorsOnly s.mirrors t.mirrors (offIssue n) v ∧ s.sameConfig t ∧
      (field v 0 8 = 1 →
        if x.st = .idle ∨ x.st = .done then
          t.dev = { s.dev with slots := t.dev.slots, intake := s.dev.intake ++ [n.val] } ∧
          t.dev.slot n = { st := .queued, params := (List.range 12).map fun i => Mirrors.word s.mirrors (offSlot n + 4 * i),
                           result := .none, detail := .zero, parts := [] } ∧
          ∀ m, m ≠ n.val → t.dev.slot m = s.dev.slot m
        else t.dev = s.dev.latch .issueIgnored) ∧
      (field v 0 8 = 2 → x.st = .queued →
        t.dev.intake = s.dev.intake.filter (fun m => decide (m ≠ n.val)) ∧ slotDone s.dev t.dev n .aborted .zero) ∧
      (field v 0 8 = 2 → x.st = .idle ∨ x.st = .done → t.dev = s.dev) ∧
      (field v 0 8 = 3 →
        if x.st = .done then
          t.dev = { s.dev with slots := t.dev.slots } ∧ t.dev.slot n = Slot.idle ∧ ∀ m, m ≠ n.val → t.dev.slot m = s.dev.slot m
        else t.dev = s.dev) ∧
      (field v 0 8 = 0 ∨ 3 < field v 0 8 → t.dev = s.dev.latch .issueIgnored)

/-- ABORT of a RUNNING PEEK, POKE, CALL or EVICT in flight on leg l (R52, R164): the directive is abandoned and the channel FREE, the
slot is DONE with ABORTED and the sends made; its level is absent (deduced, notes/assumptions/19.md). Of a group or estate CALL in
flight the detail holds its counts as they stood (R154, R164); one still queued leaves its queue with nothing sent (R149, R164).
ABORT of a RUNNING SURVEY of leg l (R132, R134, R164): the slot leaves the requesters of the pending survey and of the window, which
is dropped, or closes, when no requester is left. ABORT of a RUNNING SURVEY of every leg keeps the parts that ended (R135, R164).
ABORT of a RUNNING HUNT (R143, R164): its directive is abandoned, its survey closed, the hunt IDLE with ABORTED and HUNT_END, a HUNTING
leg RUNNING, and with the queue empty and the channel FREE an UNMUTE is queued for each record with MUTED, in order. A LEVEL in flight
for one of them is dropped and the channel is FREE (R157; how it is dropped is deduced, notes/assumptions/39.md). -/
def Obligations.AbortAbandonsTheDirective : Prop :=
  (∀ (s : State) (n : Fin 16) (data : Word) (be : BitVec 4) (l : Fin 4) (x : InFlight), s.abortsRunning n data be →
    examRow (s.dev.slot n).params ∈ [.peek, .poke, .call, .evict] → (s.dev.leg l).chan = .directive x → x.origin = .cmd n →
    x.dir.target.isMany = false →
    (∀ k, k ≠ l → (s.dev.leg k).fliesCmd n = false ∧ (s.dev.leg k).queuesCmd n = false) →
    ∃ t, exec (.abort n data be) s = .next t ∧ s.writePassed t (s.writeAccess (offIssue n) data be) ∧
      (t.dev.leg l).chan = .free ∧ slotDone s.dev t.dev n .aborted { Detail.zero with a := x.sends } ∧
      t.dev.recs = s.dev.recs ∧ (∀ k, k ≠ l → t.dev.leg k = s.dev.leg k)) ∧
  (∀ (s : State) (n : Fin 16) (data : Word) (be : BitVec 4) (l : Fin 4), s.abortsRunning n data be →
    let g := s.dev.leg l
    let row := examRow (s.dev.slot n).params
    ∃ t, exec (.abort n data be) s = .next t ∧ s.writePassed t (s.writeAccess (offIssue n) data be) ∧
      (∀ x, row = .groupCall → g.chan = .directive x → x.origin = .cmd n → x.dir.target.isMany = true →
        (∀ k, k ≠ l → (s.dev.leg k).fliesCmd n = false ∧ (s.dev.leg k).queuesCmd n = false) →
        (t.dev.leg l).chan = .free ∧ t.dev.recs = s.dev.recs ∧
        slotDone s.dev t.dev n .aborted (match x.call with
          | some k => { len := 0, a := x.sends, b := min k.others.length 255, w14 := packHalves k.expected.length k.answered.length
                        w15 := BitVec.ofNat 32 (bit k.okSeen + 2 * bit k.refusedSeen) }
          | none => { Detail.zero with a := x.sends })) ∧
      (∀ before e after, row ∈ [.peek, .poke, .call, .groupCall, .evict] → g.queue = before ++ e :: after → e.origin = .cmd n →
        (∀ y ∈ before ++ after, y.origin ≠ .cmd n) → g.waiting = [] → (∀ k, (s.dev.leg k).fliesCmd n = false) →
        (∀ k, k ≠ l → (s.dev.leg k).queuesCmd n = false) →
        t.dev.leg l = { g with queue := before ++ after } ∧ (∀ k, k ≠ l → t.dev.leg k = s.dev.leg k) ∧
        t.dev.recs = s.dev.recs ∧ slotDone s.dev t.dev n .aborted .zero) ∧
      (row = .survey → paramNat (s.dev.slot n).params 1 = l.val →
        let alone (q : Requesters) : Prop := q.auto = false ∧ q.hunt = false ∧ ∀ m ∈ q.slots, m = n.val
        let less (q : Requesters) : Requesters := { q with slots := q.slots.filter fun m => decide (m ≠ n.val) }
        slotDone s.dev t.dev n .aborted { Detail.zero with a := l.val } ∧ t.dev.recs = s.dev.recs ∧
        (∀ q, g.pendSurvey = some q → (t.dev.leg l).pendSurvey = if alone q then none else some (less q)) ∧
        (∀ w, g.chan = .survey w → n.val ∈ w.reqs.slots →
          (t.dev.leg l).chan = if alone w.reqs then .free else .survey { w with reqs := less w.reqs })) ∧
      (row = .allSurvey → slotDone s.dev t.dev n .aborted (.allLegs (s.dev.slot n).parts) ∧ t.dev.recs = s.dev.recs) ∧
      (row = .hunt → g.hunt.owner = some n.val → (∀ k, k ≠ l → (s.dev.leg k).hunt.owner ≠ some n.val) → g.queuesCmd n = false →
        (t.dev.leg l).hunt = { Hunt.idle with steps := g.hunt.steps, lastResult := .aborted } ∧
        (t.dev.leg l).st = (if g.st = .hunting then .running else g.st) ∧ t.dev.isSet .huntEnd = true ∧
        (g.huntFlight = true ∨ (∃ w, g.chan = .survey w ∧ w.reqs.hunt = true) → (t.dev.leg l).chan = .free) ∧
        t.dev.slot n = { s.dev.slot n with
          st := .done, result := .aborted, parts := []
          detail := { Detail.zero with a := HuntResult.aborted.code, b := g.hunt.steps, w14 := 0xFFFF } } ∧
        (g.chan = .free ∨ (∃ x r, g.chan = .directive x ∧ x.origin = .level r ∧ r ∈ s.dev.mutedOn l) → g.queue = [] → g.waiting = [] →
          (s.dev.mutedOn l).length ≤ 12 → (∀ r ∈ s.dev.mutedOn l, (s.dev.record r).state ≠ .withdrawing) →
          (t.dev.leg l).chan = .free ∧ t.dev.recs = s.dev.recs ∧
          (t.dev.leg l).queue = (s.dev.mutedOn l).map fun r => ⟨(s.dev.record r).unmute, .record r⟩)))

/-! ## Configuration (chapter 12) -/

/-- A commit whose fields all pass is applied as a whole: the mirror values are the applied configuration, the status is APPLIED, the
count goes up by one, CONFIG_DONE latches, LEG_FAULT too where a leg is turned on with FLT asserted (R61, R187), every other cause
standing, and no record, slot, pin or ring entry changes (R183, R185, R186). A leg is turned on or off
(R61, R62, R187), its mode and reload are set (R64). The pace timer (R66, R67) of a leg that was on stops with mode OFF, is loaded and
starts where the mode was OFF before, and else runs on at its value; one that does not run, as a DARK leg's, takes a new pace at once;
on a leg turned off it stops. Quiet spans of ANSWERED directives
run on (the model's choice, notes/assumptions/29.md). -/
def Obligations.CommitAppliesTheBlock : Prop :=
  ∀ (s : State) (data : Word) (be : BitVec 4), s.accepts → s.contentsCanonical → be ≠ 0 →
    (∀ f, f < 56 → checkField s.applied s.dev f (configValue s.mirrors f) = none) →
    ∃ t, exec (.commit data be) s = .next t ∧ s.writePassed t (s.writeAccess offCommit data be) ∧
      t.applied = readApplied s.mirrors ∧
      t.cstat = { status := .applied, field := none, reason := none, count := s.cstat.count + 1 } ∧
      (∀ f : Cause, t.dev.isSet f = true ↔ s.dev.isSet f = true ∨ f = .configDone ∨
        (f = .legFault ∧ ∃ l, (s.dev.leg l).st = .dark ∧ ((readApplied s.mirrors).leg l).enable = true ∧ (s.dev.leg l).flt = true)) ∧
      t.dev = { s.dev with legs := t.dev.legs, causes := t.dev.causes } ∧
      ∀ l, let g := s.dev.leg l; let h := t.dev.leg l; let c := (readApplied s.mirrors).leg l
        h.mode = c.hailMode ∧ h.reload = c.pace ∧ h.quietTail = g.quietTail ∧
        (g.st = .dark → c.enable = true → h.st = (if g.flt then .faulted else .running) ∧ h.tagCtr = 0 ∧ h.stray = 0 ∧
          h.chan = .free ∧ h.queue = [] ∧ h.waiting = [] ∧ h.timer = c.pace ∧ h.running = decide (c.hailMode ≠ .off)) ∧
        (g.st ≠ .dark → c.enable = false → h.st = .dark ∧ h.chan = .free ∧ h.running = false ∧ h.stray = 0 ∧ h.quiet = false ∧
          h.tagCtr = g.tagCtr ∧ h.hunt = g.hunt ∧ h.lastWindow = g.lastWindow ∧ h.lastSurvey = g.lastSurvey) ∧
        (let stopped := if c.pace = g.reload then g.timer else c.pace
         (g.st = .dark → c.enable = false → h.st = .dark ∧ h.timer = stopped ∧ h.running = false) ∧
         (g.st ≠ .dark →
          if c.hailMode = .off then h.timer = stopped ∧ h.running = false
          else if g.mode = .off then h.timer = c.pace ∧ h.running = c.enable
          else h.timer = (if g.running then g.timer else stopped) ∧ h.running = (g.running && c.enable))) ∧
        (g.st ≠ .dark → c.enable = true → h.pendHail = g.pendHail) ∧
        ((g.st ≠ .dark ↔ c.enable = true) → h.st = g.st ∧ h.chan = g.chan ∧ h.queue = g.queue ∧ h.waiting = g.waiting ∧
          h.tagCtr = g.tagCtr ∧ h.slotMap = g.slotMap ∧
          h.stray = if (s.applied.leg l).strayLimit ≠ c.strayLimit then 0 else g.stray)

/-- A commit with a field that fails is rejected with the first failing field and its reason: nothing of the applied configuration and
no leg changes; the count goes up by one and CONFIG_DONE latches (R183, R185). -/
def Obligations.CommitRejectsAsAWhole : Prop :=
  ∀ (s : State) (data : Word) (be : BitVec 4) (f : Nat) (why : CommitReason), s.accepts → s.contentsCanonical → be ≠ 0 → f < 56 →
    checkField s.applied s.dev f (configValue s.mirrors f) = some why →
    (∀ k, k < f → checkField s.applied s.dev k (configValue s.mirrors k) = none) →
    ∃ t, exec (.commit data be) s = .next t ∧ s.writePassed t (s.writeAccess offCommit data be) ∧
      t.applied = s.applied ∧
      t.cstat = { status := .rejected, field := some f, reason := some why, count := s.cstat.count + 1 } ∧
      t.dev = s.dev.latch .configDone

/-- The checks of a commit, field by field: the range of R182, and the state conditions of R184, which a field whose value does not change
passes. -/
def Obligations.CommitChecksRangeThenState : Prop :=
  ∀ (old : Applied) (d : Dev) (l : Fin 4) (v : Nat),
    checkField old d 0 v = none ∧
    checkField old d 1 v = (if 1 ≤ v ∧ v ≤ 15 then none else some .range) ∧
    checkField old d 2 v = (if v ≤ 255 then none else some .range) ∧
    checkField old d 3 v = (if v < 16 ∨ 384 < v then some .range
      else if v = old.ringCap ∨ (d.ring.badTail = false ∧ d.ring.head = d.ring.tail ∧ d.ring.tail < v) then none
      else some .ringBusy) ∧
    checkField old d (legField l 0) v = (if 1 < v then some .range
      else if (old.leg l).enable = true ∧ v = 0 ∧
        (d.recordsOn l ≠ [] ∨ (d.leg l).surveysSlot = true ∨ (d.leg l).carriesCmd = true ∨ (d.leg l).hunt.phase ≠ .idle)
        then some .legOccupied else none) ∧
    checkField old d (legField l 1) v = (if v < 1000 ∨ 62500 < v then some .range
      else if v ≠ (old.leg l).reach ∧ d.pastExpected l = true then some .reachLocked else none) ∧
    checkField old d (legField l 2) v = (if 1 ≤ v ∧ v ≤ 8 then none else some .range) ∧
    checkField old d (legField l 3) v = (if 1 ≤ v ∧ v ≤ 15 then none else some .range) ∧
    checkField old d (legField l 4) v = (if 2 ≤ v ∧ v ≤ 250 then none else some .range) ∧
    checkField old d (legField l 5) v = (if v ≤ 2 then none else some .range) ∧
    checkField old d (legField l 6) v = (if 16 ≤ v ∧ v ≤ 4095 then none else some .range) ∧
    checkField old d (legField l 7) v = (if 1 ≤ v ∧ v ≤ 4 then none else some .range) ∧
    checkField old d (legField l 8) v = (if 1 ≤ v ∧ v ≤ 8 then none else some .range) ∧
    checkField old d (legField l 9) v = (if 1 ≤ v ∧ v ≤ 2047 then none else some .range) ∧
    checkField old d (legField l 10) v = (if v ≤ 255 then none else some .range) ∧
    checkField old d (legField l 11) v = (if v ≤ 1 then none else some .range) ∧
    checkField old d (legField l 12) v = (if v ≤ 255 then none else some .range)

/-! ## The cycle, the pace timer, FLT (chapters 2 to 4) -/

/-- A cycle starts: the cycle number advances, wrapping from 65,535 to 0; a running timer counts down by one, and where that takes it
to 0 it expires in the same event: CONTINUOUS reloads and runs on; SINGLE reloads, stops and returns the mode to OFF; a window is
requested on a RUNNING leg only (R65, R68). A DARK leg sends no marker, a FAULTED one a marker with both flags clear, every other leg
a marker with the flags of its work (R26, R27, R57).
R27: the flags of the marker of cycle c: hail-open in the cycles of an open hail window; quiet in those of an open hail or survey
window and from a quiet directive's send in cycle c₀ through c₀ + W; both clear with the channel FREE and no such span left.
A span whose directive has ended runs on, on a leg in any state, until its last upstream cycle, first + W, has ended by the reach target
with which that cycle began (R28, R40, R51, R186), noted at the cycle starts (the model's choices, notes/assumptions/29.md and 33.md).
The pace timer expires as a command of its own: the decrease that the next cycle start owes a timer at 1 is taken ahead of the rest of
that start, with the same effect, and that start does not repeat it (the model's choice, notes/assumptions/9.md: `paced` says it is
taken). A timer that stands above 1, is stopped, or has its decrease taken does not expire (notes/assumptions/5.md). -/
def Obligations.CyclesAndThePaceTimer : Prop :=
  (∀ s : State, s.phase = .running →
    ∃ d, exec .cycleStart s = .next { s with cycle := s.cycle + 1, dev := d } ∧ d = { s.dev with legs := d.legs } ∧
      ∀ l, let g := s.dev.leg l
        let h := d.leg l
        let c := s.cycle + 1
        let reach := (s.applied.leg l).reach
        let counts := g.running = true ∧ g.paced = false
        let after (k : Leg) : Leg := { k with paced := false, marker := h.marker, quiet := h.quiet, quietTail := h.quietTail }
        (¬ counts → h = after g) ∧
        (counts → 1 < g.timer → h = after { g with timer := g.timer - 1 }) ∧
        (counts → g.timer ≤ 1 → g.mode = .continuous →
          h = after { g with timer := g.reload, pendHail := g.pendHail || decide (g.st = .running) }) ∧
        (counts → g.timer ≤ 1 → g.mode = .single →
          h = after { g with timer := g.reload, running := false, mode := .off
                             pendHail := g.pendHail || decide (g.st = .running) }) ∧
        (g.st = .dark → h.marker = none ∧ h.quiet = false) ∧
        (g.st = .faulted → h.marker = some ⟨c, false, false⟩ ∧ h.quiet = false) ∧
        (g.st ≠ .dark → g.st ≠ .faulted → h.quiet = g.quietIn c ∧ h.marker = some ⟨c, g.hailOpenIn c, g.quietIn c⟩) ∧
        h.quietTail = (g.quietTail.map fun p => p.noteReach reach c).filter fun p => p.runs reach c) ∧
  (∀ (p : QuietSpan) (reach : Nat) (c : BitVec 16),
    (p.runs reach c = true ↔ cyclesFrom p.first c * 31250 < (p.window + 1) * 31250 + p.began.getD reach) ∧
    p.noteReach reach c = (if p.began = none ∧ p.window * 31250 + reach ≤ cyclesFrom p.first c * 31250 then
      { p with began := some reach } else p)) ∧
  (∀ (g : Leg) (c : BitVec 16), g.quietTail = [] →
    (g.chan = .free → g.hailOpenIn c = false ∧ g.quietIn c = false) ∧
    (∀ w w1 n, g.chan = .hail w → w.opened = some (w1, n) →
      g.hailOpenIn c = decide (cyclesFrom w1 c < n) ∧ g.quietIn c = decide (cyclesFrom w1 c < n)) ∧
    (∀ w o, g.chan = .survey w → w.opened = some o →
      g.hailOpenIn c = false ∧ g.quietIn c = decide (cyclesFrom o.first c < o.length)) ∧
    (∀ x c0, g.chan = .directive x → x.phase = .listening c0 →
      g.hailOpenIn c = false ∧ g.quietIn c = (x.dir.body.quiet && decide (cyclesFrom c0 c ≤ x.window))) ∧
    (∀ b : Body, b.quiet = true ↔ b = .probe ∨ b = .range ∨ ∃ a k i j, b = .assign a k i j)) ∧
  (∀ (s : State) (l : Fin 4), s.phase = .running →
    let g := s.dev.leg l
    (g.running = true → g.paced = false → g.timer ≤ 1 → g.mode = .continuous →
      exec (.paceTimerExpiry l) s = .next { s with dev := s.dev.modLeg l fun g =>
        { g with timer := g.reload, pendHail := g.pendHail || decide (g.st = .running), paced := true } }) ∧
    (g.running = true → g.paced = false → g.timer ≤ 1 → g.mode = .single →
      exec (.paceTimerExpiry l) s = .next { s with dev := s.dev.modLeg l fun g =>
        { g with timer := g.reload, running := false, mode := .off, pendHail := g.pendHail || decide (g.st = .running)
                 paced := true } }) ∧
    (g.running = false ∨ g.paced = true ∨ 1 < g.timer → exec (.paceTimerExpiry l) s = .next s))

/-- FLT is asserted on a leg in operation (R58, R59, R144): the leg is FAULTED and remembers SUSPENDED, LEG_FAULT latches, the channel
is FREE, queue and waiting list empty, nothing pending, its chunk fetch ended; the timer, tag counter and stray count stand; an open
hail window's outcome is recorded (R71). A record in a stage with at most one directive, of its stage or an UNMUTE, halts with
LEG_FAULT; one whose one directive is a DISMISS is VACANT; any other record with no directive or an UNMUTE stands, with its label and
slot list, and the leg's slots under its label stay its own: so the slots of ACTIVE records stand. MUTED stands but for an UNMUTE in
flight, whose end clears it, one not yet sent too (the model's choice, notes/assumptions/40.md).
A command with a directive queued or in flight completes with LEG_FAULT and its sends, a group or estate CALL in flight with its counts
(R52, R58, R154); a SURVEY command of the leg with LEG_FAULT and no result; the leg's part of an all-legs SURVEY is LEG_FAULT with count
0, and its command completes with OK once every part has ended (R132, R135). A hunt, STARTING or running, ends: IDLE with LEG_FAULT and
its steps, no culprit, HUNT_END latched, its owner's slot DONE with LEG_FAULT (R141, R144). Every other slot stands, and so do the ring,
the intake order and every cause but LEG_FAULT, REC_HALTED, CMD_DONE and HUNT_END.
Where the leg holds no directive of another leg's record and at most one of each record (R44), the other legs keep all but what joins
their queues and waiting lists: pin-table entries freed by the halted records serve the waiting records of other legs (R109, R110).
Where only this leg's records wait for an entry, the other legs, the records on them and the entries that no record of this leg uses
stand, and none waits any more.
The QUIET line is low at once, and the quiet spans of ANSWERED directives run on (the model's choices, notes/assumptions/29.md). -/
def Obligations.FltAssertedFlushesTheLeg : Prop :=
  ∀ (s : State) (l : Fin 4), s.phase = .running → s.Inv →
    let g := s.dev.leg l
    let flies (n : Nat) : Prop := ∃ y, g.chan = .directive y ∧ y.origin = .cmd n
    let queued (n : Nat) : Prop := ∃ e ∈ g.queue, e.origin = .cmd n
    let owns (n : Nat) : Prop := g.hunt.phase ≠ .idle ∧ g.hunt.owner = some n
    (g.st = .running ∨ g.st = .suspended ∨ g.st = .hunting) →
    ∃ d, exec (.fltAsserted l) s = .next { s with dev := d } ∧ d.isSet .legFault = true ∧
      (let h := d.leg l
       h.st = .faulted ∧ h.wasSusp = decide (g.st = .suspended) ∧ h.flt = true ∧ h.chan = .free ∧ h.queue = [] ∧ h.waiting = [] ∧
       h.pendSurvey = none ∧ h.pendHail = false ∧ h.quiet = false ∧ h.quietTail = g.quietTail ∧ h.timer = g.timer ∧
       h.running = g.running ∧ h.tagCtr = g.tagCtr ∧ h.stray = g.stray ∧ h.lastSurvey = g.lastSurvey ∧
       h.lastCount = g.lastCount ∧
       (∀ w, g.chan = .hail w → w.opened ≠ none → h.lastWindow = if w.hails then .hails else if w.others then .garbled else .empty) ∧
       ((∀ w, g.chan ≠ .hail w) → h.lastWindow = g.lastWindow) ∧
       h.hunt = (if g.hunt.phase = .idle then g.hunt else { Hunt.idle with steps := g.hunt.steps, lastResult := .legFault })) ∧
      (g.hunt.phase ≠ .idle → d.isSet .huntEnd = true) ∧
      d.ring = s.dev.ring ∧ d.intake = s.dev.intake ∧
      (∀ c, d.isSet c = true → s.dev.isSet c = true ∨ c = .legFault ∨ c = .recHalted ∨ c = .cmdDone ∨ c = .huntEnd) ∧
      (∀ c, s.dev.isSet c = true → d.isSet c = true) ∧
      ((∀ r, (g.directivesOf r).length ≤ 1 ∧ ((s.dev.record r).enrol.leg ≠ l → g.directivesOf r = [])) →
        d.fetches = s.dev.fetches.filter (fun f => decide (f.leg ≠ l)) ∧
        (∀ k, k ≠ l → ∃ q w, d.leg k = { s.dev.leg k with queue := (s.dev.leg k).queue ++ q, waiting := (s.dev.leg k).waiting ++ w }) ∧
        ((∀ r ∈ s.dev.pinWait, (s.dev.record r).enrol.leg = l) →
          d.pinWait = [] ∧ (∀ k, k ≠ l → d.leg k = s.dev.leg k) ∧
          (∀ r, (s.dev.record r).enrol.leg ≠ l → (∀ y, g.chan = .directive y → y.origin ≠ .hunt r) → d.record r = s.dev.record r) ∧
          ∀ i, (∀ r, (s.dev.record r).enrol.leg = l → (s.dev.record r).pin ≠ some i) → d.pin i = s.dev.pin i)) ∧
      (∀ r, let x := s.dev.record r
        let unmuted := ∃ y, g.chan = .directive y ∧ y.dir.body = .unmute ∧ (y.origin = .record r ∨ y.origin = .hunt r)
        (x.enrol.leg = l → x.state.isStage = true →
          (g.directivesOf r = [] ∨ ∃ dir, g.directivesOf r = [dir] ∧ (dir.body.cls = .stage ∨ dir.body = .unmute)) →
          haltedWith s.dev d r .legFault x.state) ∧
        ((∃ dir, g.directivesOf r = [dir] ∧ dir.body = .dismiss) → x.enrol.leg = l → x.state = .withdrawing →
          d.record r = Rec.vacant) ∧
        ((∀ dir ∈ g.directivesOf r, dir.body = .unmute) → ¬ (x.enrol.leg = l ∧ x.state.isStage = true) →
          (d.record r).plan = x.plan ∧ (d.record r).label = x.label ∧ (d.record r).slotList = x.slotList ∧
          ∀ b, x.enrol.leg = l → x.label = some b →
            (∀ q, q ≠ r → (s.dev.record q).enrol.leg = l → (s.dev.record q).label ≠ some b) →
            ∀ k, g.slotByte k = b → (d.leg l).slotByte k = b) ∧
        (x.enrol.leg = l → (∀ dir ∈ g.directivesOf r, dir.body ≠ .dismiss) →
          (unmuted → (d.record r).muted = false) ∧ (¬ unmuted → (d.record r).muted = x.muted))) ∧
      (∀ n, let y := s.dev.slot n
        let ended (det : Detail) : Prop :=
          d.slot n = { y with st := .done, result := .legFault, detail := det, parts := [] } ∧ d.isSet .cmdDone = true
        (owns n → ended { Detail.zero with a := HuntResult.legFault.code, b := g.hunt.steps, w14 := 0xFFFF }) ∧
        (¬ owns n → n ∈ g.surveySlots → y.parts = [] → ended { Detail.zero with a := l.val }) ∧
        (¬ owns n → n ∈ g.surveySlots → y.parts ≠ [] → g.surveySlots.Nodup → ¬ queued n → ¬ flies n →
          let ps := y.parts.set l.val (some (.legFault, 0))
          if ps.all Option.isSome then
            d.slot n = { y with st := .done, result := .ok, detail := .allLegs ps, parts := [] } ∧ d.isSet .cmdDone = true
          else d.slot n = { y with parts := ps }) ∧
        (¬ owns n → n ∉ g.surveySlots → queued n → ended .zero) ∧
        (∀ f, ¬ owns n → n ∉ g.surveySlots → ¬ queued n → g.chan = .directive f → f.origin = .cmd n →
          ended (match (if f.dir.target.isMany then f.call else none) with
            | some k => { len := 0, a := f.sends, b := min k.others.length 255
                          w14 := packHalves k.expected.length k.answered.length
                          w15 := BitVec.ofNat 32 (bit k.okSeen + 2 * bit k.refusedSeen) }
            | none => { Detail.zero with a := f.sends })) ∧
        (¬ owns n → n ∉ g.surveySlots → ¬ queued n → ¬ flies n → d.slot n = y))

/-- FLT is deasserted on a FAULTED leg whose queue and waiting list are empty (R41, R60): SUSPENDED if it was SUSPENDED, else RUNNING;
an UNMUTE is offered for every record of the leg with MUTED set and not halted with ROGUE, in ascending order: the first twelve are
queued at class URGENT, the others wait.
FLT on a DARK leg, and FLT asserted on a leg that is FAULTED already, changes the pin's level only (R58, R60, R61). -/
def Obligations.FltDeassertedRecoversTheLeg : Prop :=
  (∀ (s : State) (l : Fin 4), s.phase = .running → s.Inv →
    let g := s.dev.leg l
    g.st = .faulted → g.queue = [] → g.waiting = [] →
    ∃ d, exec (.fltDeasserted l) s = .next { s with dev := d } ∧
      (let rs := s.dev.mutedOn l
       let h := d.leg l
       h = { g with st := if g.wasSusp then .suspended else .running, wasSusp := false, flt := false
                    queue := (rs.take 12).map fun r => ⟨(s.dev.record r).unmute, .record r⟩
                    waiting := (rs.drop 12).map fun r => ⟨r, (s.dev.record r).unmute⟩ } ∧
       (∀ k, k ≠ l → d.leg k = s.dev.leg k) ∧
       (∀ r, d.record r = { s.dev.record r with waiting := (s.dev.record r).waiting || (rs.drop 12).contains r }))) ∧
  (∀ (s : State) (l : Fin 4) (c : Instr), s.phase = .running →
    ((s.dev.leg l).st = .dark ∧ (c = .fltAsserted l ∨ c = .fltDeasserted l)) ∨ ((s.dev.leg l).st = .faulted ∧ c = .fltAsserted l) →
    exec c s = .next { s with dev := s.dev.modLeg l fun g => { g with flt := decide (c = .fltAsserted l) } })

/-! ## The channel of a leg (chapters 3, 4, 8) -/

/-- The FREE channel of a leg in operation goes to the first ready claimant: the hunt's next step, a pending survey, a pending hail
window on a RUNNING leg, the head of the queue on a RUNNING or SUSPENDED leg; with none ready nothing changes (R43; the step itself is
the model's, notes/assumptions/8.md). The leg's hunt is
not STARTING and, where the head is taken, nothing waits behind it.
A LOAD at the head of the queue takes the channel without being sent, and its chunk fetch joins the back of the fetch list (R111); its
burst begins at once where the port is FREE and nothing waits for it, and waits while the port is owned (R180). -/
def Obligations.HandOverTakesTheFirstClaimant : Prop :=
  (∀ (s : State) (l : Fin 4), s.phase = .running →
    let g := s.dev.leg l
    let reach := (s.applied.leg l).reach
    let next (f : Leg → Leg) : Answer := .next { s with dev := s.dev.modLeg l f }
    g.chan = .free → g.hunt.phase ≠ .starting → g.waiting = [] →
    (g.st = .hunting → ∀ r rest, g.hunt.todo = r :: rest → g.hunt.phase = .muting ∨ g.hunt.phase = .unmuting →
      exec (.channelHandover l) s = next fun g => { g with
        hunt := { g.hunt with todo := rest }
        chan := .directive (takenNow ⟨.individual (s.dev.record r).enrol.addr, if g.hunt.phase = .muting then .mute else .unmute⟩
          (.hunt r) (.ready s.cycle) reach) }) ∧
    (g.huntStep = none → (g.st = .running ∨ g.st = .suspended ∨ g.st = .hunting) → ∀ q, g.pendSurvey = some q →
      exec (.channelHandover l) s = next fun g => { g with
        pendSurvey := none
        chan := .survey { since := s.cycle, reach := reach, reqs := q, opened := none, lit := 0 } }) ∧
    (g.st = .running → g.pendSurvey = none → g.pendHail = true →
      exec (.channelHandover l) s = next fun g => { g with
        pendHail := false
        chan := .hail { since := s.cycle, reach := reach, opened := none, hails := false, others := false } }) ∧
    ((g.st = .running ∧ g.pendHail = false) ∨ g.st = .suspended → g.pendSurvey = none → ∀ e q, takeHead g.queue = some (e, q) →
      (∀ k dest m src len fin, e.dir.body ≠ .load k dest m src len fin) →
      exec (.channelHandover l) s = next fun g => { g with
        queue := q, chan := .directive (takenNow e.dir e.origin (.ready s.cycle) reach) }) ∧
    (g.st = .dark ∨ g.st = .faulted ∨ (g.huntStep = none ∧ g.pendSurvey = none ∧ (g.pendHail = false ∨ g.st ≠ .running) ∧
        (g.queue = [] ∨ g.st = .hunting)) →
      exec (.channelHandover l) s = .next s)) ∧
  (∀ (s : State) (l : Fin 4) (e : Entry) (q : List Entry) (k dest src len : Nat) (m : DestMode) (fin : Bool), s.phase = .running →
    let g := s.dev.leg l
    g.chan = .free → g.st = .running ∨ g.st = .suspended → g.hunt.phase ≠ .starting → g.pendSurvey = none → g.pendHail = false →
    g.waiting = [] → takeHead g.queue = some (e, q) → e.dir.body = .load k dest m src len fin →
    ∃ d, exec (.channelHandover l) s = .next (s.askPort d) ∧
      d.leg l = { g with queue := q
                         chan := .directive (takenNow e.dir e.origin .fetching (s.applied.leg l).reach) } ∧
      d.fetches = s.dev.fetches ++ [⟨l, src, len⟩] ∧ (.load ∈ d.requests ∨ ∃ f b, s.dev.burst = some (.fetch f b)) ∧
      (s.bus.port ≠ .free → s.askPort d = { s with dev := d }) ∧
      (s.bus.port = .free → s.bus.held = none → s.dev.burst = none → s.dev.requests = [] → s.dev.fetches = [] →
        s.dev.ring.writeList = [] →
        s.askPort d = { s with
          bus := { s.bus with port := .engine, passCount := 0 }
          dev := { d with burst := some (.fetch ⟨l, src, len⟩ false), requests := [] } }))

/-- R45: the head of the queue is the oldest URGENT entry, else the oldest STAGE entry, else the oldest SERVICE entry; an empty queue has
no head; the other entries keep their order. The head leaves the queue as it takes the channel (R43: nothing waits behind it here; a
LOAD's fetch may then take a FREE port, which changes no queue), and an
entry that joins stands behind every other. -/
def Obligations.QueueHeadIsTheOldestOfTheHighestClass : Prop :=
  (∀ q : List Entry,
    (takeHead q = none ↔ q = []) ∧
    (∀ e rest, takeHead q = some (e, rest) → ∃ before after, q = before ++ e :: after ∧ rest = before ++ after ∧
      (∀ x ∈ before, x.cls ≠ e.cls) ∧
      (e.cls = .stage → ∀ x ∈ q, x.cls ≠ .urgent) ∧
      (e.cls = .service → ∀ x ∈ q, x.cls = .service))) ∧
  (∀ (s : State) (l : Fin 4) (e : Entry) (rest : List Entry), s.phase = .running →
    let g := s.dev.leg l
    g.chan = .free → g.hunt.phase ≠ .starting → g.waiting = [] → g.pendSurvey = none →
    g.st = .suspended ∨ (g.st = .running ∧ g.pendHail = false) → takeHead g.queue = some (e, rest) →
    ∃ d x, exec (.channelHandover l) s = .next (s.askPort d) ∧ (d.leg l).queue = rest ∧ (d.leg l).chan = .directive x ∧
      x.dir = e.dir ∧ x.origin = e.origin) ∧
  (∀ (d : Dev) (l : Fin 4) (dir : Directive) (o : Origin),
    ((d.enqueue l dir o).leg l).queue = (d.leg l).queue ++ [⟨dir, o⟩])

/-- A directive that owns the channel is first sent in a cycle after its hand-over or its fetch (R50): it takes the tag counter, which
advances by one modulo 64 (R31), fixes its attempts, spacing and window, and is on the line; a group or estate CALL takes its expected
set, the drop addresses of the non-VACANT records of the leg with ADDRESSED set and, for a group, of that group, with nothing collected
yet (R53); a record origin's attempts used counts the send, an ASSIGN sets ASSIGN_SENT (R87) and a hunt's MUTE sets MUTED (R140).
A directive in its retry spacing is sent again, with the same tag, body and target, in cycle e + S, e being the window's last cycle; where
e + S begins before the window has ended, one cycle and the reach target after the start of cycle e (R28), in the first cycle that begins
after it; and not before (R51; a step too early changes nothing, notes/assumptions/6.md); the tag
counter stands and the send is counted (R50). -/
def Obligations.SendsTakeAndKeepTheTag : Prop :=
  (∀ (s : State) (l : Fin 4) (x : InFlight) (since : BitVec 16), s.phase = .running → s.Inv →
    let g := s.dev.leg l
    let c := s.applied.leg l
    g.chan = .directive x → x.phase = .ready since → since ≠ s.cycle →
    ∃ d y, exec (.directiveFirstSend l) s = .next { s with dev := d } ∧ (d.leg l).chan = .directive y ∧
      y = { x with phase := .listening s.cycle, tag := some g.tagCtr, sends := x.sends + 1, attempts := y.attempts
                   spacing := c.spacing, window := y.window, call := y.call } ∧
      (d.leg l).tagCtr = g.tagCtr + 1 ∧ (d.leg l).lastSent = some ⟨s.cycle, g.tagCtr, x.dir, x.data⟩ ∧
      (d.leg l).queue = g.queue ∧ (d.leg l).waiting = g.waiting ∧ (∀ k, k ≠ l → d.leg k = s.dev.leg k) ∧
      (x.dir.body = .range → y.window = 3) ∧
      (x.dir.body ≠ .range → x.dir.target.isMany = false → y.window = c.replyWin) ∧
      (x.dir.body ≠ .range → y.window = rankCycles (s.dev.callRanks l x.dir.target) + c.replyWin) ∧
      (x.dir.body ≠ .range → y.attempts = c.attempts) ∧
      (∀ r z, x.dir.body = .range → x.origin = .record r → (s.dev.record r).ranging = some z →
        y.attempts = min c.attempts (z.limit - z.sends)) ∧
      (y.call.isSome = x.dir.target.isMany) ∧
      (∀ k, y.call = some k →
        let called (z : Rec) : Prop := z.addressed = true ∧ ∀ a, x.dir.target = .group a → z.enrol.group = a
        k = { k with answered := [], okSeen := false, refusedSeen := false, unsettled := false, others := [] } ∧
        (∀ a, a ∈ k.expected ↔ ∃ r, (s.dev.record r).state ≠ .vacant ∧ (s.dev.record r).enrol.leg = l ∧ called (s.dev.record r) ∧
          (s.dev.record r).enrol.addr = a) ∧
        (((s.dev.recordsOn l).map fun p => p.2.enrol.addr).Nodup → k.expected.Nodup)) ∧
      (∀ n, x.origin = .cmd n → d.recs = s.dev.recs) ∧
      (∀ r, x.origin.countedRecord = some r →
        (d.record r).attempts = satInc (s.dev.record r).attempts 255 ∧ (d.record r).state = (s.dev.record r).state ∧
        (d.record r).assignSent = ((s.dev.record r).assignSent || (match x.dir.body with
          | .assign _ _ _ _ => true
          | _ => false)) ∧
        (d.record r).muted = ((s.dev.record r).muted || decide (x.dir.body = .mute)) ∧
        ∀ q, q ≠ r → d.record q = s.dev.record q)) ∧
  (∀ (s : State) (l : Fin 4) (x : InFlight) (c0 ended : BitVec 16) (t : BitVec 6), s.phase = .running → s.Inv →
    let g := s.dev.leg l
    g.chan = .directive x → x.phase = .spacing c0 ended → x.tag = some t →
    if x.window + x.spacing ≤ cyclesFrom c0 s.cycle ∧ (s.cycle ≠ ended ∨ 31250 + x.reach ≤ x.spacing * 31250) then
      ∃ d, exec (.directiveRetry l) s = .next { s with dev := d } ∧
        (d.leg l).chan = .directive { x with phase := .listening s.cycle, sends := x.sends + 1 } ∧
        (d.leg l).tagCtr = g.tagCtr ∧ (d.leg l).lastSent = some ⟨s.cycle, t, x.dir, x.data⟩ ∧ (d.leg l).queue = g.queue ∧
        (∀ k, k ≠ l → d.leg k = s.dev.leg k) ∧
        (∀ r, x.origin.countedRecord = some r → (d.record r).attempts = satInc (s.dev.record r).attempts 255)
    else exec (.directiveRetry l) s = .next s)

/-- The window of a send ends without an answer that ended the directive (R51): before its end nothing changes
(notes/assumptions/6.md); with sends left it goes
into its retry spacing; else it ends, UNSETTLED if a CHECK or FULL was drawn and SILENT if not, which completes a command's slot
with its sends and no level (R149 to R152, R155).
A group or estate CALL at the end of a send's window (R53, R153): complete when every expected address has answered; sent again while
attempts remain; else ended. The command's result is REFUSED, OK, PARTIAL, UNSETTLED or SILENT in that order of choice. -/
def Obligations.SendWindowEndRetriesOrEnds : Prop :=
  (∀ (s : State) (l : Fin 4) (x : InFlight) (c0 : BitVec 16),
    (s.phase = .running → (s.dev.leg l).chan = .directive x → x.phase = .listening c0 →
      cyclesFrom c0 s.cycle < x.window + 1 + lag x.reach → exec (.sendWindowEnd l) s = .next s) ∧
    (s.windowEnded l x c0 → x.sends < x.attempts →
      exec (.sendWindowEnd l) s =
        .next { s with dev := s.dev.modLeg l fun g => { g with chan := .directive { x with phase := .spacing c0 s.cycle } } }) ∧
    (∀ n, s.windowEnded l x c0 → s.Inv → x.attempts ≤ x.sends → x.origin = .cmd n →
      ∃ d, exec (.sendWindowEnd l) s = .next { s with dev := d } ∧ d.leg l = { s.dev.leg l with chan := .free } ∧
        slotDone s.dev d n (if x.unsettled then .unsettled else .silent) { Detail.zero with a := x.sends } ∧
        d.recs = s.dev.recs ∧ ∀ k, k ≠ l → d.leg k = s.dev.leg k)) ∧
  (∀ (s : State) (l : Fin 4) (x : InFlight) (k : CallSets) (c0 : BitVec 16) (n : Nat) (body : List Byte), s.phase = .running → s.Inv →
    (s.dev.leg l).chan = .directive x → x.phase = .listening c0 → x.window + 1 + lag x.reach ≤ cyclesFrom c0 s.cycle →
    x.call = some k → x.origin = .cmd n → x.dir.body = .call body →
    let all := k.expected.all fun a => k.answered.contains a
    if all = false ∧ x.sends < x.attempts then
      exec (.sendWindowEnd l) s =
        .next { s with dev := s.dev.modLeg l fun g => { g with chan := .directive { x with phase := .spacing c0 s.cycle } } }
    else
      ∃ d, exec (.sendWindowEnd l) s = .next { s with dev := d } ∧ d.leg l = { s.dev.leg l with chan := .free } ∧
        d.recs = s.dev.recs ∧
        slotDone s.dev d n
          (if k.refusedSeen then .refused else if all then .ok else if k.answered ≠ [] then .partialAnswer
           else if k.unsettled then .unsettled else .silent)
          { len := 0, a := x.sends, b := min k.others.length 255, w14 := packHalves k.expected.length k.answered.length
            w15 := BitVec.ofNat 32 (bit k.okSeen + 2 * bit k.refusedSeen) })

/-! ## Replies and outcomes (chapters 3, 5, 6, 7, 9) -/

/-- A reply-format burst while the channel is FREE, or a survey owns it, or with a tag that is not the current one is ignored: it changes
no record, no directive, no level and no count (R54, R55). On a leg that is DARK or FAULTED, whose channel is FREE, none is decoded.
A reply with the current tag from a source that cannot answer the directive is stray: it adds one to the stray count and changes no
record and no directive (R54, R56).
An answer with code CHECK or FULL, and an OK answer to a PEEK with another number of data bytes than the length asked for (R150), does
not end the send: the directive notes an unsettled answer and the level of the record that
has the source address, for an ASSIGN the newly given one, is updated (R25, R51). Of a LEVEL only the level code is set, LEVEL_WANTED and
LEVEL_FRESH standing, since it may yet end UNSETTLED (R157): the model's choice (notes/assumptions/36.md). What is heard where is deduced
(notes/assumptions/16.md).
A reply with the current tag to a group or estate CALL (R53, R54): an expected member's OK or REFUSED answer joins the answered set,
its CHECK or FULL is noted, another individual address joins the others, each once, and the level of the record with that address
is updated (R25); a source that is no individual address is stray. -/
def Obligations.RepliesThatEndNothing : Prop :=
  (∀ (s : State) (l : Fin 4) (src : BitVec 12) (tag : BitVec 6) (code : ReplyCode) (data : List Byte) (level : Byte) (delay : Nat)
    (p : Option Placement), s.phase = .running →
    ((s.dev.leg l).chan = .free ∨ (∃ w, (s.dev.leg l).chan = .survey w) ∨
      (∃ x, (s.dev.leg l).chan = .directive x ∧ x.tag ≠ some tag)) →
    exec (.replyBurst l src tag code data level delay p) s = .next s) ∧
  (∀ (s : State) (l : Fin 4) (x : InFlight) (src : BitVec 12) (tag : BitVec 6) (code : ReplyCode) (data : List Byte) (level : Byte)
    (delay : Nat) (p : Option Placement), s.phase = .running → (s.dev.leg l).chan = .directive x → x.tag = some tag →
    x.call = none → x.dir.target.answeredBy src = false → x.hearsReply p = true →
    ((s.applied.leg l).strayLimit = 0 ∨ (s.dev.leg l).stray + 1 < (s.applied.leg l).strayLimit) → (s.dev.leg l).stray < 255 →
    exec (.replyBurst l src tag code data level delay p) s =
      .next { s with dev := s.dev.modLeg l fun g => { g with stray := g.stray + 1 } }) ∧
  (∀ (s : State) (l : Fin 4) (x : InFlight) (src : BitVec 12) (tag : BitVec 6) (code : ReplyCode) (data : List Byte) (level : Byte)
    (delay : Nat) (p : Option Placement), s.Inv → s.answers l x src tag p →
    (code = .check ∨ code = .full ∨ (code = .ok ∧ ∃ off len, x.dir.body = .peek off len ∧ data.length ≠ len)) →
    ∃ d, exec (.replyBurst l src tag code data level delay p) s = .next { s with dev := d } ∧
      d.leg l = { s.dev.leg l with chan := .directive { x with unsettled := true } } ∧
      (∀ k, k ≠ l → d.leg k = s.dev.leg k) ∧ d = { s.dev with recs := d.recs, legs := d.legs } ∧
      (∀ r, (d.record r).plan = (s.dev.record r).plan) ∧
      (∀ r, (s.dev.recordsOn l).find? (fun q => decide (q.2.enrol.addr = src)) = some (r, s.dev.record r) →
        (∀ a g i j, x.dir.body = .assign a g i j → src = a) →
        let y := s.dev.record r
        (d.record r).level = level ∧
        (d.record r).levelWanted = (y.levelWanted && decide (x.dir.body = .level)) ∧
        (d.record r).levelFresh = (y.levelFresh || (y.levelWanted && decide (x.dir.body ≠ .level))))) ∧
  (∀ (s : State) (l : Fin 4) (x : InFlight) (k : CallSets) (src : BitVec 12) (tag : BitVec 6) (code : ReplyCode) (data : List Byte)
    (level : Byte) (delay : Nat) (p : Option Placement), s.phase = .running → s.Inv → (s.dev.leg l).chan = .directive x →
    x.tag = some tag → x.call = some k → x.hearsReply p = true →
    let once (xs : List (BitVec 12)) := if src ∈ xs then xs else xs ++ [src]
    let individual := 1 ≤ src.toNat ∧ src.toNat ≤ 0xDFF
    (src ∈ k.expected ∨ individual →
      ∃ d, exec (.replyBurst l src tag code data level delay p) s = .next { s with dev := d } ∧
        d.leg l = { s.dev.leg l with chan := .directive { x with call := some (
          if src ∈ k.expected then
            if code = .ok then { k with answered := once k.answered, okSeen := true }
            else if code = .refused then { k with answered := once k.answered, refusedSeen := true }
            else { k with unsettled := true }
          else { k with others := once k.others }) } } ∧
        (∀ j, j ≠ l → d.leg j = s.dev.leg j) ∧ d = { s.dev with recs := d.recs, legs := d.legs } ∧
        (∀ r, (d.record r).plan = (s.dev.record r).plan) ∧
        (∀ r, (s.dev.recordsOn l).find? (fun q => decide (q.2.enrol.addr = src)) = some (r, s.dev.record r) →
          (d.record r).level = level ∧ (d.record r).levelWanted = false ∧
          (d.record r).levelFresh = ((s.dev.record r).levelFresh || (s.dev.record r).levelWanted))) ∧
    (src ∉ k.expected → ¬ individual → (s.dev.leg l).stray < 255 →
      ((s.applied.leg l).strayLimit = 0 ∨ (s.dev.leg l).stray + 1 < (s.applied.leg l).strayLimit) →
      exec (.replyBurst l src tag code data level delay p) s =
        .next { s with dev := s.dev.modLeg l fun g => { g with stray := g.stray + 1 } }))

/-- An OK or REFUSED answer ends a command's PEEK, POKE, CALL or DISMISS (R150, R151, R152, R155): the slot is DONE with that result, the
sends, the level and, for an OK PEEK or CALL, the data; the channel is FREE. An OK PEEK answer has the length asked for.
A withdrawal's DISMISS that ends with any outcome, by an OK or REFUSED answer or by silence, makes its record VACANT (R18, R52).
An UNMUTE of a record or a LEVEL that ends (R49, R52, R157): the UNMUTE clears MUTED whatever its outcome (R4), the answer of a LEVEL
updates the level (R25), one that ends without an answer leaves the level, LEVEL_WANTED and LEVEL_FRESH (R157), the record's plan stands, and a stage directive held with the record joins the queue where it has room. -/
def Obligations.AnswerCompletesTheCommand : Prop :=
  (∀ (s : State) (l : Fin 4) (n : Nat) (x : InFlight) (src : BitVec 12) (tag : BitVec 6) (ok : Bool) (data : List Byte) (level : Byte)
    (delay : Nat) (p : Option Placement), s.Inv → s.answers l x src tag p → x.origin = .cmd n → data.length ≤ 8 →
    (∃ off len, x.dir.body = .peek off len ∧ (ok = true → data.length = len)) ∨ (∃ off bs, x.dir.body = .poke off bs) ∨
      (∃ bs, x.dir.body = .call bs) ∨ x.dir.body = .dismiss →
    ∃ d, exec (.replyBurst l src tag (if ok then .ok else .refused) data level delay p) s = .next { s with dev := d } ∧
      d.leg l = { s.dev.leg l with chan := .free } ∧ (∀ k, k ≠ l → d.leg k = s.dev.leg k) ∧
      (∀ r, (d.record r).plan = (s.dev.record r).plan) ∧
      (let keep := ok && x.dir.body.keepsData
       slotDone s.dev d n (if ok then .ok else .refused)
        { len := if keep then data.length else 0, a := x.sends, b := level.toNat
          w14 := if keep then bytesWord (data.take 4) else 0, w15 := if keep then bytesWord (data.drop 4) else 0 })) ∧
  (∀ (s : State) (l : Fin 4) (r : Nat) (x : InFlight) (c : Instr), s.Inv → s.endsBy l x c → x.origin = .record r →
    x.dir.body = .dismiss →
    ∃ d, exec c s = .next { s with dev := d } ∧ d.record r = Rec.vacant ∧ othersKeep s.dev d r ∧ (d.leg l).chan = .free ∧
      d.slots = s.dev.slots) ∧
  (∀ (s : State) (l : Fin 4) (r : Nat) (x : InFlight) (c : Instr), s.Inv → s.endsBy l x c →
    ((x.origin = .record r ∧ x.dir.body = .unmute) ∨ (x.origin = .level r ∧ x.dir.body = .level)) →
    let y := s.dev.record r
    let g := s.dev.leg l
    ∃ d, exec c s = .next { s with dev := d } ∧ (d.leg l).chan = .free ∧ d.slots = s.dev.slots ∧
      (∀ q, (d.record q).plan = (s.dev.record q).plan) ∧
      (d.record r).muted = (y.muted && decide (x.dir.body = .level)) ∧
      (∀ dir, y.held = some dir → y.enrol.leg = l → g.hasEntry r = false → g.isWaiting r = false → g.queue.length < 12 →
        (d.leg l).queue = g.queue ++ [⟨dir, .record r⟩] ∧ (d.record r).held = none) ∧
      (y.held = none → y.state.isStage = false → (d.leg l).queue = g.queue) ∧
      (c = .sendWindowEnd l → (d.record r).level = y.level ∧ (d.record r).levelWanted = y.levelWanted ∧
        (d.record r).levelFresh = y.levelFresh) ∧
      (∀ src tag code data level delay p, c = .replyBurst l src tag code data level delay p →
        (s.dev.recordsOn l).find? (fun q => decide (q.2.enrol.addr = src)) = some (r, y) →
        (d.record r).level = level ∧ (d.record r).levelWanted = false ∧
        (d.record r).levelFresh = (y.levelFresh || y.levelWanted)))

/-- The answers that stop a stage (R85, R88, R93, R97, R104, R123): a PROBE answered OK or REFUSED halts with ADDRESS_TAKEN; an ASSIGN,
RANGE, EQUALISE, LOAD or GRANT answered REFUSED halts with that stage's fault; REC_HALTED latches and the stage field names the
stage (R13); a record in GRANTING releases its slots (R124). The quiet span of a quiet directive that is answered runs on (R40, R51; notes/assumptions/33.md). -/
def Obligations.AnswerThatStopsAStage : Prop :=
  ∀ (s : State) (l : Fin 4) (r : Nat) (x : InFlight) (src : BitVec 12) (tag : BitVec 6) (code : ReplyCode) (data : List Byte)
    (level : Byte) (delay : Nat) (p : Option Placement) (st : RecState) (f : FaultCode), s.Inv → s.answers l x src tag p →
    s.dev.stageInFlight l r x st →
    ((x.dir.body = .probe ∧ st = .probing ∧ f = .addressTaken ∧ (code = .ok ∨ code = .refused)) ∨
     ((∃ a g i j, x.dir.body = .assign a g i j) ∧ st = .assigning ∧ f = .assignRefused ∧ code = .refused) ∨
     (x.dir.body = .range ∧ st = .ranging ∧ f = .noEcho ∧ code = .refused) ∨
     ((∃ v, x.dir.body = .equalise v) ∧ st = .equalising ∧ f = .equaliseRefused ∧ code = .refused) ∨
     ((∃ k a m b c e, x.dir.body = .load k a m b c e) ∧ st = .loading ∧ code = .refused ∧
        f = (if x.disturbed then .sourceChanged else .profileRefused)) ∨
     ((∃ b ss, x.dir.body = .grant b ss) ∧ st = .granting ∧ f = .grantRefused ∧ code = .refused)) →
    ∃ d, exec (.replyBurst l src tag code data level delay p) s = .next { s with dev := d } ∧
      haltedWith s.dev d r f st ∧ (d.record r).label = none ∧ othersKeep s.dev d r ∧ (d.leg l).chan = .free ∧
      (d.leg l).tagCtr = (s.dev.leg l).tagCtr ∧ (d.leg l).st = (s.dev.leg l).st ∧
      (∀ c0, x.phase = .listening c0 → (d.leg l).quietTail = (s.dev.leg l).quietTail ++
        if x.dir.body.quiet then [QuietSpan.noteReach ⟨c0, x.window, none⟩ x.reach s.cycle] else [])

/-- A directive that ends SILENT or UNSETTLED stops its stage (R85, R88, R93, R97, R104, R123): NO_ANSWER, or ADDRESS_TAKEN for an
UNSETTLED PROBE, SOURCE_CHANGED for a disturbed LOAD, and for a RANGE with no sends left NO_ECHO or UNSTABLE.
A RANGE that ends SILENT or UNSETTLED with sends left is followed by another, its context as it stood (R93).
A PROBE that ends SILENT takes its record into ASSIGNING (R85): attempts used is zeroed (R9) and an ASSIGN by serial with the
record's address, group and ranks is queued (R86), where the queue has room. -/
def Obligations.SilenceMovesAStage : Prop :=
  (∀ (s : State) (l : Fin 4) (r : Nat) (x : InFlight) (c0 : BitVec 16) (st : RecState) (f : FaultCode), s.Inv →
    s.windowEnded l x c0 → x.attempts ≤ x.sends → s.dev.stageInFlight l r x st →
    ((x.dir.body = .probe ∧ st = .probing ∧ f = .addressTaken ∧ x.unsettled = true) ∨
     ((∃ a g i j, x.dir.body = .assign a g i j) ∧ st = .assigning ∧ f = .noAnswer) ∨
     (∃ z, x.dir.body = .range ∧ st = .ranging ∧ (s.dev.record r).ranging = some z ∧ z.limit ≤ z.sends ∧
        f = (if z.ref.isSome then .unstable else .noEcho)) ∨
     ((∃ v, x.dir.body = .equalise v) ∧ st = .equalising ∧ f = .noAnswer) ∨
     ((∃ k a m b c e, x.dir.body = .load k a m b c e) ∧ st = .loading ∧ f = (if x.disturbed then .sourceChanged else .noAnswer)) ∨
     ((∃ b ss, x.dir.body = .grant b ss) ∧ st = .granting ∧ f = .noAnswer)) →
    ∃ d, exec (.sendWindowEnd l) s = .next { s with dev := d } ∧
      haltedWith s.dev d r f st ∧ othersKeep s.dev d r ∧ (d.leg l).chan = .free) ∧
  (∀ (s : State) (l : Fin 4) (r : Nat) (x : InFlight) (c0 : BitVec 16) (z : Ranging), s.Inv → s.windowEnded l x c0 →
    x.attempts ≤ x.sends → s.dev.stageInFlight l r x .ranging → x.dir.body = .range → (s.dev.record r).ranging = some z →
    z.sends < z.limit → (s.dev.leg l).queue.length < queueCap → (s.dev.leg l).hasEntry r = false →
    (s.dev.leg l).isWaiting r = false →
    ∃ d, exec (.sendWindowEnd l) s = .next { s with dev := d } ∧ d.recs = s.dev.recs ∧ (∀ k, k ≠ l → d.leg k = s.dev.leg k) ∧
      (d.leg l).chan = .free ∧
      (d.leg l).queue = (s.dev.leg l).queue ++ [⟨⟨.individual (s.dev.record r).enrol.addr, .range⟩, .record r⟩]) ∧
  (∀ (s : State) (l : Fin 4) (r : Nat) (x : InFlight) (c0 : BitVec 16), s.Inv → s.windowEnded l x c0 → x.attempts ≤ x.sends →
    x.unsettled = false → s.dev.stageInFlight l r x .probing → x.dir.body = .probe → (s.dev.leg l).queue.length < queueCap →
    (s.dev.leg l).hasEntry r = false → (s.dev.leg l).isWaiting r = false →
    ∃ d, exec (.sendWindowEnd l) s = .next { s with dev := d } ∧
      (let y := s.dev.record r
       d.record r = { y with state := .assigning, stage := none, fault := .none, attempts := 0, ranging := none, held := none } ∧
       d.leg l = { s.dev.leg l with
         chan := .free
         queue := (s.dev.leg l).queue ++
           [⟨⟨.serial y.enrol.serial, .assign y.enrol.addr y.enrol.group (y.groupRank.getD 0) y.legRank⟩, .record r⟩] }) ∧
      (∀ q, q ≠ r → d.record q = s.dev.record q) ∧ ∀ k, k ≠ l → d.leg k = s.dev.leg k)

/-- An ASSIGN answered OK sets ADDRESSED (R88): the record is HELD after ASSIGNING where its hold point is ADDRESSED (R8), else it
enters RANGING with both delays absent and the echo limit max(2, attempts), and its first RANGE joins the queue where that has room
(R89). -/
def Obligations.AssignAnsweredOk : Prop :=
  ∀ (s : State) (l : Fin 4) (r : Nat) (x : InFlight) (src : BitVec 12) (tag : BitVec 6) (data : List Byte) (level : Byte) (delay : Nat)
    (p : Option Placement) (a g : BitVec 12) (i j : Nat), s.Inv → s.answers l x src tag p → s.dev.stageInFlight l r x .assigning →
    x.dir.body = .assign a g i j →
    ∃ d, exec (.replyBurst l src tag .ok data level delay p) s = .next { s with dev := d } ∧ (d.leg l).chan = .free ∧
      othersKeep s.dev d r ∧ (d.record r).addressed = true ∧ (d.record r).fault = .none ∧
      (if (s.dev.record r).enrol.hold = .addressed then (d.record r).state = .held ∧ (d.record r).stage = some .assigning
       else (d.record r).state = .ranging ∧ (d.record r).stage = none ∧ (d.record r).attempts = 0 ∧
        (d.record r).measured = none ∧ (d.record r).equalise = none ∧
        (d.record r).ranging = some ⟨max 2 (s.applied.leg l).attempts, 0, none⟩ ∧ offered s.dev d l r .range)

/-- A RANGE answered OK (R91, R92; an echo above 65,535 units counts as 65,535, notes/assumptions/15.md): without a reference echo, or
with one that differs by more than the tolerance, the echo becomes the
reference, and the stage goes on with another RANGE while sends are left and halts with UNSTABLE when none is; with one that agrees the
record halts with TOO_FAR or WEAK_LIGHT or takes the delay and enters EQUALISING with reach target minus delay, which the EQUALISE that
joins the queue carries (R95, R96). The directives join where the queue has room. -/
def Obligations.RangeAnsweredOk : Prop :=
  ∀ (s : State) (l : Fin 4) (r : Nat) (x : InFlight) (src : BitVec 12) (tag : BitVec 6) (data : List Byte) (level : Byte) (delay : Nat)
    (p : Option Placement) (z : Ranging), s.Inv → s.answers l x src tag p → s.dev.stageInFlight l r x .ranging →
    x.dir.body = .range → (s.dev.record r).ranging = some z →
    let v := min delay 65535
    let c := s.applied.leg l
    let agree := match z.ref with
      | some (ref, _) => decide (v - ref ≤ s.applied.rangeTol ∧ ref - v ≤ s.applied.rangeTol)
      | none => false
    ∃ d, exec (.replyBurst l src tag .ok data level delay p) s = .next { s with dev := d } ∧ (d.leg l).chan = .free ∧
      othersKeep s.dev d r ∧
      (if agree then
        (if c.reach < v then haltedWith s.dev d r .tooFar .ranging
         else if level.toNat < c.minLevel then haltedWith s.dev d r .weakLight .ranging
         else (d.record r).state = .equalising ∧ (d.record r).measured = some v ∧ (d.record r).equalise = some (c.reach - v) ∧
          (d.record r).ranging = none ∧ (d.record r).attempts = 0 ∧ offered s.dev d l r (.equalise (c.reach - v)))
       else if z.sends < z.limit then
        (d.record r).state = .ranging ∧ (d.record r).ranging = some { z with ref := some (v, level) } ∧
          (d.record r).attempts = (s.dev.record r).attempts ∧ offered s.dev d l r .range
       else haltedWith s.dev d r .unstable .ranging)

/-- An EQUALISE answered OK completes EQUALISING (R98): HELD, LOADING with its chunks counted, GRANTING, or ACTIVE with REC_ACTIVE, by
hold point, profile and demand; GRANTING without enough free slots halts with NO_SLOTS (R120). Where the queue has room, the LOAD of
chunk 0 of a record that is a user of a pin-table entry joins it (R102, R103), and in GRANTING the GRANT with the label and the slot
list joins it, the label standing in the leg's slot map at those slots and no other changed (R119, R122). -/
def Obligations.EqualiseAnsweredOk : Prop :=
  ∀ (s : State) (l : Fin 4) (r : Nat) (x : InFlight) (src : BitVec 12) (tag : BitVec 6) (data : List Byte) (level : Byte) (delay : Nat)
    (p : Option Placement) (v : Nat), s.Inv → s.answers l x src tag p → s.dev.stageInFlight l r x .equalising →
    x.dir.body = .equalise v →
    let en := (s.dev.record r).enrol
    ∃ d, exec (.replyBurst l src tag .ok data level delay p) s = .next { s with dev := d } ∧ (d.leg l).chan = .free ∧
      othersKeep s.dev d r ∧
      (let y := d.record r
       if en.hold = .ranged ∨ (en.hold = .loaded ∧ en.noProfile = true) then y.state = .held ∧ y.stage = some .equalising
       else if en.noProfile = false then
        y.state = .loading ∧ y.attempts = 0 ∧ y.chunksAck = 0 ∧ y.chunksTotal = (en.lenCode + 16) / 16 ∧
          (y.pinWait = true ∨ ∃ k, y.pin = some k ∧ (d.pin k).start = en.start ∧ (d.pin k).lenCode = en.lenCode) ∧
          (let one := decide ((en.lenCode + 16) / 16 = 1)
           y.pinWait = false → offered s.dev d l r (.load 0 en.dest en.mode en.start (if one then en.lenCode + 1 else 16) one))
       else if en.demand = 0 then y.state = .active ∧ d.isSet .recActive = true
       else if en.demand ≤ (s.dev.leg l).freeSlots.length then
        y.state = .granting ∧ y.slotList = (s.dev.leg l).freeSlots.take en.demand ∧ y.label = y.slotList.head? ∧
          y.freeCount = (s.dev.leg l).freeSlots.length - en.demand ∧
          offered s.dev d l r (.grant (y.slotList.headD 0) y.slotList) ∧
          ∀ k, (d.leg l).slotByte k = if k ∈ y.slotList then y.slotList.headD 0 else (s.dev.leg l).slotByte k
       else y.state = .halted ∧ y.fault = .noSlots ∧ y.stage = some .granting ∧
        y.freeCount = (s.dev.leg l).freeSlots.length ∧ d.isSet .recHalted = true)

/-- A LOAD answered OK (R104, R105, R116): chunks acknowledged becomes k + 1; disturbed, the record halts with SOURCE_CHANGED; not final,
the record stays in LOADING and the LOAD of chunk k + 1 joins the queue, or waits where it is full (R46, R101, R103); final, the record
is HELD after LOADING, GRANTING or ACTIVE. -/
def Obligations.LoadAnsweredOk : Prop :=
  ∀ (s : State) (l : Fin 4) (r : Nat) (x : InFlight) (src : BitVec 12) (tag : BitVec 6) (data : List Byte) (level : Byte) (delay : Nat)
    (p : Option Placement) (k dest srcOff len : Nat) (m : DestMode) (fin : Bool), s.Inv → s.answers l x src tag p →
    s.dev.stageInFlight l r x .loading → x.dir.body = .load k dest m srcOff len fin → (s.dev.record r).pinWait = false → r ∉ s.dev.pinWait →
    let en := (s.dev.record r).enrol
    ∃ d, exec (.replyBurst l src tag .ok data level delay p) s = .next { s with dev := d } ∧ (d.leg l).chan = .free ∧
      othersKeep s.dev d r ∧ (d.record r).chunksAck = k + 1 ∧
      (let y := d.record r
       if x.disturbed then y.state = .halted ∧ y.fault = .sourceChanged ∧ y.stage = some .loading
       else if fin = false then y.state = .loading ∧ y.pin = (s.dev.record r).pin ∧
        (y.pin ≠ none → (s.dev.leg l).hasEntry r = false → (s.dev.leg l).isWaiting r = false →
          let i := k + 1
          let last := decide (i + 1 = (en.lenCode + 16) / 16)
          let dir : Directive := ⟨.individual en.addr, .load i (if en.mode = .inc then en.dest + 16 * i else en.dest) en.mode
            (en.start + 16 * i) (if last then en.lenCode + 1 - 16 * i else 16) last⟩
          if (s.dev.leg l).queue.length < 12 then (d.leg l).queue = (s.dev.leg l).queue ++ [⟨dir, .record r⟩]
          else (d.leg l).waiting = (s.dev.leg l).waiting ++ [⟨r, dir⟩] ∧ y.waiting = true)
       else if en.hold = .loaded then y.state = .held ∧ y.stage = some .loading ∧ y.pin = none
       else if en.demand = 0 then y.state = .active ∧ y.pin = none ∧ d.isSet .recActive = true
       else (y.state = .granting ∨ (y.state = .halted ∧ y.fault = .noSlots)) ∧ y.pin = none)

/-- A GRANT answered OK takes its record to ACTIVE, which latches REC_ACTIVE; label, slots and free count are kept (R7, R123).
R124: when a record in GRANTING or ACTIVE drops its stage resources, every slot with its label is free again and no other slot
changes; label and slot list are absent and the free count stands. -/
def Obligations.GrantAnsweredOk : Prop :=
  (∀ (s : State) (l : Fin 4) (r : Nat) (x : InFlight) (src : BitVec 12) (tag : BitVec 6) (data : List Byte) (level : Byte) (delay : Nat)
    (p : Option Placement) (b : Nat) (ss : List Nat), s.Inv → s.answers l x src tag p → s.dev.stageInFlight l r x .granting →
    x.dir.body = .grant b ss →
    ∃ d, exec (.replyBurst l src tag .ok data level delay p) s = .next { s with dev := d } ∧
      d.leg l = { s.dev.leg l with chan := .free } ∧ d.isSet .recActive = true ∧ othersKeep s.dev d r ∧
      (d.record r).plan = { (s.dev.record r).plan with state := .active, stage := none, fault := .none } ∧
      (d.record r).label = (s.dev.record r).label ∧ (d.record r).slotList = (s.dev.record r).slotList) ∧
  (∀ (d : Dev) (r b : Nat), d.mapsCanonical → (d.record r).label = some b → b ≠ 0 →
    let d' := d.slotRelease r
    (d'.record r).label = none ∧ (d'.record r).slotList = [] ∧ (d'.record r).freeCount = (d.record r).freeCount ∧
    ∀ k, (d'.leg (d.record r).enrol.leg).slotByte k =
      if (d.leg (d.record r).enrol.leg).slotByte k = b then 0 else (d.leg (d.record r).enrol.leg).slotByte k)

/-! ## Hails and windows (chapter 4) -/

/-- A hail decoded while a hail window owns the channel, once it is open or in the rest of a quiet span (R40, R51), counts toward its
outcome; its serial on no record gives a STRAY entry, on a record of another
leg a WRONG_LEG entry with that record's index, and the record is unchanged (R20, R72). The entry joins the write list, or, with no
room, is lost: the overrun marker is set and RING_OVERRUN latches (R75). Its cycle is that of reception. The entry's burst takes a
FREE port at once where nothing else waits, and waits while the port is owned (R76, R180). -/
def Obligations.UnmatchedHailGoesToTheRing : Prop :=
  ∀ (s : State) (l : Fin 4) (serial : BitVec 64) (kind count level : Byte) (received : BitVec 16) (w : HailWindow)
    (other : Option Nat), s.phase = .running → (s.dev.leg l).chan = .hail w →
    (w.opened ≠ none ∨ (s.dev.leg l).quietSpanRuns (s.applied.leg l).reach s.cycle = true) →
    (match s.dev.enrolled.find? fun p => decide (p.2.enrol.serial = serial) with
     | some p => p.2.enrol.leg ≠ l ∧ other = some p.1
     | none => other = none) →
    let entry : RingEntry :=
      { serial := serial, leg := l, disp := if other.isSome then .wrongLeg else .stray, kind := kind, count := count
        cycle := received, level := level, rec_ := other }
    let cap := s.applied.ringCap
    let room := s.dev.ring.badTail = false ∧ s.dev.ring.count cap ≠ cap - 1 ∧
      s.dev.ring.count cap + s.dev.ring.writeList.length < cap - 1
    ∃ d, exec (.decodedHail l serial kind count level received) s = .next (s.askPort d) ∧ d.recs = s.dev.recs ∧
      d.leg l = { s.dev.leg l with chan := .hail { w with hails := true } } ∧ (∀ k, k ≠ l → d.leg k = s.dev.leg k) ∧
      (room → d.ring = { s.dev.ring with writeList := s.dev.ring.writeList ++ [entry] } ∧ d.causes = s.dev.causes) ∧
      (¬ room → d.ring = { s.dev.ring with overrun := true } ∧ d.isSet .ringOverrun = true) ∧
      (s.bus.port ≠ .free → s.askPort d = { s with dev := d }) ∧
      (room → s.bus.port = .free → s.bus.held = none → s.dev.burst = none → s.dev.requests = [] → s.dev.fetches = [] →
        s.askPort d = { s with
          bus := { s.bus with port := .engine, passCount := 0 }, dev := { d with burst := some .ring, requests := [] } })

/-- A matched hail adds one to the record's hail count, saturating at 255, and acts by its state (R20 to R23): EXPECTED enters PROBING;
its PROBE joining the queue where that has room (R84); PROBING, ASSIGNING and a HELD record without its address only count; a stage past ASSIGNING, ACTIVE, or HELD with its address is
restarted, into PROBING with a PROBE likewise (no record waiting for a pin-table entry) or, past the rehail limit, HALTED with FLAPPING; HALTED loses ADDRESSED and is reported; WITHDRAWING ends
VACANT and is reported as STRAY, each by an entry that joins the write list, or is lost where there is no room (R75). What a HELD
record with ADDRESSED clear does is deduced (notes/assumptions/31.md). -/
def Obligations.MatchedHailActsByState : Prop :=
  ∀ (s : State) (l : Fin 4) (r : Nat) (serial : BitVec 64) (kind count level : Byte) (received : BitVec 16) (w : HailWindow),
    s.phase = .running → s.Inv → (s.dev.leg l).chan = .hail w →
    (w.opened ≠ none ∨ (s.dev.leg l).quietSpanRuns (s.applied.leg l).reach s.cycle = true) →
    let x := s.dev.record r
    let cap := s.applied.ringCap
    let room := s.dev.ring.badTail = false ∧ s.dev.ring.count cap ≠ cap - 1 ∧
      s.dev.ring.count cap + s.dev.ring.writeList.length < cap - 1
    let reported (d : Dev) (disp : Disposition) (q : Option Nat) : Prop :=
      (room → d.ring = { s.dev.ring with writeList := s.dev.ring.writeList ++ [
        { serial := serial, leg := l, disp := disp, kind := kind, count := count, cycle := received, level := level, rec_ := q }] }) ∧
      (¬ room → d.ring = { s.dev.ring with overrun := true } ∧ d.isSet .ringOverrun = true)
    s.dev.enrolled.find? (fun p => decide (p.2.enrol.serial = serial)) = some (r, x) → x.enrol.leg = l →
    ∃ d, exec (.decodedHail l serial kind count level received) s = .next (s.askPort d) ∧ othersKeep s.dev d r ∧
      (s.bus.port ≠ .free ∨ d.requests = s.dev.requests → s.askPort d = { s with dev := d }) ∧
      (let y := d.record r
       (x.state ≠ .withdrawing → y.hails = if x.hails < 255 then x.hails + 1 else x.hails) ∧
       (x.state = .expected → y.state = .probing ∧ y.attempts = 0 ∧ y.stage = none ∧ d.ring = s.dev.ring ∧ offered s.dev d l r .probe) ∧
       (x.state = .probing ∨ x.state = .assigning ∨ (x.state = .held ∧ x.addressed = false) →
         y = { x with hails := y.hails } ∧ d.ring = s.dev.ring) ∧
       (x.state = .ranging ∨ x.state = .equalising ∨ x.state = .loading ∨ x.state = .granting ∨ x.state = .active ∨
          (x.state = .held ∧ x.addressed = true) →
         y.addressed = false ∧ y.assignSent = false ∧ y.measured = none ∧ y.equalise = none ∧ y.label = none ∧ y.slotList = [] ∧
         y.chunksAck = 0 ∧ y.chunksTotal = 0 ∧ y.rehails = x.rehails + 1 ∧ y.freeCount = x.freeCount ∧ y.level = x.level ∧
         d.ring = s.dev.ring ∧
         (if s.applied.rehailLimit < x.rehails + 1 then y.state = .halted ∧ y.fault = .flapping ∧
            y.stage = (if x.state = .held then x.stage else some x.state) ∧ d.isSet .recHalted = true
          else y.state = .probing ∧ y.stage = none ∧ y.fault = .none ∧ (s.dev.pinWait = [] → offered s.dev d l r .probe))) ∧
       (x.state = .halted → y = { x with hails := y.hails, addressed := false } ∧ reported d .halted (some r)) ∧
       (x.state = .withdrawing → y = Rec.vacant ∧ reported d .stray none))

/-- A garbled burst: while a hail window owns the channel, once it is open or in the rest of a quiet span (R40, R51), it counts toward
the outcome only (R55, R71), and a reply-format burst there counts so and is stray; while a directive or a survey owns the channel it
does nothing (R54); with the channel of a leg in operation FREE it is stray when it began in a control slot, or anywhere in the rest
of a quiet span (R55, R56).
A hail-format burst outside a hail window, while a directive owns the channel or it is FREE, is stray and changes no record (R54, R55):
the stray count goes up by one; at the stray limit of a RUNNING or SUSPENDED leg it is set to 0 and an automatic survey is pending; on
a HUNTING leg it only counts (R56). That it is heard in control slots 1 to 7 of an individual directive's reply window is the model's
choice (notes/assumptions/37.md). -/
def Obligations.StrayBurstsAreCounted : Prop :=
  (∀ (s : State) (l : Fin 4) (p : Option Placement), s.phase = .running →
    let g := s.dev.leg l
    let span := g.quietSpanRuns (s.applied.leg l).reach s.cycle = true
    (∀ w, g.chan = .hail w → w.opened ≠ none ∨ span →
      exec (.garbledBurst l p) s =
        .next { s with dev := s.dev.modLeg l fun g => { g with chan := .hail { w with others := true } } }) ∧
    (∀ w, g.chan = .hail w → w.opened = none → ¬ span → exec (.garbledBurst l p) s = .next s) ∧
    (∀ w src tag code data level delay, g.chan = .hail w → w.opened ≠ none ∨ span → g.stray < 255 →
      ((s.applied.leg l).strayLimit = 0 ∨ g.stray + 1 < (s.applied.leg l).strayLimit) →
      exec (.replyBurst l src tag code data level delay p) s = .next { s with dev := s.dev.modLeg l fun g =>
        { g with chan := .hail { w with others := true }, stray := g.stray + 1 } }) ∧
    ((∃ x, g.chan = .directive x) ∨ (∃ w, g.chan = .survey w) ∨ (g.chan = .free ∧ (g.st = .dark ∨ g.st = .faulted)) →
      exec (.garbledBurst l p) s = .next s) ∧
    (g.chan = .free → (g.st = .running ∨ g.st = .suspended ∨ g.st = .hunting) → p.isSome = true ∨ span → g.stray < 255 →
      ((s.applied.leg l).strayLimit = 0 ∨ g.stray + 1 < (s.applied.leg l).strayLimit) →
      exec (.garbledBurst l p) s = .next { s with dev := s.dev.modLeg l fun g => { g with stray := g.stray + 1 } })) ∧
  (∀ (s : State) (l : Fin 4) (serial : BitVec 64) (kind count level : Byte) (p : Option Placement), s.phase = .running →
    let g := s.dev.leg l
    let limit := (s.applied.leg l).strayLimit
    (g.st = .running ∨ g.st = .suspended ∨ g.st = .hunting) →
    let span := g.quietSpanRuns (s.applied.leg l).reach s.cycle = true
    ((∃ x, g.chan = .directive x ∧ (x.hears p = true ∨ span)) ∨ (g.chan = .free ∧ (p.isSome = true ∨ span))) →
    exec (.strayHailFormatBurst l serial kind count level p) s =
      .next { s with dev := s.dev.modLeg l fun g =>
        let n := if g.stray < 255 then g.stray + 1 else g.stray
        if limit ≠ 0 ∧ limit ≤ n ∧ g.st ≠ .hunting then
          { g with stray := 0, pendSurvey := some (match g.pendSurvey with
            | some q => { q with auto := true }
            | none => ⟨true, [], false⟩) }
        else { g with stray := n } })

/-- A hail window that took the channel opens in a cycle after the hand-over with the applied length, and its first marker has both flags
set (R27, R57, R69).
A survey window that took the channel opens in a cycle after the hand-over with the applied length and threshold; its marker has quiet
set and hail-open clear (R130). -/
def Obligations.WindowsOpenWithTheirFlags : Prop :=
  (∀ (s : State) (l : Fin 4) (w : HailWindow), s.phase = .running → (s.dev.leg l).chan = .hail w → w.opened = none →
    s.cycle ≠ w.since → 1 ≤ (s.applied.leg l).hailLen →
    exec (.hailWindowOpen l) s = .next { s with dev := s.dev.modLeg l fun g =>
      { g with chan := .hail { w with opened := some (s.cycle, (s.applied.leg l).hailLen) }
               marker := some ⟨s.cycle, true, true⟩, quiet := true } }) ∧
  (∀ (s : State) (l : Fin 4) (w : SurveyWindow), s.phase = .running → (s.dev.leg l).chan = .survey w → w.opened = none →
    s.cycle ≠ w.since → 1 ≤ (s.applied.leg l).surveyLen →
    exec (.surveyWindowOpen l) s = .next { s with dev := s.dev.modLeg l fun g =>
      { g with chan := .survey { w with opened := some ⟨s.cycle, (s.applied.leg l).surveyLen, (s.applied.leg l).threshold⟩ }
               marker := some ⟨s.cycle, false, true⟩, quiet := true } })

/-- A hail window ends with its last upstream cycle, which ends by the reach target it kept (R69, R186): the channel is FREE and the last
window outcome is HAILS, GARBLED or EMPTY by what was heard (R71). Before that nothing changes (notes/assumptions/6.md). -/
def Obligations.HailWindowEnds : Prop :=
  ∀ (s : State) (l : Fin 4) (w : HailWindow) (w1 : BitVec 16) (n : Nat), s.phase = .running → (s.dev.leg l).chan = .hail w →
    w.opened = some (w1, n) →
    exec (.hailWindowEnd l) s =
      if n + lag w.reach ≤ cyclesFrom w1 s.cycle then
        .next { s with dev := s.dev.modLeg l fun g => { g with
          chan := .free, lastWindow := if w.hails then .hails else if w.others then .garbled else .empty } }
      else .next s

/-! ## Surveys and hunts (chapter 8) -/

/-- A survey window with no hunt and no command slot behind it ends (R131, R133): BLAZING at 256 lit samples for each cycle, else LIT from
the threshold up, else DARK, which zeroes the stray count; the channel is FREE; a LIT or BLAZING automatic survey starts a hunt
where auto-hunt is on, the leg RUNNING or SUSPENDED and no hunt STARTING.
A survey window that one SURVEY command requested ends: the slot is DONE with OK and leg, result and count (R134, R189).
So it is for every requester of a window: the leg's part of a SURVEY of every leg takes the outcome and count, and its command is DONE
with OK and all parts once the last has ended (R131, R135); every other slot stands but the owner's of a hunt that asked too. -/
def Obligations.SurveyWindowEndsAndJudges : Prop :=
  (∀ (s : State) (l : Fin 4) (lit : Nat) (w : SurveyWindow) (o : SurveyOpen), s.phase = .running →
    (s.dev.leg l).chan = .survey w → w.opened = some o → w.reqs.hunt = false → w.reqs.slots = [] →
    o.length + lag w.reach ≤ cyclesFrom o.first s.cycle → w.lit + lit ≤ 256 * o.length →
    let c := w.lit + lit
    let out := if c = 256 * o.length then SurveyOut.blazing else if o.threshold ≤ c then .lit else .dark
    let g := s.dev.leg l
    let starts := w.reqs.auto = true ∧ out ≠ .dark ∧ (s.applied.leg l).autoHunt = true ∧ (g.st = .running ∨ g.st = .suspended) ∧
      g.hunt.phase = .idle
    exec (.surveyWindowEnd l lit) s = .next { s with dev := s.dev.modLeg l fun g =>
      { g with chan := .free, lastSurvey := out, lastCount := c, stray := if out = .dark then 0 else g.stray
               hunt := if starts then { Hunt.idle with
                 phase := .starting, lastResult := g.hunt.lastResult, lastCulprit := g.hunt.lastCulprit } else g.hunt } }) ∧
  (∀ (s : State) (l : Fin 4) (lit n : Nat) (w : SurveyWindow) (o : SurveyOpen), s.phase = .running → s.Inv →
    (s.dev.leg l).chan = .survey w → w.opened = some o → w.reqs = ⟨false, [n], false⟩ → (s.dev.slot n).parts = [] →
    o.length + lag w.reach ≤ cyclesFrom o.first s.cycle → w.lit + lit ≤ 256 * o.length →
    let c := w.lit + lit
    let out := if c = 256 * o.length then SurveyOut.blazing else if o.threshold ≤ c then .lit else .dark
    ∃ d, exec (.surveyWindowEnd l lit) s = .next { s with dev := d } ∧
      d.leg l = { s.dev.leg l with
        chan := .free, lastSurvey := out, lastCount := c, stray := if out = .dark then 0 else (s.dev.leg l).stray } ∧
      slotDone s.dev d n .ok { Detail.zero with a := l.val, b := out.code, w14 := BitVec.ofNat 32 c } ∧ d.recs = s.dev.recs) ∧
  (∀ (s : State) (l : Fin 4) (lit : Nat) (w : SurveyWindow) (o : SurveyOpen), s.phase = .running → s.Inv →
    (s.dev.leg l).chan = .survey w → w.opened = some o → w.reqs.slots.Nodup →
    o.length + lag w.reach ≤ cyclesFrom o.first s.cycle → w.lit + lit ≤ 256 * o.length →
    let c := w.lit + lit
    let out := if c = 256 * o.length then SurveyOut.blazing else if o.threshold ≤ c then .lit else .dark
    let owns (n : Nat) : Prop := w.reqs.hunt = true ∧ (s.dev.leg l).hunt.owner = some n
    ∃ d, exec (.surveyWindowEnd l lit) s = .next { s with dev := d } ∧ (d.leg l).chan = .free ∧ (d.leg l).lastSurvey = out ∧
      (d.leg l).lastCount = c ∧ (w.reqs.hunt = false → d.recs = s.dev.recs) ∧
      ∀ n, ¬ owns n →
        let y := s.dev.slot n
        let ps := y.parts.set l.val (some (out, c))
        let done (x : Detail) : Prop := d.slot n = { y with st := .done, result := .ok, detail := x, parts := [] } ∧ d.isSet .cmdDone = true
        (n ∉ w.reqs.slots → d.slot n = y) ∧
        (n ∈ w.reqs.slots → y.parts = [] → done { Detail.zero with a := l.val, b := out.code, w14 := BitVec.ofNat 32 c }) ∧
        (n ∈ w.reqs.slots → y.parts ≠ [] → ps.all Option.isSome = true → done (.allLegs ps)) ∧
        (n ∈ w.reqs.slots → y.parts ≠ [] → ps.all Option.isSome = false → d.slot n = { y with parts := ps }))

/-- A hunt's survey ends (R137 to R139): the channel is FREE, its result and count are kept (R131) and the steps count goes up. DARK at the
confirming survey ends the hunt with NO_ROGUE; otherwise (LIT or BLAZING) it ends with STRAY_ROGUE without candidates, takes one candidate
to the final step, and of more mutes the first half. After a bisection's survey the half is unmuted, and the new list is the half where
it was DARK and the others where not. In the final step DARK names the candidate: FOUND, and it is HALTED with ROGUE, a HELD or HALTED
one keeping its stage field (R141); otherwise the candidate is unmuted, the last step. With the half emptied by withdrawals (R142) the
next step follows at once: STRAY_ROGUE with an empty list, else the list's one candidate's final step or its bisection; with the final
step's candidate withdrawn the hunt ends with STRAY_ROGUE (R139). A hunt that ends is IDLE with its result, culprit
and steps, HUNT_END latches, and an owning command's slot is DONE with OK and them (R141, R189); else no slot changes.
R137: the candidates of a hunt are the records of the leg with ADDRESSED set that are neither WITHDRAWING nor HALTED with ROGUE. -/
def Obligations.HuntSurveyMovesTheHunt : Prop :=
  (∀ (s : State) (l : Fin 4) (lit : Nat) (w : SurveyWindow) (o : SurveyOpen), s.phase = .running → s.Inv →
    (s.dev.leg l).chan = .survey w → w.opened = some o → w.reqs = ⟨false, [], true⟩ →
    o.length + lag w.reach ≤ cyclesFrom o.first s.cycle → w.lit + lit ≤ 256 * o.length →
    let g := s.dev.leg l
    let c := w.lit + lit
    let out := if c = 256 * o.length then SurveyOut.blazing else if o.threshold ≤ c then .lit else .dark
    let cs := s.dev.candidates l
    let h := { g.hunt with steps := min (g.hunt.steps + 1) 255 }
    g.st = .hunting → g.hunt.steps ≤ 255 →
    ∃ d, exec (.surveyWindowEnd l lit) s = .next { s with dev := d } ∧
      (let k := d.leg l
       let ended (res : HuntResult) (who : Option Nat) : Prop :=
         k.hunt = { Hunt.idle with steps := h.steps, lastResult := res, lastCulprit := who } ∧ d.isSet .huntEnd = true ∧
         k.st = (if res = .strayRogue then .suspended else .running) ∧ (h.owner = none → d.slots = s.dev.slots) ∧
         ∀ n, h.owner = some n → slotDone s.dev d n .ok
           { Detail.zero with a := res.code, b := h.steps, w14 := BitVec.ofNat 32 (who.getD 0xFFFF) }
       let goesOn (next : Hunt) : Prop := k.hunt = next ∧ k.st = .hunting ∧ d.recs = s.dev.recs ∧ d.slots = s.dev.slots
       k.chan = .free ∧ k.lastSurvey = out ∧ k.lastCount = c ∧
       (h.phase = .confirming → out = .dark → ended .noRogue none ∧ d.recs = s.dev.recs) ∧
       (h.phase = .confirming → out ≠ .dark → cs = [] → ended .strayRogue none ∧ d.recs = s.dev.recs) ∧
       (∀ r, h.phase = .confirming → out ≠ .dark → cs = [r] →
         goesOn { h with phase := .muting, cands := [r], half := [], todo := [r], newList := [], final := true }) ∧
       (h.phase = .confirming → out ≠ .dark → 2 ≤ cs.length →
         goesOn { h with phase := .muting, cands := cs, half := cs.take ((cs.length + 1) / 2)
                         todo := cs.take ((cs.length + 1) / 2), newList := [], final := false }) ∧
       (h.phase = .surveying → h.final = false → h.half ≠ [] →
         goesOn { h with phase := .unmuting, todo := h.half
                         newList := if out = .dark then h.half else h.cands.filter fun r => !h.half.contains r }) ∧
       (h.phase = .surveying → h.final = false → h.half = [] → out = .dark ∨ h.cands = [] →
         ended .strayRogue none ∧ d.recs = s.dev.recs) ∧
       (∀ r, h.phase = .surveying → h.final = false → h.half = [] → out ≠ .dark → h.cands = [r] →
         goesOn { h with phase := .muting, cands := [r], half := [], todo := [r], newList := [], final := true }) ∧
       (h.phase = .surveying → h.final = false → h.half = [] → out ≠ .dark → 2 ≤ h.cands.length →
         goesOn { h with phase := .muting, half := h.cands.take ((h.cands.length + 1) / 2)
                         todo := h.cands.take ((h.cands.length + 1) / 2), newList := [], final := false }) ∧
       (h.phase = .surveying → h.final = true → h.cands = [] → ended .strayRogue none ∧ d.recs = s.dev.recs) ∧
       (h.phase = .surveying → h.final = true → out ≠ .dark → h.cands ≠ [] →
         goesOn { h with phase := .unmuting, todo := h.cands }) ∧
       (∀ r, h.phase = .surveying → h.final = true → out = .dark → h.cands = [r] →
         let x := s.dev.record r
         ended .found (some r) ∧ d.isSet .recHalted = true ∧ othersKeep s.dev d r ∧
         (d.record r).plan = { x.plan with
           state := .halted, fault := .rogue
           stage := if x.state = .held ∨ x.state = .halted then x.stage else some x.state }))) ∧
  (∀ (d : Dev) (l : Fin 4) (r : Nat), d.mapsCanonical →
    (r ∈ d.candidates l ↔
      (d.record r).state ≠ .vacant ∧ (d.record r).enrol.leg = l ∧ (d.record r).addressed = true ∧
      (d.record r).state ≠ .withdrawing ∧ ¬ ((d.record r).state = .halted ∧ (d.record r).fault = .rogue)) ∧
    (d.candidates l).Pairwise (· < ·))

/-- A STARTING hunt whose leg is RUNNING or SUSPENDED with a FREE channel enters HUNTING and CONFIRMING, drops a pending hail window and
asks for its survey, which joins a pending one (R129, R136); with the channel owned nothing changes (notes/assumptions/5.md).
A hunt's MUTE or UNMUTE that ends, answered or not, moves the hunt (R138 to R140): an UNMUTE clears MUTED; with steps left the hunt
stands; after the last MUTE it asks for its survey; after the last UNMUTE the new list is bisected, or is the final step's one
candidate; an empty list, and the final step's UNMUTE, end the hunt with STRAY_ROGUE: the leg is SUSPENDED, HUNT_END latches, the
owner's slot is DONE with OK (R141). -/
def Obligations.StartingHuntEntersHunting : Prop :=
  (∀ (s : State) (l : Fin 4), s.phase = .running →
    let g := s.dev.leg l
    g.hunt.phase = .starting → (g.st = .running ∨ g.st = .suspended) →
    (g.chan = .free →
      exec (.huntEntersHunting l) s = .next { s with dev := s.dev.modLeg l fun g =>
        { g with st := .hunting, pendHail := false, hunt := { g.hunt with phase := .confirming }
                 pendSurvey := some (match g.pendSurvey with
                   | some q => { q with hunt := true }
                   | none => ⟨false, [], true⟩) } }) ∧
    (g.chan ≠ .free → exec (.huntEntersHunting l) s = .next s)) ∧
  (∀ (s : State) (l : Fin 4) (r : Nat) (x : InFlight) (c : Instr), s.Inv → s.endsBy l x c → x.origin = .hunt r →
    (x.dir.body = .mute ∨ x.dir.body = .unmute) → (s.dev.leg l).st = .hunting →
    let g := s.dev.leg l
    let h := g.hunt
    let cs := h.newList
    ∃ d, exec c s = .next { s with dev := d } ∧ (d.leg l).chan = .free ∧ (∀ q, (d.record q).plan = (s.dev.record q).plan) ∧
      (d.record r).muted = ((s.dev.record r).muted && decide (x.dir.body = .mute)) ∧
      (let k := d.leg l
       (h.todo ≠ [] → k.hunt = h ∧ k.st = .hunting) ∧
       (h.todo = [] → h.phase = .muting → k.hunt = { h with phase := .surveying } ∧
         k.pendSurvey = some (match g.pendSurvey with
           | some q => { q with hunt := true }
           | none => ⟨false, [], true⟩)) ∧
       (h.todo = [] → h.phase = .unmuting → h.final = false → 2 ≤ cs.length →
         k.hunt = { h with phase := .muting, cands := cs, half := cs.take ((cs.length + 1) / 2)
                           todo := cs.take ((cs.length + 1) / 2), newList := [], final := false }) ∧
       (∀ q, h.todo = [] → h.phase = .unmuting → h.final = false → cs = [q] →
         k.hunt = { h with phase := .muting, cands := [q], half := [], todo := [q], newList := [], final := true }) ∧
       (h.todo = [] → h.phase = .unmuting → (h.final = true ∨ cs = []) →
         k.hunt = { Hunt.idle with steps := h.steps, lastResult := .strayRogue } ∧ k.st = .suspended ∧ d.isSet .huntEnd = true ∧
         (h.owner = none → d.slots = s.dev.slots) ∧
         ∀ n, h.owner = some n → slotDone s.dev d n .ok
           { Detail.zero with a := HuntResult.strayRogue.code, b := h.steps, w14 := 0xFFFF })))

/-! ## Waiting lists and engines (chapters 3, 6, 11) -/

/-- The front of the waiting list takes the free places of the queue in order, WAITING clears, and the others stay (R48). So it does as
soon as a place is free: when the head of a full queue takes the channel, the front of the list takes its place.
The pin-wait list is served while an entry is FREE (R109): the front record takes the lowest FREE entry, which becomes OPEN with its
range, the waiters of that range join it, they leave the list, and their LOADs of chunk 0 are offered; with no entry FREE or nobody
waiting nothing changes (notes/assumptions/5.md; both lists are served at once, 7.md). -/
def Obligations.WaitingListsAreServed : Prop :=
  (∀ (s : State) (l : Fin 4), s.phase = .running → s.dev.mapsCanonical → (s.dev.leg l).queue.length ≤ 12 →
    let g := s.dev.leg l
    let n := 12 - g.queue.length
    ∃ d, exec (.waitingListAdmit l) s = .next { s with dev := d } ∧
      d.leg l = { g with queue := g.queue ++ (g.waiting.take n).map (fun w => ⟨w.dir, .record w.r⟩), waiting := g.waiting.drop n } ∧
      (∀ k, k ≠ l → d.leg k = s.dev.leg k) ∧
      ∀ r, d.record r = { s.dev.record r with
        waiting := (s.dev.record r).waiting && !((g.waiting.take n).map Waiter.r).contains r }) ∧
  (∀ (s : State) (l : Fin 4) (e : Entry) (q : List Entry) (w : Waiter) (ws : List Waiter), s.phase = .running →
    let g := s.dev.leg l
    g.chan = .free → (g.st = .running ∨ g.st = .suspended) → g.hunt.phase ≠ .starting → g.pendSurvey = none → g.pendHail = false →
    g.queue.length = 12 → g.waiting = w :: ws → takeHead g.queue = some (e, q) →
    (∀ k dest m src len fin, e.dir.body ≠ .load k dest m src len fin) →
    exec (.channelHandover l) s = .next { s with dev :=
      (s.dev.modLeg l fun g => { g with
        queue := q ++ [⟨w.dir, .record w.r⟩], waiting := ws
        chan := .directive (takenNow e.dir e.origin (.ready s.cycle) (s.applied.leg l).reach) }).modRec w.r fun x =>
          { x with waiting := false } }) ∧
  (∀ s : State, s.phase = .running → s.dev.mapsCanonical →
    (s.dev.pinWait = [] ∨ s.dev.freePin = none → exec .pinWaitServe s = .next s) ∧
    (∀ r rest k, s.dev.pinWait = r :: rest → s.dev.freePin = some k → (r :: rest).Nodup →
      let en := (s.dev.record r).enrol
      (∀ q ∈ rest, (s.dev.record q).enrol.start = en.start ∧ (s.dev.record q).enrol.lenCode = en.lenCode) →
      ∃ d, exec .pinWaitServe s = .next { s with dev := d } ∧ d.pinWait = [] ∧
        d.pin k = { st := .openEntry, start := en.start, lenCode := en.lenCode, users := rest.length + 1 } ∧
        (∀ i, i ≠ k → d.pin i = s.dev.pin i) ∧
        (∀ q ∈ r :: rest, (d.record q).pin = some k ∧ (d.record q).pinWait = false ∧ (d.record q).plan = (s.dev.record q).plan) ∧
        (∀ q, q ∉ r :: rest → d.record q = s.dev.record q) ∧
        (rest = [] → (s.dev.record r).state = .loading → (s.dev.leg en.leg).busyWith r = false →
          (s.dev.leg en.leg).queue.length < 12 →
          (d.leg en.leg).queue =
            (s.dev.leg en.leg).queue ++ [⟨⟨.individual en.addr, en.loadBody (s.dev.record r).chunksAck⟩, .record r⟩])))

/-- An engine burst begins at a FREE port when no controller access waits or the pass count is 8 (R180): the front request leaves the
list, the port is ENGINE and the pass count 0; a ring entry that finds the ring full is dropped unwritten with the overrun marker set and
RING_OVERRUN latched, nothing else of the blocks changing, and the port goes to the next claimant: the request list is its rest with the
requests of the engines that have work and none asked for, the writer's for its next entry among them, joined behind it (R76; the
model's choice, notes/assumptions/26.md).
A request finds the FREE port as it is made, so that ENGINE_BURST_BEGIN finds it given (the model's choice, notes/assumptions/25.md). A
controller access goes first at a FREE port while the pass count is below 8; once it is 8 the burst begins and the access is held;
while a burst runs, or with the port owned, no other begins (R179, R180; notes/assumptions/5.md). -/
def Obligations.EngineBurstTakesThePort : Prop :=
  (∀ (s : State) (rest : List Client), s.phase = .running → s.bus.port = .free →
    (s.bus.held = none ∨ s.bus.passCount = 8) →
    (∀ f fs, s.dev.requests = .load :: rest → s.dev.fetches = f :: fs →
      exec .engineBurstBegin s = .next { s with
        bus := { s.bus with port := .engine, passCount := 0 }
        dev := { s.dev with burst := some (.fetch f false), requests := rest } }) ∧
    (s.dev.requests = .ring :: rest → s.dev.ring.full s.applied.ringCap = false →
      exec .engineBurstBegin s = .next { s with
        bus := { s.bus with port := .engine, passCount := 0 }, dev := { s.dev with burst := some .ring, requests := rest } }) ∧
    (s.dev.requests = .ring :: rest → s.dev.ring.full s.applied.ringCap = true →
      ∃ d, exec .engineBurstBegin s = .next (State.settle { s with dev := d }) ∧
        d = { s.dev with
          ring := { s.dev.ring with writeList := s.dev.ring.writeList.drop 1, overrun := true }
          causes := d.causes, requests := d.requests } ∧
        (∀ c, d.isSet c = (s.dev.isSet c || decide (c = .ringOverrun))) ∧
        (s.dev.burst = none → .ring ∉ rest →
          d.requests = rest ++ (if s.dev.fetches ≠ [] ∧ .load ∉ rest then [.load] else []) ++
            (if s.dev.ring.writeList.drop 1 = [] then [] else [.ring])) ∧
        (s.bus.held = none → d.requests = [] → State.settle { s with dev := d } = { s with dev := d }))) ∧
  (∀ s : State, s.phase = .running →
    (s.bus.port ≠ .free ∨ (s.bus.held ≠ none ∧ s.bus.passCount < 8) → exec .engineBurstBegin s = .next s) ∧
    (∀ addr data be b rest, s.bus.port = .free → s.bus.held = none → s.bus.passCount = 8 →
      s.usesPort ⟨addr, data, be, true⟩ = true →
      ((∃ f fs, s.dev.requests = .load :: rest ∧ s.dev.fetches = f :: fs ∧ b = .fetch f false) ∨
        (s.dev.requests = .ring :: rest ∧ s.dev.ring.full s.applied.ringCap = false ∧ b = .ring)) →
      exec (.passedWrite addr data be) s = .next { s with
        bus := { s.bus with port := .engine, passCount := 0, held := some ⟨addr, data, be, true⟩ }
        dev := { s.dev with burst := some b, requests := rest } }))

/-- A chunk fetch completes (R112): its bytes, those of the store at the fetch, are placed in the LOAD, which is first sent in a later
cycle; the fetch leaves the list and the port is freed for its next claimant, as AccessCompletesOrIsWithdrawn says: with no access held
and no engine request left it is FREE. Those of a LOAD that has ended are discarded (R114). Memory stands.
A ring entry burst completes (R73, R76, R181): its 32 bytes stand at 0x5000 + 32 × head, no other byte of memory changes, the entry
leaves the write list, the head advances modulo C, and the port is freed likewise. The bytes (13.5): serial; leg, disposition, kind, hail
count; cycle of reception, level code, 0; matched record or 0xFFFF, 16 bits; zeros. Of two bytes the lower stands first (deduced,
notes/assumptions/1.md). -/
def Obligations.EngineBurstsComplete : Prop :=
  (∀ (s : State) (f : Fetch) (fs : List Fetch) (x : InFlight), s.phase = .running →
    (s.dev.burst = some (.fetch f false) → s.dev.fetches = f :: fs → (s.dev.leg f.leg).chan = .directive x →
      ∃ d, exec .chunkFetchComplete s = .next (State.freePort { s with dev := d }) ∧
        (s.bus.held = none → d.requests = [] →
          exec .chunkFetchComplete s = .next { s with dev := d, bus := { s.bus with port := .free, passing := none } }) ∧
        d.leg f.leg = { s.dev.leg f.leg with chan := .directive { x with
          phase := .ready s.cycle
          data := (List.range f.len).map fun i => Memory.read s.mem (s.base.toNat * 65536 + 0x8000 + f.src + i) } } ∧
        (∀ k, k ≠ f.leg → d.leg k = s.dev.leg k) ∧ d.recs = s.dev.recs ∧ d.fetches = fs ∧ d.burst = none) ∧
    (s.dev.burst = some (.fetch f true) →
      ∃ d, exec .chunkFetchComplete s = .next (State.freePort { s with dev := d }) ∧
        (s.bus.held = none → d.requests = [] →
          exec .chunkFetchComplete s = .next { s with dev := d, bus := { s.bus with port := .free, passing := none } }) ∧
        d.legs = s.dev.legs ∧ d.fetches = s.dev.fetches ∧ d.burst = none)) ∧
  (∀ (s : State) (e : RingEntry) (es : List RingEntry), s.phase = .running → s.contentsCanonical →
    s.dev.burst = some .ring → s.dev.ring.writeList = e :: es →
    ∃ d m, exec .ringEntryWriteComplete s = .next (State.freePort { s with dev := d, mem := m }) ∧
      (s.bus.held = none → d.requests = [] →
        exec .ringEntryWriteComplete s = .next { s with dev := d, mem := m, bus := { s.bus with port := .free, passing := none } }) ∧
      (∀ x, Memory.read m x =
        if s.headAddr ≤ x ∧ x < s.headAddr + 32 then (e.bytes[x - s.headAddr]?).getD 0 else Memory.read s.mem x) ∧
      s.headAddr = s.base.toNat * 65536 + 0x5000 + 32 * s.dev.ring.head ∧
      (let half (v : BitVec 16) : List Byte := [v.setWidth 8, (v >>> 8).setWidth 8]
       e.bytes = (List.range 8).map (fun i => (e.serial >>> (8 * i)).setWidth 8) ++
         [BitVec.ofNat 8 e.leg.val, match e.disp with
           | .stray => 1
           | .wrongLeg => 2
           | .halted => 3, e.kind, e.count] ++
         half e.cycle ++ [e.level, 0] ++ half (BitVec.ofNat 16 (e.rec_.getD 0xFFFF)) ++ List.replicate 14 0) ∧
      d.ring = { s.dev.ring with head := (s.dev.ring.head + 1) % s.applied.ringCap, writeList := es } ∧
      d.recs = s.dev.recs ∧ d.legs = s.dev.legs ∧ d.burst = none)

/-! ## Examinations (chapters 1, 9, 10) -/

/-- An ENROL that passes every check of R10 (R2, R5, R11): the words become the copy, the record is EXPECTED with every other live
field at
its VACANT value, its leg rank is the lowest no other record of the leg holds, its group rank the lowest of its group there, and the
slot is DONE with OK. Nothing else changes. -/
def Obligations.EnrolMakesTheRecordExpected : Prop :=
  ∀ (s : State) (n r : Nat) (rest : List Nat) (ps : List Word), s.examines .enrol n rest ps → s.Inv →
    let f := enrolFields s.mirrors r
    let c := f.copy
    let d := s.dev
    paramNat ps 1 = r → r < 256 → (d.record r).state = .vacant → f.inRange → (d.leg c.leg).st ≠ .dark →
    (∀ q, d.otherOn r q c.leg → (d.record q).enrol.addr ≠ c.addr) →
    (∀ q, q ≠ r → (d.record q).state ≠ .vacant → (d.record q).enrol.serial ≠ c.serial) →
    (c.group = 0 ∨ (d.groupMembers r c.leg c.group).length < 64) →
    (∃ k, k < 256 ∧ ∀ q, d.otherOn r q c.leg → (d.record q).legRank ≠ k) →
    ∃ d', exec .enrol s = .next { s with dev := d' } ∧
      (let y := d'.record r
       y = { Rec.vacant with enrol := c, state := .expected, legRank := y.legRank, groupRank := y.groupRank } ∧
       (∀ q, d.otherOn r q c.leg → (d.record q).legRank ≠ y.legRank) ∧
       (∀ k, k < y.legRank → ∃ q, d.otherOn r q c.leg ∧ (d.record q).legRank = k) ∧
       (c.group = 0 → y.groupRank = none) ∧
       (c.group ≠ 0 → ∃ k, y.groupRank = some k ∧ k < 64 ∧
         (∀ q, d.otherOn r q c.leg → (d.record q).enrol.group = c.group → (d.record q).groupRank ≠ some k) ∧
         ∀ j, j < k → ∃ q, d.otherOn r q c.leg ∧ (d.record q).enrol.group = c.group ∧ (d.record q).groupRank = some j) ∧
       slotDone d d' n .ok { len := 0, a := r, b := 1, w14 := packBytes 0 y.legRank (y.groupRank.getD 0xFF) 0, w15 := 0 }) ∧
      (∀ q, q ≠ r → d'.record q = d.record q) ∧ d'.legs = d.legs ∧ d'.intake = rest

/-- R10: the first check that fails gives an ENROL's result and no record, leg or queue changes: WRONG_STATE, BAD_FIELD, LEG_OFF,
DUP_ADDRESS, DUP_SERIAL, GROUP_FULL in this order. The detail of BAD_FIELD is the number of the first enrolment field that fails, 2 to 11
(13.3; a start above 32,767 counts as field 6, deduced, notes/assumptions/17.md), of the others the record, its state and fault code, the
ranks zero (R189). A record parameter above 255 gives BAD_FIELD with field 1 (R10, R161). -/
def Obligations.EnrolRefusedLeavesTheRoster : Prop :=
  (∀ (s : State) (n r : Nat) (rest : List Nat) (ps : List Word), s.examines .enrol n rest ps → s.Inv →
     let f := enrolFields s.mirrors r
     let c := f.copy
     let d := s.dev
     let dupAddress := ∃ q, d.otherOn r q c.leg ∧ (d.record q).enrol.addr = c.addr
     let dupSerial := ∃ q, q ≠ r ∧ (d.record q).state ≠ .vacant ∧ (d.record q).enrol.serial = c.serial
     let wrong (k : Nat) : Prop :=
       (k = 2 ∧ f.serial = 0) ∨ (k = 3 ∧ 3 < f.leg) ∨ (k = 4 ∧ (f.addr = 0 ∨ 0xDFF < f.addr.toNat)) ∨
       (k = 5 ∧ f.group ≠ 0 ∧ (f.group.toNat < 0xE00 ∨ 0xEFE < f.group.toNat)) ∨
       (f.noProfile = false ∧
         ((k = 6 ∧ 32767 < f.start) ∨ (k = 7 ∧ 32768 < f.start + f.lenCode + 1) ∨
          (k = 9 ∧ (1 < f.mode ∨ 1024 < f.dest + (if f.mode = 0 then f.lenCode + 1 else min (f.lenCode + 1) 16))))) ∨
       (k = 10 ∧ 8 < f.demand) ∨ (k = 11 ∧ 3 < f.hold)
     paramNat ps 1 = r → r < 256 →
     ∀ code, ((d.record r).state ≠ .vacant ∧ code = .wrongState) ∨
         ((d.record r).state = .vacant ∧ ¬ f.inRange ∧ code = .badField) ∨
         ((d.record r).state = .vacant ∧ f.inRange ∧
           (((d.leg c.leg).st = .dark ∧ code = .legOff) ∨
            ((d.leg c.leg).st ≠ .dark ∧ dupAddress ∧ code = .dupAddress) ∨
            ((d.leg c.leg).st ≠ .dark ∧ ¬ dupAddress ∧ dupSerial ∧ code = .dupSerial) ∨
            ((d.leg c.leg).st ≠ .dark ∧ ¬ dupAddress ∧ ¬ dupSerial ∧ c.group ≠ 0 ∧
               64 ≤ (d.groupMembers r c.leg c.group).length ∧ code = .groupFull))) →
     ∃ d' x, exec .enrol s = .next { s with dev := d' } ∧ slotDone d d' n code x ∧ d'.recs = d.recs ∧ d'.legs = d.legs ∧
       d'.ring = d.ring ∧ d'.intake = rest ∧
       (code = .badField → ∀ k, wrong k → (∀ j, wrong j → k ≤ j) → x = { Detail.zero with a := k }) ∧
       (code ≠ .badField →
         x = { Detail.zero with a := r, b := (d.record r).state.code, w14 := packBytes (d.record r).fault.code 0 0 0 })) ∧
  (∀ (s : State) (n : Nat) (rest : List Nat) (ps : List Word), s.examines .enrol n rest ps → s.Inv → 255 < paramNat ps 1 →
    ∃ d, exec .enrol s = .next { s with dev := d } ∧ slotDone s.dev d n .badField { Detail.zero with a := 1 } ∧
      d = { s.dev with slots := d.slots, causes := d.causes, intake := rest })

/-- WITHDRAW (R17): of a VACANT or WITHDRAWING record WRONG_STATE and nothing else; on a FAULTED leg, or with ADDRESSED and ASSIGN_SENT
clear, VACANT at once (R19); else WITHDRAWING with stage and fault cleared, and its DISMISS is queued at class URGENT where the queue
has room (no record waiting for a pin-table entry). The command completes with OK.
A candidate of a HUNTING leg (R142) leaves the candidate list, the muted half and the lists made of them; a hunt directive in flight to
it is abandoned, which clears MUTED where it was an UNMUTE and leaves it where it was a MUTE; the hunt stands while steps are left, a
directive to another record is in flight or its survey is awaited, and else takes its next step as R138 and R139 give it: its survey
after the last MUTE, after the last UNMUTE the bisection of the new list, or its end with STRAY_ROGUE.
A record parameter above 255 gives BAD_FIELD with field 1 and nothing else (R161). -/
def Obligations.WithdrawEndsThePlan : Prop :=
  (∀ (s : State) (n r : Nat) (rest : List Nat) (ps : List Word), s.examines .withdraw n rest ps → s.Inv →
     paramNat ps 1 = r → r < 256 →
     let x := s.dev.record r
     let g := s.dev.leg x.enrol.leg
     ∃ d det, exec .withdraw s = .next { s with dev := d } ∧
       (x.state = .vacant ∨ x.state = .withdrawing → slotDone s.dev d n .wrongState det ∧ d.recs = s.dev.recs ∧ d.legs = s.dev.legs) ∧
       (x.state ≠ .vacant → x.state ≠ .withdrawing →
         (d.slot n).st = .done ∧ (d.slot n).result = .ok ∧ (d.slot n).detail = det ∧ d.isSet .cmdDone = true ∧
         det.a = r ∧ det.b = (d.record r).state.code ∧ othersKeep s.dev d r ∧
         (if g.st = .faulted ∨ (x.addressed = false ∧ x.assignSent = false) then d.record r = Rec.vacant
          else
           (d.record r).plan = { x.plan with state := .withdrawing, stage := none, fault := .none } ∧
           (d.record r).label = none ∧ (d.record r).ranging = none ∧
           (g.queue.length < queueCap → s.dev.pinWait = [] →
             ⟨⟨.individual x.enrol.addr, .dismiss⟩, .record r⟩ ∈ (d.leg x.enrol.leg).queue))) ∧
       (r ∈ g.hunt.cands → g.st = .hunting → x.addressed = true → x.state ≠ .vacant → x.state ≠ .withdrawing →
         let less (xs : List Nat) : List Nat := xs.filter fun q => decide (q ≠ r)
         let h := { g.hunt with
           cands := less g.hunt.cands, half := less g.hunt.half, todo := less g.hunt.todo, newList := less g.hunt.newList }
         let cs := h.newList
         let elsewhere := ∃ y q, g.chan = .directive y ∧ y.origin = .hunt q ∧ q ≠ r
         let done := h.todo = [] ∧ ¬ elsewhere
         let k := d.leg x.enrol.leg
         (∀ y, g.chan = .directive y → y.origin = .hunt r →
           k.chan = .free ∧ (d.record r).muted = (x.muted && decide (y.dir.body ≠ .unmute))) ∧
         ((∀ y, g.chan = .directive y → y.origin ≠ .hunt r ∧ y.origin ≠ .record r) → (d.record r).muted = x.muted) ∧
         (¬ done ∨ h.phase = .confirming ∨ h.phase = .surveying → k.hunt = h ∧ k.st = .hunting) ∧
         (done → h.phase = .muting → k.hunt = { h with phase := .surveying } ∧ k.st = .hunting ∧
           k.pendSurvey = some (match g.pendSurvey with
             | some q => { q with hunt := true }
             | none => ⟨false, [], true⟩)) ∧
         (done → h.phase = .unmuting → h.final = false → 2 ≤ cs.length →
           k.hunt = { h with phase := .muting, cands := cs, half := cs.take ((cs.length + 1) / 2)
                             todo := cs.take ((cs.length + 1) / 2), newList := [], final := false }) ∧
         (∀ q, done → h.phase = .unmuting → h.final = false → cs = [q] →
           k.hunt = { h with phase := .muting, cands := [q], half := [], todo := [q], newList := [], final := true }) ∧
         (done → h.phase = .unmuting → (h.final = true ∨ cs = []) →
           k.hunt = { Hunt.idle with steps := h.steps, lastResult := .strayRogue } ∧ k.st = .suspended ∧ d.isSet .huntEnd = true ∧
           ∀ m, m ≠ n → h.owner = some m → d.slot m = { s.dev.slot m with
             st := .done, result := .ok, parts := []
             detail := { Detail.zero with a := HuntResult.strayRogue.code, b := h.steps, w14 := 0xFFFF } }))) ∧
  (∀ (s : State) (n : Nat) (rest : List Nat) (ps : List Word), s.examines .withdraw n rest ps → s.Inv → 255 < paramNat ps 1 →
    ∃ d, exec .withdraw s = .next { s with dev := d } ∧ slotDone s.dev d n .badField { Detail.zero with a := 1 } ∧
      d = { s.dev with slots := d.slots, causes := d.causes, intake := rest })

/-- R16: a CONTINUE of a record that is neither HELD nor HALTED, or is HALTED with ROGUE, gives WRONG_STATE, and else one on a FAULTED leg
LEG_FAULT; the record is left exactly as it was. A record parameter above 255 gives BAD_FIELD with field 1 and nothing else (R161). -/
def Obligations.ContinueRefusals : Prop :=
  (∀ (s : State) (n r : Nat) (rest : List Nat) (ps : List Word) (code : ResultCode), s.examines .continueRecord n rest ps → s.Inv →
     paramNat ps 1 = r → r < 256 →
     let x := s.dev.record r
     let wrong := (x.state ≠ .held ∧ x.state ≠ .halted) ∨ (x.state = .halted ∧ x.fault = .rogue)
     (wrong ∧ code = .wrongState) ∨ (¬ wrong ∧ (s.dev.leg x.enrol.leg).st = .faulted ∧ code = .legFault) →
     ∃ d, exec .continueRecord s = .next { s with dev := d } ∧ d.recs = s.dev.recs ∧ d.legs = s.dev.legs ∧
       slotDone s.dev d n code { len := 0, a := r, b := x.state.code, w14 := packBytes x.fault.code 0 0 0, w15 := 0 }) ∧
  (∀ (s : State) (n : Nat) (rest : List Nat) (ps : List Word), s.examines .continueRecord n rest ps → s.Inv → 255 < paramNat ps 1 →
    ∃ d, exec .continueRecord s = .next { s with dev := d } ∧ slotDone s.dev d n .badField { Detail.zero with a := 1 } ∧
      d = { s.dev with slots := d.slots, causes := d.causes, intake := rest })

/-- CONTINUE of a HELD record on a leg that is not FAULTED (R15): the stage field is absent and the record is in the state that follows
the
held stage with the skips of R7; GRANTING without enough free slots halts with NO_SLOTS (R120). The command completes with OK.
CONTINUE of a HALTED record whose fault is not ROGUE, on a leg that is not FAULTED (R13, R14): fault NONE, stage field absent, the rehail
count zeroed after FLAPPING, and the record enters PROBING after FLAPPING, else the stage it halted in, or PROBING where that is
RANGING or later and ADDRESSED is clear. -/
def Obligations.ContinueEntersTheNextState : Prop :=
  let noSlots (s : State) (d : Dev) (r : Nat) : Prop :=
    (d.record r).state = .halted ∧ (d.record r).fault = .noSlots ∧ (d.record r).stage = some .granting ∧
      (d.record r).freeCount = (s.dev.leg (s.dev.record r).enrol.leg).freeSlots.length ∧ d.isSet .recHalted = true
  (∀ (s : State) (n r : Nat) (rest : List Nat) (ps : List Word) (st : RecState), s.examines .continueRecord n rest ps → s.Inv →
    paramNat ps 1 = r → r < 256 →
    let x := s.dev.record r
    x.state = .held → (s.dev.leg x.enrol.leg).st ≠ .faulted →
    ((x.stage = some .assigning ∧ st = .ranging) ∨
     (x.stage = some .equalising ∧ st = (if x.enrol.noProfile = false then .loading else if x.enrol.demand = 0 then .active else .granting)) ∨
     (x.stage = some .loading ∧ st = (if x.enrol.demand = 0 then .active else .granting))) →
    ∃ d det, exec .continueRecord s = .next { s with dev := d } ∧ othersKeep s.dev d r ∧
      (if st = .granting ∧ (s.dev.leg x.enrol.leg).freeSlots.length < x.enrol.demand then noSlots s d r ∧ det.b = RecState.halted.code
       else (d.record r).state = st ∧ (d.record r).stage = none ∧ (d.record r).fault = .none ∧ det.b = st.code) ∧
      (d.slot n).st = .done ∧ (d.slot n).result = .ok ∧ (d.slot n).detail = det ∧ det.a = r) ∧
  (∀ (s : State) (n r : Nat) (rest : List Nat) (ps : List Word) (st : RecState), s.examines .continueRecord n rest ps → s.Inv →
    paramNat ps 1 = r → r < 256 →
    let x := s.dev.record r
    x.state = .halted → x.fault ≠ .rogue → (s.dev.leg x.enrol.leg).st ≠ .faulted →
    ((x.fault = .flapping ∧ st = .probing) ∨
     (x.fault ≠ .flapping ∧ (x.stage = some .probing ∨ x.stage = some .assigning) ∧ x.stage = some st) ∨
     (x.fault ≠ .flapping ∧ (x.stage = some .ranging ∨ x.stage = some .equalising ∨ x.stage = some .loading ∨ x.stage = some .granting) ∧
        (if x.addressed then x.stage = some st else st = .probing))) →
    ∃ d, exec .continueRecord s = .next { s with dev := d } ∧
      (if st = .granting ∧ (s.dev.leg x.enrol.leg).freeSlots.length < x.enrol.demand then noSlots s d r
       else (d.record r).state = st ∧ (d.record r).stage = none ∧ (d.record r).fault = .none) ∧ (d.record r).attempts = 0 ∧
      (d.record r).rehails = (if x.fault = .flapping then 0 else x.rehails) ∧ (d.record r).assignSent = x.assignSent ∧
      othersKeep s.dev d r ∧ (d.slot n).st = .done ∧ (d.slot n).result = .ok)

/-- PEEK and POKE (R148, R149): the checks in their order; one that passes queues the directive for the record's drop address at class
SERVICE and the slot is RUNNING; every refusal completes at once with no directive.
CALL, to an individual address and to a group or the estate (R148, R149). -/
def Obligations.ServiceCommandsAreChecked : Prop :=
  (∀ (s : State) (n : Nat) (rest : List Nat) (ps : List Word) (c : Instr), s.Inv →
    (c = .peek ∧ s.examines .peek n rest ps) ∨ (c = .poke ∧ s.examines .poke n rest ps) →
    let x := s.dev.record (paramNat ps 1)
    let l := x.enrol.leg
    let g := s.dev.leg l
    let body : Body := if c = .peek then .peek (paramNat ps 2) (paramNat ps 3)
      else .poke (paramNat ps 2) (((paramBytes ps 4 2)).take (paramNat ps 3))
    let refused (d : Dev) (code : ResultCode) (y : Detail) : Prop := slotDone s.dev d n code y ∧ d.leg l = g
    ∃ d, exec c s = .next { s with dev := d } ∧ d.recs = s.dev.recs ∧ d.intake = rest ∧ (∀ k, k ≠ l → d.leg k = s.dev.leg k) ∧
      (if 255 < paramNat ps 1 then refused d .badField { Detail.zero with a := 1 }
       else if 255 < paramNat ps 2 then refused d .badField { Detail.zero with a := 2 }
       else if paramNat ps 3 = 0 ∨ 8 < paramNat ps 3 then refused d .badField { Detail.zero with a := 3 }
       else if x.state = .vacant then refused d .wrongState .zero
       else if g.st = .dark then refused d .legOff .zero
       else if g.st = .faulted then refused d .legFault .zero
       else if g.st = .hunting ∨ g.hunt.phase = .starting then refused d .legHunting .zero
       else if x.state = .withdrawing ∨ x.addressed = false then refused d .wrongState .zero
       else if g.queue.length = 12 then refused d .legBusy .zero
       else d.leg l = { g with queue := g.queue ++ [⟨⟨.individual x.enrol.addr, body⟩, .cmd n⟩] } ∧
        d.slot n = { s.dev.slot n with st := .running } ∧ ∀ m, m ≠ n → d.slot m = s.dev.slot m)) ∧
  (∀ (s : State) (n : Nat) (rest : List Nat) (ps : List Word) (c : Instr) (l : Fin 4), s.Inv →
    (c = .call ∧ s.examines .call n rest ps) ∨ (c = .groupOrEstateCall ∧ s.examines .groupCall n rest ps) →
    (paramNat ps 1 ≤ 3 → paramNat ps 1 = l.val) →
    let g := s.dev.leg l
    let v := paramNat ps 2
    let refused (d : Dev) (code : ResultCode) (y : Detail) : Prop := slotDone s.dev d n code y ∧ d.leg l = g
    ∃ d, exec c s = .next { s with dev := d } ∧ d.recs = s.dev.recs ∧ d.intake = rest ∧ (∀ k, k ≠ l → d.leg k = s.dev.leg k) ∧
      (if 3 < paramNat ps 1 then refused d .badField { Detail.zero with a := 1 }
       else if v = 0 ∨ 0xF00 ≤ v then refused d .badField { Detail.zero with a := 2 }
       else if paramNat ps 3 = 0 ∨ 16 < paramNat ps 3 then refused d .badField { Detail.zero with a := 3 }
       else if g.st = .dark then refused d .legOff .zero
       else if g.st = .faulted then refused d .legFault .zero
       else if g.st = .hunting ∨ g.hunt.phase = .starting then refused d .legHunting .zero
       else if g.queue.length = 12 then refused d .legBusy .zero
       else d.leg l = { g with queue := g.queue ++ [⟨⟨
            (if v < 0xE00 then .individual (BitVec.ofNat 12 v) else if v < 0xEFF then .group (BitVec.ofNat 12 v) else .estate),
            .call ((paramBytes ps 4 4).take (paramNat ps 3))⟩, .cmd n⟩] } ∧
        d.slot n = { s.dev.slot n with st := .running } ∧ ∀ m, m ≠ n → d.slot m = s.dev.slot m))

/-- EVICT (R148, R155): refused like the other service commands, by a bad field, LEG_OFF, LEG_FAULT or LEG_HUNTING, and with
ADDRESS_OWNED where a record of the leg has the address; else its
DISMISS joins at class URGENT; a queue of twelve URGENT entries gives LEG_BUSY. A full queue with a lower entry is in
UrgentEvictsTheNewestLowest. -/
def Obligations.EvictIsCheckedAndUrgent : Prop :=
  ∀ (s : State) (n : Nat) (rest : List Nat) (ps : List Word) (l : Fin 4), s.Inv → s.examines .evict n rest ps →
    (paramNat ps 1 ≤ 3 → paramNat ps 1 = l.val) →
    let g := s.dev.leg l
    let v := paramNat ps 2
    let owned := ∃ q, (s.dev.record q).state ≠ .vacant ∧ (s.dev.record q).enrol.leg = l ∧ (s.dev.record q).enrol.addr = BitVec.ofNat 12 v
    let passes := paramNat ps 1 ≤ 3 ∧ 1 ≤ v ∧ v ≤ 0xDFF ∧ (g.st = .running ∨ g.st = .suspended) ∧ g.hunt.phase ≠ .starting
    let checked := paramNat ps 1 ≤ 3 ∧ 1 ≤ v ∧ v ≤ 0xDFF
    ∃ d, exec .evict s = .next { s with dev := d } ∧ d.intake = rest ∧
      (checked → g.st = .dark → slotDone s.dev d n .legOff .zero ∧ d.legs = s.dev.legs) ∧
      (checked → g.st = .faulted → slotDone s.dev d n .legFault .zero ∧ d.legs = s.dev.legs) ∧
      (checked → g.st = .hunting ∨ ((g.st = .running ∨ g.st = .suspended) ∧ g.hunt.phase = .starting) →
        slotDone s.dev d n .legHunting .zero ∧ d.legs = s.dev.legs) ∧
      (3 < paramNat ps 1 → slotDone s.dev d n .badField { Detail.zero with a := 1 } ∧ d.legs = s.dev.legs) ∧
      (paramNat ps 1 ≤ 3 → v = 0 ∨ 0xDFF < v → slotDone s.dev d n .badField { Detail.zero with a := 2 } ∧ d.legs = s.dev.legs) ∧
      (passes → owned → slotDone s.dev d n .addressOwned .zero ∧ d.legs = s.dev.legs) ∧
      (passes → ¬ owned → g.queue.length < 12 →
        d.leg l = { g with queue := g.queue ++ [⟨⟨.individual (BitVec.ofNat 12 v), .dismiss⟩, .cmd n⟩] } ∧
        d.slot n = { s.dev.slot n with st := .running } ∧ d.recs = s.dev.recs) ∧
      (passes → ¬ owned → g.queue.length = 12 → (∀ e ∈ g.queue, e.cls = .urgent) →
        slotDone s.dev d n .legBusy .zero ∧ d.legs = s.dev.legs)

/-- R47: an URGENT directive offered to a full queue takes the place of the newest SERVICE entry, else of the newest STAGE entry; a
command's
entry completes with LEG_BUSY, a STAGE entry's record joins the front of the waiting list, a LEVEL request is dropped; with twelve
URGENT entries nothing is evicted. -/
def Obligations.UrgentEvictsTheNewestLowest : Prop :=
  ∀ (d : Dev) (l : Fin 4) (dir : Directive) (o : Origin), (d.leg l).queue.length = 12 → d.mapsCanonical →
    (∀ before e after, (d.leg l).queue = before ++ e :: after →
      ((e.cls = .service ∧ ∀ x ∈ after, x.cls ≠ .service) ∨
        (e.cls = .stage ∧ (∀ x ∈ (d.leg l).queue, x.cls ≠ .service) ∧ ∀ x ∈ after, x.cls ≠ .stage)) →
      (d.offerUrgent l dir o).2 = true ∧
      ((d.offerUrgent l dir o).1.leg l).queue = before ++ after ++ [⟨dir, o⟩] ∧
      (∀ n, e.origin = .cmd n → slotDone d (d.offerUrgent l dir o).1 n .legBusy .zero) ∧
      (∀ r, e.origin = .level r → (d.offerUrgent l dir o).1.recs = d.recs) ∧
      (∀ r, e.origin = .record r → ((d.offerUrgent l dir o).1.leg l).waiting = ⟨r, e.dir⟩ :: (d.leg l).waiting ∧
        ((d.offerUrgent l dir o).1.record r).waiting = true)) ∧
    ((∀ e ∈ (d.leg l).queue, e.cls = .urgent) → d.offerUrgent l dir o = (d, false))

/-- SURVEY of one leg (R134): refused on a DARK, FAULTED or hunting leg (its detail is deduced, notes/assumptions/20.md); else the slot
is RUNNING and a requester of the pending survey,
which it joins or becomes (R129). A leg value above 4 is BAD_FIELD.
HUNT (R136): refused on a DARK, FAULTED or hunting leg (its detail is deduced, notes/assumptions/20.md); else the hunt is STARTING,
owned by the slot, with an empty list and 0 steps, the
last result kept (R146), and the slot is RUNNING. -/
def Obligations.SurveyAndHuntAreTaken : Prop :=
  (∀ (s : State) (n : Nat) (rest : List Nat) (ps : List Word) (l : Fin 4), s.Inv → s.examines .survey n rest ps →
    (paramNat ps 1 ≤ 3 → paramNat ps 1 = l.val) →
    let g := s.dev.leg l
    let refusedAs (d : Dev) (code : ResultCode) := slotDone s.dev d n code { Detail.zero with a := l.val } ∧ d.legs = s.dev.legs
    ∃ d, exec .survey s = .next { s with dev := d } ∧ d.recs = s.dev.recs ∧ d.intake = rest ∧
      (if 3 < paramNat ps 1 then slotDone s.dev d n .badField { Detail.zero with a := 1 }
       else if g.st = .dark then refusedAs d .legOff
       else if g.st = .faulted then refusedAs d .legFault
       else if g.st = .hunting ∨ g.hunt.phase = .starting then refusedAs d .legHunting
       else d.slot n = { s.dev.slot n with st := .running } ∧ (∀ k, k ≠ l → d.leg k = s.dev.leg k) ∧
        ∃ q, d.leg l = { g with pendSurvey := some q } ∧ n ∈ q.slots ∧
          (g.pendSurvey = none → q = ⟨false, [n], false⟩) ∧
          (∀ p, g.pendSurvey = some p → q.auto = p.auto ∧ q.hunt = p.hunt ∧ ∀ m ∈ p.slots, m ∈ q.slots))) ∧
  (∀ (s : State) (n : Nat) (rest : List Nat) (ps : List Word) (l : Fin 4), s.Inv → s.examines .hunt n rest ps →
    (paramNat ps 1 ≤ 3 → paramNat ps 1 = l.val) →
    let g := s.dev.leg l
    let refusedAs (d : Dev) (code : ResultCode) :=
      slotDone s.dev d n code { Detail.zero with w14 := 0xFFFF } ∧ d.legs = s.dev.legs
    ∃ d, exec .hunt s = .next { s with dev := d } ∧ d.recs = s.dev.recs ∧ d.intake = rest ∧
      (if 3 < paramNat ps 1 then slotDone s.dev d n .badField { Detail.zero with a := 1 }
       else if g.st = .dark then refusedAs d .legOff
       else if g.st = .faulted then refusedAs d .legFault
       else if g.st = .hunting ∨ g.hunt.phase = .starting then refusedAs d .legHunting
       else d.slot n = { s.dev.slot n with st := .running } ∧ (∀ k, k ≠ l → d.leg k = s.dev.leg k) ∧
        d.leg l = { g with hunt := { Hunt.idle with
          phase := .starting, owner := some n, lastResult := g.hunt.lastResult, lastCulprit := g.hunt.lastCulprit } }))

/-- SURVEY of every leg (R135): a leg that is DARK, FAULTED or hunting reports NOT_RUN; on every other the slot is a requester; with no
such
leg the command completes with OK at once, else it is RUNNING. -/
def Obligations.AllLegsSurveyAsksEachLeg : Prop :=
  ∀ (s : State) (n : Nat) (rest : List Nat) (ps : List Word), s.Inv → s.examines .allSurvey n rest ps →
    let runs (l : Fin 4) : Prop := ((s.dev.leg l).st = .running ∨ (s.dev.leg l).st = .suspended) ∧ (s.dev.leg l).hunt.phase ≠ .starting
    ∃ d, exec .allLegsSurvey s = .next { s with dev := d } ∧ d.recs = s.dev.recs ∧ d.intake = rest ∧
      (∀ l, runs l → ∃ q, d.leg l = { s.dev.leg l with pendSurvey := some q } ∧ n ∈ q.slots) ∧
      (∀ l, ¬ runs l → d.leg l = s.dev.leg l) ∧
      ((∃ l, runs l) → (d.slot n).st = .running ∧
        ∀ l : Fin 4, (runs l → (d.slot n).parts[l.val]? = some none) ∧ (¬ runs l → (d.slot n).parts[l.val]? = some (some (.notRun, 0)))) ∧
      ((∀ l, ¬ runs l) → (d.slot n).st = .done ∧ (d.slot n).result = .ok ∧ (d.slot n).detail.a = 0x44 ∧ (d.slot n).detail.b = 0x44 ∧
        d.isSet .cmdDone = true)

/-- RESUME (R41, R147, R161): a SUSPENDED leg enters RUNNING with OK; a leg in any other state gives WRONG_STATE and is unchanged. A
kind value
that names no command completes with BAD_KIND, the captured kind word in the detail (R161, R165, R189). -/
def Obligations.ResumeAndBadKind : Prop :=
  (∀ (s : State) (n : Nat) (rest : List Nat) (ps : List Word) (l : Fin 4), s.Inv → s.examines .resume n rest ps →
    (paramNat ps 1 ≤ 3 → paramNat ps 1 = l.val) →
    let g := s.dev.leg l
    ∃ d, exec .resume s = .next { s with dev := d } ∧ d.recs = s.dev.recs ∧ d.intake = rest ∧ (∀ k, k ≠ l → d.leg k = s.dev.leg k) ∧
      (if 3 < paramNat ps 1 then slotDone s.dev d n .badField { Detail.zero with a := 1 } ∧ d.leg l = g
       else if g.st = .suspended then
        slotDone s.dev d n .ok { Detail.zero with a := l.val, b := 1 } ∧ d.leg l = { g with st := .running }
       else slotDone s.dev d n .wrongState { Detail.zero with a := l.val, b := g.st.code } ∧ d.leg l = g)) ∧
  (∀ (s : State) (n : Nat) (rest : List Nat) (ps : List Word), s.Inv → s.examines .badKind n rest ps →
    ∃ d, exec .badKind s = .next { s with dev := d } ∧ d.recs = s.dev.recs ∧ d.legs = s.dev.legs ∧ d.intake = rest ∧
      slotDone s.dev d n .badKind { Detail.zero with w14 := param ps 0 })
end

