-- ==== Sys2Proof/Laws/State.lean ====
section
/-! SUPPORT. One lemma per field per named update of the state's records, true by rfl, so that no later proof unfolds an
update. -/

namespace Sys2Proof.Machine

/-! ## Updates of Dev -/

@[simp] theorem Dev.putRec_legs (d : Dev) (r : Nat) (x : Rec) : (d.putRec r x).legs = d.legs := rfl
@[simp] theorem Dev.putRec_slots (d : Dev) (r : Nat) (x : Rec) : (d.putRec r x).slots = d.slots := rfl
@[simp] theorem Dev.putRec_intake (d : Dev) (r : Nat) (x : Rec) : (d.putRec r x).intake = d.intake := rfl
@[simp] theorem Dev.putRec_causes (d : Dev) (r : Nat) (x : Rec) : (d.putRec r x).causes = d.causes := rfl
@[simp] theorem Dev.putRec_pins (d : Dev) (r : Nat) (x : Rec) : (d.putRec r x).pins = d.pins := rfl
@[simp] theorem Dev.putRec_pinWait (d : Dev) (r : Nat) (x : Rec) : (d.putRec r x).pinWait = d.pinWait := rfl
@[simp] theorem Dev.putRec_fetches (d : Dev) (r : Nat) (x : Rec) : (d.putRec r x).fetches = d.fetches := rfl
@[simp] theorem Dev.putRec_requests (d : Dev) (r : Nat) (x : Rec) : (d.putRec r x).requests = d.requests := rfl
@[simp] theorem Dev.putRec_burst (d : Dev) (r : Nat) (x : Rec) : (d.putRec r x).burst = d.burst := rfl
@[simp] theorem Dev.putRec_ring (d : Dev) (r : Nat) (x : Rec) : (d.putRec r x).ring = d.ring := rfl
@[simp] theorem Dev.putRec_seed (d : Dev) (r : Nat) (x : Rec) : (d.putRec r x).seed = d.seed := rfl

@[simp] theorem Dev.modRec_legs (d : Dev) (r : Nat) (f : Rec → Rec) : (d.modRec r f).legs = d.legs := rfl
@[simp] theorem Dev.modRec_slots (d : Dev) (r : Nat) (f : Rec → Rec) : (d.modRec r f).slots = d.slots := rfl
@[simp] theorem Dev.modRec_intake (d : Dev) (r : Nat) (f : Rec → Rec) : (d.modRec r f).intake = d.intake := rfl
@[simp] theorem Dev.modRec_causes (d : Dev) (r : Nat) (f : Rec → Rec) : (d.modRec r f).causes = d.causes := rfl
@[simp] theorem Dev.modRec_pins (d : Dev) (r : Nat) (f : Rec → Rec) : (d.modRec r f).pins = d.pins := rfl
@[simp] theorem Dev.modRec_pinWait (d : Dev) (r : Nat) (f : Rec → Rec) : (d.modRec r f).pinWait = d.pinWait := rfl
@[simp] theorem Dev.modRec_fetches (d : Dev) (r : Nat) (f : Rec → Rec) : (d.modRec r f).fetches = d.fetches := rfl
@[simp] theorem Dev.modRec_requests (d : Dev) (r : Nat) (f : Rec → Rec) : (d.modRec r f).requests = d.requests := rfl
@[simp] theorem Dev.modRec_burst (d : Dev) (r : Nat) (f : Rec → Rec) : (d.modRec r f).burst = d.burst := rfl
@[simp] theorem Dev.modRec_ring (d : Dev) (r : Nat) (f : Rec → Rec) : (d.modRec r f).ring = d.ring := rfl
@[simp] theorem Dev.modRec_seed (d : Dev) (r : Nat) (f : Rec → Rec) : (d.modRec r f).seed = d.seed := rfl

@[simp] theorem Dev.putLeg_recs (d : Dev) (l : Fin 4) (g : Leg) : (d.putLeg l g).recs = d.recs := rfl
@[simp] theorem Dev.putLeg_slots (d : Dev) (l : Fin 4) (g : Leg) : (d.putLeg l g).slots = d.slots := rfl
@[simp] theorem Dev.putLeg_intake (d : Dev) (l : Fin 4) (g : Leg) : (d.putLeg l g).intake = d.intake := rfl
@[simp] theorem Dev.putLeg_causes (d : Dev) (l : Fin 4) (g : Leg) : (d.putLeg l g).causes = d.causes := rfl
@[simp] theorem Dev.putLeg_pins (d : Dev) (l : Fin 4) (g : Leg) : (d.putLeg l g).pins = d.pins := rfl
@[simp] theorem Dev.putLeg_pinWait (d : Dev) (l : Fin 4) (g : Leg) : (d.putLeg l g).pinWait = d.pinWait := rfl
@[simp] theorem Dev.putLeg_fetches (d : Dev) (l : Fin 4) (g : Leg) : (d.putLeg l g).fetches = d.fetches := rfl
@[simp] theorem Dev.putLeg_requests (d : Dev) (l : Fin 4) (g : Leg) : (d.putLeg l g).requests = d.requests := rfl
@[simp] theorem Dev.putLeg_burst (d : Dev) (l : Fin 4) (g : Leg) : (d.putLeg l g).burst = d.burst := rfl
@[simp] theorem Dev.putLeg_ring (d : Dev) (l : Fin 4) (g : Leg) : (d.putLeg l g).ring = d.ring := rfl
@[simp] theorem Dev.putLeg_seed (d : Dev) (l : Fin 4) (g : Leg) : (d.putLeg l g).seed = d.seed := rfl

@[simp] theorem Dev.modLeg_recs (d : Dev) (l : Fin 4) (f : Leg → Leg) : (d.modLeg l f).recs = d.recs := rfl
@[simp] theorem Dev.modLeg_slots (d : Dev) (l : Fin 4) (f : Leg → Leg) : (d.modLeg l f).slots = d.slots := rfl
@[simp] theorem Dev.modLeg_intake (d : Dev) (l : Fin 4) (f : Leg → Leg) : (d.modLeg l f).intake = d.intake := rfl
@[simp] theorem Dev.modLeg_causes (d : Dev) (l : Fin 4) (f : Leg → Leg) : (d.modLeg l f).causes = d.causes := rfl
@[simp] theorem Dev.modLeg_pins (d : Dev) (l : Fin 4) (f : Leg → Leg) : (d.modLeg l f).pins = d.pins := rfl
@[simp] theorem Dev.modLeg_pinWait (d : Dev) (l : Fin 4) (f : Leg → Leg) : (d.modLeg l f).pinWait = d.pinWait := rfl
@[simp] theorem Dev.modLeg_fetches (d : Dev) (l : Fin 4) (f : Leg → Leg) : (d.modLeg l f).fetches = d.fetches := rfl
@[simp] theorem Dev.modLeg_requests (d : Dev) (l : Fin 4) (f : Leg → Leg) : (d.modLeg l f).requests = d.requests := rfl
@[simp] theorem Dev.modLeg_burst (d : Dev) (l : Fin 4) (f : Leg → Leg) : (d.modLeg l f).burst = d.burst := rfl
@[simp] theorem Dev.modLeg_ring (d : Dev) (l : Fin 4) (f : Leg → Leg) : (d.modLeg l f).ring = d.ring := rfl
@[simp] theorem Dev.modLeg_seed (d : Dev) (l : Fin 4) (f : Leg → Leg) : (d.modLeg l f).seed = d.seed := rfl

@[simp] theorem Dev.putSlot_recs (d : Dev) (n : Nat) (x : Slot) : (d.putSlot n x).recs = d.recs := rfl
@[simp] theorem Dev.putSlot_legs (d : Dev) (n : Nat) (x : Slot) : (d.putSlot n x).legs = d.legs := rfl
@[simp] theorem Dev.putSlot_intake (d : Dev) (n : Nat) (x : Slot) : (d.putSlot n x).intake = d.intake := rfl
@[simp] theorem Dev.putSlot_causes (d : Dev) (n : Nat) (x : Slot) : (d.putSlot n x).causes = d.causes := rfl
@[simp] theorem Dev.putSlot_pins (d : Dev) (n : Nat) (x : Slot) : (d.putSlot n x).pins = d.pins := rfl
@[simp] theorem Dev.putSlot_pinWait (d : Dev) (n : Nat) (x : Slot) : (d.putSlot n x).pinWait = d.pinWait := rfl
@[simp] theorem Dev.putSlot_fetches (d : Dev) (n : Nat) (x : Slot) : (d.putSlot n x).fetches = d.fetches := rfl
@[simp] theorem Dev.putSlot_requests (d : Dev) (n : Nat) (x : Slot) : (d.putSlot n x).requests = d.requests := rfl
@[simp] theorem Dev.putSlot_burst (d : Dev) (n : Nat) (x : Slot) : (d.putSlot n x).burst = d.burst := rfl
@[simp] theorem Dev.putSlot_ring (d : Dev) (n : Nat) (x : Slot) : (d.putSlot n x).ring = d.ring := rfl
@[simp] theorem Dev.putSlot_seed (d : Dev) (n : Nat) (x : Slot) : (d.putSlot n x).seed = d.seed := rfl

@[simp] theorem Dev.modSlot_recs (d : Dev) (n : Nat) (f : Slot → Slot) : (d.modSlot n f).recs = d.recs := rfl
@[simp] theorem Dev.modSlot_legs (d : Dev) (n : Nat) (f : Slot → Slot) : (d.modSlot n f).legs = d.legs := rfl
@[simp] theorem Dev.modSlot_intake (d : Dev) (n : Nat) (f : Slot → Slot) : (d.modSlot n f).intake = d.intake := rfl
@[simp] theorem Dev.modSlot_causes (d : Dev) (n : Nat) (f : Slot → Slot) : (d.modSlot n f).causes = d.causes := rfl
@[simp] theorem Dev.modSlot_pins (d : Dev) (n : Nat) (f : Slot → Slot) : (d.modSlot n f).pins = d.pins := rfl
@[simp] theorem Dev.modSlot_pinWait (d : Dev) (n : Nat) (f : Slot → Slot) : (d.modSlot n f).pinWait = d.pinWait := rfl
@[simp] theorem Dev.modSlot_fetches (d : Dev) (n : Nat) (f : Slot → Slot) : (d.modSlot n f).fetches = d.fetches := rfl
@[simp] theorem Dev.modSlot_requests (d : Dev) (n : Nat) (f : Slot → Slot) : (d.modSlot n f).requests = d.requests := rfl
@[simp] theorem Dev.modSlot_burst (d : Dev) (n : Nat) (f : Slot → Slot) : (d.modSlot n f).burst = d.burst := rfl
@[simp] theorem Dev.modSlot_ring (d : Dev) (n : Nat) (f : Slot → Slot) : (d.modSlot n f).ring = d.ring := rfl
@[simp] theorem Dev.modSlot_seed (d : Dev) (n : Nat) (f : Slot → Slot) : (d.modSlot n f).seed = d.seed := rfl

@[simp] theorem Dev.putPin_recs (d : Dev) (i : Nat) (p : Pin) : (d.putPin i p).recs = d.recs := rfl
@[simp] theorem Dev.putPin_legs (d : Dev) (i : Nat) (p : Pin) : (d.putPin i p).legs = d.legs := rfl
@[simp] theorem Dev.putPin_slots (d : Dev) (i : Nat) (p : Pin) : (d.putPin i p).slots = d.slots := rfl
@[simp] theorem Dev.putPin_intake (d : Dev) (i : Nat) (p : Pin) : (d.putPin i p).intake = d.intake := rfl
@[simp] theorem Dev.putPin_causes (d : Dev) (i : Nat) (p : Pin) : (d.putPin i p).causes = d.causes := rfl
@[simp] theorem Dev.putPin_pinWait (d : Dev) (i : Nat) (p : Pin) : (d.putPin i p).pinWait = d.pinWait := rfl
@[simp] theorem Dev.putPin_fetches (d : Dev) (i : Nat) (p : Pin) : (d.putPin i p).fetches = d.fetches := rfl
@[simp] theorem Dev.putPin_requests (d : Dev) (i : Nat) (p : Pin) : (d.putPin i p).requests = d.requests := rfl
@[simp] theorem Dev.putPin_burst (d : Dev) (i : Nat) (p : Pin) : (d.putPin i p).burst = d.burst := rfl
@[simp] theorem Dev.putPin_ring (d : Dev) (i : Nat) (p : Pin) : (d.putPin i p).ring = d.ring := rfl
@[simp] theorem Dev.putPin_seed (d : Dev) (i : Nat) (p : Pin) : (d.putPin i p).seed = d.seed := rfl

@[simp] theorem Dev.latch_recs (d : Dev) (c : Cause) : (d.latch c).recs = d.recs := rfl
@[simp] theorem Dev.latch_legs (d : Dev) (c : Cause) : (d.latch c).legs = d.legs := rfl
@[simp] theorem Dev.latch_slots (d : Dev) (c : Cause) : (d.latch c).slots = d.slots := rfl
@[simp] theorem Dev.latch_intake (d : Dev) (c : Cause) : (d.latch c).intake = d.intake := rfl
@[simp] theorem Dev.latch_pins (d : Dev) (c : Cause) : (d.latch c).pins = d.pins := rfl
@[simp] theorem Dev.latch_pinWait (d : Dev) (c : Cause) : (d.latch c).pinWait = d.pinWait := rfl
@[simp] theorem Dev.latch_fetches (d : Dev) (c : Cause) : (d.latch c).fetches = d.fetches := rfl
@[simp] theorem Dev.latch_requests (d : Dev) (c : Cause) : (d.latch c).requests = d.requests := rfl
@[simp] theorem Dev.latch_burst (d : Dev) (c : Cause) : (d.latch c).burst = d.burst := rfl
@[simp] theorem Dev.latch_ring (d : Dev) (c : Cause) : (d.latch c).ring = d.ring := rfl
@[simp] theorem Dev.latch_seed (d : Dev) (c : Cause) : (d.latch c).seed = d.seed := rfl

/-! ## Readers of Dev after an update of another map -/

@[simp] theorem Dev.putRec_leg (d : Dev) (r : Nat) (x : Rec) (k : Fin 4) : (d.putRec r x).leg k = d.leg k := rfl
@[simp] theorem Dev.putRec_slot (d : Dev) (r : Nat) (x : Rec) (m : Nat) : (d.putRec r x).slot m = d.slot m := rfl
@[simp] theorem Dev.putRec_pin (d : Dev) (r : Nat) (x : Rec) (j : Nat) : (d.putRec r x).pin j = d.pin j := rfl

@[simp] theorem Dev.modRec_leg (d : Dev) (r : Nat) (f : Rec → Rec) (k : Fin 4) : (d.modRec r f).leg k = d.leg k := rfl
@[simp] theorem Dev.modRec_slot (d : Dev) (r : Nat) (f : Rec → Rec) (m : Nat) : (d.modRec r f).slot m = d.slot m := rfl
@[simp] theorem Dev.modRec_pin (d : Dev) (r : Nat) (f : Rec → Rec) (j : Nat) : (d.modRec r f).pin j = d.pin j := rfl

@[simp] theorem Dev.putLeg_record (d : Dev) (l : Fin 4) (g : Leg) (q : Nat) : (d.putLeg l g).record q = d.record q := rfl
@[simp] theorem Dev.putLeg_slot (d : Dev) (l : Fin 4) (g : Leg) (m : Nat) : (d.putLeg l g).slot m = d.slot m := rfl
@[simp] theorem Dev.putLeg_pin (d : Dev) (l : Fin 4) (g : Leg) (j : Nat) : (d.putLeg l g).pin j = d.pin j := rfl

@[simp] theorem Dev.modLeg_record (d : Dev) (l : Fin 4) (f : Leg → Leg) (q : Nat) : (d.modLeg l f).record q = d.record q := rfl
@[simp] theorem Dev.modLeg_slot (d : Dev) (l : Fin 4) (f : Leg → Leg) (m : Nat) : (d.modLeg l f).slot m = d.slot m := rfl
@[simp] theorem Dev.modLeg_pin (d : Dev) (l : Fin 4) (f : Leg → Leg) (j : Nat) : (d.modLeg l f).pin j = d.pin j := rfl

@[simp] theorem Dev.putSlot_record (d : Dev) (n : Nat) (x : Slot) (q : Nat) : (d.putSlot n x).record q = d.record q := rfl
@[simp] theorem Dev.putSlot_leg (d : Dev) (n : Nat) (x : Slot) (k : Fin 4) : (d.putSlot n x).leg k = d.leg k := rfl
@[simp] theorem Dev.putSlot_pin (d : Dev) (n : Nat) (x : Slot) (j : Nat) : (d.putSlot n x).pin j = d.pin j := rfl

@[simp] theorem Dev.modSlot_record (d : Dev) (n : Nat) (f : Slot → Slot) (q : Nat) : (d.modSlot n f).record q = d.record q := rfl
@[simp] theorem Dev.modSlot_leg (d : Dev) (n : Nat) (f : Slot → Slot) (k : Fin 4) : (d.modSlot n f).leg k = d.leg k := rfl
@[simp] theorem Dev.modSlot_pin (d : Dev) (n : Nat) (f : Slot → Slot) (j : Nat) : (d.modSlot n f).pin j = d.pin j := rfl

@[simp] theorem Dev.putPin_record (d : Dev) (i : Nat) (p : Pin) (q : Nat) : (d.putPin i p).record q = d.record q := rfl
@[simp] theorem Dev.putPin_leg (d : Dev) (i : Nat) (p : Pin) (k : Fin 4) : (d.putPin i p).leg k = d.leg k := rfl
@[simp] theorem Dev.putPin_slot (d : Dev) (i : Nat) (p : Pin) (m : Nat) : (d.putPin i p).slot m = d.slot m := rfl

@[simp] theorem Dev.latch_record (d : Dev) (c : Cause) (q : Nat) : (d.latch c).record q = d.record q := rfl
@[simp] theorem Dev.latch_leg (d : Dev) (c : Cause) (k : Fin 4) : (d.latch c).leg k = d.leg k := rfl
@[simp] theorem Dev.latch_slot (d : Dev) (c : Cause) (m : Nat) : (d.latch c).slot m = d.slot m := rfl
@[simp] theorem Dev.latch_pin (d : Dev) (c : Cause) (j : Nat) : (d.latch c).pin j = d.pin j := rfl

/-! ## Updates of State -/

@[simp] theorem State.withPending_phase (s : State) (q : List Instr) : (s.withPending q).phase = s.phase := rfl
@[simp] theorem State.withPending_base (s : State) (q : List Instr) : (s.withPending q).base = s.base := rfl
@[simp] theorem State.withPending_cycle (s : State) (q : List Instr) : (s.withPending q).cycle = s.cycle := rfl
@[simp] theorem State.withPending_applied (s : State) (q : List Instr) : (s.withPending q).applied = s.applied := rfl
@[simp] theorem State.withPending_cstat (s : State) (q : List Instr) : (s.withPending q).cstat = s.cstat := rfl
@[simp] theorem State.withPending_mirrors (s : State) (q : List Instr) : (s.withPending q).mirrors = s.mirrors := rfl
@[simp] theorem State.withPending_mem (s : State) (q : List Instr) : (s.withPending q).mem = s.mem := rfl
@[simp] theorem State.withPending_bus (s : State) (q : List Instr) : (s.withPending q).bus = s.bus := rfl
@[simp] theorem State.withPending_dev (s : State) (q : List Instr) : (s.withPending q).dev = s.dev := rfl

@[simp] theorem State.putMirror_phase (s : State) (off : Nat) (v : Word) : (s.putMirror off v).phase = s.phase := rfl
@[simp] theorem State.putMirror_base (s : State) (off : Nat) (v : Word) : (s.putMirror off v).base = s.base := rfl
@[simp] theorem State.putMirror_cycle (s : State) (off : Nat) (v : Word) : (s.putMirror off v).cycle = s.cycle := rfl
@[simp] theorem State.putMirror_applied (s : State) (off : Nat) (v : Word) : (s.putMirror off v).applied = s.applied := rfl
@[simp] theorem State.putMirror_cstat (s : State) (off : Nat) (v : Word) : (s.putMirror off v).cstat = s.cstat := rfl
@[simp] theorem State.putMirror_mem (s : State) (off : Nat) (v : Word) : (s.putMirror off v).mem = s.mem := rfl
@[simp] theorem State.putMirror_bus (s : State) (off : Nat) (v : Word) : (s.putMirror off v).bus = s.bus := rfl
@[simp] theorem State.putMirror_dev (s : State) (off : Nat) (v : Word) : (s.putMirror off v).dev = s.dev := rfl
@[simp] theorem State.putMirror_pending (s : State) (off : Nat) (v : Word) : (s.putMirror off v).pending = s.pending := rfl

@[simp] theorem State.hold_phase (s : State) (a : Access) : (s.hold a).phase = s.phase := rfl
@[simp] theorem State.hold_base (s : State) (a : Access) : (s.hold a).base = s.base := rfl
@[simp] theorem State.hold_cycle (s : State) (a : Access) : (s.hold a).cycle = s.cycle := rfl
@[simp] theorem State.hold_applied (s : State) (a : Access) : (s.hold a).applied = s.applied := rfl
@[simp] theorem State.hold_cstat (s : State) (a : Access) : (s.hold a).cstat = s.cstat := rfl
@[simp] theorem State.hold_mirrors (s : State) (a : Access) : (s.hold a).mirrors = s.mirrors := rfl
@[simp] theorem State.hold_mem (s : State) (a : Access) : (s.hold a).mem = s.mem := rfl
@[simp] theorem State.hold_dev (s : State) (a : Access) : (s.hold a).dev = s.dev := rfl
@[simp] theorem State.hold_pending (s : State) (a : Access) : (s.hold a).pending = s.pending := rfl

@[simp] theorem State.answerWith_phase (s : State) (v : Word) : (s.answerWith v).phase = s.phase := rfl
@[simp] theorem State.answerWith_base (s : State) (v : Word) : (s.answerWith v).base = s.base := rfl
@[simp] theorem State.answerWith_cycle (s : State) (v : Word) : (s.answerWith v).cycle = s.cycle := rfl
@[simp] theorem State.answerWith_applied (s : State) (v : Word) : (s.answerWith v).applied = s.applied := rfl
@[simp] theorem State.answerWith_cstat (s : State) (v : Word) : (s.answerWith v).cstat = s.cstat := rfl
@[simp] theorem State.answerWith_mirrors (s : State) (v : Word) : (s.answerWith v).mirrors = s.mirrors := rfl
@[simp] theorem State.answerWith_mem (s : State) (v : Word) : (s.answerWith v).mem = s.mem := rfl
@[simp] theorem State.answerWith_dev (s : State) (v : Word) : (s.answerWith v).dev = s.dev := rfl
@[simp] theorem State.answerWith_pending (s : State) (v : Word) : (s.answerWith v).pending = s.pending := rfl

@[simp] theorem State.withPending_pending (s : State) (q : List Instr) : (s.withPending q).pending = q := rfl

@[simp] theorem State.putMirror_mirrors (s : State) (off : Nat) (v : Word) :
    (s.putMirror off v).mirrors = Mirrors.put s.mirrors off v := rfl

@[simp] theorem State.hold_held (s : State) (a : Access) : (s.hold a).bus.held = some a := rfl

@[simp] theorem State.env_cfg (s : State) : s.env.cfg = s.applied := rfl

@[simp] theorem State.env_cycle (s : State) : s.env.cycle = s.cycle := rfl

/-! ## Legs -/

@[simp] theorem Legs.get_set_self (x : Legs) (l : Fin 4) (g : Leg) : (x.set l g).get l = g := by
  fin_cases l <;> rfl

theorem Legs.get_set_ne (x : Legs) (l k : Fin 4) (g : Leg) (h : k ≠ l) : (x.set l g).get k = x.get k := by
  fin_cases l <;> fin_cases k <;> first | rfl | exact absurd rfl h

@[simp] theorem Dev.putLeg_leg_self (d : Dev) (l : Fin 4) (g : Leg) : (d.putLeg l g).leg l = g := Legs.get_set_self _ _ _

theorem Dev.putLeg_leg_ne (d : Dev) (l k : Fin 4) (g : Leg) (h : k ≠ l) : (d.putLeg l g).leg k = d.leg k :=
  Legs.get_set_ne _ _ _ _ h

@[simp] theorem Dev.modLeg_leg_self (d : Dev) (l : Fin 4) (f : Leg → Leg) : (d.modLeg l f).leg l = f (d.leg l) :=
  Dev.putLeg_leg_self _ _ _

theorem Dev.modLeg_leg_ne (d : Dev) (l k : Fin 4) (f : Leg → Leg) (h : k ≠ l) : (d.modLeg l f).leg k = d.leg k :=
  Dev.putLeg_leg_ne _ _ _ _ h

theorem Dev.modLeg_leg (d : Dev) (l k : Fin 4) (f : Leg → Leg) :
    (d.modLeg l f).leg k = if k = l then f (d.leg l) else d.leg k := by
  by_cases h : k = l
  · subst h; simp
  · simp [h, Dev.modLeg_leg_ne]

theorem Dev.putLeg_leg (d : Dev) (l k : Fin 4) (g : Leg) :
    (d.putLeg l g).leg k = if k = l then g else d.leg k := by
  by_cases h : k = l
  · subst h; simp
  · simp [h, Dev.putLeg_leg_ne]

end Sys2Proof.Machine
end

