-- ==== Sys2Proof/Laws/Memory.lean ====
section
/-! SUPPORT. Sparse maps and memory: what a read gives after a write, and that every write keeps the canonical form. -/

namespace Sys2Proof.Machine

/-! ## Sparse maps -/

section
variable {β : Type} [DecidableEq β] {d : β}

theorem Sparse.get_set_ne (m : List (Nat × β)) (i j : Nat) (v : β) (h : j ≠ i) :
    Sparse.get d (Sparse.set d m i v) j = Sparse.get d m j := by
  induction m with
  | nil => simp only [Sparse.set]; split <;> simp [Sparse.get, h]
  | cons p m ih =>
    obtain ⟨k, w⟩ := p
    simp only [Sparse.set]
    split
    · split
      · rfl
      · simp [Sparse.get, h]
    · split
      · rename_i hik
        subst hik
        split <;> simp [Sparse.get, h]
      · by_cases hj : j = k
        · simp [Sparse.get, hj]
        · simp [Sparse.get, hj, ih]

theorem Sparse.get_set_self_of_ne (m : List (Nat × β)) (i : Nat) (v : β) (h : v ≠ d) :
    Sparse.get d (Sparse.set d m i v) i = v := by
  induction m with
  | nil => simp [Sparse.set, h, Sparse.get]
  | cons p m ih =>
    obtain ⟨k, w⟩ := p
    simp only [Sparse.set]
    split
    · simp [Sparse.get]
    · split
      · simp [Sparse.get]
      · rename_i hik
        simp [Sparse.get, hik, ih]

theorem Sparse.get_of_wfFrom_lt (m : List (Nat × β)) (lo i : Nat) (hm : Sparse.wfFrom d lo m = true) (h : i < lo) :
    Sparse.get d m i = d := by
  induction m generalizing lo with
  | nil => rfl
  | cons p m ih =>
    obtain ⟨k, w⟩ := p
    simp only [Sparse.wfFrom, Bool.and_eq_true, decide_eq_true_eq] at hm
    obtain ⟨⟨hk, _⟩, hm⟩ := hm
    have hik : i ≠ k := by omega
    simp only [Sparse.get, hik, if_false]
    exact ih (k + 1) hm (by omega)

theorem Sparse.wfFrom_mono (m : List (Nat × β)) (lo lo' : Nat) (h : lo' ≤ lo) (hm : Sparse.wfFrom d lo m = true) :
    Sparse.wfFrom d lo' m = true := by
  cases m with
  | nil => rfl
  | cons p m =>
    obtain ⟨k, w⟩ := p
    simp only [Sparse.wfFrom, Bool.and_eq_true, decide_eq_true_eq] at hm ⊢
    exact ⟨⟨by omega, hm.1.2⟩, hm.2⟩

theorem Sparse.set_wfFrom (m : List (Nat × β)) (lo i : Nat) (v : β) (hi : lo ≤ i) (hm : Sparse.wfFrom d lo m = true) :
    Sparse.wfFrom d lo (Sparse.set d m i v) = true := by
  induction m generalizing lo with
  | nil =>
    simp only [Sparse.set]
    split
    · rfl
    · rename_i hv; simp [Sparse.wfFrom, hi, hv]
  | cons p m ih =>
    obtain ⟨k, w⟩ := p
    simp only [Sparse.wfFrom, Bool.and_eq_true, decide_eq_true_eq] at hm
    obtain ⟨⟨hk, hw⟩, hm⟩ := hm
    simp only [Sparse.set]
    split
    · rename_i hik
      split
      · simp [Sparse.wfFrom, hk, hw, hm]
      · rename_i hv
        simp only [Sparse.wfFrom, Bool.and_eq_true, decide_eq_true_eq]
        exact ⟨⟨hi, hv⟩, ⟨⟨by omega, hw⟩, hm⟩⟩
    · rename_i hik
      split
      · rename_i he
        subst he
        split
        · exact Sparse.wfFrom_mono _ _ _ (by omega) hm
        · rename_i hv
          simp only [Sparse.wfFrom, Bool.and_eq_true, decide_eq_true_eq]
          exact ⟨⟨hi, hv⟩, hm⟩
      · rename_i he
        simp only [Sparse.wfFrom, Bool.and_eq_true, decide_eq_true_eq]
        exact ⟨⟨hk, hw⟩, ih (k + 1) (by omega) hm⟩

/-- A store keeps the canonical form. -/
theorem Sparse.set_wf (m : List (Nat × β)) (i : Nat) (v : β) (hm : Sparse.wf d m = true) :
    Sparse.wf d (Sparse.set d m i v) = true := Sparse.set_wfFrom m 0 i v (Nat.zero_le _) hm

theorem Sparse.get_set_self (m : List (Nat × β)) (i : Nat) (v : β) (hm : Sparse.wf d m = true) :
    Sparse.get d (Sparse.set d m i v) i = v := by
  by_cases hv : v = d
  · subst hv
    suffices h : ∀ lo, Sparse.wfFrom v lo m = true → Sparse.get v (Sparse.set v m i v) i = v from h 0 hm
    clear hm
    induction m with
    | nil => intro lo _; simp [Sparse.set, Sparse.get]
    | cons p m ih =>
      intro lo hm
      obtain ⟨k, w⟩ := p
      have hm' := hm
      simp only [Sparse.wfFrom, Bool.and_eq_true, decide_eq_true_eq] at hm
      obtain ⟨⟨hk, hw⟩, hm⟩ := hm
      simp only [Sparse.set]
      split
      · rename_i hik
        simp only [if_true]
        have hne : i ≠ k := by omega
        simp only [Sparse.get, hne, if_false]
        exact Sparse.get_of_wfFrom_lt m (k + 1) i hm (by omega)
      · split
        · rename_i he
          subst he
          simp only [if_true]
          exact Sparse.get_of_wfFrom_lt m (i + 1) i hm (by omega)
        · rename_i he
          simp only [Sparse.get, he, if_false]
          exact ih (k + 1) hm
  · exact Sparse.get_set_self_of_ne m i v hv

theorem Sparse.filter_wfFrom (p : Nat × β → Bool) (m : List (Nat × β)) (lo : Nat) (hm : Sparse.wfFrom d lo m = true) :
    Sparse.wfFrom d lo (m.filter p) = true := by
  induction m generalizing lo with
  | nil => rfl
  | cons q m ih =>
    obtain ⟨k, w⟩ := q
    simp only [Sparse.wfFrom, Bool.and_eq_true, decide_eq_true_eq] at hm
    obtain ⟨⟨hk, hw⟩, hm⟩ := hm
    have h1 := ih (k + 1) hm
    by_cases hp : p (k, w) = true
    · simp only [List.filter_cons, hp, if_true, Sparse.wfFrom, Bool.and_eq_true, decide_eq_true_eq]
      exact ⟨⟨hk, hw⟩, h1⟩
    · simp only [List.filter_cons, hp]
      exact Sparse.wfFrom_mono _ _ _ (by omega) h1

/-- Dropping entries keeps the canonical form. -/
theorem Sparse.filter_wf (p : Nat × β → Bool) (m : List (Nat × β)) (hm : Sparse.wf d m = true) :
    Sparse.wf d (m.filter p) = true := Sparse.filter_wfFrom p m 0 hm

/-- In a canonical map the entries are what the map reads. -/
theorem Sparse.mem_iff_get (m : List (Nat × β)) (hm : Sparse.wf d m = true) (i : Nat) (v : β) :
    (i, v) ∈ m ↔ Sparse.get d m i = v ∧ v ≠ d := by
  suffices h : ∀ lo, Sparse.wfFrom d lo m = true → ((i, v) ∈ m ↔ Sparse.get d m i = v ∧ v ≠ d) from h 0 hm
  clear hm
  induction m with
  | nil => intro lo _; simp only [List.not_mem_nil, Sparse.get, false_iff, not_and, not_not]; exact fun h => h.symm
  | cons p m ih =>
    intro lo hm
    obtain ⟨k, w⟩ := p
    simp only [Sparse.wfFrom, Bool.and_eq_true, decide_eq_true_eq] at hm
    obtain ⟨⟨hk, hw⟩, hm⟩ := hm
    simp only [List.mem_cons, Prod.mk.injEq]
    by_cases hik : i = k
    · subst hik
      simp only [true_and, Sparse.get, if_true]
      constructor
      · rintro (h | h)
        · exact ⟨h.symm, h ▸ hw⟩
        · have h2 := (ih (i + 1) hm).1 h
          rw [Sparse.get_of_wfFrom_lt m (i + 1) i hm (by omega)] at h2
          exact absurd h2.1.symm h2.2
      · rintro ⟨h, _⟩; exact Or.inl h.symm
    · simp only [hik, false_and, false_or, Sparse.get, if_false]
      exact ih (k + 1) hm

end

/-! ## Memory -/

theorem Memory.read_write_self (m : List Host.Cell) (a : Nat) (b : Byte) (hm : Memory.wf m = true) :
    Memory.read (Memory.write m a b) a = b := Sparse.get_set_self m a b hm

theorem Memory.read_write_ne (m : List Host.Cell) (a c : Nat) (b : Byte) (h : c ≠ a) :
    Memory.read (Memory.write m a b) c = Memory.read m c := Sparse.get_set_ne m a c b h

/-- Writing a byte keeps the canonical form. -/
theorem Memory.write_wf (m : List Host.Cell) (a : Nat) (b : Byte) (hm : Memory.wf m = true) :
    Memory.wf (Memory.write m a b) = true := Sparse.set_wf m a b hm

/-- Writing a run of bytes keeps the canonical form. -/
theorem Memory.writeList_wf (m : List Host.Cell) (a : Nat) (bs : List Byte) (hm : Memory.wf m = true) :
    Memory.wf (Memory.writeList m a bs) = true := by
  induction bs generalizing m a with
  | nil => exact hm
  | cons b bs ih => exact ih _ _ (Memory.write_wf m a b hm)

/-- A run of bytes reads back byte by byte, and every other byte reads as before. -/
theorem Memory.read_writeList (m : List Host.Cell) (a c : Nat) (bs : List Byte) (hm : Memory.wf m = true) :
    Memory.read (Memory.writeList m a bs) c =
      if h : a ≤ c ∧ c < a + bs.length then bs[c - a]'(by omega) else Memory.read m c := by
  induction bs generalizing m a with
  | nil => simp only [Memory.writeList, List.length_nil]; rw [dif_neg (by omega)]
  | cons b bs ih =>
    simp only [Memory.writeList]
    rw [ih _ _ (Memory.write_wf m a b hm)]
    by_cases h1 : a + 1 ≤ c ∧ c < a + 1 + bs.length
    · rw [dif_pos h1, dif_pos (by simp only [List.length_cons]; omega)]
      have he : c - a = (c - (a + 1)) + 1 := by omega
      simp [he]
    · rw [dif_neg h1]
      by_cases h2 : c = a
      · subst h2
        rw [Memory.read_write_self m c b hm, dif_pos (by simp)]
        simp
      · rw [Memory.read_write_ne m a c b h2, dif_neg (by simp only [List.length_cons]; omega)]

theorem Memory.writeLane_wf (be : BitVec 4) (v : Word) (a : Nat) (m : List Host.Cell) (k : Nat) (hm : Memory.wf m = true) :
    Memory.wf (Memory.writeLane be v a m k) = true := by
  unfold Memory.writeLane; split
  · exact Memory.write_wf _ _ _ hm
  · exact hm

/-- A write of the enabled bytes of a word keeps the canonical form. -/
theorem Memory.writeWord_wf (m : List Host.Cell) (a : Nat) (be : BitVec 4) (v : Word) (hm : Memory.wf m = true) :
    Memory.wf (Memory.writeWord m a be v) = true := by
  simp only [Memory.writeWord, List.foldl_cons, List.foldl_nil]
  exact Memory.writeLane_wf _ _ _ _ _ (Memory.writeLane_wf _ _ _ _ _ (Memory.writeLane_wf _ _ _ _ _
    (Memory.writeLane_wf _ _ _ _ _ hm)))

theorem Memory.read_writeLane (be : BitVec 4) (v : Word) (a : Nat) (m : List Host.Cell) (k c : Nat)
    (hm : Memory.wf m = true) :
    Memory.read (Memory.writeLane be v a m k) c =
      if c = a + k ∧ be.getLsbD k = true then byteOf v k else Memory.read m c := by
  unfold Memory.writeLane
  by_cases hb : be.getLsbD k = true
  · simp only [hb, if_true, and_true]
    by_cases hc : c = a + k
    · subst hc; simp [Memory.read_write_self m _ _ hm]
    · simp [hc, Memory.read_write_ne]
  · simp [hb]

/-- R173, R174: the enabled bytes take the word's bytes, and every other byte of memory reads as before. -/
theorem Memory.read_writeWord (m : List Host.Cell) (a c : Nat) (be : BitVec 4) (v : Word) (hm : Memory.wf m = true) :
    Memory.read (Memory.writeWord m a be v) c =
      if a ≤ c ∧ c < a + 4 ∧ be.getLsbD (c - a) = true then byteOf v (c - a) else Memory.read m c := by
  have h0 := Memory.writeLane_wf be v a m 0 hm
  have h1 := Memory.writeLane_wf be v a _ 1 h0
  have h2 := Memory.writeLane_wf be v a _ 2 h1
  simp only [Memory.writeWord, List.foldl_cons, List.foldl_nil]
  rw [Memory.read_writeLane _ _ _ _ _ _ h2, Memory.read_writeLane _ _ _ _ _ _ h1,
    Memory.read_writeLane _ _ _ _ _ _ h0, Memory.read_writeLane _ _ _ _ _ _ hm]
  by_cases hr : a ≤ c ∧ c < a + 4
  · obtain ⟨k, rfl⟩ : ∃ k, c = a + k := ⟨c - a, by omega⟩
    have hk : k = 0 ∨ k = 1 ∨ k = 2 ∨ k = 3 := by omega
    rcases hk with rfl | rfl | rfl | rfl <;> simp
  · have e0 : ¬ (c = a + 0 ∧ be.getLsbD 0 = true) := by omega
    have e1 : ¬ (c = a + 1 ∧ be.getLsbD 1 = true) := by omega
    have e2 : ¬ (c = a + 2 ∧ be.getLsbD 2 = true) := by omega
    have e3 : ¬ (c = a + 3 ∧ be.getLsbD 3 = true) := by omega
    rw [if_neg e0, if_neg e1, if_neg e2, if_neg e3, if_neg (fun h => hr ⟨h.1, h.2.1⟩)]

/-! ## Mirrors, records, slots, pin-table entries -/

/-- R174: a mirror reads back what it took. -/
theorem Mirrors.word_put_self (ms : List (Nat × Word)) (off : Nat) (v : Word) (hm : Sparse.wf 0 ms = true) :
    Mirrors.word (Mirrors.put ms off v) off = v := Sparse.get_set_self ms _ v hm

theorem Mirrors.word_put_ne (ms : List (Nat × Word)) (off k : Nat) (v : Word) (h : k / 4 ≠ off / 4) :
    Mirrors.word (Mirrors.put ms off v) k = Mirrors.word ms k := Sparse.get_set_ne ms _ _ v h

theorem Dev.putRec_record_self (d : Dev) (r : Nat) (x : Rec) (hd : Sparse.wf Rec.vacant d.recs = true) :
    (d.putRec r x).record r = x := Sparse.get_set_self d.recs r x hd

theorem Dev.putRec_record_ne (d : Dev) (r q : Nat) (x : Rec) (h : q ≠ r) : (d.putRec r x).record q = d.record q :=
  Sparse.get_set_ne d.recs r q x h

theorem Dev.modRec_record_self (d : Dev) (r : Nat) (f : Rec → Rec) (hd : Sparse.wf Rec.vacant d.recs = true) :
    (d.modRec r f).record r = f (d.record r) := Dev.putRec_record_self d r _ hd

theorem Dev.modRec_record_ne (d : Dev) (r q : Nat) (f : Rec → Rec) (h : q ≠ r) : (d.modRec r f).record q = d.record q :=
  Dev.putRec_record_ne d r q _ h

theorem Dev.putRec_recs_wf (d : Dev) (r : Nat) (x : Rec) (hd : Sparse.wf Rec.vacant d.recs = true) :
    Sparse.wf Rec.vacant (d.putRec r x).recs = true := Sparse.set_wf d.recs r x hd

theorem Dev.modRec_recs_wf (d : Dev) (r : Nat) (f : Rec → Rec) (hd : Sparse.wf Rec.vacant d.recs = true) :
    Sparse.wf Rec.vacant (d.modRec r f).recs = true := Sparse.set_wf d.recs r _ hd

theorem Dev.putSlot_slot_self (d : Dev) (n : Nat) (x : Slot) (hd : Sparse.wf Slot.idle d.slots = true) :
    (d.putSlot n x).slot n = x := Sparse.get_set_self d.slots n x hd

theorem Dev.putSlot_slot_ne (d : Dev) (n m : Nat) (x : Slot) (h : m ≠ n) : (d.putSlot n x).slot m = d.slot m :=
  Sparse.get_set_ne d.slots n m x h

theorem Dev.modSlot_slot_self (d : Dev) (n : Nat) (f : Slot → Slot) (hd : Sparse.wf Slot.idle d.slots = true) :
    (d.modSlot n f).slot n = f (d.slot n) := Dev.putSlot_slot_self d n _ hd

theorem Dev.modSlot_slot_ne (d : Dev) (n m : Nat) (f : Slot → Slot) (h : m ≠ n) : (d.modSlot n f).slot m = d.slot m :=
  Dev.putSlot_slot_ne d n m _ h

theorem Dev.putPin_pin_self (d : Dev) (i : Nat) (p : Pin) (hd : Sparse.wf Pin.free d.pins = true) :
    (d.putPin i p).pin i = p := Sparse.get_set_self d.pins i p hd

theorem Dev.putPin_pin_ne (d : Dev) (i j : Nat) (p : Pin) (h : j ≠ i) : (d.putPin i p).pin j = d.pin j :=
  Sparse.get_set_ne d.pins i j p h

end Sys2Proof.Machine
end

