-- ==== Sys2Proof/Laws/Good.lean ====
section
/-! SUPPORT. What the operations of the blocks keep: `Dev.Good` collects the invariants of Safety.lean over the blocks, and each
shared operation has one lemma that says it keeps them. -/

namespace Sys2Proof.Machine

/-- What is kept of one leg; `full` says whether records may wait only behind a full queue. -/
def LegOk (full : Prop) (g : Leg) : Prop :=
  g.queue.length ≤ queueCap ∧ (full → g.waiting ≠ [] → g.queue.length = queueCap) ∧ g.channelKept ∧
    Sparse.wf 0 g.slotMap = true

/-- The invariants over the blocks; `ex` is a leg whose freed queue places are still to be filled, `b` whether a burst runs. -/
structure Dev.Good (cap : Nat) (b : Bool) (ex : Option (Fin 4)) (d : Dev) : Prop where
  recs : Sparse.wf Rec.vacant d.recs = true
  slots : Sparse.wf Slot.idle d.slots = true
  pins : Sparse.wf Pin.free d.pins = true
  leg : ∀ l, LegOk (ex ≠ some l) (d.leg l)
  fields : ∀ r, (d.record r).fieldsKept
  ring : d.ring.within cap
  reqs : d.requests.Nodup
  burst : d.burst.isSome = b

variable {cap : Nat} {b : Bool} {ex : Option (Fin 4)} {d : Dev}

namespace Dev.Good

/-! ## Primitive updates -/

theorem putRec (h : Dev.Good cap b ex d) (r : Nat) (x : Rec) (hx : x.fieldsKept) : Dev.Good cap b ex (d.putRec r x) where
  recs := Dev.putRec_recs_wf d r x h.recs
  slots := h.slots
  pins := h.pins
  leg := h.leg
  fields q := by
    by_cases hq : q = r
    · subst hq; rw [Dev.putRec_record_self d q x h.recs]; exact hx
    · rw [Dev.putRec_record_ne d r q x hq]; exact h.fields q
  ring := h.ring
  reqs := h.reqs
  burst := h.burst

theorem modRec (h : Dev.Good cap b ex d) (r : Nat) (f : Rec → Rec) (hf : (d.record r).fieldsKept → (f (d.record r)).fieldsKept) :
    Dev.Good cap b ex (d.modRec r f) := h.putRec r _ (hf (h.fields r))

theorem putLeg (h : Dev.Good cap b ex d) (l : Fin 4) (g : Leg) (hg : LegOk (ex ≠ some l) g) :
    Dev.Good cap b ex (d.putLeg l g) where
  recs := h.recs
  slots := h.slots
  pins := h.pins
  leg k := by
    rw [Dev.putLeg_leg]; split
    · rename_i hk; subst hk; exact hg
    · exact h.leg k
  fields := h.fields
  ring := h.ring
  reqs := h.reqs
  burst := h.burst

theorem modLeg (h : Dev.Good cap b ex d) (l : Fin 4) (f : Leg → Leg)
    (hf : LegOk (ex ≠ some l) (d.leg l) → LegOk (ex ≠ some l) (f (d.leg l))) : Dev.Good cap b ex (d.modLeg l f) :=
  h.putLeg l _ (hf (h.leg l))

theorem putSlot (h : Dev.Good cap b ex d) (n : Nat) (x : Slot) : Dev.Good cap b ex (d.putSlot n x) where
  recs := h.recs
  slots := Sparse.set_wf d.slots n x h.slots
  pins := h.pins
  leg := h.leg
  fields := h.fields
  ring := h.ring
  reqs := h.reqs
  burst := h.burst

theorem modSlot (h : Dev.Good cap b ex d) (n : Nat) (f : Slot → Slot) : Dev.Good cap b ex (d.modSlot n f) := h.putSlot n _

theorem putPin (h : Dev.Good cap b ex d) (i : Nat) (p : Pin) : Dev.Good cap b ex (d.putPin i p) where
  recs := h.recs
  slots := h.slots
  pins := Sparse.set_wf d.pins i p h.pins
  leg := h.leg
  fields := h.fields
  ring := h.ring
  reqs := h.reqs
  burst := h.burst

/-- An update of what the invariants do not speak of. -/
theorem other (h : Dev.Good cap b ex d) {d' : Dev} (e1 : d'.recs = d.recs) (e2 : d'.legs = d.legs) (e3 : d'.slots = d.slots)
    (e4 : d'.pins = d.pins) (e5 : d'.ring.within cap) (e6 : d'.requests.Nodup) (e7 : d'.burst.isSome = b) :
    Dev.Good cap b ex d' where
  recs := by rw [e1]; exact h.recs
  slots := by rw [e3]; exact h.slots
  pins := by rw [e4]; exact h.pins
  leg l := by have := h.leg l; simpa only [Dev.leg, e2] using this
  fields r := by have := h.fields r; simpa only [Dev.record, e1] using this
  ring := e5
  reqs := e6
  burst := e7

theorem latch (h : Dev.Good cap b ex d) (c : Cause) : Dev.Good cap b ex (d.latch c) :=
  h.other rfl rfl rfl rfl h.ring h.reqs h.burst

theorem weaken (h : Dev.Good cap b none d) (l : Fin 4) : Dev.Good cap b (some l) d where
  recs := h.recs
  slots := h.slots
  pins := h.pins
  leg k := ⟨(h.leg k).1, fun _ => (h.leg k).2.1 (by simp), (h.leg k).2.2⟩
  fields := h.fields
  ring := h.ring
  reqs := h.reqs
  burst := h.burst

/-- A fold of an operation that keeps the invariants keeps them. -/
theorem foldl {α : Type} {f : Dev → α → Dev} (hf : ∀ y x, Dev.Good cap b ex y → Dev.Good cap b ex (f y x)) (xs : List α)
    (h : Dev.Good cap b ex d) : Dev.Good cap b ex (xs.foldl f d) := by
  induction xs generalizing d with
  | nil => exact h
  | cons x xs ih => exact ih (hf d x h)

/-! ## Queue.lean -/

theorem complete (h : Dev.Good cap b ex d) (n : Nat) (res : ResultCode) (x : Detail) : Dev.Good cap b ex (d.complete n res x) :=
  (h.modSlot n _).latch _

theorem clearWaiting (h : Dev.Good cap b ex d) (r : Nat) : Dev.Good cap b ex (d.clearWaiting r) := h.modRec r _ id

/-- The list that is admitted: the queue stays within its capacity, and who still waits does so behind a full queue. -/
theorem admitList_spec (q : List Entry) (ws : List Waiter) (hq : q.length ≤ queueCap) :
    (admitList q ws).1.length ≤ queueCap ∧
      ((admitList q ws).2.1 ≠ [] → (admitList q ws).1.length = queueCap) := by
  induction ws generalizing q with
  | nil => exact ⟨hq, fun h => absurd rfl h⟩
  | cons w ws ih =>
    simp only [admitList]
    split
    · rename_i hlt
      exact ih _ (by simp only [List.length_append, List.length_cons, List.length_nil]; omega)
    · rename_i hlt
      exact ⟨hq, fun _ => by show q.length = queueCap; omega⟩

theorem fillQueue_of (h : Dev.Good cap b (some l) d) : Dev.Good cap b none (d.fillQueue l) := by
  have hs := admitList_spec (d.leg l).queue (d.leg l).waiting (h.leg l).1
  refine foldl (fun y x hy => hy.clearWaiting x) _ ?_
  refine { recs := h.recs, slots := h.slots, pins := h.pins, leg := ?_, fields := h.fields, ring := h.ring, reqs := h.reqs,
           burst := h.burst }
  intro k
  rw [Dev.modLeg_leg]
  split
  · exact ⟨hs.1, fun _ => hs.2, (h.leg l).2.2⟩
  · rename_i hk
    exact ⟨(h.leg k).1, fun _ => (h.leg k).2.1 (by simpa using fun e => hk e.symm), (h.leg k).2.2⟩

theorem fillQueue (h : Dev.Good cap b none d) (l : Fin 4) : Dev.Good cap b none (d.fillQueue l) := (h.weaken l).fillQueue_of

/-- A full queue: what may wait behind it. -/
theorem waitBack (h : Dev.Good cap b ex d) (l : Fin 4) (r : Nat) (dir : Directive) (hf : (d.leg l).hasRoom = false) :
    Dev.Good cap b ex (d.waitBack l r dir) := by
  refine (h.modLeg l _ fun hl => ⟨hl.1, fun _ _ => ?_, hl.2.2⟩).modRec r _ id
  have := hl.1
  simp only [Leg.hasRoom, decide_eq_false_iff_not] at hf
  show (d.leg l).queue.length = queueCap
  omega

theorem waitFront (h : Dev.Good cap b ex d) (l : Fin 4) (r : Nat) (dir : Directive) (hf : (d.leg l).queue.length = queueCap) :
    Dev.Good cap b ex (d.waitFront l r dir) :=
  (h.modLeg l _ fun hl => ⟨hl.1, fun _ _ => hf, hl.2.2⟩).modRec r _ id

theorem enqueue (h : Dev.Good cap b ex d) (l : Fin 4) (dir : Directive) (o : Origin) (hr : (d.leg l).hasRoom = true) :
    Dev.Good cap b ex (d.enqueue l dir o) := by
  simp only [Leg.hasRoom, decide_eq_true_eq] at hr
  refine h.modLeg l _ fun hl => ⟨?_, fun hx hw => ?_, hl.2.2⟩
  · simp only [List.length_append, List.length_cons, List.length_nil]; omega
  · have := hl.2.1 hx hw; omega

theorem offerStage (h : Dev.Good cap b ex d) (l : Fin 4) (r : Nat) (dir : Directive) :
    Dev.Good cap b ex (d.offerStage l r dir) := by
  unfold Dev.offerStage; split
  · rename_i hr; exact h.enqueue l dir _ hr
  · rename_i hr; exact h.waitBack l r dir (by simpa using hr)

theorem evicted (h : Dev.Good cap b ex d) (l : Fin 4) (e : Entry) (hf : (d.leg l).queue.length = queueCap) :
    Dev.Good cap b ex (d.evicted l e) := by
  unfold Dev.evicted; split
  · exact h.complete _ _ _
  · exact h
  · exact h.waitFront l _ _ hf
  · exact h

end Dev.Good

/-! ## Lists -/

/-- Taking the first element that satisfies a predicate leaves one element less. -/
theorem takeFirst_length {α : Type} (p : α → Bool) (xs : List α) (y : α) (ys : List α) (h : takeFirst p xs = some (y, ys)) :
    ys.length + 1 = xs.length := by
  induction xs generalizing ys with
  | nil => simp [takeFirst] at h
  | cons x xs ih =>
    simp only [takeFirst] at h
    split at h
    · simp only [Option.some.injEq, Prod.mk.injEq] at h
      rw [← h.2]; rfl
    · simp only [Option.map_eq_some_iff, Prod.exists, Prod.mk.injEq] at h
      obtain ⟨a, c, hac, rfl, rfl⟩ := h
      simp only [List.length_cons]
      rw [ih c hac]

theorem takeLast_length {α : Type} (p : α → Bool) (xs : List α) (y : α) (ys : List α) (h : takeLast p xs = some (y, ys)) :
    ys.length + 1 = xs.length := by
  simp only [takeLast, Option.map_eq_some_iff, Prod.exists, Prod.mk.injEq] at h
  obtain ⟨a, c, hac, rfl, rfl⟩ := h
  have := takeFirst_length p xs.reverse a c hac
  simpa using this

theorem takeVictim_length (q : List Entry) (y : Entry) (ys : List Entry) (h : takeVictim q = some (y, ys)) :
    ys.length + 1 = q.length := by
  simp only [takeVictim] at h
  split at h
  · rename_i z hz; rw [Option.some.injEq] at h; subst h; exact takeLast_length _ _ _ _ hz
  · exact takeLast_length _ _ _ _ h

theorem takeHead_length (q : List Entry) (y : Entry) (ys : List Entry) (h : takeHead q = some (y, ys)) :
    ys.length + 1 = q.length := by
  simp only [takeHead] at h
  split at h
  · rename_i z hz; rw [Option.some.injEq] at h; subst h; exact takeFirst_length _ _ _ _ hz
  · split at h
    · rename_i z hz; rw [Option.some.injEq] at h; subst h; exact takeFirst_length _ _ _ _ hz
    · exact takeFirst_length _ _ _ _ h

namespace Dev.Good

theorem offerUrgent (h : Dev.Good cap b ex d) (l : Fin 4) (dir : Directive) (o : Origin) :
    Dev.Good cap b ex (d.offerUrgent l dir o).1 := by
  unfold Dev.offerUrgent; split
  · rename_i hr; exact h.enqueue l dir o hr
  · rename_i hr
    simp only [Leg.hasRoom, decide_eq_true_eq] at hr
    have hl := (h.leg l).1
    split
    · rename_i e q hq
      have hn := takeVictim_length _ _ _ hq
      have hfull : (q ++ [⟨dir, o⟩] : List Entry).length = queueCap := by
        simp only [List.length_append, List.length_cons, List.length_nil]; omega
      refine evicted (h.modLeg l _ fun hl => ⟨?_, fun _ _ => hfull, hl.2.2⟩) l e ?_
      · exact Nat.le_of_eq hfull
      · rw [Dev.modLeg_leg_self]; exact hfull
    · exact h

theorem offerUrgent_false (d : Dev) (l : Fin 4) (dir : Directive) (o : Origin) (hy : (d.offerUrgent l dir o).2 = false) :
    (d.offerUrgent l dir o).1 = d ∧ (d.leg l).hasRoom = false := by
  unfold Dev.offerUrgent at hy ⊢
  split at hy
  · exact absurd hy (by simp)
  · rename_i hr
    split at hy
    · exact absurd hy (by simp)
    · rename_i hv
      simp [hr]

theorem offerUrgentRecord (h : Dev.Good cap b ex d) (l : Fin 4) (r : Nat) (dir : Directive) :
    Dev.Good cap b ex (d.offerUrgentRecord l r dir) := by
  unfold Dev.offerUrgentRecord
  simp only
  split
  · exact h.offerUrgent l dir _
  · rename_i hy
    have := offerUrgent_false d l dir (.record r) (by simpa using hy)
    exact h.waitBack l r dir this.2

theorem unqueue (h : Dev.Good cap b none d) (l : Fin 4) (r : Nat) : Dev.Good cap b none (d.unqueue l r) := by
  unfold Dev.unqueue; split
  · rename_i e q hq
    have hn := takeFirst_length _ _ _ _ hq
    refine Dev.Good.fillQueue_of ((h.weaken l).modLeg l _ fun hl => ⟨?_, fun hx => absurd rfl hx, hl.2.2⟩)
    have := hl.1
    show q.length ≤ queueCap
    omega
  · split
    · refine (h.modLeg l _ fun hl => ⟨hl.1, fun hx hw => ?_, hl.2.2⟩).clearWaiting r
      refine hl.2.1 hx fun e => hw ?_
      show List.filter _ (d.leg l).waiting = []
      rw [e]; rfl
    · exact h

theorem unqueueCmd (h : Dev.Good cap b none d) (l : Fin 4) (n : Nat) : Dev.Good cap b none (d.unqueueCmd l n) := by
  unfold Dev.unqueueCmd; split
  · rename_i e q hq
    have hn := takeFirst_length _ _ _ _ hq
    refine Dev.Good.fillQueue_of ((h.weaken l).modLeg l _ fun hl => ⟨?_, fun hx => absurd rfl hx, hl.2.2⟩)
    have := hl.1
    show q.length ≤ queueCap
    omega
  · exact h

theorem sync_nodup (d : Dev) (h : d.requests.Nodup) : d.syncRequests.requests.Nodup := by
  have h1 : d.wantsLoad = true → Client.load ∉ d.requests := by
    intro hw hm; simp [Dev.wantsLoad, hm] at hw
  have h2 : d.wantsRing = true → Client.ring ∉ d.requests := by
    intro hw hm; simp [Dev.wantsRing, hm] at hw
  unfold Dev.syncRequests
  cases e1 : d.wantsLoad <;> cases e2 : d.wantsRing
  · simpa using h
  · simpa [List.nodup_append, h] using fun a ha (hr : a = Client.ring) => h2 e2 (hr ▸ ha)
  · simpa [List.nodup_append, h] using fun a ha (hr : a = Client.load) => h1 e1 (hr ▸ ha)
  · simp only [if_true, List.append_assoc, List.nodup_append, h, true_and]
    refine ⟨by decide, ?_⟩
    intro a ha c hc
    rintro rfl
    simp only [List.cons_append, List.nil_append, List.mem_cons, List.not_mem_nil, or_false] at hc
    rcases hc with rfl | rfl
    · exact h1 e1 ha
    · exact h2 e2 ha

theorem syncRequests (h : Dev.Good cap b ex d) : Dev.Good cap b ex d.syncRequests :=
  h.other rfl rfl rfl rfl h.ring (sync_nodup d h.reqs) h.burst

theorem withdrawLoad (h : Dev.Good cap b ex d) (l : Fin 4) : Dev.Good cap b ex (d.withdrawLoad l) := by
  unfold Dev.withdrawLoad; split
  · split
    · exact h.other rfl rfl rfl rfl h.ring (h.reqs.filter _) h.burst
    · exact h
  · exact h

theorem endFetch (h : Dev.Good cap b ex d) (l : Fin 4) : Dev.Good cap b ex (d.endFetch l) := by
  unfold Dev.endFetch; split
  · rename_i f hb
    split
    · exact h.other rfl rfl rfl rfl h.ring h.reqs (by have := h.burst; rw [hb] at this; exact this)
    · exact h
  · exact h
  · exact h.withdrawLoad l
  · exact h.withdrawLoad l

theorem cancelFetch (h : Dev.Good cap b ex d) (l : Fin 4) : Dev.Good cap b ex (d.cancelFetch l) :=
  syncRequests ((h.endFetch l).other rfl rfl rfl rfl (h.endFetch l).ring (h.endFetch l).reqs (h.endFetch l).burst)

theorem clearMuted (h : Dev.Good cap b ex d) (r : Nat) : Dev.Good cap b ex (d.clearMuted r) := h.modRec r _ id

theorem unmuteEnded (h : Dev.Good cap b ex d) (x : InFlight) : Dev.Good cap b ex (d.unmuteEnded x) := by
  unfold Dev.unmuteEnded; split
  · exact h.clearMuted _
  · exact h.clearMuted _
  · exact h

/-- The channel of a leg becomes FREE. -/
theorem freeChan (h : Dev.Good cap b ex d) (l : Fin 4) : Dev.Good cap b ex (d.modLeg l fun g => { g with chan := .free }) :=
  h.modLeg l _ fun hl => ⟨hl.1, hl.2.1, fun _ => rfl, hl.2.2.2⟩

theorem abandon (h : Dev.Good cap b ex d) (l : Fin 4) : Dev.Good cap b ex (d.abandon l) := by
  unfold Dev.abandon; split
  · exact ((h.freeChan l).cancelFetch l).unmuteEnded _
  · exact h

/-! ## Stage.lean -/

theorem offerWork (h : Dev.Good cap b ex d) (r : Nat) : Dev.Good cap b ex (d.offerWork r) := by
  unfold Dev.offerWork; simp only; split
  · split
    · exact h
    · exact h.offerStage _ _ _
  · exact h

theorem joinPin (h : Dev.Good cap b ex d) (i r : Nat) : Dev.Good cap b ex (d.joinPin i r) := (h.putPin i _).modRec r _ id

theorem openFree (h : Dev.Good cap b ex d) (i : Nat) (x : Enrolment) : Dev.Good cap b ex (d.openFree i x) := h.putPin i _

theorem setPinWait (h : Dev.Good cap b ex d) (ps : List Nat) : Dev.Good cap b ex { d with pinWait := ps } :=
  h.other rfl rfl rfl rfl h.ring h.reqs h.burst

theorem pinRequest (h : Dev.Good cap b ex d) (r : Nat) : Dev.Good cap b ex (d.pinRequest r) := by
  unfold Dev.pinRequest; simp only; split
  · exact h.joinPin _ _
  · split
    · exact (h.openFree _ _).joinPin _ _
    · exact (h.setPinWait _).modRec r _ id

theorem servePin (h : Dev.Good cap b ex d) (i r : Nat) (rest : List Nat) : Dev.Good cap b ex (d.servePin i r rest) := by
  unfold Dev.servePin; simp only
  exact foldl (fun y x hy => hy.offerWork x) _ (foldl (fun y x hy => hy.joinPin i x) _ ((h.setPinWait _).openFree _ _))

theorem servePins (h : Dev.Good cap b ex d) (n : Nat) : Dev.Good cap b ex (d.servePins n) := by
  induction n generalizing d with
  | zero => exact h
  | succ n ih =>
    simp only [Dev.servePins]; split
    · exact ih (h.servePin _ _ _)
    · exact h
    · exact h

theorem servePinWait (h : Dev.Good cap b ex d) : Dev.Good cap b ex d.servePinWait := h.servePins _

theorem dropPinUse (h : Dev.Good cap b ex d) (i : Nat) : Dev.Good cap b ex (d.dropPinUse i) := by
  unfold Dev.dropPinUse; simp only; split
  · exact (h.putPin i _).servePinWait
  · exact h.putPin i _

theorem pinRelease (h : Dev.Good cap b ex d) (r : Nat) : Dev.Good cap b ex (d.pinRelease r) := by
  unfold Dev.pinRelease; simp only; split
  · exact (h.setPinWait _).modRec r _ id
  · split
    · exact (h.modRec r _ id).dropPinUse _
    · exact h

theorem slotRelease (h : Dev.Good cap b ex d) (r : Nat) : Dev.Good cap b ex (d.slotRelease r) := by
  unfold Dev.slotRelease; simp only; split
  · exact (h.modLeg _ _ fun hl => ⟨hl.1, hl.2.1, hl.2.2.1, Sparse.filter_wf _ _ hl.2.2.2⟩).modRec r _ id
  · exact h

theorem abandonOf (h : Dev.Good cap b ex d) (l : Fin 4) (r : Nat) : Dev.Good cap b ex (d.abandonOf l r) := by
  unfold Dev.abandonOf; split
  · exact h.abandon l
  · exact h

theorem drop (h : Dev.Good cap b none d) (r : Nat) : Dev.Good cap b none (d.drop r) := by
  unfold Dev.drop; simp only
  exact ((((h.unqueue _ _).abandonOf _ _).pinRelease _).slotRelease _).modRec r _ id

theorem haltWith (h : Dev.Good cap b none d) (r : Nat) (f : FaultCode) (st : Option RecState) (hf : f ≠ .none) :
    Dev.Good cap b none (d.haltWith r f st) :=
  ((h.drop r).modRec r _ fun _ => ⟨fun _ => Or.inr rfl, ⟨fun _ => rfl, fun _ => hf⟩⟩).latch _

theorem halt (h : Dev.Good cap b none d) (r : Nat) (f : FaultCode) (hf : f ≠ .none) : Dev.Good cap b none (d.halt r f) :=
  h.haltWith r f _ hf

theorem haltRogue (h : Dev.Good cap b none d) (r : Nat) : Dev.Good cap b none (d.haltRogue r) :=
  h.haltWith r _ _ (by decide)

theorem vacant_fieldsKept : Rec.vacant.fieldsKept :=
  ⟨fun e => absurd rfl e, ⟨fun e => absurd rfl e, fun e => by cases e⟩⟩

theorem vacate (h : Dev.Good cap b none d) (r : Nat) : Dev.Good cap b none (d.vacate r) :=
  (h.drop r).putRec r _ vacant_fieldsKept

theorem hold (h : Dev.Good cap b none d) (r : Nat) (st : RecState) : Dev.Good cap b none (d.hold r st) :=
  (h.drop r).modRec r _ fun _ => ⟨fun _ => Or.inl rfl, ⟨fun e => absurd rfl e, fun e => by cases e⟩⟩

theorem enterActive (h : Dev.Good cap b ex d) (r : Nat) : Dev.Good cap b ex (d.enterActive r) :=
  (h.modRec r _ fun _ => ⟨fun e => absurd rfl e, ⟨fun e => absurd rfl e, fun e => by cases e⟩⟩).latch _

theorem foldl_set_wf (ss : List Nat) (v : Nat) (m : List (Nat × Nat)) (hm : Sparse.wf 0 m = true) :
    Sparse.wf 0 (ss.foldl (fun m s => Sparse.set 0 m s v) m) = true := by
  induction ss generalizing m with
  | nil => exact hm
  | cons s ss ih => exact ih _ (Sparse.set_wf m s v hm)

theorem allocate (h : Dev.Good cap b none d) (r : Nat) : Dev.Good cap b none (d.allocate r) := by
  unfold Dev.allocate; simp only; split
  · exact ((h.modLeg _ _ fun hl => ⟨hl.1, hl.2.1, hl.2.2.1, foldl_set_wf _ _ _ hl.2.2.2⟩).modRec r _ id).offerWork r
  · exact (h.modRec r _ id).halt r _ (by decide)

theorem stage_fieldsKept (st : RecState) (h4 : st ≠ .halted) (x : Rec) (h1 : x.state = st) (h2 : x.stage = none)
    (h3 : x.fault = .none) : x.fieldsKept :=
  ⟨fun e => absurd h2 e, ⟨fun e => absurd h3 e, fun e => absurd (h1.symm.trans e) h4⟩⟩

theorem enterStage (h : Dev.Good cap b none d) (e : Env) (r : Nat) (st : RecState) :
    Dev.Good cap b none (d.enterStage e r st) := by
  cases st <;> simp only [Dev.enterStage]
  case probing => exact (h.putRec r _ (stage_fieldsKept .probing (by decide) _ rfl rfl rfl)).offerWork r
  case assigning => exact (h.putRec r _ (stage_fieldsKept .assigning (by decide) _ rfl rfl rfl)).offerWork r
  case ranging => exact (h.putRec r _ (stage_fieldsKept .ranging (by decide) _ rfl rfl rfl)).offerWork r
  case equalising => exact (h.putRec r _ (stage_fieldsKept .equalising (by decide) _ rfl rfl rfl)).offerWork r
  case loading => exact ((h.putRec r _ (stage_fieldsKept .loading (by decide) _ rfl rfl rfl)).pinRequest r).offerWork r
  case granting => exact (h.putRec r _ (stage_fieldsKept .granting (by decide) _ rfl rfl rfl)).allocate r
  all_goals exact h

theorem moveTo (h : Dev.Good cap b none d) (e : Env) (r : Nat) (st : RecState) : Dev.Good cap b none (d.moveTo e r st) := by
  unfold Dev.moveTo; split
  · exact h.enterActive r
  · exact h.enterStage e r st

end Dev.Good

end Sys2Proof.Machine
end

