-- ==== Sys2Proof/Laws/GoodLeg.lean ====
section
/-! SUPPORT. The operations of the hunt, of outcomes, of the channel and of the discovery writer keep the invariants of the
blocks. -/

namespace Sys2Proof.Machine

variable {cap : Nat} {b : Bool} {ex : Option (Fin 4)} {d : Dev}

namespace Dev.Good

/-! ## Hunt.lean -/

theorem requestSurvey (h : Dev.Good cap b ex d) (l : Fin 4) (q : Requesters) : Dev.Good cap b ex (d.requestSurvey l q) :=
  h.modLeg l _ id

theorem strayBurst (h : Dev.Good cap b ex d) (e : Env) (l : Fin 4) : Dev.Good cap b ex (d.strayBurst e l) := by
  unfold Dev.strayBurst; simp only; split
  · exact (h.modLeg l _ id).requestSurvey l _
  · exact h.modLeg l _ id

theorem settleParts (h : Dev.Good cap b ex d) (n : Nat) (ps : List (Option (SurveyOut × Nat))) :
    Dev.Good cap b ex (d.settleParts n ps) := by
  unfold Dev.settleParts; split
  · exact h.complete _ _ _
  · exact h.modSlot _ _

theorem answerSlot (h : Dev.Good cap b ex d) (l : Fin 4) (n : Nat) (res : ResultCode) (det : Detail) (part : SurveyOut × Nat) :
    Dev.Good cap b ex (d.answerSlot l n res det part) := by
  unfold Dev.answerSlot; simp only; split
  · exact h.complete _ _ _
  · exact h.settleParts _ _

theorem answerEnd (h : Dev.Good cap b ex d) (l : Fin 4) (o : SurveyOut) (c n : Nat) :
    Dev.Good cap b ex (d.answerEnd l o c n) := h.answerSlot _ _ _ _ _

theorem answerFault (h : Dev.Good cap b ex d) (l : Fin 4) (n : Nat) : Dev.Good cap b ex (d.answerFault l n) :=
  h.answerSlot _ _ _ _ _

theorem answerShared (h : Dev.Good cap b ex d) (l : Fin 4) (n : Nat) : Dev.Good cap b ex (d.answerShared l n) := by
  have h1 := h.answerSlot l n (surveyEndCode (Config.sharedSurveyResult d.seed)) (.survey l.val .none 0)
    (partEndOut (Config.sharedSurveyPart d.seed), 0)
  exact h1.other rfl rfl rfl rfl h1.ring h1.reqs h1.burst

theorem startHunt (h : Dev.Good cap b ex d) (l : Fin 4) (o : Option Nat) : Dev.Good cap b ex (d.startHunt l o) :=
  h.modLeg l _ id

theorem enterHunting (h : Dev.Good cap b ex d) (l : Fin 4) : Dev.Good cap b ex (d.enterHunting l) := by
  unfold Dev.enterHunting; simp only; split
  · refine (h.modLeg l _ fun hl => ⟨hl.1, hl.2.1, ?_, hl.2.2.2⟩).requestSurvey l _
    rintro (e | e) <;> cases e
  · exact h

theorem legAfterHunt_eq (st : LegState) (r : HuntResult) :
    legAfterHunt st r = st ∨ legAfterHunt st r = .running ∨ legAfterHunt st r = .suspended := by
  cases st <;> cases r <;> simp [legAfterHunt]

theorem endHunt (h : Dev.Good cap b none d) (l : Fin 4) (r : HuntResult) (c : Option Nat) :
    Dev.Good cap b none (d.endHunt l r c) := by
  unfold Dev.endHunt; simp only
  have h1 : Dev.Good cap b none ((d.modLeg l fun g =>
      { g with
        hunt := g.hunt.ended r c
        st := legAfterHunt g.st r
        pendHail := g.pendHail && decide (legAfterHunt g.st r = .running) }).latch .huntEnd) := by
    refine (h.modLeg l _ fun hl => ⟨hl.1, hl.2.1, ?_, hl.2.2.2⟩).latch _
    intro hs
    have hc := hl.2.2.1
    simp only at hs
    rcases legAfterHunt_eq (d.leg l).st r with e | e | e
    · rw [e] at hs; exact hc hs
    · rw [e] at hs; rcases hs with e' | e' <;> cases e'
    · rw [e] at hs; rcases hs with e' | e' <;> cases e'
  split
  · split
    · exact (h1.haltRogue _).complete _ _ _
    · exact h1.complete _ _ _
  · split
    · exact h1.haltRogue _
    · exact h1

theorem bisect (h : Dev.Good cap b none d) (l : Fin 4) (cs : List Nat) : Dev.Good cap b none (d.bisect l cs) := by
  unfold Dev.bisect; split
  · exact h.endHunt _ _ _
  · exact h.modLeg l _ id

theorem huntProgress (h : Dev.Good cap b none d) (l : Fin 4) : Dev.Good cap b none (d.huntProgress l) := by
  unfold Dev.huntProgress; simp only; split
  · split
    · exact (h.modLeg l _ id).requestSurvey l _
    · split
      · exact h.endHunt _ _ _
      · exact h.bisect _ _
    all_goals exact h
  · exact h

theorem huntJudge (h : Dev.Good cap b none d) (l : Fin 4) (o : SurveyOut) : Dev.Good cap b none (d.huntJudge l o) := by
  unfold Dev.huntJudge; simp only
  have h1 : Dev.Good cap b none (d.modLeg l fun g => { g with hunt := { g.hunt with steps := satInc g.hunt.steps 255 } }) :=
    h.modLeg l _ id
  split
  · split
    · exact h1.endHunt _ _ _
    · exact h1.bisect _ _
  · split
    · split
      · split
        · exact h1.endHunt _ _ _
        · exact h1.endHunt _ _ _
      · exact (h1.modLeg l _ id).huntProgress l
    · exact (h1.modLeg l _ id).huntProgress l
  all_goals exact h1

theorem leaveHunt (h : Dev.Good cap b none d) (l : Fin 4) (r : Nat) : Dev.Good cap b none (d.leaveHunt l r) := by
  unfold Dev.leaveHunt; simp only; split
  · refine huntProgress ?_ l
    split
    · split
      · exact (h.modLeg l _ id).abandon l
      · exact h.modLeg l _ id
    · exact h.modLeg l _ id
  · exact h

theorem offerUnmute (h : Dev.Good cap b ex d) (l : Fin 4) (r : Nat) : Dev.Good cap b ex (d.offerUnmute l r) :=
  h.offerUrgentRecord _ _ _

theorem unmuteInPlace (h : Dev.Good cap b none d) (l : Fin 4) (r : Nat) : Dev.Good cap b none (d.unmuteInPlace l r) := by
  unfold Dev.unmuteInPlace; simp only; split
  · rename_i e q hq
    have hn := takeFirst_length _ _ _ _ hq
    have h1 : Dev.Good cap b none (d.modLeg l fun g => { g with queue := q ++ [⟨(d.record r).unmute, .record r⟩] }) := by
      refine h.modLeg l _ fun hl => ⟨?_, fun hx hw => ?_, hl.2.2⟩
      · have := hl.1
        simp only [List.length_append, List.length_cons, List.length_nil]; omega
      · have := hl.2.1 hx hw
        simp only [List.length_append, List.length_cons, List.length_nil]; omega
    split
    · exact h1.modRec r _ id
    · exact h1
  · split
    · refine offerUnmute ?_ l r
      have h1 : Dev.Good cap b none
          ((d.modLeg l fun g => { g with waiting := g.waiting.filter fun v => decide (v.r ≠ r) }).clearWaiting r) := by
        refine (h.modLeg l _ fun hl => ⟨hl.1, fun hx hw => hl.2.1 hx fun e => hw ?_, hl.2.2⟩).clearWaiting r
        show List.filter _ (d.leg l).waiting = []
        rw [e]; rfl
      split
      · exact h1.modRec r _ id
      · exact h1
    · exact h.offerUnmute l r

theorem dropLevelFlight (h : Dev.Good cap b none d) (l : Fin 4) (r : Nat) : Dev.Good cap b none (d.dropLevelFlight l r) := by
  unfold Dev.dropLevelFlight; split
  · split
    · exact h.abandon l
    · exact h
  · exact h

theorem unmuteAfterAbort (h : Dev.Good cap b none d) (l : Fin 4) (r : Nat) : Dev.Good cap b none (d.unmuteAfterAbort l r) := by
  unfold Dev.unmuteAfterAbort; split
  · exact h
  · exact (h.dropLevelFlight l r).unmuteInPlace l r

theorem dropHuntSurvey (h : Dev.Good cap b ex d) (l : Fin 4) : Dev.Good cap b ex (d.dropHuntSurvey l) := by
  unfold Dev.dropHuntSurvey; simp only
  have h1 : Dev.Good cap b ex (match (d.leg l).pendSurvey with
    | some q => if q.hunt = true then
        q.slots.foldl (fun y n => y.answerShared l n) (d.modLeg l fun g => { g with pendSurvey := none }) else d
    | none => d) := by
    split
    · split
      · exact foldl (fun y n hy => hy.answerShared l n) _ (h.modLeg l _ id)
      · exact h
    · exact h
  split
  · split
    · exact foldl (fun y n hy => hy.answerShared l n) _ (h1.freeChan l)
    · exact h1
  all_goals exact h1

theorem abortHunt (h : Dev.Good cap b none d) (l : Fin 4) : Dev.Good cap b none (d.abortHunt l) := by
  unfold Dev.abortHunt; simp only
  refine foldl (fun y r hy => hy.unmuteAfterAbort l r) _ (endHunt (dropHuntSurvey ?_ l) l _ _)
  split
  · exact h.abandon l
  · exact h

/-! ## Outcome.lean -/

theorem modSource (h : Dev.Good cap b ex d) (l : Fin 4) (src : BitVec 12) {f : Rec → Rec}
    (hf : ∀ x, x.fieldsKept → (f x).fieldsKept) : Dev.Good cap b ex (d.modSource l src f) := by
  unfold Dev.modSource; split
  · exact h.modRec _ _ (hf _)
  · exact h

theorem levelUpdate (h : Dev.Good cap b ex d) (l : Fin 4) (src : BitVec 12) (v : Byte) :
    Dev.Good cap b ex (d.levelUpdate l src v) := h.modSource l src fun _ => id

theorem assigned (h : Dev.Good cap b none d) (e : Env) (r : Nat) : Dev.Good cap b none (d.assigned e r) := by
  unfold Dev.assigned; simp only; split
  · exact (h.modRec r _ id).hold r _
  · exact (h.modRec r _ id).enterStage e r _

theorem rangeAgain (h : Dev.Good cap b none d) (r : Nat) (c : Ranging) (f : FaultCode) (hf : f ≠ .none) :
    Dev.Good cap b none (d.rangeAgain r c f) := by
  unfold Dev.rangeAgain; simp only; split
  · exact (h.modRec r _ id).offerWork r
  · exact (h.modRec r _ id).halt r f hf

theorem rangeAgreed (h : Dev.Good cap b none d) (e : Env) (r delay : Nat) (level : Byte) :
    Dev.Good cap b none (d.rangeAgreed e r delay level) := by
  unfold Dev.rangeAgreed; simp only; split
  · exact h.halt r _ (by decide)
  · split
    · exact h.halt r _ (by decide)
    · exact (h.modRec r _ id).enterStage e r _

theorem echo (h : Dev.Good cap b none d) (e : Env) (r delay : Nat) (level : Byte) :
    Dev.Good cap b none (d.echo e r delay level) := by
  unfold Dev.echo; simp only; split
  · split
    · exact h.rangeAgreed e r delay level
    · exact h.rangeAgain r _ _ (by decide)
  · exact h.rangeAgain r _ _ (by decide)

theorem noEcho (h : Dev.Good cap b none d) (r : Nat) : Dev.Good cap b none (d.noEcho r) := by
  unfold Dev.noEcho; simp only
  refine h.rangeAgain r _ _ ?_
  split <;> decide

theorem equalised (h : Dev.Good cap b none d) (e : Env) (r : Nat) : Dev.Good cap b none (d.equalised e r) := by
  unfold Dev.equalised; simp only; split
  · exact h.hold r _
  · exact h.moveTo e r _

theorem loaded (h : Dev.Good cap b none d) (e : Env) (r : Nat) : Dev.Good cap b none (d.loaded e r) := by
  unfold Dev.loaded; simp only; split
  · exact (h.pinRelease r).hold r _
  · exact (h.pinRelease r).moveTo e r _

theorem chunkOk (h : Dev.Good cap b none d) (e : Env) (r k : Nat) (fin dis : Bool) :
    Dev.Good cap b none (d.chunkOk e r k fin dis) := by
  unfold Dev.chunkOk; simp only; split
  · exact (h.modRec r _ id).halt r _ (by decide)
  · split
    · exact (h.modRec r _ id).loaded e r
    · exact (h.modRec r _ id).offerWork r

theorem offerOwed (h : Dev.Good cap b ex d) (r : Nat) : Dev.Good cap b ex (d.offerOwed r) := by
  unfold Dev.offerOwed; simp only; split
  · split
    · exact h.modRec r _ id
    · exact (h.modRec r _ id).offerStage _ _ _
  · exact h.offerWork r

theorem ite_fault_ne {c : Bool} {f g : FaultCode} (hf : f ≠ .none) (hg : g ≠ .none) : (if c = true then f else g) ≠ .none := by
  split
  · exact hf
  · exact hg

theorem recordOutcome (h : Dev.Good cap b none d) (e : Env) (r : Nat) (x : InFlight) (o : Ending) :
    Dev.Good cap b none (d.recordOutcome e r x o) := by
  unfold Dev.recordOutcome; split
  · split
    · exact h.enterStage e r _
    all_goals exact h.halt r _ (by decide)
  · split
    · exact h.assigned e r
    all_goals exact h.halt r _ (by decide)
  · split
    · exact h.echo e r _ _
    · exact h.halt r _ (by decide)
    all_goals exact h.noEcho r
  · split
    · exact h.equalised e r
    all_goals exact h.halt r _ (by decide)
  · split
    · exact h.chunkOk e r _ _ _
    all_goals exact h.halt r _ (ite_fault_ne (by decide) (by decide))
  · split
    · exact h.enterActive r
    all_goals exact h.halt r _ (by decide)
  · exact h.vacate r
  · exact (h.clearMuted r).offerOwed r
  all_goals exact h

theorem commandOutcome (h : Dev.Good cap b ex d) (n : Nat) (x : InFlight) (o : Ending) :
    Dev.Good cap b ex (d.commandOutcome n x o) := by
  unfold Dev.commandOutcome; split <;> exact h.complete _ _ _

theorem deliver (h : Dev.Good cap b none d) (e : Env) (l : Fin 4) (x : InFlight) (o : Ending) :
    Dev.Good cap b none (d.deliver e l x o) := by
  unfold Dev.deliver; split
  · exact h.recordOutcome e _ x o
  · exact h.offerOwed _
  · exact h.commandOutcome _ x o
  · exact (h.unmuteEnded x).huntProgress l

theorem finish (h : Dev.Good cap b none d) (e : Env) (l : Fin 4) (x : InFlight) (o : Ending) :
    Dev.Good cap b none (d.finish e l x o) :=
  deliver (h.modLeg l _ fun hl => ⟨hl.1, hl.2.1, fun _ => rfl, hl.2.2.2⟩) e l x o

/-! ## Channel.lean -/

/-- The channel of a leg that is not DARK or FAULTED may be taken. -/
theorem setChan (h : Dev.Good cap b ex d) (l : Fin 4) (f : Leg → Leg) (h1 : (d.leg l).st ≠ .dark) (h2 : (d.leg l).st ≠ .faulted)
    (hq : (f (d.leg l)).queue = (d.leg l).queue) (hw : (f (d.leg l)).waiting = (d.leg l).waiting)
    (hm : (f (d.leg l)).slotMap = (d.leg l).slotMap) (hs : (f (d.leg l)).st = (d.leg l).st) :
    Dev.Good cap b ex (d.modLeg l f) := by
  refine h.modLeg l f fun hl => ?_
  unfold LegOk Leg.channelKept
  rw [hq, hw, hm, hs]
  exact ⟨hl.1, hl.2.1, fun e => (e.elim h1 h2).elim, hl.2.2.2⟩

theorem setFetches (h : Dev.Good cap b ex d) (fs : List Fetch) : Dev.Good cap b ex { d with fetches := fs } :=
  h.other rfl rfl rfl rfl h.ring h.reqs h.burst

theorem takeDirective (h : Dev.Good cap b ex d) (e : Env) (l : Fin 4) (dir : Directive) (o : Origin)
    (h1 : (d.leg l).st ≠ .dark) (h2 : (d.leg l).st ≠ .faulted) : Dev.Good cap b ex (d.takeDirective e l dir o) := by
  unfold Dev.takeDirective; simp only; split
  · exact syncRequests (setFetches (h.setChan l _ h1 h2 rfl rfl rfl rfl) _)
  · exact h.setChan l _ h1 h2 rfl rfl rfl rfl

theorem takeQueueHead (h : Dev.Good cap b none d) (e : Env) (l : Fin 4) (h1 : (d.leg l).st ≠ .dark)
    (h2 : (d.leg l).st ≠ .faulted) : Dev.Good cap b none (d.takeQueueHead e l) := by
  unfold Dev.takeQueueHead; split
  · rename_i x q hq
    have hn := takeHead_length _ _ _ hq
    refine fillQueue_of (takeDirective ((h.weaken l).modLeg l _ fun hl => ⟨?_, fun hx => absurd rfl hx, hl.2.2⟩) e l _ _ ?_ ?_)
    · have := hl.1
      show q.length ≤ queueCap
      omega
    · rw [Dev.modLeg_leg_self]; exact h1
    · rw [Dev.modLeg_leg_self]; exact h2
  · exact h

theorem mayHandOver_st (g : Leg) (h : g.mayHandOver = true) : g.st ≠ .dark ∧ g.st ≠ .faulted := by
  unfold Leg.mayHandOver at h
  cases hs : g.st <;> simp [hs] at h ⊢

theorem handOver (h : Dev.Good cap b none d) (e : Env) (l : Fin 4) : Dev.Good cap b none (d.handOver e l) := by
  unfold Dev.handOver; simp only
  have h0 := h.enterHunting l
  split
  · rename_i hm
    obtain ⟨h1, h2⟩ := mayHandOver_st _ hm
    split
    · refine takeDirective (h0.modLeg l _ id) e l _ _ ?_ ?_
      · rw [Dev.modLeg_leg_self]; exact h1
      · rw [Dev.modLeg_leg_self]; exact h2
    · split
      · exact h0.setChan l _ h1 h2 rfl rfl rfl rfl
      · split
        · exact h0.setChan l _ h1 h2 rfl rfl rfl rfl
        · split
          · exact h0.takeQueueHead e l h1 h2
          · exact h0
  · exact h0

/-- A leg whose channel is owned is neither DARK nor FAULTED. -/
theorem busy_st (h : Dev.Good cap b ex d) (l : Fin 4) (hc : (d.leg l).chan ≠ .free) :
    (d.leg l).st ≠ .dark ∧ (d.leg l).st ≠ .faulted :=
  ⟨fun e => hc ((h.leg l).2.2.1 (Or.inl e)), fun e => hc ((h.leg l).2.2.1 (Or.inr e))⟩

theorem inFlight_chan (g : Leg) (x : InFlight) (h : g.inFlight = some x) : g.chan = .directive x := by
  unfold Leg.inFlight at h
  split at h
  · simp only [Option.some.injEq] at h; subst h; assumption
  all_goals cases h

theorem sendNow (h : Dev.Good cap b ex d) (e : Env) (l : Fin 4) (x : InFlight) (t : BitVec 6) (h1 : (d.leg l).st ≠ .dark)
    (h2 : (d.leg l).st ≠ .faulted) : Dev.Good cap b ex (d.sendNow e l x t) := h.setChan l _ h1 h2 rfl rfl rfl rfl

theorem markFirstSend_fields (x : Rec) (bo : Body) (hx : x.fieldsKept) : (x.markFirstSend bo).fieldsKept := by
  unfold Rec.markFirstSend; split <;> exact hx

theorem firstSend (h : Dev.Good cap b ex d) (e : Env) (l : Fin 4) : Dev.Good cap b ex (d.firstSend e l) := by
  unfold Dev.firstSend; simp only; split
  · rename_i x hx
    have hb := h.busy_st l (by rw [inFlight_chan _ _ hx]; simp)
    split
    · split
      · exact modRec (sendNow (h.modLeg l _ id) e l _ _ (by rw [Dev.modLeg_leg_self]; exact hb.1)
          (by rw [Dev.modLeg_leg_self]; exact hb.2)) _ _ fun hr => markFirstSend_fields _ _ hr
      · exact sendNow (h.modLeg l _ id) e l _ _ (by rw [Dev.modLeg_leg_self]; exact hb.1)
          (by rw [Dev.modLeg_leg_self]; exact hb.2)
    · exact h
  · exact h

theorem retrySend (h : Dev.Good cap b ex d) (e : Env) (l : Fin 4) : Dev.Good cap b ex (d.retrySend e l) := by
  unfold Dev.retrySend; split
  · rename_i x hx
    have hb := h.busy_st l (by rw [inFlight_chan _ _ hx]; simp)
    split
    · simp only
      split
      · exact (h.sendNow e l _ _ hb.1 hb.2).modRec _ _ id
      · exact h.sendNow e l _ _ hb.1 hb.2
    · exact h
  · exact h

theorem sendWindowEnd (h : Dev.Good cap b none d) (e : Env) (l : Fin 4) : Dev.Good cap b none (d.sendWindowEnd e l) := by
  unfold Dev.sendWindowEnd; split
  · rename_i x hx
    have hb := h.busy_st l (by rw [inFlight_chan _ _ hx]; simp)
    split
    · split
      · simp only
        split
        · split
          · exact h.finish e l _ _
          · split
            · exact h.setChan l _ hb.1 hb.2 rfl rfl rfl rfl
            · exact h.finish e l _ _
        · split
          · exact h.setChan l _ hb.1 hb.2 rfl rfl rfl rfl
          · exact h.finish e l _ _
      · exact h
    all_goals exact h
  · exact h

theorem levelUpdate_leg (d : Dev) (l k : Fin 4) (src : BitVec 12) (v : Byte) : (d.levelUpdate l src v).leg k = d.leg k := by
  unfold Dev.levelUpdate Dev.modSource; split <;> rfl

theorem answerLevel (h : Dev.Good cap b ex d) (l : Fin 4) (x : InFlight) (src : BitVec 12) (code : ReplyCode) (v : Byte) :
    Dev.Good cap b ex (d.answerLevel l x src code v) := by
  unfold Dev.answerLevel; split
  · split
    · exact h.modSource l src fun _ => id
    · exact h.levelUpdate l src v
  · exact h

theorem answerLevel_leg (d : Dev) (l k : Fin 4) (x : InFlight) (src : BitVec 12) (code : ReplyCode) (v : Byte) :
    (d.answerLevel l x src code v).leg k = d.leg k := by
  unfold Dev.answerLevel; split
  · split
    · unfold Dev.levelNote Dev.modSource; split <;> rfl
    · exact levelUpdate_leg d l k src v
  · rfl

theorem answer (h : Dev.Good cap b none d) (e : Env) (l : Fin 4) (x : InFlight) (src : BitVec 12) (code : ReplyCode)
    (data : List Byte) (level : Byte) (delay : Nat) (hc : (d.leg l).chan ≠ .free) :
    Dev.Good cap b none (d.answer e l x src code data level delay) := by
  unfold Dev.answer; simp only
  have hb := h.busy_st l hc
  split
  · exact (h.answerLevel l x src code level).finish e l _ _
  · exact (h.answerLevel l x src code level).setChan l _ (by rw [answerLevel_leg]; exact hb.1) (by rw [answerLevel_leg]; exact hb.2)
      rfl rfl rfl rfl

theorem callReply (h : Dev.Good cap b none d) (e : Env) (l : Fin 4) (x : InFlight) (k : CallSets) (src : BitVec 12)
    (code : ReplyCode) (level : Byte) (hc : (d.leg l).chan ≠ .free) :
    Dev.Good cap b none (d.callReply e l x k src code level) := by
  unfold Dev.callReply; simp only
  have hb := h.busy_st l hc
  split
  · exact (h.levelUpdate l src level).setChan l _ (by rw [levelUpdate_leg]; exact hb.1) (by rw [levelUpdate_leg]; exact hb.2)
      rfl rfl rfl rfl
  · split
    · exact (h.levelUpdate l src level).setChan l _ (by rw [levelUpdate_leg]; exact hb.1)
        (by rw [levelUpdate_leg]; exact hb.2) rfl rfl rfl rfl
    · exact h.strayBurst e l

theorem reply (h : Dev.Good cap b none d) (e : Env) (l : Fin 4) (src : BitVec 12) (tag : BitVec 6) (code : ReplyCode)
    (data : List Byte) (level : Byte) (delay : Nat) (p : Option Placement) :
    Dev.Good cap b none (d.reply e l src tag code data level delay p) := by
  unfold Dev.reply; split
  · exact h
  · exact h
  · rename_i w hw
    have hb := h.busy_st l (by rw [hw]; simp)
    split
    · exact (h.setChan l _ hb.1 hb.2 rfl rfl rfl rfl).strayBurst e l
    · exact h
  · rename_i x hx
    have hc : (d.leg l).chan ≠ .free := by rw [hx]; simp
    split
    · exact h
    · split
      · exact h
      · split
        · exact h.callReply e l x _ src code level hc
        · split
          · exact h.answer e l x src code data level delay hc
          · exact h.strayBurst e l

theorem garbled (h : Dev.Good cap b ex d) (e : Env) (l : Fin 4) (p : Option Placement) :
    Dev.Good cap b ex (d.garbled e l p) := by
  unfold Dev.garbled; simp only; split
  · split
    · exact h.strayBurst e l
    · exact h
  · exact h
  · exact h
  · rename_i w hw
    have hb := h.busy_st l (by rw [hw]; simp)
    split
    · exact h.setChan l _ hb.1 hb.2 rfl rfl rfl rfl
    · exact h

theorem strayHail (h : Dev.Good cap b ex d) (e : Env) (l : Fin 4) (p : Option Placement) :
    Dev.Good cap b ex (d.strayHail e l p) := by
  unfold Dev.strayHail; simp only; split
  · split
    · exact h.strayBurst e l
    · exact h
  · split
    · exact h.strayBurst e l
    · exact h
  all_goals exact h

theorem openHail (h : Dev.Good cap b ex d) (e : Env) (l : Fin 4) : Dev.Good cap b ex (d.openHail e l) := by
  unfold Dev.openHail; split
  · rename_i w hw
    have hb := h.busy_st l (by rw [hw]; simp)
    split
    · exact h.setChan l _ hb.1 hb.2 rfl rfl rfl rfl
    · exact h
  all_goals exact h

theorem endHail (h : Dev.Good cap b ex d) (e : Env) (l : Fin 4) : Dev.Good cap b ex (d.endHail e l) := by
  unfold Dev.endHail; split
  · split
    · exact h.modLeg l _ fun hl => ⟨hl.1, hl.2.1, fun _ => rfl, hl.2.2.2⟩
    · exact h
  all_goals exact h

theorem openSurvey (h : Dev.Good cap b ex d) (e : Env) (l : Fin 4) : Dev.Good cap b ex (d.openSurvey e l) := by
  unfold Dev.openSurvey; split
  · rename_i w hw
    have hb := h.busy_st l (by rw [hw]; simp)
    split
    · exact h.setChan l _ hb.1 hb.2 rfl rfl rfl rfl
    · exact h
  all_goals exact h

theorem surveyDone (h : Dev.Good cap b none d) (e : Env) (l : Fin 4) (q : Requesters) (o : SurveyOut) (c : Nat) :
    Dev.Good cap b none (d.surveyDone e l q o c) := by
  unfold Dev.surveyDone; simp only
  have h1 := foldl (fun y n (hy : Dev.Good cap b none y) => hy.answerEnd l o c n) q.slots
    (h.modLeg l (fun g => g.recordSurvey o c) fun hl => ⟨hl.1, hl.2.1, fun _ => rfl, hl.2.2.2⟩)
  split
  · exact h1.huntJudge l o
  · split
    · exact h1.startHunt l _
    · exact h1

theorem endSurvey (h : Dev.Good cap b none d) (e : Env) (l : Fin 4) (lit : Nat) :
    Dev.Good cap b none (d.endSurvey e l lit) := by
  unfold Dev.endSurvey; split
  · split
    · split
      · exact h.surveyDone e l _ _ _
      · exact h
    · exact h
  all_goals exact h

theorem expire_ok (full : Prop) (g : Leg) (h : LegOk full g) : LegOk full g.expire := by
  unfold Leg.expire; simp only; split <;> exact h

theorem decrease_ok (full : Prop) (g : Leg) (h : LegOk full g) : LegOk full g.decrease := by
  unfold Leg.decrease; split
  · exact expire_ok full g h
  · exact h

theorem paceExpiry_ok (full : Prop) (g : Leg) (h : LegOk full g) : LegOk full g.paceExpiry := by
  unfold Leg.paceExpiry; split
  · exact expire_ok full g h
  · exact h

theorem startCycle_ok (full : Prop) (g : Leg) (reach : Nat) (c : BitVec 16) (h : LegOk full g) :
    LegOk full (g.startCycle reach c) := by
  have h1 : LegOk full g.countDown := by
    unfold Leg.countDown; simp only; split
    · exact decrease_ok full g h
    · exact h
  unfold Leg.startCycle Leg.ageSpans Leg.sendMarker; split <;> exact h1

/-! ## Discovery.lean -/

theorem loseEntry (h : Dev.Good cap b ex d) : Dev.Good cap b ex d.loseEntry :=
  latch (h.other (d' := { d with ring := { d.ring with overrun := true } }) rfl rfl rfl rfl h.ring h.reqs h.burst) _

theorem offerRing (h : Dev.Good cap b ex d) (e : Env) (x : RingEntry) : Dev.Good cap b ex (d.offerRing e x) := by
  unfold Dev.offerRing; split
  · exact h.loseEntry
  · exact syncRequests (h.other rfl rfl rfl rfl h.ring h.reqs h.burst)

theorem restart (h : Dev.Good cap b none d) (e : Env) (r : Nat) : Dev.Good cap b none (d.restart e r) := by
  unfold Dev.restart; simp only
  have h1 : Dev.Good cap b none ((d.drop r).modRec r fun y =>
      { y with
        addressed := false, assignSent := false, measured := none, equalise := none, label := none, slotList := [],
        chunksAck := 0, chunksTotal := 0, stage := none, rehails := y.rehails + 1 }) :=
    (h.drop r).modRec r _ fun hr => ⟨fun e => absurd rfl e, hr.2⟩
  split
  · exact h1.haltWith r _ _ (by decide)
  · exact h1.enterStage e r _

theorem matchedHail (h : Dev.Good cap b none d) (e : Env) (r : Nat) (en : Disposition → Option Nat → RingEntry) :
    Dev.Good cap b none (d.matchedHail e r en) := by
  unfold Dev.matchedHail; simp only
  have h1 : Dev.Good cap b none (d.modRec r fun x => { x with hails := satInc x.hails 255 }) := h.modRec r _ id
  split
  · exact h1.enterStage e r _
  · exact h1
  · exact h1
  · exact h1.restart e r
  · exact h1.restart e r
  · exact h1.restart e r
  · exact h1.restart e r
  · exact h1.restart e r
  · split
    · exact h1.restart e r
    · exact h1
  · exact (h1.modRec r _ id).offerRing e _
  · exact (h1.vacate r).offerRing e _
  · exact h1

theorem dispose (h : Dev.Good cap b none d) (e : Env) (l : Fin 4) (serial : BitVec 64) (kind count level : Byte)
    (received : BitVec 16) : Dev.Good cap b none (d.dispose e l serial kind count level received) := by
  unfold Dev.dispose; simp only; split
  · split
    · exact h.matchedHail e _ _
    · exact h.offerRing e _
  · exact h.offerRing e _

theorem hailHeard (h : Dev.Good cap b none d) (e : Env) (l : Fin 4) (serial : BitVec 64) (kind count level : Byte)
    (received : BitVec 16) : Dev.Good cap b none (d.hailHeard e l serial kind count level received) := by
  unfold Dev.hailHeard; split
  · rename_i w hw
    have hb := h.busy_st l (by rw [hw]; simp)
    split
    · exact (h.setChan l _ hb.1 hb.2 rfl rfl rfl rfl).dispose e l _ _ _ _ _
    · exact h
  all_goals exact h

theorem markDisturbed (h : Dev.Good cap b ex d) (l : Fin 4) : Dev.Good cap b ex (d.modLeg l Leg.markDisturbed) := by
  refine h.modLeg l _ fun hl => ?_
  unfold Leg.markDisturbed
  split
  · rename_i x hx
    exact ⟨hl.1, hl.2.1, fun e => (by rw [hl.2.2.1 e] at hx; cases hx), hl.2.2.2⟩
  all_goals exact hl

theorem disturbUser (h : Dev.Good cap b none d) (r : Nat) : Dev.Good cap b none (d.disturbUser r) := by
  unfold Dev.disturbUser; simp only; split
  · exact h.markDisturbed _
  · exact h.halt r _ (by decide)

theorem closePin (h : Dev.Good cap b ex d) (i : Nat) : Dev.Good cap b ex (d.closePin i) := h.putPin i _

theorem watchedReport (h : Dev.Good cap b none d) (off : Nat) (be : BitVec 4) :
    Dev.Good cap b none (d.watchedReport off be) := by
  unfold Dev.watchedReport; simp only
  exact foldl (fun y r hy => hy.disturbUser r) _ (foldl (fun y i hy => hy.closePin i) _ h)

end Dev.Good

end Sys2Proof.Machine
end

