-- ==== Sys2Proof/Laws/GoodCommand.lean ====
section
/-! SUPPORT. The examinations, the issue writes, the commit, the FLT line and the engines keep the invariants of the blocks. -/

namespace Sys2Proof.Machine

variable {cap : Nat} {b : Bool} {ex : Option (Fin 4)} {d : Dev}

namespace Dev.Good

/-! ## Command.lean -/

theorem setIntake (h : Dev.Good cap b ex d) (ns : List Nat) : Dev.Good cap b ex { d with intake := ns } :=
  h.other rfl rfl rfl rfl h.ring h.reqs h.burst

theorem examine (h : Dev.Good cap b ex d) (row : ExamRow) (f : Dev → Nat → List Word → Dev)
    (hf : ∀ y n ps, Dev.Good cap b ex y → Dev.Good cap b ex (f y n ps)) : Dev.Good cap b ex (d.examine row f) := by
  unfold Dev.examine; split
  · simp only; split
    · exact hf _ _ _ (h.setIntake _)
    · exact h
  · exact h

theorem enrolRecord (h : Dev.Good cap b ex d) (n r : Nat) (f : EnrolFields) : Dev.Good cap b ex (d.enrolRecord n r f) := by
  unfold Dev.enrolRecord; split
  · exact h.complete _ _ _
  · split
    · exact h.complete _ _ _
    · simp only; split
      · exact h.complete _ _ _
      · exact complete (h.putRec r _ ⟨fun e => absurd rfl e, ⟨fun e => absurd rfl e, fun e => by cases e⟩⟩) _ _ _

theorem onRecord (h : Dev.Good cap b ex d) (n : Nat) (ps : List Word) (f : Nat → Dev) (hf : ∀ r, Dev.Good cap b ex (f r)) :
    Dev.Good cap b ex (d.onRecord n ps f) := by
  unfold Dev.onRecord; split
  · exact hf _
  · exact h.complete _ _ _

theorem examineEnrol (h : Dev.Good cap b ex d) (ms : List (Nat × Word)) (n : Nat) (ps : List Word) :
    Dev.Good cap b ex (Dev.examineEnrol ms d n ps) := h.onRecord _ _ _ fun _ => h.enrolRecord _ _ _

theorem beginWithdrawal (h : Dev.Good cap b none d) (r : Nat) : Dev.Good cap b none (d.beginWithdrawal r) :=
  leaveHunt (offerUrgentRecord
    ((h.drop r).modRec r _ fun _ => ⟨fun e => absurd rfl e, ⟨fun e => absurd rfl e, fun e => by cases e⟩⟩) _ _ _) _ _

theorem withdrawRecord (h : Dev.Good cap b none d) (n r : Nat) : Dev.Good cap b none (d.withdrawRecord n r) := by
  unfold Dev.withdrawRecord; simp only; split
  · exact h.complete _ _ _
  · refine complete ?_ _ _ _
    split
    · exact h.beginWithdrawal r
    · exact h.vacate r

theorem examineWithdraw (h : Dev.Good cap b none d) (n : Nat) (ps : List Word) : Dev.Good cap b none (d.examineWithdraw n ps) :=
  h.onRecord _ _ _ fun _ => h.withdrawRecord _ _

theorem continueOn (h : Dev.Good cap b none d) (e : Env) (r : Nat) : Dev.Good cap b none (d.continueOn e r) := by
  unfold Dev.continueOn; simp only; split
  · exact (h.modRec r _ id).enterStage e r _
  · exact h.moveTo e r _

theorem continueRecord (h : Dev.Good cap b none d) (e : Env) (n r : Nat) : Dev.Good cap b none (d.continueRecord e n r) := by
  unfold Dev.continueRecord; split
  · exact h.complete _ _ _
  · exact (h.continueOn e r).complete _ _ _

theorem examineContinue (h : Dev.Good cap b none d) (e : Env) (n : Nat) (ps : List Word) :
    Dev.Good cap b none (Dev.examineContinue e d n ps) := h.onRecord _ _ _ fun _ => h.continueRecord e _ _

theorem offerService (h : Dev.Good cap b ex d) (l : Fin 4) (n : Nat) (dir : Directive) :
    Dev.Good cap b ex (d.offerService l n dir) := by
  unfold Dev.offerService; split
  · rename_i hr; exact (h.enqueue l dir _ hr).modSlot _ _
  · exact h.complete _ _ _

theorem offerToRecord (h : Dev.Good cap b ex d) (n r : Nat) (bo : Body) : Dev.Good cap b ex (d.offerToRecord n r bo) := by
  unfold Dev.offerToRecord; simp only; split
  · exact h.complete _ _ _
  · split
    · exact h.complete _ _ _
    · split
      · exact h.complete _ _ _
      · exact h.offerService _ _ _

theorem examinePeek (h : Dev.Good cap b ex d) (n : Nat) (ps : List Word) : Dev.Good cap b ex (d.examinePeek n ps) := by
  unfold Dev.examinePeek; split
  · exact h.complete _ _ _
  · exact h.offerToRecord _ _ _

theorem examinePoke (h : Dev.Good cap b ex d) (n : Nat) (ps : List Word) : Dev.Good cap b ex (d.examinePoke n ps) := by
  unfold Dev.examinePoke; split
  · exact h.complete _ _ _
  · exact h.offerToRecord _ _ _

theorem examineAnyCall (h : Dev.Good cap b ex d) (n : Nat) (ps : List Word) : Dev.Good cap b ex (d.examineAnyCall n ps) := by
  unfold Dev.examineAnyCall; split
  · exact h.complete _ _ _
  · exact h.complete _ _ _
  · split
    · exact h.complete _ _ _
    · exact h.offerService _ _ _

theorem offerEvict (h : Dev.Good cap b ex d) (l : Fin 4) (n : Nat) (a : BitVec 12) : Dev.Good cap b ex (d.offerEvict l n a) := by
  unfold Dev.offerEvict; simp only; split
  · exact (h.offerUrgent l _ _).modSlot _ _
  · exact h.complete _ _ _

theorem examineEvict (h : Dev.Good cap b ex d) (n : Nat) (ps : List Word) : Dev.Good cap b ex (d.examineEvict n ps) := by
  unfold Dev.examineEvict; split
  · exact h.complete _ _ _
  · exact h.complete _ _ _
  · split
    · exact h.complete _ _ _
    · simp only; split
      · exact h.complete _ _ _
      · exact h.offerEvict _ _ _

theorem examineSurvey (h : Dev.Good cap b ex d) (n : Nat) (ps : List Word) : Dev.Good cap b ex (d.examineSurvey n ps) := by
  unfold Dev.examineSurvey; split
  · exact h.complete _ _ _
  · split
    · exact h.complete _ _ _
    · exact (h.requestSurvey _ _).modSlot _ _

theorem examineAllSurvey (h : Dev.Good cap b ex d) (n : Nat) (ps : List Word) :
    Dev.Good cap b ex (d.examineAllSurvey n ps) := by
  unfold Dev.examineAllSurvey; simp only
  exact foldl (fun y l hy => hy.requestSurvey l _) _ (settleParts (h.modSlot _ _) _ _)

theorem examineHunt (h : Dev.Good cap b ex d) (n : Nat) (ps : List Word) : Dev.Good cap b ex (d.examineHunt n ps) := by
  unfold Dev.examineHunt; split
  · exact h.complete _ _ _
  · split
    · exact h.complete _ _ _
    · exact (h.startHunt _ _).modSlot _ _

theorem examineResume (h : Dev.Good cap b ex d) (n : Nat) (ps : List Word) : Dev.Good cap b ex (d.examineResume n ps) := by
  unfold Dev.examineResume; split
  · exact h.complete _ _ _
  · split
    · simp only
      refine complete (h.modLeg _ _ fun hl => ⟨hl.1, hl.2.1, ?_, hl.2.2.2⟩) _ _ _
      rintro (e | e) <;> cases e
    · exact h.complete _ _ _

theorem examineBadKind (h : Dev.Good cap b ex d) (n : Nat) (ps : List Word) : Dev.Good cap b ex (d.examineBadKind n ps) :=
  h.complete _ _ _

theorem issueGo (h : Dev.Good cap b ex d) (n : Nat) (ps : List Word) : Dev.Good cap b ex (d.issueGo n ps) := by
  unfold Dev.issueGo; split
  · exact (h.modSlot n _).setIntake _
  · exact (h.modSlot n _).setIntake _
  · exact h.latch _
  · exact h.latch _

theorem issueClear (h : Dev.Good cap b ex d) (n : Nat) : Dev.Good cap b ex (d.issueClear n) := by
  unfold Dev.issueClear; split
  · exact h.putSlot n _
  all_goals exact h

theorem abortServiceOn (h : Dev.Good cap b none d) (n : Nat) (l : Fin 4) : Dev.Good cap b none (Dev.abortServiceOn n d l) := by
  unfold Dev.abortServiceOn; simp only; split
  · exact h.abandon l
  · split
    · exact h.unqueueCmd l n
    · exact h

theorem leaveSurvey (h : Dev.Good cap b ex d) (n : Nat) (l : Fin 4) : Dev.Good cap b ex (Dev.leaveSurvey n d l) := by
  refine h.modLeg l _ fun hl => ?_
  have h1 : LegOk (ex ≠ some l) ((d.leg l).leavePending n) := by unfold Leg.leavePending; split <;> exact hl
  have h2 : ((d.leg l).leavePending n).chan = (d.leg l).chan := by unfold Leg.leavePending; split <;> rfl
  unfold Leg.leaveWindow
  split
  · rename_i w hw
    split
    · refine ⟨h1.1, h1.2.1, fun e => ?_, h1.2.2.2⟩
      have := h1.2.2.1 e
      rw [hw] at this; cases this
    · exact h1
  all_goals exact h1

theorem abortRunning (h : Dev.Good cap b none d) (n : Nat) : Dev.Good cap b none (d.abortRunning n) := by
  unfold Dev.abortRunning
  have hs := foldl (f := Dev.leaveSurvey n) (fun y l (hy : Dev.Good cap b none y) => hy.leaveSurvey n l) allLegs h
  split
  all_goals first
    | exact (foldl (f := Dev.abortServiceOn n) (fun y l (hy : Dev.Good cap b none y) => hy.abortServiceOn n l) allLegs h).complete
        _ _ _
    | exact hs.complete _ _ _
    | exact h
    | skip
  unfold Dev.abortHuntOf; split
  · exact h.abortHunt _
  · exact h

theorem issueAbort (h : Dev.Good cap b none d) (n : Nat) : Dev.Good cap b none (d.issueAbort n) := by
  unfold Dev.issueAbort; split
  · exact (h.setIntake _).complete _ _ _
  · exact h.abortRunning n
  all_goals exact h

theorem issue (h : Dev.Good cap b none d) (n : Nat) (ps : List Word) (v : Nat) : Dev.Good cap b none (d.issue n ps v) := by
  unfold Dev.issue; split
  · exact h.issueGo n ps
  · exact h.issueAbort n
  · exact h.issueClear n
  · exact h.latch _

/-! ## Commit.lean -/

theorem commitTimer_ok (full : Prop) (g : Leg) (c : LegConfig) (h : LegOk full g) : LegOk full (g.commitTimer c) := h

theorem commitStray_ok (full : Prop) (g : Leg) (old new : LegConfig) (h : LegOk full g) :
    LegOk full (g.commitStray old new) := by
  unfold Leg.commitStray; split <;> exact h

theorem commitEnable_ok (full : Prop) (g : Leg) (new : LegConfig) (h : LegOk full g) : LegOk full (g.commitEnable new) := by
  unfold Leg.commitEnable; split
  · exact ⟨Nat.zero_le _, fun _ e => absurd rfl e, fun _ => rfl, h.2.2.2⟩
  · split
    · exact ⟨Nat.zero_le _, fun _ e => absurd rfl e, fun _ => rfl, h.2.2.2⟩
    · exact h

theorem commitLeg_ok (full : Prop) (g : Leg) (old new : LegConfig) (h : LegOk full g) : LegOk full (g.commitLeg old new) :=
  commitEnable_ok full _ new (commitStray_ok full _ old new (commitTimer_ok full g new h))

theorem applyLeg (h : Dev.Good cap b ex d) (old new : Applied) (l : Fin 4) : Dev.Good cap b ex (Dev.applyLeg old new d l) := by
  unfold Dev.applyLeg; simp only
  have h1 := h.putLeg l _ (commitLeg_ok _ _ (old.leg l) (new.leg l) (h.leg l))
  split
  · exact h1.latch _
  · exact h1

theorem applyLegs (h : Dev.Good cap b ex d) (old new : Applied) :
    Dev.Good cap b ex (allLegs.foldl (Dev.applyLeg old new) d) := foldl (fun _ l hy => hy.applyLeg old new l) _ h

/-- The ring under another capacity. -/
theorem setCap (h : Dev.Good cap b ex d) {cap' : Nat} (hr : d.ring.within cap') : Dev.Good cap' b ex d :=
  { recs := h.recs, slots := h.slots, pins := h.pins, leg := h.leg, fields := h.fields, ring := hr, reqs := h.reqs,
    burst := h.burst }

/-! ## FltLine.lean -/

theorem enterFaulted (h : Dev.Good cap b ex d) (l : Fin 4) : Dev.Good cap b ex (d.modLeg l Leg.enterFaulted) :=
  h.modLeg l _ fun hl => ⟨Nat.zero_le _, fun _ e => absurd rfl e, fun _ => rfl, hl.2.2.2⟩

theorem flushRecord (h : Dev.Good cap b none d) (r : Nat) (bo : Body) : Dev.Good cap b none (d.flushRecord r bo) := by
  unfold Dev.flushRecord; split
  · exact h.halt r _ (by decide)
  · exact h.vacate r
  · exact h

theorem flush (h : Dev.Good cap b none d) (dir : Directive) (o : Origin) (x : Detail) :
    Dev.Good cap b none (d.flush dir o x) := by
  unfold Dev.flush; split
  · exact h.flushRecord _ _
  · exact h.complete _ _ _
  all_goals exact h

theorem flushWaiter (h : Dev.Good cap b none d) (w : Waiter) : Dev.Good cap b none (d.flushWaiter w) :=
  (h.clearWaiting _).flushRecord _ _

theorem flushFlight (h : Dev.Good cap b none d) (f : Option InFlight) : Dev.Good cap b none (d.flushFlight f) := by
  unfold Dev.flushFlight; split
  · exact (h.unmuteEnded _).flush _ _ _
  · exact h

theorem clearPinWait (h : Dev.Good cap b ex d) (l : Fin 4) : Dev.Good cap b ex (d.clearPinWait l) := by
  unfold Dev.clearPinWait; simp only
  exact foldl (fun y r hy => hy.modRec r _ id) _ (h.setPinWait _)

theorem faultHunt (h : Dev.Good cap b none d) (l : Fin 4) : Dev.Good cap b none (d.faultHunt l) := by
  unfold Dev.faultHunt; split
  · exact h
  · exact h.endHunt _ _ _

theorem faultLeg (h : Dev.Good cap b none d) (l : Fin 4) : Dev.Good cap b none (d.faultLeg l) := by
  unfold Dev.faultLeg; simp only
  refine faultHunt (foldl (fun y n hy => hy.answerFault l n) _ (foldl (fun y r hy => hy.halt r _ (by decide)) _
    (foldl (fun y w hy => hy.flushWaiter w) _ (foldl (fun y x hy => hy.flush _ _ _) _ (flushFlight (cancelFetch
      (latch (enterFaulted (h.clearPinWait l) l) _) l) _))))) l

theorem setFlt (h : Dev.Good cap b ex d) (l : Fin 4) (v : Bool) : Dev.Good cap b ex (d.setFlt l v) := h.modLeg l _ id

theorem fltAssert (h : Dev.Good cap b none d) (l : Fin 4) : Dev.Good cap b none (d.fltAssert l) := by
  unfold Dev.fltAssert; split
  · exact (h.setFlt l _).faultLeg l
  · exact h.setFlt l _

theorem fltRelease (h : Dev.Good cap b none d) (l : Fin 4) : Dev.Good cap b none (d.fltRelease l) := by
  unfold Dev.fltRelease; simp only; split
  · refine foldl (fun y r hy => hy.offerUnmute l r) _ ((h.setFlt l _).modLeg l _ fun hl => ⟨hl.1, hl.2.1, ?_, hl.2.2.2⟩)
    intro e
    unfold Leg.recover at e
    simp only at e
    split at e <;> rcases e with e | e <;> cases e
  · exact h.setFlt l _

/-! ## Bus.lean -/

theorem askLevel (h : Dev.Good cap b ex d) (r : Nat) : Dev.Good cap b ex (d.askLevel r) := by
  unfold Dev.askLevel; simp only; split
  · rename_i hc; exact h.enqueue _ _ _ hc.2.2.2
  · exact h

theorem levelTaken (h : Dev.Good cap b ex d) (r : Nat) : Dev.Good cap b ex (d.levelTaken r) := by
  unfold Dev.levelTaken; split
  · exact h
  · exact (h.modRec r _ id).askLevel r

theorem clearCauses (h : Dev.Good cap b ex d) (v : Word) : Dev.Good cap b ex (d.clearCauses v) :=
  h.other rfl rfl rfl rfl h.ring h.reqs h.burst

theorem takeTail_within (g : Ring) (v : Nat) (h : g.within cap) : (g.takeTail cap v).within cap := by
  unfold Ring.takeTail; split
  · rename_i hv; exact ⟨h.1, hv⟩
  · exact h

theorem writeTail (h : Dev.Good cap b ex d) (v : Word) : Dev.Good cap b ex (d.writeTail cap v) :=
  h.other rfl rfl rfl rfl (takeTail_within _ _ h.ring) h.reqs h.burst

theorem placeChunk_ok (full : Prop) (g : Leg) (c : BitVec 16) (bs : List Byte) (h : LegOk full g) :
    LegOk full (g.placeChunk c bs) := by
  unfold Leg.placeChunk; split
  · rename_i x hx
    exact ⟨h.1, h.2.1, fun e => (by have := h.2.2.1 e; rw [hx] at this; cases this), h.2.2.2⟩
  all_goals exact h

theorem endBurst (h : Dev.Good cap b ex d) : Dev.Good cap false ex { d with burst := none } :=
  { recs := h.recs, slots := h.slots, pins := h.pins, leg := h.leg, fields := h.fields, ring := h.ring, reqs := h.reqs,
    burst := rfl }

theorem fetchDone (h : Dev.Good cap b ex d) (c : BitVec 16) (f : Fetch) (dis : Bool) (bs : List Byte) :
    Dev.Good cap false ex (d.fetchDone c f dis bs) := by
  unfold Dev.fetchDone; simp only
  refine syncRequests (endBurst (b := b) ?_)
  split
  · exact h
  · exact (h.setFetches _).modLeg _ _ fun hl => placeChunk_ok _ _ c bs hl

theorem advance_within (g : Ring) (h : g.within cap) : (g.advance cap).within cap :=
  ⟨Nat.mod_lt _ (by have := h.1; omega), h.2⟩

theorem entryDone (h : Dev.Good cap b ex d) : Dev.Good cap false ex (d.entryDone cap) :=
  syncRequests
    { recs := h.recs, slots := h.slots, pins := h.pins, leg := h.leg, fields := h.fields, ring := advance_within _ h.ring,
      reqs := h.reqs, burst := rfl }

theorem dropEntry (h : Dev.Good cap b ex d) (rest : List Client) (hr : rest.Nodup) : Dev.Good cap b ex (d.dropEntry rest) :=
  syncRequests (loseEntry (h.other rfl rfl rfl rfl h.ring hr h.burst))

theorem startCycle (h : Dev.Good cap b ex d) (cfg : Applied) (c : BitVec 16) : Dev.Good cap b ex (d.startCycle cfg c) where
  recs := h.recs
  slots := h.slots
  pins := h.pins
  leg l := by
    fin_cases l
    · exact startCycle_ok _ _ _ c (h.leg 0)
    · exact startCycle_ok _ _ _ c (h.leg 1)
    · exact startCycle_ok _ _ _ c (h.leg 2)
    · exact startCycle_ok _ _ _ c (h.leg 3)
  fields := h.fields
  ring := h.ring
  reqs := h.reqs
  burst := h.burst

/-- R63, R81, R158, R179: the blocks at their reset values. -/
theorem afterReset (f0 f1 f2 f3 : Bool) (seed : Nat) (hc : 0 < cap) :
    Dev.Good cap false none (Dev.afterReset f0 f1 f2 f3 seed) where
  recs := rfl
  slots := rfl
  pins := rfl
  leg l := by fin_cases l <;> exact ⟨Nat.zero_le _, fun _ e => absurd rfl e, fun _ => rfl, rfl⟩
  fields r := vacant_fieldsKept
  ring := ⟨hc, hc⟩
  reqs := List.nodup_nil
  burst := rfl

end Dev.Good

end Sys2Proof.Machine
end

