-- ==== Sys2Proof/Laws/GoodState.lean ====
section
/-! SUPPORT. The operations of the pass-through unit, of the arbiter and of RESETn keep the machine's invariant. -/

namespace Sys2Proof.Machine

/-- The invariant of the blocks in the form the operations' lemmas take it. -/
theorem State.Inv.good {s : State} (h : s.Inv) : Dev.Good s.applied.ringCap s.dev.burst.isSome none s.dev :=
  { recs := h.1.1.1
    slots := h.1.1.2.1
    pins := h.1.1.2.2.1
    leg := fun l => ⟨(h.1.2.1 l).1.1, fun _ => (h.1.2.1 l).1.2, (h.1.2.1 l).2, h.1.1.2.2.2 l⟩
    fields := h.1.2.2.1
    ring := h.1.2.2.2.1
    reqs := h.2.2.2.1
    burst := rfl }

theorem State.Inv.cap {s : State} (h : s.Inv) : s.applied.capKept := h.1.2.2.2.2

/-- The invariant from its parts. -/
theorem State.Inv.of {s : State} {b : Bool} (g : Dev.Good s.applied.ringCap b none s.dev) (hc : s.applied.capKept)
    (h1 : s.bus.port = .engine ↔ b = true) (h2 : s.bus.port = .controller ↔ s.bus.passing.isSome = true)
    (h3 : s.bus.passCount ≤ passLimit) (h4 : s.phase ≠ .running → s.bus.port = .free ∧ s.dev.requests = []) : s.Inv :=
  ⟨⟨⟨g.recs, g.slots, g.pins, fun l => (g.leg l).2.2.2⟩, fun l => ⟨⟨(g.leg l).1, (g.leg l).2.1 (by simp)⟩, (g.leg l).2.2.1⟩,
      g.fields, g.ring, hc⟩,
    ⟨by rw [g.burst]; exact h1, h2, g.reqs, h3, h4⟩⟩

/-- An event of the blocks in operation. -/
theorem State.Inv.setDev {s : State} (h : s.Inv) (d : Dev) (hr : s.phase = .running)
    (g : Dev.Good s.applied.ringCap s.dev.burst.isSome none d) : State.Inv { s with dev := d } :=
  .of (s := { s with dev := d }) g h.cap h.2.1 h.2.2.1 h.2.2.2.2.1 fun e => absurd hr e

/-- R178: an event of the blocks. -/
theorem State.Inv.running {s : State} (h : s.Inv) (f : Env → Dev → Dev)
    (hf : Dev.Good s.applied.ringCap s.dev.burst.isSome none s.dev →
      Dev.Good s.applied.ringCap s.dev.burst.isSome none (f s.env s.dev)) : (s.running f).Inv := by
  unfold State.running; split
  · rename_i hr; exact h.setDev _ hr (hf h.good)
  · exact h

/-- What differs in nothing the invariant speaks of. -/
theorem State.Inv.same {s t : State} (h : s.Inv) (e1 : t.dev = s.dev) (e2 : t.applied = s.applied) (e3 : t.phase = s.phase)
    (e4 : t.bus.port = s.bus.port) (e5 : t.bus.passing = s.bus.passing) (e6 : t.bus.passCount = s.bus.passCount) : t.Inv := by
  refine .of (b := s.dev.burst.isSome) ?_ ?_ ?_ ?_ ?_ ?_
  · rw [e1, e2]; exact h.good
  · rw [e2]; exact h.cap
  · rw [e4]; exact h.2.1
  · rw [e4, e5]; exact h.2.2.1
  · rw [e6]; exact h.2.2.2.2.1
  · rw [e3, e4, e1]; exact h.2.2.2.2.2

theorem State.Inv.putMirror {s : State} (h : s.Inv) (off : Nat) (v : Word) : (s.putMirror off v).Inv :=
  h.same rfl rfl rfl rfl rfl rfl

theorem State.Inv.hold {s : State} (h : s.Inv) (a : Access) : (s.hold a).Inv := h.same rfl rfl rfl rfl rfl rfl

theorem State.Inv.answerWith {s : State} (h : s.Inv) (v : Word) : (s.answerWith v).Inv := h.same rfl rfl rfl rfl rfl rfl

/-- R79, R182: an applied commit keeps the ring capacity in its range and the ring's indices below it. -/
theorem firstBadField_none {old : Applied} {ms : List (Nat × Word)} {d : Dev} (h : firstBadField old ms d = none) (f : Nat)
    (hf : f < 56) : checkField old d f (configValue ms f) = none := by
  unfold firstBadField at h
  rw [List.findSome?_eq_none_iff] at h
  have := h f (by simpa using hf)
  simpa using this

theorem commit_cap {old : Applied} {ms : List (Nat × Word)} {d : Dev} (h : firstBadField old ms d = none)
    (hw : d.ring.within old.ringCap) : (readApplied ms).capKept ∧ d.ring.within (readApplied ms).ringCap := by
  have h3 := firstBadField_none h 3 (by decide)
  unfold checkField at h3
  split at h3
  · cases h3
  · rename_i hr
    have hr' : rangeOk 3 (configValue ms 3) = true := by simpa using hr
    simp only [rangeOk, within, Bool.and_eq_true, decide_eq_true_eq] at hr'
    simp only [if_true] at h3
    unfold ringStateReason at h3
    split at h3
    · cases h3
    · rename_i hs
      refine ⟨hr', ?_⟩
      show d.ring.within (configValue ms 3)
      by_cases he : configValue ms 3 = old.ringCap
      · rw [he]; exact hw
      · have hs' : d.ring.badTail = false ∧ d.ring.head = d.ring.tail ∧ d.ring.tail < configValue ms 3 := by
          by_contra hn; exact hs ⟨he, hn⟩
        exact ⟨by rw [hs'.2.1]; exact hs'.2.2, hs'.2.2⟩

theorem State.Inv.commitNow {s : State} (h : s.Inv) (hr : s.phase = .running) : s.commitNow.Inv := by
  unfold State.commitNow
  simp only
  cases hf : firstBadField s.applied s.mirrors s.dev with
  | some p =>
    exact .of (b := s.dev.burst.isSome) (h.good.latch .configDone) h.cap h.2.1 h.2.2.1 h.2.2.2.2.1 fun e => absurd hr e
  | none =>
    obtain ⟨hc, hw⟩ := commit_cap hf h.good.ring
    exact .of (b := s.dev.burst.isSome) (((h.good.setCap hw).applyLegs _ _).latch .configDone) hc h.2.1 h.2.2.1 h.2.2.2.2.1
      fun e => absurd hr e

theorem State.Inv.act {s : State} (h : s.Inv) (hr : s.phase = .running) (off : Nat) (v : Word) : (s.act off v).Inv := by
  unfold State.act
  split
  · exact h.commitNow hr
  · split
    · exact h.setDev _ hr (h.good.clearCauses v)
    · split
      · exact h.setDev _ hr (h.good.writeTail v)
      · exact h.setDev _ hr (h.good.issue _ _ _)

theorem State.Inv.takenEffect {s : State} (h : s.Inv) (hr : s.phase = .running) (a : Access) : (s.takenEffect a).Inv := by
  unfold State.takenEffect
  split
  · unfold State.writeEffect
    split
    · exact h.putMirror _ _
    · exact (h.putMirror _ _).act hr _ _
    · exact h.setDev _ hr (h.good.watchedReport _ _)
    all_goals exact h
  · exact h

theorem State.Inv.toMemory {s : State} (h : s.Inv) (hr : s.phase = .running) (hp : s.bus.port = .free)
    (hc : s.controllerFirst = true) (a : Access) : (s.toMemory a).Inv := by
  have hb : s.dev.burst.isSome = false := by
    have := h.2.1; rw [hp] at this; simpa using this
  refine .of (b := s.dev.burst.isSome) h.good h.cap ?_ ?_ ?_ fun e => absurd hr e
  · rw [hb]; simp [State.toMemory]
  · simp [State.toMemory]
  · show s.countPass ≤ passLimit
    have := h.2.2.2.2.1
    unfold State.countPass
    unfold State.controllerFirst at hc
    split
    · exact this
    · rename_i he
      simp only [Bool.or_eq_true, decide_eq_true_eq, he] at hc
      have : s.bus.passCount < passLimit := by simpa using hc
      omega

theorem State.Inv.pass {s : State} (h : s.Inv) (hr : s.phase = .running) (hp : s.bus.port = .free)
    (hc : s.controllerFirst = true) (a : Access) : (s.pass a).Inv := (h.toMemory hr hp hc a).takenEffect hr a

theorem State.Inv.takeLive {s : State} (h : s.Inv) (hr : s.phase = .running) (a : Access) : (s.takeLive a).Inv := by
  unfold State.takeLive
  split
  · exact h
  · split
    · exact h.answerWith _
    · unfold State.readEffect
      split
      · exact (h.answerWith _).setDev _ hr ((h.answerWith _).good.levelTaken _)
      all_goals exact h.answerWith _

/-! ## The arbiter -/

theorem State.Inv.startBurst {s : State} (h : s.Inv) (hr : s.phase = .running) (hp : s.bus.port = .free) (x : Burst)
    (c : Client) (rest : List Client) (hq : s.dev.requests = c :: rest) : (s.startBurst x rest).Inv := by
  have hn := h.2.2.2.1
  rw [hq, List.nodup_cons] at hn
  have hpas : s.bus.passing.isSome = false := by
    have := h.2.2.1; rw [hp] at this; simpa using this
  have g := h.good
  exact .of (s := s.startBurst x rest) (b := true)
    { recs := g.recs, slots := g.slots, pins := g.pins, leg := g.leg, fields := g.fields, ring := g.ring, reqs := hn.2,
      burst := rfl }
    h.cap (by simp [State.startBurst]) (by simp [State.startBurst, hpas]) (Nat.zero_le _) fun e => absurd hr e

theorem State.Inv.burstBegin {s : State} (h : s.Inv) (hr : s.phase = .running) (hp : s.bus.port = .free) :
    s.burstBegin.Inv := by
  unfold State.burstBegin
  split
  · rename_i rest hq
    split
    · exact h.startBurst hr hp _ _ _ hq
    · exact h
  · rename_i rest hq
    split
    · have hn := h.2.2.2.1
      rw [hq, List.nodup_cons] at hn
      exact h.setDev _ hr (h.good.dropEntry rest hn.2)
    · exact h.startBurst hr hp _ _ _ hq
  · exact h

theorem State.burstBegin_phase (s : State) : s.burstBegin.phase = s.phase := by
  unfold State.burstBegin
  split
  · split <;> rfl
  · split <;> rfl
  · rfl

/-- R180: giving the port keeps the invariant. -/
theorem State.Inv.grantPort : ∀ (n : Nat) {s : State}, s.Inv → s.phase = .running → (s.grantPort n).Inv
  | 0, _, h, _ => h
  | n + 1, s, h, hr => by
    unfold State.grantPort
    split
    · rename_i hp
      split
      · split
        · rename_i hc; exact h.pass hr hp hc _
        · exact State.Inv.grantPort n (h.burstBegin hr hp) (by rw [State.burstBegin_phase]; exact hr)
      · split
        · exact h
        · exact State.Inv.grantPort n (h.burstBegin hr hp) (by rw [State.burstBegin_phase]; exact hr)
    · exact h

theorem State.Inv.settle {s : State} (h : s.Inv) (hr : s.phase = .running) : s.settle.Inv := State.Inv.grantPort _ h hr

/-- The arbiter gives no port that is not FREE. -/
theorem State.settle_of_owned {s : State} (h : s.bus.port ≠ .free) : s.settle = s := if_neg h

/-- With no claimant the port stays FREE. -/
theorem State.settle_of_idle {s : State} (hh : s.bus.held = none) (hq : s.dev.requests = []) : s.settle = s := by
  unfold State.settle State.grantPort
  split
  · split
    · rename_i e; rw [hh] at e; cases e
    · simp [hq]
  · rfl

/-- A held access that may pass takes the FREE port. -/
theorem State.settle_of_held {s : State} {a : Access} (hp : s.bus.port = .free) (hh : s.bus.held = some a)
    (hc : s.controllerFirst = true) : s.settle = s.pass a := by
  unfold State.settle State.grantPort
  rw [if_pos hp]
  split
  · rename_i x e
    rw [hh] at e; cases e
    rw [if_pos hc]
  · rename_i e; rw [hh] at e; cases e

/-- A lone chunk fetch takes the FREE port at once. -/
theorem State.settle_of_load {s : State} {f : Fetch} {fs : List Fetch} {rest : List Client} (hp : s.bus.port = .free)
    (hh : s.bus.held = none) (hq : s.dev.requests = .load :: rest) (hf : s.dev.fetches = f :: fs) :
    s.settle = s.startBurst (.fetch f false) rest := by
  have hb : s.burstBegin = s.startBurst (.fetch f false) rest := by
    unfold State.burstBegin; split
    · rename_i r e
      rw [hq] at e; cases e
      split
      · rename_i e; rw [hf] at e; cases e; rfl
      · rename_i e; rw [hf] at e; cases e
    · rename_i e; rw [hq] at e; cases e
    · rename_i e; rw [hq] at e; cases e
  unfold State.settle State.grantPort
  rw [if_pos hp]
  split
  · rename_i e; rw [hh] at e; cases e
  · rw [if_neg (by simp [hq]), hb]
    cases s.dev.ring.writeList.length <;> rfl

/-- A lone ring entry takes the FREE port at once where the ring is not full. -/
theorem State.settle_of_ring {s : State} {rest : List Client} (hp : s.bus.port = .free) (hh : s.bus.held = none)
    (hq : s.dev.requests = .ring :: rest) (hf : s.dev.ring.full s.applied.ringCap = false) :
    s.settle = s.startBurst .ring rest := by
  have hb : s.burstBegin = s.startBurst .ring rest := by
    unfold State.burstBegin; split
    · rename_i e; rw [hq] at e; cases e
    · rename_i r e
      rw [hq] at e; cases e
      rw [if_neg (by simp [hf])]
    · rename_i e; rw [hq] at e; cases e
  unfold State.settle State.grantPort
  rw [if_pos hp]
  split
  · rename_i e; rw [hh] at e; cases e
  · rw [if_neg (by simp [hq]), hb]
    cases s.dev.ring.writeList.length <;> rfl

/-- A change of the blocks that makes no engine request leaves the port alone. -/
theorem State.askPort_eq {s : State} {d : Dev} (h : d.requests = s.dev.requests) : s.askPort d = { s with dev := d } := if_pos h

/-- An engine request made at a port that is not FREE waits. -/
theorem State.askPort_of_owned {s : State} {d : Dev} (h : s.bus.port ≠ .free) : s.askPort d = { s with dev := d } := by
  unfold State.askPort
  dsimp only
  split
  · rfl
  · exact State.settle_of_owned h

theorem State.Inv.askPort {s : State} (h : s.Inv) (hr : s.phase = .running) (d : Dev)
    (g : Dev.Good s.applied.ringCap s.dev.burst.isSome none d) : (s.askPort d).Inv := by
  unfold State.askPort
  dsimp only
  split
  · exact h.setDev d hr g
  · exact (h.setDev d hr g).settle hr

/-- R180: an event of the blocks that may ask for an engine burst. -/
theorem State.Inv.asking {s : State} (h : s.Inv) (f : Env → Dev → Dev)
    (hf : Dev.Good s.applied.ringCap s.dev.burst.isSome none s.dev →
      Dev.Good s.applied.ringCap s.dev.burst.isSome none (f s.env s.dev)) : (s.asking f).Inv := by
  unfold State.asking; split
  · rename_i hr; exact h.askPort hr _ (hf h.good)
  · exact h

theorem State.Inv.engineBegins {s : State} (h : s.Inv) (hr : s.phase = .running) : s.engineBegins.Inv := by
  unfold State.engineBegins
  split
  · rename_i ht
    have hp : s.bus.port = .free := by
      unfold State.engineTurn at ht
      simp only [Bool.and_eq_true, decide_eq_true_eq] at ht
      exact ht.1
    exact (h.burstBegin hr hp).settle (by rw [State.burstBegin_phase]; exact hr)
  · exact h

theorem State.Inv.freed {s : State} {b : Bool} (g : Dev.Good s.applied.ringCap b none s.dev) (hc : s.applied.capKept)
    (hb : b = false) (h3 : s.bus.passCount ≤ passLimit) (hr : s.phase = .running) :
    State.Inv { s with bus := { s.bus with port := .free, passing := none } } :=
  .of (s := { s with bus := { s.bus with port := .free, passing := none } }) g hc (by simp [hb]) (by simp) h3
    fun e => absurd hr e

theorem State.Inv.freePort {s : State} {b : Bool} (g : Dev.Good s.applied.ringCap b none s.dev) (hc : s.applied.capKept)
    (hb : b = false) (h3 : s.bus.passCount ≤ passLimit) (hr : s.phase = .running) : s.freePort.Inv :=
  (State.Inv.freed g hc hb h3 hr).settle hr

theorem State.Inv.memoryComplete {s : State} (h : s.Inv) (hr : s.phase = .running) : s.memoryComplete.Inv := by
  unfold State.memoryComplete
  split
  · rename_i hp
    refine .freePort h.good h.cap ?_ h.2.2.2.2.1 hr
    have := h.2.1; rw [hp] at this; simpa using this
  · exact h

theorem State.Inv.released {s : State} (h : s.Inv) (hr : s.phase = .running) : s.released.Inv := by
  unfold State.released
  split
  · rename_i hp
    refine .freed h.good h.cap ?_ h.2.2.2.2.1 hr
    have := h.2.1; rw [hp] at this; simpa using this
  · exact h

theorem State.released_phase (s : State) : s.released.phase = s.phase := by
  unfold State.released; split <;> rfl

/-- The phase is one that no access changes. -/
theorem State.act_phase (s : State) (off : Nat) (v : Word) : (s.act off v).phase = s.phase := by
  unfold State.act
  split
  · unfold State.commitNow; simp only; split <;> rfl
  · split
    · rfl
    · split <;> rfl

theorem State.pass_phase (s : State) (a : Access) : (s.pass a).phase = s.phase := by
  unfold State.pass State.takenEffect
  split
  · unfold State.writeEffect
    split
    · rfl
    · rw [State.act_phase]; rfl
    all_goals rfl
  · rfl

theorem State.grantPort_phase : ∀ (n : Nat) (s : State), (s.grantPort n).phase = s.phase
  | 0, _ => rfl
  | n + 1, s => by
    unfold State.grantPort
    split
    · split
      · split
        · exact State.pass_phase _ _
        · rw [State.grantPort_phase n, State.burstBegin_phase]
      · split
        · rfl
        · rw [State.grantPort_phase n, State.burstBegin_phase]
    · rfl

theorem State.memoryComplete_phase (s : State) : s.memoryComplete.phase = s.phase := by
  unfold State.memoryComplete State.freePort State.settle
  split
  · rw [State.grantPort_phase]
  · rfl

theorem State.Inv.offerAccess {s : State} (h : s.Inv) (hr : s.phase = .running) (a : Access) : (s.offerAccess a).Inv := by
  unfold State.offerAccess
  split
  · exact ((h.released hr).hold a).settle (by rw [← hr]; exact State.released_phase s)
  · exact (h.memoryComplete hr).takeLive (by rw [State.memoryComplete_phase]; exact hr) a

theorem State.Inv.present {s : State} (h : s.Inv) (a : Access) : (s.present a).Inv := by
  unfold State.present
  split
  · exact h
  · split
    · rename_i hr; exact h.offerAccess hr a
    · exact h.hold a

theorem State.Inv.fetchComplete {s : State} (h : s.Inv) (hr : s.phase = .running) : s.fetchComplete.Inv := by
  unfold State.fetchComplete
  split
  · exact .freePort (s := { s with dev := _ }) (h.good.fetchDone _ _ _ _) h.cap rfl h.2.2.2.2.1 hr
  all_goals exact h

theorem State.Inv.entryComplete {s : State} (h : s.Inv) (hr : s.phase = .running) : s.entryComplete.Inv := by
  unfold State.entryComplete
  split
  · exact .freePort (s := { s with mem := _, dev := _ }) h.good.entryDone h.cap rfl h.2.2.2.2.1 hr
  all_goals exact h

/-! ## RESETn -/

theorem State.Inv.resetFalls {s : State} (h : s.Inv) : s.resetFalls.Inv := by
  unfold State.resetFalls
  split
  · exact h
  · have g := h.good
    exact .of (b := false)
      { recs := g.recs, slots := g.slots, pins := g.pins, leg := g.leg, fields := g.fields, ring := g.ring,
        reqs := List.nodup_nil, burst := rfl }
      h.cap (by simp) (by simp) h.2.2.2.2.1 fun _ => ⟨rfl, rfl⟩

theorem State.Inv.resetRises {s : State} (h : s.Inv) (straps : BitVec 4) : (s.resetRises straps).Inv := by
  unfold State.resetRises
  split
  · exact .of (b := false) (Dev.Good.afterReset (cap := 16) _ _ _ _ _ (by decide)) ⟨Nat.le_refl 16, (by decide : 16 ≤ 384)⟩
      (by simp [Bus.afterReset]) (by simp [Bus.afterReset]) (Nat.zero_le _) fun _ => ⟨rfl, rfl⟩
  · exact h

theorem State.Inv.clearingEnds {s : State} (h : s.Inv) : s.clearingEnds.Inv := by
  unfold State.clearingEnds
  split
  · rename_i hp
    have hf := h.2.2.2.2.2 (by rw [hp]; decide)
    split
    · refine State.Inv.present ?_ _
      exact .of (s := { s with phase := .running, bus := { s.bus with held := none } }) h.good h.cap h.2.1 h.2.2.1 h.2.2.2.2.1
        fun e => absurd rfl e
    · exact .of (s := { s with phase := .running }) h.good h.cap h.2.1 h.2.2.1 h.2.2.2.2.1 fun e => absurd rfl e
  · exact h

end Sys2Proof.Machine
end

