-- ==== Sys2Proof/Laws/Frame.lean ====
section
/-! SUPPORT. The frame of the resource operations: queueing, abandoning, releasing pins and slots, completing a command slot.
They change where a record's work stands, never the record's state, its address, its delays or its counts, and never the leg's
state, timer, tag counter or hunt. -/

namespace Sys2Proof.Machine

/-- The record without what says where its work stands and what resources it holds. -/
def Rec.core (x : Rec) : Rec :=
  { x with waiting := false, pinWait := false, muted := false, label := none, slotList := [], ranging := none, held := none,
           pin := none }

/-- The leg without its channel, its queue, its waiting list and its slot map. -/
def Leg.core (g : Leg) : Leg := { g with chan := .free, queue := [], waiting := [], slotMap := [] }

/-- What the resource operations leave unchanged. -/
structure Dev.Keeps (d d' : Dev) : Prop where
  recs : ∀ r, (d'.record r).core = (d.record r).core
  legs : ∀ l, (d'.leg l).core = (d.leg l).core
  free : ∀ l, (d.leg l).chan = .free → (d'.leg l).chan = .free
  intake : d'.intake = d.intake
  ring : d'.ring = d.ring

variable {d d' d'' : Dev}

namespace Dev.Keeps

theorem refl (d : Dev) : Dev.Keeps d d := ⟨fun _ => rfl, fun _ => rfl, fun _ => id, rfl, rfl⟩

theorem trans (h : Dev.Keeps d d') (h' : Dev.Keeps d' d'') : Dev.Keeps d d'' :=
  ⟨fun r => (h'.recs r).trans (h.recs r), fun l => (h'.legs l).trans (h.legs l), fun l c => h'.free l (h.free l c), h'.intake.trans h.intake, h'.ring.trans h.ring⟩

theorem foldl {α : Type} {f : Dev → α → Dev} (hf : ∀ y x, Dev.Keeps y (f y x)) (xs : List α) (d : Dev) :
    Dev.Keeps d (xs.foldl f d) := by
  induction xs generalizing d with
  | nil => exact refl d
  | cons x xs ih => exact (hf d x).trans (ih (f d x))

theorem other (e1 : d'.recs = d.recs) (e2 : d'.legs = d.legs) (e3 : d'.intake = d.intake) (e4 : d'.ring = d.ring) :
    Dev.Keeps d d' :=
  ⟨fun r => by simp only [Dev.record, e1], fun l => by simp only [Dev.leg, e2], fun l => by simp only [Dev.leg, e2]; exact id, e3, e4⟩

theorem modLeg (d : Dev) (l : Fin 4) (f : Leg → Leg) (hf : (f (d.leg l)).core = (d.leg l).core)
    (hc : (d.leg l).chan = .free → (f (d.leg l)).chan = .free) : Dev.Keeps d (d.modLeg l f) := by
  refine ⟨fun _ => rfl, fun k => ?_, fun k => ?_, rfl, rfl⟩ <;> rw [Dev.modLeg_leg] <;> split
  · rename_i hk; subst hk; exact hf
  · rfl
  · rename_i hk; subst hk; exact hc
  · exact id

/-- The map may be in any form: a store of an equal value is read as that value. -/
theorem putRec_record (d : Dev) (r q : Nat) (x : Rec) :
    (d.putRec r x).record q = d.record q ∨ (q = r ∧ (d.putRec r x).record q = x) ∨ (q = r ∧ x = Rec.vacant) := by
  by_cases hq : q = r
  · subst hq
    by_cases hx : x = Rec.vacant
    · exact Or.inr (Or.inr ⟨rfl, hx⟩)
    · exact Or.inr (Or.inl ⟨rfl, Sparse.get_set_self_of_ne d.recs q x hx⟩)
  · exact Or.inl (Dev.putRec_record_ne d r q x hq)

end Dev.Keeps

/-! Under a canonical roster. -/

/-- What an operation keeps when the roster is canonical, and that it keeps it canonical. -/
structure Dev.Frame (d d' : Dev) : Prop where
  keeps : Dev.Keeps d d'
  recs : Sparse.wf Rec.vacant d'.recs = true

namespace Dev.Frame

theorem refl (h : Sparse.wf Rec.vacant d.recs = true) : Dev.Frame d d := ⟨.refl d, h⟩

theorem trans (h : Dev.Frame d d') (h' : Dev.Frame d' d'') : Dev.Frame d d'' := ⟨h.keeps.trans h'.keeps, h'.recs⟩

theorem foldl {α : Type} {f : Dev → α → Dev} (hf : ∀ y x, Sparse.wf Rec.vacant y.recs = true → Dev.Frame y (f y x))
    (xs : List α) (h : Sparse.wf Rec.vacant d.recs = true) : Dev.Frame d (xs.foldl f d) := by
  induction xs generalizing d with
  | nil => exact refl h
  | cons x xs ih => exact (hf d x h).trans (ih (hf d x h).recs)

theorem other (h : Sparse.wf Rec.vacant d.recs = true) (e1 : d'.recs = d.recs) (e2 : d'.legs = d.legs)
    (e3 : d'.intake = d.intake) (e4 : d'.ring = d.ring) : Dev.Frame d d' := ⟨.other e1 e2 e3 e4, by rw [e1]; exact h⟩

theorem modLeg (h : Sparse.wf Rec.vacant d.recs = true) (l : Fin 4) (f : Leg → Leg)
    (hf : (f (d.leg l)).core = (d.leg l).core) (hc : (d.leg l).chan = .free → (f (d.leg l)).chan = .free := by exact id) :
    Dev.Frame d (d.modLeg l f) := ⟨.modLeg d l f hf hc, h⟩

theorem modRec (h : Sparse.wf Rec.vacant d.recs = true) (r : Nat) (f : Rec → Rec)
    (hf : (f (d.record r)).core = (d.record r).core) : Dev.Frame d (d.modRec r f) :=
  ⟨⟨fun q => by
      by_cases hq : q = r
      · subst hq; rw [Dev.modRec_record_self d q f h]; exact hf
      · rw [Dev.modRec_record_ne d r q f hq], fun _ => rfl, fun _ => id, rfl, rfl⟩, Dev.modRec_recs_wf d r f h⟩

theorem complete (h : Sparse.wf Rec.vacant d.recs = true) (n : Nat) (res : ResultCode) (x : Detail) :
    Dev.Frame d (d.complete n res x) := other h rfl rfl rfl rfl

theorem clearWaiting (h : Sparse.wf Rec.vacant d.recs = true) (r : Nat) : Dev.Frame d (d.clearWaiting r) := modRec h r _ rfl

theorem fillQueue (h : Sparse.wf Rec.vacant d.recs = true) (l : Fin 4) : Dev.Frame d (d.fillQueue l) := by
  unfold Dev.fillQueue; simp only
  have h1 := modLeg h l (fun g => { g with
    queue := (admitList (d.leg l).queue (d.leg l).waiting).1
    waiting := (admitList (d.leg l).queue (d.leg l).waiting).2.1 }) rfl
  exact h1.trans (foldl (fun y x hy => clearWaiting hy x) _ h1.recs)

theorem waitBack (h : Sparse.wf Rec.vacant d.recs = true) (l : Fin 4) (r : Nat) (dir : Directive) :
    Dev.Frame d (d.waitBack l r dir) := by
  have h1 := modLeg h l (fun g => { g with waiting := g.waiting ++ [⟨r, dir⟩] }) rfl
  exact h1.trans (modRec h1.recs r _ rfl)

theorem waitFront (h : Sparse.wf Rec.vacant d.recs = true) (l : Fin 4) (r : Nat) (dir : Directive) :
    Dev.Frame d (d.waitFront l r dir) := by
  have h1 := modLeg h l (fun g => { g with waiting := ⟨r, dir⟩ :: g.waiting }) rfl
  exact h1.trans (modRec h1.recs r _ rfl)

theorem enqueue (h : Sparse.wf Rec.vacant d.recs = true) (l : Fin 4) (dir : Directive) (o : Origin) :
    Dev.Frame d (d.enqueue l dir o) := modLeg h l _ rfl

theorem offerStage (h : Sparse.wf Rec.vacant d.recs = true) (l : Fin 4) (r : Nat) (dir : Directive) :
    Dev.Frame d (d.offerStage l r dir) := by
  unfold Dev.offerStage; split
  · exact enqueue h l dir _
  · exact waitBack h l r dir

theorem evicted (h : Sparse.wf Rec.vacant d.recs = true) (l : Fin 4) (e : Entry) : Dev.Frame d (d.evicted l e) := by
  unfold Dev.evicted; split
  · exact complete h _ _ _
  · exact refl h
  · exact waitFront h l _ _
  · exact refl h

theorem offerUrgent (h : Sparse.wf Rec.vacant d.recs = true) (l : Fin 4) (dir : Directive) (o : Origin) :
    Dev.Frame d (d.offerUrgent l dir o).1 := by
  unfold Dev.offerUrgent; split
  · exact enqueue h l dir o
  · split
    · rename_i e q _
      have h1 := modLeg h l (fun g => { g with queue := q ++ [⟨dir, o⟩] }) rfl
      exact h1.trans (evicted h1.recs l e)
    · exact refl h

theorem offerUrgentRecord (h : Sparse.wf Rec.vacant d.recs = true) (l : Fin 4) (r : Nat) (dir : Directive) :
    Dev.Frame d (d.offerUrgentRecord l r dir) := by
  unfold Dev.offerUrgentRecord; simp only; split
  · exact offerUrgent h l dir _
  · exact waitBack h l r dir

theorem unqueue (h : Sparse.wf Rec.vacant d.recs = true) (l : Fin 4) (r : Nat) : Dev.Frame d (d.unqueue l r) := by
  unfold Dev.unqueue; split
  · rename_i e q _
    have h1 := modLeg h l (fun g => { g with queue := q }) rfl
    exact h1.trans (fillQueue h1.recs l)
  · split
    · have h1 := modLeg h l (fun g => { g with waiting := g.waiting.filter fun w => decide (w.r ≠ r) }) rfl
      exact h1.trans (clearWaiting h1.recs r)
    · exact refl h

theorem unqueueCmd (h : Sparse.wf Rec.vacant d.recs = true) (l : Fin 4) (n : Nat) : Dev.Frame d (d.unqueueCmd l n) := by
  unfold Dev.unqueueCmd; split
  · rename_i e q _
    have h1 := modLeg h l (fun g => { g with queue := q }) rfl
    exact h1.trans (fillQueue h1.recs l)
  · exact refl h

theorem withdrawLoad (h : Sparse.wf Rec.vacant d.recs = true) (l : Fin 4) : Dev.Frame d (d.withdrawLoad l) := by
  unfold Dev.withdrawLoad; split
  · split
    · exact other h rfl rfl rfl rfl
    · exact refl h
  · exact refl h

theorem cancelFetch (h : Sparse.wf Rec.vacant d.recs = true) (l : Fin 4) : Dev.Frame d (d.cancelFetch l) := by
  have h1 : Dev.Frame d (d.endFetch l) := by
    unfold Dev.endFetch; split
    · split
      · exact other h rfl rfl rfl rfl
      · exact refl h
    · exact refl h
    · exact withdrawLoad h l
    · exact withdrawLoad h l
  exact h1.trans (other h1.recs rfl rfl rfl rfl)

theorem clearMuted (h : Sparse.wf Rec.vacant d.recs = true) (r : Nat) : Dev.Frame d (d.clearMuted r) := modRec h r _ rfl

theorem unmuteEnded (h : Sparse.wf Rec.vacant d.recs = true) (x : InFlight) : Dev.Frame d (d.unmuteEnded x) := by
  unfold Dev.unmuteEnded; split
  · exact clearMuted h _
  · exact clearMuted h _
  · exact refl h

theorem abandon (h : Sparse.wf Rec.vacant d.recs = true) (l : Fin 4) : Dev.Frame d (d.abandon l) := by
  unfold Dev.abandon; split
  · rename_i x _
    have h1 := modLeg h l (fun g => { g with chan := .free }) rfl (fun _ => rfl)
    have h2 := h1.trans (cancelFetch h1.recs l)
    exact h2.trans (unmuteEnded h2.recs x)
  · exact refl h

theorem offerWork (h : Sparse.wf Rec.vacant d.recs = true) (r : Nat) : Dev.Frame d (d.offerWork r) := by
  unfold Dev.offerWork; simp only; split
  · split
    · exact refl h
    · exact offerStage h _ _ _
  · exact refl h

theorem joinPin (h : Sparse.wf Rec.vacant d.recs = true) (i r : Nat) : Dev.Frame d (d.joinPin i r) := by
  have h1 : Dev.Frame d (d.putPin i { d.pin i with users := (d.pin i).users + 1 }) := other h rfl rfl rfl rfl
  exact h1.trans (modRec h1.recs r _ rfl)

theorem pinRequest (h : Sparse.wf Rec.vacant d.recs = true) (r : Nat) : Dev.Frame d (d.pinRequest r) := by
  unfold Dev.pinRequest; simp only; split
  · exact joinPin h _ _
  · split
    · rename_i i _
      have h1 : Dev.Frame d (d.openFree i (d.record r).enrol) := other h rfl rfl rfl rfl
      exact h1.trans (joinPin h1.recs i r)
    · have h1 : Dev.Frame d { d with pinWait := d.pinWait ++ [r] } := other h rfl rfl rfl rfl
      exact h1.trans (modRec h1.recs r _ rfl)

theorem servePin (h : Sparse.wf Rec.vacant d.recs = true) (i r : Nat) (rest : List Nat) : Dev.Frame d (d.servePin i r rest) := by
  unfold Dev.servePin; simp only
  have h1 : ∀ w : List Nat, Dev.Frame d (({ d with pinWait := w } : Dev).openFree i (d.record r).enrol) :=
    fun w => other h rfl rfl rfl rfl
  have h2 : ∀ w ss : List Nat,
      Dev.Frame d (ss.foldl (fun y q => y.joinPin i q) (({ d with pinWait := w } : Dev).openFree i (d.record r).enrol)) :=
    fun w ss => (h1 w).trans (foldl (fun y q hy => joinPin hy i q) ss (h1 w).recs)
  exact (h2 _ _).trans (foldl (fun y q hy => offerWork hy q) _ (h2 _ _).recs)

theorem servePins (h : Sparse.wf Rec.vacant d.recs = true) (n : Nat) : Dev.Frame d (d.servePins n) := by
  induction n generalizing d with
  | zero => exact refl h
  | succ n ih =>
    simp only [Dev.servePins]; split
    · exact (servePin h _ _ _).trans (ih (servePin h _ _ _).recs)
    · exact refl h
    · exact refl h

theorem dropPinUse (h : Sparse.wf Rec.vacant d.recs = true) (i : Nat) : Dev.Frame d (d.dropPinUse i) := by
  unfold Dev.dropPinUse; simp only; split
  · have h1 : Dev.Frame d (d.putPin i .free) := other h rfl rfl rfl rfl
    exact h1.trans (servePins h1.recs _)
  · exact other h rfl rfl rfl rfl

theorem pinRelease (h : Sparse.wf Rec.vacant d.recs = true) (r : Nat) : Dev.Frame d (d.pinRelease r) := by
  unfold Dev.pinRelease; simp only; split
  · have h1 : Dev.Frame d { d with pinWait := without d.pinWait r } := other h rfl rfl rfl rfl
    exact h1.trans (modRec h1.recs r _ rfl)
  · split
    · have h1 := modRec h r (fun y => { y with pin := none }) rfl
      exact h1.trans (dropPinUse h1.recs _)
    · exact refl h

theorem slotRelease (h : Sparse.wf Rec.vacant d.recs = true) (r : Nat) : Dev.Frame d (d.slotRelease r) := by
  unfold Dev.slotRelease; simp only; split
  · rename_i b _
    have h1 := modLeg h (d.record r).enrol.leg (fun g => { g with slotMap := g.slotMap.filter fun p => decide (p.2 ≠ b) }) rfl
    exact h1.trans (modRec h1.recs r _ rfl)
  · exact refl h

/-- R12: dropping a record's stage resources changes no record's state, address, delays or counts. -/
theorem drop (h : Sparse.wf Rec.vacant d.recs = true) (r : Nat) : Dev.Frame d (d.drop r) := by
  unfold Dev.drop; simp only
  have h1 := unqueue h (d.record r).enrol.leg r
  have h2 : Dev.Frame (d.unqueue (d.record r).enrol.leg r)
      ((d.unqueue (d.record r).enrol.leg r).abandonOf (d.record r).enrol.leg r) := by
    unfold Dev.abandonOf; split
    · exact abandon h1.recs _
    · exact refl h1.recs
  have h3 := pinRelease h2.recs r
  have h4 := slotRelease h3.recs r
  exact (((h1.trans h2).trans h3).trans h4).trans (modRec h4.recs r _ rfl)

end Dev.Frame

/-! ## What the frame says of a record and a leg -/

namespace Dev.Frame

theorem state (h : Dev.Frame d d') (r : Nat) : (d'.record r).state = (d.record r).state := by
  have e := congrArg Rec.state (h.keeps.recs r); exact e
theorem stage (h : Dev.Frame d d') (r : Nat) : (d'.record r).stage = (d.record r).stage := by
  have e := congrArg Rec.stage (h.keeps.recs r); exact e
theorem fault (h : Dev.Frame d d') (r : Nat) : (d'.record r).fault = (d.record r).fault := by
  have e := congrArg Rec.fault (h.keeps.recs r); exact e
theorem enrol (h : Dev.Frame d d') (r : Nat) : (d'.record r).enrol = (d.record r).enrol := by
  have e := congrArg Rec.enrol (h.keeps.recs r); exact e
theorem addressed (h : Dev.Frame d d') (r : Nat) : (d'.record r).addressed = (d.record r).addressed := by
  have e := congrArg Rec.addressed (h.keeps.recs r); exact e
theorem legState (h : Dev.Frame d d') (l : Fin 4) : (d'.leg l).st = (d.leg l).st := by
  have e := congrArg Leg.st (h.keeps.legs l); exact e
theorem hunt (h : Dev.Frame d d') (l : Fin 4) : (d'.leg l).hunt = (d.leg l).hunt := by
  have e := congrArg Leg.hunt (h.keeps.legs l); exact e
theorem tagCtr (h : Dev.Frame d d') (l : Fin 4) : (d'.leg l).tagCtr = (d.leg l).tagCtr := by
  have e := congrArg Leg.tagCtr (h.keeps.legs l); exact e

end Dev.Frame

/-! ## Halting, holding and vacating a record -/

theorem Rec.core_state {x y : Rec} (h : x.core = y.core) : x.state = y.state := by
  have e := congrArg Rec.state h; exact e

/-- What an operation that drops a record's stage resources and then rewrites the record does. -/
theorem Dev.afterDrop_spec (h : Sparse.wf Rec.vacant d.recs = true) (r : Nat) (f : Rec → Rec) :
    Sparse.wf Rec.vacant ((d.drop r).modRec r f).recs = true ∧
      ((d.drop r).modRec r f).record r = f ((d.drop r).record r) ∧
      (∀ q, q ≠ r → (((d.drop r).modRec r f).record q).core = (d.record q).core) ∧
      (∀ l, (((d.drop r).modRec r f).leg l).core = (d.leg l).core) ∧
      (∀ l, (d.leg l).chan = .free → (((d.drop r).modRec r f).leg l).chan = .free) := by
  have hd := Dev.Frame.drop h r
  refine ⟨Dev.modRec_recs_wf _ _ _ hd.recs, Dev.modRec_record_self _ _ _ hd.recs, ?_, fun l => hd.keeps.legs l,
    fun l => hd.keeps.free l⟩
  intro q hq
  rw [Dev.modRec_record_ne (d.drop r) r q f hq]; exact hd.keeps.recs q

/-- R124: the record has no label once its slots are released. -/
theorem Dev.slotRelease_label (h : Sparse.wf Rec.vacant d.recs = true) (r : Nat) : ((d.slotRelease r).record r).label = none := by
  unfold Dev.slotRelease; simp only; split
  · rw [Dev.modRec_record_self]; exact h
  · rename_i hl; exact hl

/-- R12: a record that has dropped its stage resources has no label. -/
theorem Dev.drop_label (h : Sparse.wf Rec.vacant d.recs = true) (r : Nat) : ((d.drop r).record r).label = none := by
  unfold Dev.drop; simp only
  have h1 := Dev.Frame.unqueue h (d.record r).enrol.leg r
  have h2 : Dev.Frame (d.unqueue (d.record r).enrol.leg r)
      ((d.unqueue (d.record r).enrol.leg r).abandonOf (d.record r).enrol.leg r) := by
    unfold Dev.abandonOf; split
    · exact Dev.Frame.abandon h1.recs _
    · exact Dev.Frame.refl h1.recs
  have h3 := Dev.Frame.pinRelease h2.recs r
  have h4 := Dev.Frame.slotRelease h3.recs r
  rw [Dev.modRec_record_self _ _ _ h4.recs]
  exact Dev.slotRelease_label h3.recs r

/-- R13: a halted record is HALTED with its fault and stage field and without a label; every other record keeps its core; a FREE
channel stays FREE. -/
theorem Dev.haltWith_spec (h : Sparse.wf Rec.vacant d.recs = true) (r : Nat) (f : FaultCode) (st : Option RecState) :
    Sparse.wf Rec.vacant (d.haltWith r f st).recs = true ∧
      ((d.haltWith r f st).record r).core = { (d.record r).core with state := .halted, stage := st, fault := f } ∧
      ((d.haltWith r f st).record r).label = none ∧
      (∀ q, q ≠ r → ((d.haltWith r f st).record q).core = (d.record q).core) ∧
      (∀ l, ((d.haltWith r f st).leg l).core = (d.leg l).core) ∧
      (∀ l, (d.leg l).chan = .free → ((d.haltWith r f st).leg l).chan = .free) := by
  obtain ⟨h1, h2, h3, h4, h5⟩ := Dev.afterDrop_spec h r fun x => { x with state := .halted, stage := st, fault := f }
  refine ⟨h1, ?_, ?_, h3, h4, h5⟩
  · rw [← (Dev.Frame.drop h r).keeps.recs r]
    exact congrArg Rec.core h2
  · exact (congrArg Rec.label h2).trans (Dev.drop_label h r)

/-- R8: a held record is HELD with the completed stage; every other keeps its core; a FREE channel stays FREE. -/
theorem Dev.hold_spec (h : Sparse.wf Rec.vacant d.recs = true) (r : Nat) (st : RecState) :
    Sparse.wf Rec.vacant (d.hold r st).recs = true ∧
      ((d.hold r st).record r).core = { (d.record r).core with state := .held, stage := some st, fault := .none } ∧
      (∀ q, q ≠ r → ((d.hold r st).record q).core = (d.record q).core) ∧
      (∀ l, ((d.hold r st).leg l).core = (d.leg l).core) ∧
      (∀ l, (d.leg l).chan = .free → ((d.hold r st).leg l).chan = .free) := by
  obtain ⟨h1, h2, h3, h4, h5⟩ := Dev.afterDrop_spec h r fun x => { x with state := .held, stage := some st, fault := .none }
  refine ⟨h1, ?_, h3, h4, h5⟩
  rw [← (Dev.Frame.drop h r).keeps.recs r]
  exact congrArg Rec.core h2

/-- R19: a record that becomes VACANT is a VACANT record; every other keeps its core; a FREE channel stays FREE. -/
theorem Dev.vacate_spec (h : Sparse.wf Rec.vacant d.recs = true) (r : Nat) :
    Sparse.wf Rec.vacant (d.vacate r).recs = true ∧ (d.vacate r).record r = Rec.vacant ∧
      (∀ q, q ≠ r → ((d.vacate r).record q).core = (d.record q).core) ∧
      (∀ l, ((d.vacate r).leg l).core = (d.leg l).core) ∧
      (∀ l, (d.leg l).chan = .free → ((d.vacate r).leg l).chan = .free) :=
  Dev.afterDrop_spec h r fun _ => Rec.vacant

end Sys2Proof.Machine
end

