-- ==== Sys2Proof/Laws/Legs.lean ====
section
/-! SUPPORT. What one change of a leg controller does to the four legs, and what an event of the blocks does to the machine: the lemmas
that the statements about a leg event rest on. -/

namespace Sys2Proof.Machine

/-- Two changes of one leg are one. -/
theorem Dev.modLeg_modLeg (d : Dev) (l : Fin 4) (f g : Leg → Leg) : (d.modLeg l f).modLeg l g = d.modLeg l fun x => g (f x) := by
  obtain ⟨_, ⟨_, _, _, _⟩, _⟩ := d
  fin_cases l <;> rfl

/-- A change that leaves the leg as it is changes nothing. -/
theorem Dev.modLeg_eq_self (d : Dev) (l : Fin 4) (f : Leg → Leg) (h : f (d.leg l) = d.leg l) : d.modLeg l f = d := by
  unfold Dev.modLeg Dev.putLeg
  rw [h]
  obtain ⟨_, ⟨_, _, _, _⟩, _⟩ := d
  fin_cases l <;> rfl

/-- A change of a leg depends only on what it makes of that leg. -/
theorem Dev.modLeg_congr (d : Dev) (l : Fin 4) (f g : Leg → Leg) (h : f (d.leg l) = g (d.leg l)) : d.modLeg l f = d.modLeg l g := by
  unfold Dev.modLeg
  rw [h]

/-- In operation an event of the blocks is its effect on them. -/
theorem State.running_eq {s : State} (h : s.phase = .running) (f : Env → Dev → Dev) :
    s.running f = { s with dev := f s.env s.dev } := if_pos h

/-- Outside operation nothing happens in the blocks (R178). -/
theorem State.running_eq_self {s : State} (h : s.phase ≠ .running) (f : Env → Dev → Dev) : s.running f = s := if_neg h

/-- Answers that differ in the blocks only. -/
theorem State.next_dev_congr {s : State} {d d' : Dev} (h : d = d') :
    (Host.Outcome.next { s with dev := d } : Answer) = .next { s with dev := d' } := by rw [h]

/-- An event that leaves the blocks as they are leaves the machine as it is. -/
theorem State.next_dev_self {s : State} {d : Dev} (h : d = s.dev) :
    (Host.Outcome.next { s with dev := d } : Answer) = .next s := by rw [h]

end Sys2Proof.Machine
end

