-- ==== Sys2Proof/Laws/Outcome.lean ====
section
/-! SUPPORT. What a level update, a halt, a hold and the end of a record say in the words of the statements. -/

namespace Sys2Proof.Machine

/-- A record's plan is part of its core. -/
theorem Rec.plan_of_core {x y : Rec} (h : x.core = y.core) : x.plan = y.plan := by
  have e : ∀ z : Rec, z.plan = { z.core with level := 0, levelFresh := false, levelWanted := false } := fun _ => rfl
  rw [e, e, h]

variable {d : Dev}

/-! ## Level updates (R25) -/

/-- A change of the record with a drop address changes records only. -/
theorem Dev.modSource_eq (d : Dev) (l : Fin 4) (src : BitVec 12) (f : Rec → Rec) :
    d.modSource l src f = { d with recs := (d.modSource l src f).recs } := by
  unfold Dev.modSource; split <;> rfl

theorem Dev.modSource_recs_wf (h : Sparse.wf Rec.vacant d.recs = true) (l : Fin 4) (src : BitVec 12) (f : Rec → Rec) :
    Sparse.wf Rec.vacant (d.modSource l src f).recs = true := by
  unfold Dev.modSource; split
  · exact Dev.modRec_recs_wf _ _ _ h
  · exact h

/-- A change that keeps the plan of the record it finds keeps every record's plan. -/
theorem Dev.modSource_plan (h : Sparse.wf Rec.vacant d.recs = true) (l : Fin 4) (src : BitVec 12) {f : Rec → Rec}
    (hf : ∀ x, (f x).plan = x.plan) (r : Nat) : ((d.modSource l src f).record r).plan = (d.record r).plan := by
  unfold Dev.modSource; split
  · rename_i p _
    by_cases hq : r = p.1
    · subst hq; rw [Dev.modRec_record_self _ _ _ h]; exact hf _
    · rw [Dev.modRec_record_ne _ _ _ _ hq]
  · rfl

/-- R25: an answer's level update is a change of the level, and of its flags, of the record it comes from, or nothing. -/
theorem Dev.answerLevel_cases (d : Dev) (l : Fin 4) (x : InFlight) (src : BitVec 12) (code : ReplyCode) (v : Byte) :
    d.answerLevel l x src code v = d ∨
      ∃ f : Rec → Rec, (∀ y, (f y).plan = y.plan) ∧ d.answerLevel l x src code v = d.modSource l src f := by
  unfold Dev.answerLevel
  split
  · split
    · exact Or.inr ⟨fun y => { y with level := v }, fun _ => rfl, rfl⟩
    · exact Or.inr ⟨fun y => y.setLevel v, fun _ => rfl, rfl⟩
  · exact Or.inl rfl

/-- R25: a level update changes no record's plan, and records only. -/
theorem Dev.levelUpdate_plan (h : Sparse.wf Rec.vacant d.recs = true) (l : Fin 4) (src : BitVec 12) (v : Byte) (r : Nat) :
    ((d.levelUpdate l src v).record r).plan = (d.record r).plan :=
  Dev.modSource_plan h l src (f := fun x => x.setLevel v) (fun _ => rfl) r

theorem Dev.levelUpdate_recs_wf (h : Sparse.wf Rec.vacant d.recs = true) (l : Fin 4) (src : BitVec 12) (v : Byte) :
    Sparse.wf Rec.vacant (d.levelUpdate l src v).recs = true := Dev.modSource_recs_wf h l src _

theorem Dev.levelUpdate_eq (d : Dev) (l : Fin 4) (src : BitVec 12) (v : Byte) :
    d.levelUpdate l src v = { d with recs := (d.levelUpdate l src v).recs } := Dev.modSource_eq d l src _

theorem Dev.levelUpdate_leg (d : Dev) (l k : Fin 4) (src : BitVec 12) (v : Byte) : (d.levelUpdate l src v).leg k = d.leg k := by
  rw [Dev.levelUpdate_eq]; rfl

/-- R25: an answer's level update changes no record's plan, and records only. -/
theorem Dev.answerLevel_plan (h : Sparse.wf Rec.vacant d.recs = true) (l : Fin 4) (x : InFlight) (src : BitVec 12) (code : ReplyCode)
    (v : Byte) (r : Nat) : ((d.answerLevel l x src code v).record r).plan = (d.record r).plan := by
  rcases Dev.answerLevel_cases d l x src code v with e | ⟨f, hf, e⟩
  · rw [e]
  · rw [e]; exact Dev.modSource_plan h l src hf r

theorem Dev.answerLevel_recs_wf (h : Sparse.wf Rec.vacant d.recs = true) (l : Fin 4) (x : InFlight) (src : BitVec 12)
    (code : ReplyCode) (v : Byte) : Sparse.wf Rec.vacant (d.answerLevel l x src code v).recs = true := by
  rcases Dev.answerLevel_cases d l x src code v with e | ⟨f, _, e⟩
  · rw [e]; exact h
  · rw [e]; exact Dev.modSource_recs_wf h l src f

theorem Dev.answerLevel_eq (d : Dev) (l : Fin 4) (x : InFlight) (src : BitVec 12) (code : ReplyCode) (v : Byte) :
    d.answerLevel l x src code v = { d with recs := (d.answerLevel l x src code v).recs } := by
  rcases Dev.answerLevel_cases d l x src code v with e | ⟨f, _, e⟩
  · rw [e]
  · rw [e]; exact Dev.modSource_eq d l src f

/-! ## Stopping a record -/

/-- R13, R124: what halting the record in state `st` does, in the words of the statements. -/
theorem Dev.halt_spec (h : Sparse.wf Rec.vacant d.recs = true) (r : Nat) (f : FaultCode) (st : RecState)
    (hs : (d.record r).state = st) :
    haltedWith d (d.halt r f) r f st ∧ ((d.halt r f).record r).label = none ∧ othersKeep d (d.halt r f) r ∧
      (∀ l, ((d.halt r f).leg l).core = (d.leg l).core) ∧
      (∀ l, (d.leg l).chan = .free → ((d.halt r f).leg l).chan = .free) := by
  obtain ⟨_, h2, h3, h4, h5, h6⟩ := Dev.haltWith_spec h r f (some (d.record r).state)
  refine ⟨⟨?_, ?_⟩, h3, fun q hq => Rec.plan_of_core (h4 q hq), h5, h6⟩
  · have e := Rec.plan_of_core (x := (d.halt r f).record r)
      (y := { d.record r with state := .halted, stage := some st, fault := f }) (by rw [← hs]; exact h2)
    rw [e]; rfl
  · show (d.halt r f).causes.getLsbD 2 = true
    simp [Dev.halt, Dev.haltWith, Dev.latch, Cause.mask, Cause.index]

/-- R8: what holding a record does. -/
theorem Dev.hold_plan (h : Sparse.wf Rec.vacant d.recs = true) (r : Nat) (st : RecState) :
    ((d.hold r st).record r).plan = { (d.record r).plan with state := .held, stage := some st, fault := .none } ∧
      othersKeep d (d.hold r st) r := by
  obtain ⟨_, h2, h3, _, _⟩ := Dev.hold_spec h r st
  refine ⟨?_, fun q hq => Rec.plan_of_core (h3 q hq)⟩
  have e := Rec.plan_of_core (x := (d.hold r st).record r)
    (y := { d.record r with state := .held, stage := some st, fault := .none }) h2
  rw [e]; rfl

/-- R19: what ending a record does to the others. -/
theorem Dev.vacate_plan (h : Sparse.wf Rec.vacant d.recs = true) (r : Nat) :
    (d.vacate r).record r = Rec.vacant ∧ othersKeep d (d.vacate r) r := by
  obtain ⟨_, h2, h3, _, _⟩ := Dev.vacate_spec h r
  exact ⟨h2, fun q hq => Rec.plan_of_core (h3 q hq)⟩

/-- A work offer changes where a record's work stands and nothing of any record's plan. -/
theorem Dev.offerWork_plan (h : Sparse.wf Rec.vacant d.recs = true) (r q : Nat) :
    ((d.offerWork r).record q).plan = (d.record q).plan := Rec.plan_of_core ((Dev.Frame.offerWork h r).keeps.recs q)

end Sys2Proof.Machine
end

