-- ==== Sys2Proof/Tests/Slice0.lean ====
section
/-! SUPPORT. Tests: ill-formed terms that the well-formedness check refuses, a state and operands that meet the hypotheses of each
statement, and small checks of what single commands do. -/

namespace Sys2Proof.Machine.Slice0

open Sys2Proof Sys2Proof.Machine

set_option Elab.async false

/-! ## Well-formedness: each check refuses an ill-formed term -/

theorem test_wf_reply_data_over_eight : (Instr.replyBurst 0 1 0 .ok (List.replicate 9 0) 5 0 none).wf = false := by decide
theorem test_wf_reply_data_without_ok : (Instr.replyBurst 0 1 0 .refused [1] 5 0 none).wf = false := by decide
theorem test_wf_reply_level_zero : (Instr.replyBurst 0 1 0 .ok [] 0 0 none).wf = false := by decide
theorem test_wf_reply : (Instr.replyBurst 0 1 0 .ok [1, 2] 5 0 none).wf = true := by decide
theorem test_wf_hail_level_zero : (Instr.decodedHail 0 1 0 0 0 0).wf = false := by decide
theorem test_wf_stray_hail_level_zero : (Instr.strayHailFormatBurst 0 1 0 0 0 none).wf = false := by decide
theorem test_wf_survey_lit_over_2048 : (Instr.surveyWindowEnd 0 2049).wf = false := by decide
theorem test_wf_mirrored_no_byte : (Instr.mirroredWrite (.config 0) 0 0).wf = false := by decide
theorem test_wf_watched_no_byte : (Instr.watchedWrite 0 0 0).wf = false := by decide
theorem test_wf_commit_no_byte : (Instr.commit 0 0).wf = false := by decide
theorem test_wf_clear_no_byte : (Instr.clearWrite 0 0).wf = false := by decide
theorem test_wf_tail_no_byte : (Instr.tailWrite 0 0).wf = false := by decide
theorem test_wf_go_no_byte : (Instr.go 0 1 0).wf = false := by decide
theorem test_wf_go_other_value : (Instr.go 0 2 1).wf = false := by decide
theorem test_wf_abort_other_value : (Instr.abort 0 1 1).wf = false := by decide
theorem test_wf_clear_other_value : (Instr.clear 0 1 1).wf = false := by decide
theorem test_wf_invalid_names_an_act : (Instr.invalidIssueValue 0 3 1).wf = false := by decide
theorem test_wf_issue_values : (Instr.go 0 1 1).wf ∧ (Instr.abort 0 2 1).wf ∧ (Instr.clear 0 3 1).wf ∧
    (Instr.invalidIssueValue 0 4 1).wf ∧ (Instr.go 0 0 2).wf := by decide

/-! ## Small states -/

/-- A leg's applied fields: reach target 40,000, window 2, attempts 3, spacing 4, window lengths 2, threshold 30, stray limit 5. -/
def legCfg : LegConfig :=
  { enable := true, reach := 40000, replyWin := 2, attempts := 3, spacing := 4, hailMode := .continuous, pace := 64, hailLen := 2
    surveyLen := 2, threshold := 30, strayLimit := 5, autoHunt := true, minLevel := 40 }

/-- An applied configuration with leg 0 on. -/
def cfg : Applied :=
  { mask := 0x1FF, rehailLimit := 3, rangeTol := 6, ringCap := 16, leg0 := legCfg, leg1 := .zero, leg2 := .zero, leg3 := .zero }

/-- A running leg with nothing to do. -/
def runLeg : Leg := { Leg.afterReset false with st := .running, mode := .continuous, timer := 10, running := true, reload := 64 }

/-- The part with leg 0 as given and a roster. -/
def base (g : Leg) (recs : List (Nat × Rec)) : State :=
  { State.reset with
    cycle := 100, applied := cfg, dev := { State.reset.dev with recs := recs, legs := { State.reset.dev.legs with l0 := g } } }

/-- A record of leg 0 at drop address 0x123 in a state, with no profile. -/
def recAt (st : RecState) : Rec :=
  { Rec.vacant with
    enrol := { Enrolment.zero with serial := 0xA5, addr := 0x123, noProfile := true }
    state := st, fault := if st = .halted then .noAnswer else .none }

/-- A directive of an origin in flight with tag 7, sent once in cycle `c`. -/
def flight (b : Body) (o : Origin) (c : BitVec 16) : InFlight :=
  { dir := ⟨.individual 0x123, b⟩, origin := o, phase := .listening c, reach := 40000, tag := some 7, sends := 1, attempts := 3
    spacing := 4, window := 2, unsettled := false, call := none, disturbed := false, data := [] }

/-- Leg 0 with that directive on its channel. -/
def flying (x : InFlight) : Leg := { runLeg with chan := .directive x, tagCtr := 8 }

/-- A slot with a captured command. -/
def slotWith (st : SlotState) (ps : List Nat) : Slot := { Slot.idle with st := st, params := ps.map fun v => BitVec.ofNat 32 v }

/-- A state whose slot 3 is at the front of the intake order with a captured command. -/
def queued (s : State) (ps : List Nat) : State :=
  { s with dev := { s.dev with slots := [(3, slotWith .queued ps)], intake := [3] } }

/-- A state with slot 3 RUNNING a captured command. -/
def busySlot (s : State) (ps : List Nat) : State := { s with dev := { s.dev with slots := [(3, slotWith .running ps)] } }

/-- What a command makes of a state; the state itself if it answered no next one. -/
def after (c : Instr) (s : State) : State :=
  match exec c s with
  | .next t => t
  | .fault _ => s
  | .refused _ => s

/-! ## The invariant, decided -/

/-- The conditions of the invariant on one record, as a check. -/
def fieldsCheck (x : Rec) : Bool :=
  decide (x.stage = none ∨ x.state = .held ∨ x.state = .halted) && decide ((x.fault ≠ .none) = (x.state = .halted))

/-- The conditions of the invariant on one leg, as a check. -/
def legCheck (g : Leg) : Bool :=
  Sparse.wf 0 g.slotMap && decide (g.queue.length ≤ queueCap) && (g.waiting.isEmpty || decide (g.queue.length = queueCap)) &&
    decide ((g.st ≠ .dark ∧ g.st ≠ .faulted) ∨ g.chan = .free)

/-- The invariant as a check. -/
def invCheck (s : State) : Bool :=
  Sparse.wf Rec.vacant s.dev.recs && Sparse.wf Slot.idle s.dev.slots && Sparse.wf Pin.free s.dev.pins &&
  allLegs.all (fun l => legCheck (s.dev.leg l)) && s.dev.recs.all (fun p => fieldsCheck p.2) &&
  decide (s.dev.ring.head < s.applied.ringCap ∧ s.dev.ring.tail < s.applied.ringCap ∧ 16 ≤ s.applied.ringCap ∧ s.applied.ringCap ≤ 384) &&
  decide ((s.bus.port = .engine) = (s.dev.burst.isSome = true)) &&
  decide ((s.bus.port = .controller) = (s.bus.passing.isSome = true)) &&
  decide (s.dev.requests.Nodup) && decide (s.bus.passCount ≤ passLimit) &&
  decide (s.phase = .running ∨ (s.bus.port = .free ∧ s.dev.requests = []))

theorem fieldsKept_of_check {x : Rec} (h : fieldsCheck x = true) : x.fieldsKept := by
  simp only [fieldsCheck, Bool.and_eq_true, decide_eq_true_eq] at h
  exact ⟨fun hs => h.1.resolve_left hs, iff_of_eq h.2⟩

theorem get_kept (m : List (Nat × Rec)) (h : m.all (fun p => fieldsCheck p.2) = true) (r : Nat) :
    (Sparse.get Rec.vacant m r).fieldsKept := by
  induction m with
  | nil => exact fieldsKept_of_check (x := Rec.vacant) (by decide)
  | cons p m ih =>
    obtain ⟨k, x⟩ := p
    simp only [List.all_cons, Bool.and_eq_true] at h
    simp only [Sparse.get]
    split
    · exact fieldsKept_of_check h.1
    · exact ih h.2

theorem legKept_of_check {g : Leg} (h : legCheck g = true) : Sparse.wf 0 g.slotMap = true ∧ g.queueKept ∧ g.channelKept := by
  simp only [legCheck, Bool.and_eq_true, decide_eq_true_eq, Bool.or_eq_true, List.isEmpty_iff] at h
  obtain ⟨⟨⟨h1, h2⟩, h3⟩, h4⟩ := h
  refine ⟨h1, ⟨h2, fun hw => h3.resolve_left hw⟩, fun hs => ?_⟩
  rcases h4 with ⟨a, b⟩ | h4
  · rcases hs with hs | hs
    · exact absurd hs a
    · exact absurd hs b
  · exact h4

/-- A state that passes the check satisfies the invariant. -/
theorem inv_of_check {s : State} (h : invCheck s = true) : s.Inv := by
  simp only [invCheck, Bool.and_eq_true, decide_eq_true_eq] at h
  obtain ⟨⟨⟨⟨⟨⟨⟨⟨⟨⟨h1, h2⟩, h3⟩, h4⟩, h5⟩, h6, h7, h8, h9⟩, h10⟩, h11⟩, h12⟩, h13⟩, h14⟩ := h
  have hl : ∀ l, legCheck (s.dev.leg l) = true := by
    intro l
    have := List.all_eq_true.mp h4 l (by fin_cases l <;> decide)
    exact this
  refine ⟨⟨⟨h1, h2, h3, fun l => (legKept_of_check (hl l)).1⟩, fun l => (legKept_of_check (hl l)).2, fun r => get_kept _ h5 r,
    ⟨h6, h7⟩, h8, h9⟩, iff_of_eq h10, iff_of_eq h11, h12, h13, fun hp => h14.resolve_left hp⟩

/-! ## The hypotheses of each statement are met

One theorem for each statement that has hypotheses, or for each group of its clauses: a state and operands that meet all of the
hypotheses of the clause together. -/

theorem base_accepts (g : Leg) (recs : List (Nat × Rec)) : (base g recs).accepts := ⟨rfl, rfl, Or.inl rfl, Or.inl rfl⟩
theorem base_canonical (g : Leg) (recs : List (Nat × Rec)) : (base g recs).contentsCanonical := ⟨rfl, rfl⟩

/-- Leg 0 running with nothing to do and an empty roster. -/
def s0 : State := base runLeg []

/-- Leg 0 running, record 5 on it in a state. -/
def sRec (st : RecState) : State := base runLeg [(5, recAt st)]

/-- Leg 0 with a directive of an origin in flight since cycle `c`, record 5 on it in a state. -/
def sFly (st : RecState) (b : Body) (o : Origin) (c : BitVec 16) : State := base (flying (flight b o c)) [(5, recAt st)]

theorem s0_inv : s0.Inv := inv_of_check (by decide +kernel)
theorem sRec_inv_expected : (sRec .expected).Inv := inv_of_check (by decide +kernel)

theorem hyp_StepRunsFrontCommand : State.reset.pending = [] := rfl

theorem hyp_EveryStepKeepsTheInvariant : ∃ s t : State, s.Inv ∧ step s = .next t ∧ t ≠ s :=
  ⟨{ s0 with pending := [.cycleStart] }, after .cycleStart s0, inv_of_check (by decide +kernel), rfl, by decide +kernel⟩

theorem hyp_EveryStepKeepsContentsCanonical : ∃ s t : State, s.contentsCanonical ∧ step s = .next t ∧ t ≠ s :=
  ⟨{ s0 with pending := [.commit 0 1] }, after (.commit 0 1) s0, ⟨rfl, rfl⟩, rfl, by decide +kernel⟩

/-! ### RESETn and the bus -/

/-- The controller's word write of a region offset. -/
def wr (off : Nat) (data : Word) : Access := ⟨regionAddr 0 off, data, 0xF, true⟩

/-- A ring entry that waits to be written. -/
def entry : RingEntry :=
  { serial := 0xA6, leg := 0, disp := .stray, kind := 1, count := 2, cycle := 97, level := 50, rec_ := none }

/-- A ring entry's burst has the port. -/
def sRingBurst : State :=
  { s0 with
    bus := { Bus.afterReset with port := .engine }
    dev := { s0.dev with burst := some .ring, ring := { Ring.afterReset with writeList := [entry] } } }

theorem hyp_ResetAssertedCutsTheBus :
    (sRingBurst.contentsCanonical ∧ sRingBurst.phase ≠ .low ∧ sRingBurst.dev.burst = some .ring ∧ sRingBurst.bus.passing = none ∧
      sRingBurst.dev.ring.writeList ≠ []) ∧
    s0.contentsCanonical ∧ s0.phase ≠ .low ∧ ({ s0 with phase := .low } : State).contentsCanonical :=
  ⟨⟨⟨rfl, rfl⟩, by decide, rfl, rfl, by decide⟩, ⟨rfl, rfl⟩, by decide, ⟨rfl, rfl⟩⟩

theorem hyp_ResetReleasedThenCleared :
    ({ s0 with phase := .low } : State).phase = .low ∧
    (let s : State := { s0 with phase := .clearing }
     s.phase = .clearing ∧ s.bus.port = .free ∧ s.bus.held = none) ∧
    (let s : State := { s0 with phase := .clearing, bus := { Bus.afterReset with held := some (wr 0 7) } }
     s.phase = .clearing ∧ s.bus.port = .free ∧ s.bus.held = some (wr 0 7) ∧ (wr 0 7).write = true) ∧
    (let s : State := { s0 with phase := .clearing, bus := { Bus.afterReset with held := some ⟨0x10C, 0, 0xF, false⟩ } }
     s.phase = .clearing ∧ s.bus.port = .free ∧ s.bus.held = some ⟨0x10C, 0, 0xF, false⟩) := by
  decide

/-- An engine burst has the port. -/
def sEngine : State :=
  { s0 with bus := { Bus.afterReset with port := .engine }, dev := { s0.dev with burst := some (.fetch ⟨0, 0, 16⟩ true) } }

theorem hyp_AccessIsHeldOffThePort :
    (accessOf 0 (.commit 7 0xF) = some (wr offCommit 7) ∧ sEngine.bus.held = none ∧
      sEngine.bus.port = .engine ∧ sEngine.usesPort (wr offCommit 7) = true) ∧
    (let s : State := { s0 with phase := .low }
     accessOf s.base (.passedWrite 0xFFFFFF 7 0xF) = some ⟨0xFFFFFF, 7, 0xF, true⟩ ∧ s.bus.held = none ∧ s.phase ≠ .running) := by
  decide

/-- A controller access stands on the port. -/
def sPassing : State :=
  { s0 with bus := { Bus.afterReset with port := .controller, passing := some ⟨wr 0 7, 0⟩ } }

theorem hyp_PassedWriteByClass :
    (s0.accepts ∧ s0.contentsCanonical ∧ inRegion s0.base 0xFFFFFF = false) ∧
    classOf (wordOffset 0x0000F8) = .plain ∧ classOf (wordOffset 0x007FFF) = .plain ∧
    ((0 : BitVec 4) = 0 ∧ liveClass (classOf (wordOffset 0x0000FC)) = false) ∧
    (s0.phase = .running ∧ s0.bus.held = none ∧ inRegion s0.base 0x0000F0 = true ∧
      liveClass (classOf (wordOffset 0x0000F0)) = true ∧ s0.bus.port ≠ .controller) ∧
    (sPassing.bus.port = .controller ∧ sPassing.bus.held = none ∧ sPassing.dev.requests = []) :=
  ⟨⟨base_accepts _ _, base_canonical _ _, by decide⟩, by decide, by decide, by decide, by decide, by decide⟩

theorem hyp_MirroredWriteSetsMirrorAndMemory : s0.accepts ∧ s0.contentsCanonical ∧ (1 : BitVec 4) ≠ 0 :=
  ⟨base_accepts _ _, base_canonical _ _, by decide⟩

/-- Record 5 in LOADING a profile of 32 bytes at store offset 0, the one user of pin-table entry 0. -/
def sLoading (g : Leg) : State :=
  let r := { recAt .loading with enrol := { (recAt .loading).enrol with noProfile := false, lenCode := 31 }, pin := some 0 }
  let s := base g [(5, r)]
  { s with dev := { s.dev with pins := [(0, { st := .openEntry, start := 0, lenCode := 31, users := 1 })] } }

/-- Its LOAD of chunk 0. -/
def loadBody : Body := .load 0 0 .inc 0 16 false

theorem hyp_WatchedWriteReachesTheLoadEngine :
    (s0.accepts ∧ s0.contentsCanonical ∧ s0.Inv ∧ s0.dev.touchedPins (4 * 8191) 0xF = []) ∧
    (let s := sLoading runLeg
     s.accepts ∧ s.contentsCanonical ∧ s.Inv ∧ s.dev.touchedPins (4 * 7) 8 = [0] ∧ s.dev.touchedPins (4 * 8) 0xF = [] ∧
      s.dev.pinUsers 0 = [5] ∧ (s.dev.record 5).state = .loading ∧ (s.dev.leg 0).loadFlight 5 = false) ∧
    (let s := sLoading (flying (flight loadBody (.record 5) 100))
     s.accepts ∧ s.contentsCanonical ∧ s.Inv ∧ s.dev.touchedPins 0 1 = [0] ∧ s.dev.pinUsers 0 = [5] ∧
      (s.dev.record 5).state = .loading ∧ (s.dev.leg 0).loadFlight 5 = true) :=
  ⟨⟨base_accepts _ _, base_canonical _ _, s0_inv, by decide +kernel⟩,
   ⟨⟨rfl, rfl, Or.inl rfl, Or.inl rfl⟩, ⟨rfl, rfl⟩, inv_of_check (by decide +kernel), by decide +kernel⟩,
   ⟨⟨rfl, rfl, Or.inl rfl, Or.inl rfl⟩, ⟨rfl, rfl⟩, inv_of_check (by decide +kernel), by decide +kernel⟩⟩

theorem hyp_LevelReadMarksAndMayQueue :
    (let s := sRec .active
     s.phase = .running ∧ s.bus.held = none ∧ s.bus.port ≠ .controller ∧ (s.dev.record (5 : Fin 256)).state ≠ .vacant) ∧
    (sRec .active).Inv ∧
    (s0.phase = .running ∧ s0.bus.held = none ∧ s0.bus.port ≠ .controller ∧ s0.dev.record (255 : Fin 256) = Rec.vacant) ∧
    ((sRec .active).dev.record 5 ≠ Rec.vacant ∧ (0 : BitVec 4) = 0) ∧
    (inRegion s0.base 0x0000F0 = true ∧ classOf (wordOffset 0x0000F0) = .live ∧ classOf (wordOffset 0x004FFB) = .live) ∧
    (s0.accepts ∧ inRegion s0.base 0x010000 = false ∧ liveClass (classOf (wordOffset 0x0000EF)) = false ∧
      liveClass (classOf (wordOffset 0x00FFFF)) = false) :=
  ⟨by decide +kernel, inv_of_check (by decide +kernel), by decide +kernel, by decide +kernel, by decide +kernel,
   base_accepts _ _, by decide +kernel⟩

/-- A FREE, a passing and a waiting access; an engine request behind it; each clause of a freed port at its pass count. -/
theorem hyp_AccessCompletesOrIsWithdrawn :
    (sPassing.phase = .running ∧ sPassing.bus.held = none ∧ sPassing.bus.port = .controller ∧ sPassing.dev.requests = []) ∧
    (s0.phase = .running ∧ s0.bus.port ≠ .controller) ∧
    (let s : State := { sRingBurst with bus := { Bus.afterReset with held := some (wr 0 7), passCount := 7 } }
     s.bus.held = some (wr 0 7) ∧ s.bus.passCount < 8) ∧
    (let s : State := { sRingBurst with
       bus := { Bus.afterReset with held := some (wr 0 7), passCount := 8 }, dev := { sRingBurst.dev with requests := [.ring] } }
     s.bus.passCount = 8 ∧ s.dev.requests = .ring :: [] ∧ s.dev.ring.full s.applied.ringCap = false) ∧
    (let s : State := { s0 with dev := { s0.dev with requests := [.load], fetches := [⟨0, 0, 16⟩] } }
     s.bus.held = none ∧ s.dev.requests = .load :: [] ∧ s.dev.fetches = ⟨0, 0, 16⟩ :: []) ∧
    (let s : State := { sPassing with bus := { sPassing.bus with held := some (wr (offConfig 0) 7) } }
     s.phase = .running ∧ s.bus.held = some (wr (offConfig 0) 7) ∧ s.usesPort (wr (offConfig 0) 7) = true ∧
       accessOf s.base (.mirroredWrite (.config 0) 7 0xF) = some (wr (offConfig 0) 7) ∧ Mirrors.word s.freePort.mirrors (offConfig 0) = 7) := by
  decide +kernel

/-! ### Attention, tail, issue words -/

theorem hyp_ClearWriteClearsNamedCauses : s0.accepts ∧ s0.contentsCanonical ∧ (1 : BitVec 4) ≠ 0 :=
  ⟨base_accepts _ _, base_canonical _ _, by decide⟩

theorem hyp_TailWriteMovesTheTail :
    s0.accepts ∧ s0.contentsCanonical ∧ s0.applied.ringCap = 16 ∧
      field (mergeBytes 0xF 15 (Mirrors.word s0.mirrors offTail)) 0 16 = 15 ∧
      field (mergeBytes 0xF 16 (Mirrors.word s0.mirrors offTail)) 0 16 = 16 :=
  ⟨base_accepts _ _, base_canonical _ _, rfl, by decide +kernel⟩

theorem hyp_IssueWriteActsOnTheSlot :
    s0.accepts ∧ s0.contentsCanonical ∧ s0.Inv ∧ (1 : BitVec 4) ≠ 0 ∧ (s0.dev.slot (15 : Fin 16)).st = .idle ∧
      ([0, 1, 2, 3, 4, 255].map fun v : Nat => field (mergeBytes 1 (BitVec.ofNat 32 v) (Mirrors.word s0.mirrors (offIssue 15))) 0 8) =
        [0, 1, 2, 3, 4, 255] :=
  ⟨base_accepts _ _, base_canonical _ _, s0_inv, by decide, by decide +kernel⟩

theorem hyp_IssueWriteActsOnTheSlot_queued :
    (queued s0 [10, 0]).accepts ∧ (queued s0 [10, 0]).contentsCanonical ∧ (queued s0 [10, 0]).Inv ∧
      ((queued s0 [10, 0]).dev.slot (3 : Fin 16)).st = .queued :=
  ⟨⟨rfl, rfl, Or.inl rfl, Or.inl rfl⟩, ⟨rfl, rfl⟩, inv_of_check (by decide +kernel), by decide +kernel⟩

/-- Slot 3 RUNNING a PEEK that is in flight on leg 0 since cycle `c`. -/
def sPeek (c : BitVec 16) : State := busySlot (sFly .active (.peek 0 2) (.cmd 3) c) [4, 5, 0, 2]

theorem sPeek_inv : (sPeek 100).Inv := inv_of_check (by decide +kernel)

theorem hyp_AbortAbandonsTheDirective :
    (sPeek 100).accepts ∧ (sPeek 100).contentsCanonical ∧ (sPeek 100).Inv ∧ (1 : BitVec 4) ≠ 0 ∧
      field (mergeBytes 1 2 (Mirrors.word (sPeek 100).mirrors (offIssue (3 : Fin 16)))) 0 8 = 2 ∧
      ((sPeek 100).dev.slot (3 : Fin 16)).st = .running ∧ examRow ((sPeek 100).dev.slot 3).params = .peek ∧
      ((sPeek 100).dev.leg 0).chan = .directive (flight (.peek 0 2) (.cmd 3) 100) ∧
      (flight (.peek 0 2) (.cmd 3) 100).dir.target.isMany = false ∧
      (∀ k, k ≠ 0 → ((sPeek 100).dev.leg k).fliesCmd 3 = false ∧ ((sPeek 100).dev.leg k).queuesCmd 3 = false) :=
  ⟨⟨rfl, rfl, Or.inl rfl, Or.inl rfl⟩, ⟨rfl, rfl⟩, sPeek_inv, by decide, by decide +kernel⟩

/-- Slot 3's HUNT is STARTING behind a LEVEL of record 5, which is owed an UNMUTE and whose level has been read. -/
def sLevelFlying : State :=
  busySlot (base { flying (flight .level (.level 5) 99) with hunt := { Hunt.idle with phase := .starting, owner := some 3 } }
    [(5, { recAt .active with muted := true, levelWanted := true })]) [9, 0]

/-- R157: its ABORT drops the LEVEL; LEVEL_WANTED stands. -/
theorem hyp_AbortAbandonsTheDirective_level :
    let t := after (.abort 3 2 1) sLevelFlying
    sLevelFlying.Inv ∧ (sLevelFlying.dev.leg 0).chan = .directive (flight .level (.level 5) 99) ∧ sLevelFlying.dev.mutedOn 0 = [5] ∧
      (t.dev.leg 0).chan = .free ∧ (t.dev.leg 0).queue = [⟨⟨.individual 0x123, .unmute⟩, .record 5⟩] ∧
      (t.dev.record 5).levelWanted = true :=
  ⟨inv_of_check (by decide +kernel), by decide +kernel⟩

/-- A passed ABORT of slot 3, RUNNING a captured command. -/
theorem aborts_of (s : State) (h : s.accepts) (hc : s.contentsCanonical) (hi : invCheck s = true) (hm : s.mirrors = [])
    (hr : (s.dev.slot (3 : Fin 16)).st = .running) : s.abortsRunning 3 2 1 :=
  ⟨h, hc, inv_of_check hi, by decide, by rw [hm]; decide +kernel, hr⟩

/-- Leg 0 with an estate CALL of slot 3 in flight and one address answered. -/
def sGroup : State :=
  busySlot (base (flying { flight (.call [1]) (.cmd 3) 96 with
    dir := ⟨.estate, .call [1]⟩, call := some ⟨[1, 2], [2], true, false, false, [9]⟩ }) []) [6, 0, 0xEFF, 1, 1]

/-- Slot 3's PEEK between two other entries of leg 0's queue. -/
def sQueuedPeek : State :=
  let e k : Entry := ⟨⟨.individual 1, .level⟩, .level k⟩
  busySlot (base { runLeg with queue := [e 5, ⟨⟨.individual 0x123, .peek 0 2⟩, .cmd 3⟩, e 6] } []) [4, 5, 0, 2]

/-- Slot 3's SURVEY of leg 0: alone in the window and beside another in the pending survey. -/
def sSurveying : State :=
  busySlot (base { runLeg with
    pendSurvey := some ⟨false, [2, 3], false⟩
    chan := .survey { since := 95, reach := 40000, reqs := ⟨false, [3], false⟩, opened := none, lit := 0 } } []) [8, 0]

/-- Slot 3's HUNT of leg 0 with record 5 muted. -/
def sHunting : State :=
  busySlot (base { runLeg with st := .hunting, hunt := { Hunt.idle with phase := .surveying, owner := some 3, steps := 2 } }
    [(5, { recAt .active with muted := true })]) [9, 0]

theorem hyp_AbortAbandonsTheDirective_more :
    (sGroup.abortsRunning 3 2 1 ∧ examRow (sGroup.dev.slot (3 : Fin 16)).params = .groupCall ∧
      ∀ k, k ≠ 0 → (sGroup.dev.leg k).fliesCmd 3 = false ∧ (sGroup.dev.leg k).queuesCmd 3 = false) ∧
    (sQueuedPeek.abortsRunning 3 2 1 ∧ examRow (sQueuedPeek.dev.slot (3 : Fin 16)).params = .peek ∧
      ∀ k, (sQueuedPeek.dev.leg k).fliesCmd 3 = false) ∧
    (sSurveying.abortsRunning 3 2 1 ∧ examRow (sSurveying.dev.slot (3 : Fin 16)).params = .survey ∧
      paramNat (sSurveying.dev.slot (3 : Fin 16)).params 1 = 0) ∧
    ((busySlot s0 [8, 4]).abortsRunning 3 2 1 ∧ examRow ((busySlot s0 [8, 4]).dev.slot (3 : Fin 16)).params = .allSurvey) ∧
    (sHunting.abortsRunning 3 2 1 ∧ examRow (sHunting.dev.slot (3 : Fin 16)).params = .hunt ∧
      (sHunting.dev.leg 0).hunt.owner = some 3 ∧ (∀ k, k ≠ 0 → (sHunting.dev.leg k).hunt.owner ≠ some 3) ∧
      (sHunting.dev.leg 0).queuesCmd 3 = false ∧ sHunting.dev.mutedOn 0 = [5]) := by
  have h (s : State) (h1 : s.phase = .running) (h2 : s.bus = .afterReset) (h3 : s.dev.requests = []) : s.accepts :=
    ⟨h1, by rw [h2]; rfl, Or.inl (by rw [h2]; rfl), Or.inl h3⟩
  exact ⟨⟨aborts_of _ (h _ rfl rfl rfl) ⟨rfl, rfl⟩ (by decide +kernel) rfl (by decide +kernel), by decide +kernel⟩,
    ⟨aborts_of _ (h _ rfl rfl rfl) ⟨rfl, rfl⟩ (by decide +kernel) rfl (by decide +kernel), by decide +kernel⟩,
    ⟨aborts_of _ (h _ rfl rfl rfl) ⟨rfl, rfl⟩ (by decide +kernel) rfl (by decide +kernel), by decide +kernel⟩,
    ⟨aborts_of _ (h _ rfl rfl rfl) ⟨rfl, rfl⟩ (by decide +kernel) rfl (by decide +kernel), by decide +kernel⟩,
    ⟨aborts_of _ (h _ rfl rfl rfl) ⟨rfl, rfl⟩ (by decide +kernel) rfl (by decide +kernel), by decide +kernel⟩⟩

theorem test_aborts :
    (let t := after (.abort 3 2 1) sGroup
     (t.dev.leg 0).chan = .free ∧ t.dev.slot 3 = { sGroup.dev.slot 3 with
       st := .done, result := .aborted, detail := { len := 0, a := 1, b := 1, w14 := packHalves 2 1, w15 := 1 } }) ∧
    (let t := after (.abort 3 2 1) sQueuedPeek
     (t.dev.leg 0).queue.length = 2 ∧ (t.dev.slot 3).detail = .zero ∧ (t.dev.slot 3).result = .aborted) ∧
    (let t := after (.abort 3 2 1) sSurveying
     (t.dev.leg 0).chan = .free ∧ (t.dev.leg 0).pendSurvey = some ⟨false, [2], false⟩) ∧
    (let t := after (.abort 3 2 1) sHunting
     (t.dev.leg 0).hunt = { Hunt.idle with steps := 2, lastResult := .aborted } ∧ (t.dev.leg 0).st = .running ∧
       (t.dev.leg 0).queue = [⟨⟨.individual 0x123, .unmute⟩, .record 5⟩] ∧
       t.dev.slot 3 = { sHunting.dev.slot 3 with
         st := .done, result := .aborted
         detail := { Detail.zero with a := HuntResult.aborted.code, b := 2, w14 := 0xFFFF } }) := by
  decide +kernel

/-! ### Configuration -/

/-- The values of a leg's thirteen fields: the enable, the hail mode and else each field's lowest value but one. -/
def legValues (enable mode : Nat) : List Nat := [enable, 40000, 2, 3, 4, mode, 64, 2, 2, 30, 5, 1, 40]

/-- Mirrors that hold a valid configuration block: legs 0 to 3 with the given enables and hail modes. -/
def cfgMirrors (e0 m0 e1 m1 : Nat) : List (Nat × Word) :=
  let vs := [0x1FF, 3, 6, 16] ++ legValues e0 m0 ++ legValues e1 m1 ++ legValues 0 0 ++ legValues 0 0
  (vs.zipIdx.filter fun p => decide (p.1 ≠ 0)).map fun p => (p.2, BitVec.ofNat 32 p.1)

/-- A committing state: leg 0 as given, the mirrors as given. -/
def sCommit (g : Leg) (ms : List (Nat × Word)) : State := { base g [] with mirrors := ms }

theorem commit_accepts (g : Leg) (ms : List (Nat × Word)) : (sCommit g ms).accepts := ⟨rfl, rfl, Or.inl rfl, Or.inl rfl⟩

/-- Leg 0 stays on with its timer running, leg 1 is turned on. -/
theorem hyp_CommitAppliesTheBlock_on :
    let s := sCommit runLeg (cfgMirrors 1 2 1 1)
    s.contentsCanonical ∧ (∀ f, f < 56 → checkField s.applied s.dev f (configValue s.mirrors f) = none) ∧
    ((s.dev.leg 0).st ≠ .dark ∧ ((readApplied s.mirrors).leg 0).enable = true ∧ (s.dev.leg 0).mode ≠ .off ∧
      ((readApplied s.mirrors).leg 0).hailMode ≠ .off ∧ (s.dev.leg 0).running = true) ∧
    ((s.dev.leg 1).st = .dark ∧ ((readApplied s.mirrors).leg 1).enable = true) :=
  ⟨⟨rfl, by decide +kernel⟩, by decide +kernel⟩

/-- Leg 0 is turned off. -/
theorem hyp_CommitAppliesTheBlock_off :
    let s := sCommit runLeg (cfgMirrors 0 2 0 0)
    s.contentsCanonical ∧ (∀ f, f < 56 → checkField s.applied s.dev f (configValue s.mirrors f) = none) ∧
    ((s.dev.leg 0).st ≠ .dark ∧ ((readApplied s.mirrors).leg 0).enable = false) :=
  ⟨⟨rfl, by decide +kernel⟩, by decide +kernel⟩

/-- The hail mode of leg 0 goes from OFF to CONTINUOUS, and from CONTINUOUS to OFF. -/
theorem hyp_CommitAppliesTheBlock_modes :
    (let s := sCommit { runLeg with mode := .off, running := false } (cfgMirrors 1 2 0 0)
     s.contentsCanonical ∧ (∀ f, f < 56 → checkField s.applied s.dev f (configValue s.mirrors f) = none) ∧
     ((s.dev.leg 0).st ≠ .dark ∧ ((readApplied s.mirrors).leg 0).enable = true ∧ (s.dev.leg 0).mode = .off ∧
       ((readApplied s.mirrors).leg 0).hailMode ≠ .off)) ∧
    (let s := sCommit runLeg (cfgMirrors 1 0 0 0)
     s.contentsCanonical ∧ (∀ f, f < 56 → checkField s.applied s.dev f (configValue s.mirrors f) = none) ∧
     ((s.dev.leg 0).st ≠ .dark ∧ ((readApplied s.mirrors).leg 0).enable = true ∧ (s.dev.leg 0).mode ≠ .off ∧
       ((readApplied s.mirrors).leg 0).hailMode = .off)) :=
  ⟨⟨⟨rfl, by decide +kernel⟩, by decide +kernel⟩, ⟨⟨rfl, by decide +kernel⟩, by decide +kernel⟩⟩

/-- Leg 1 is turned on with FLT asserted: LEG_FAULT latches, and CMD_DONE stands. -/
theorem hyp_CommitAppliesTheBlock_fault :
    let b := sCommit runLeg (cfgMirrors 1 2 1 1)
    let s : State := { b with dev := { (b.dev.putLeg 1 (Leg.afterReset true)).latch .cmdDone with ring := b.dev.ring } }
    let t := after (.commit 0 0xF) s
    s.contentsCanonical ∧ (∀ f, f < 56 → checkField s.applied s.dev f (configValue s.mirrors f) = none) ∧
    (s.dev.leg 1).st = .dark ∧ (s.dev.leg 1).flt = true ∧ ((readApplied s.mirrors).leg 1).enable = true ∧
    t.dev.isSet .legFault = true ∧ t.dev.isSet .cmdDone = true ∧ t.dev.isSet .recHalted = false :=
  ⟨⟨rfl, by decide +kernel⟩, by decide +kernel⟩

/-- A pace change on leg 0 with its mode OFF before and after, on leg 1, which stays DARK, and with leg 0's timer running. -/
theorem hyp_CommitAppliesTheBlock_pace :
    (let s := sCommit { runLeg with mode := .off, running := false, reload := 100 } (cfgMirrors 1 0 0 0)
     s.contentsCanonical ∧ (∀ f, f < 56 → checkField s.applied s.dev f (configValue s.mirrors f) = none) ∧
     ((s.dev.leg 0).st ≠ .dark ∧ (s.dev.leg 0).mode = .off ∧ ((readApplied s.mirrors).leg 0).hailMode = .off ∧
       ((readApplied s.mirrors).leg 0).pace ≠ (s.dev.leg 0).reload) ∧
     ((s.dev.leg 1).st = .dark ∧ ((readApplied s.mirrors).leg 1).enable = false ∧
       ((readApplied s.mirrors).leg 1).pace ≠ (s.dev.leg 1).reload)) ∧
    (let g := (after (.commit 0 0xF) (sCommit { runLeg with mode := .off, running := false, reload := 100 } (cfgMirrors 1 0 0 0))).dev.leg 0
     g.timer = 64 ∧ g.running = false) ∧
    ((after (.commit 0 0xF) (sCommit { runLeg with reload := 100 } (cfgMirrors 1 2 0 0))).dev.leg 0).timer = 10 :=
  ⟨⟨⟨rfl, by decide +kernel⟩, by decide +kernel⟩, by decide +kernel, by decide +kernel⟩

/-- The first field that fails is field 1, and with a valid block but for its last field, field 55. -/
theorem hyp_CommitRejectsAsAWhole :
    (s0.accepts ∧ s0.contentsCanonical ∧ checkField s0.applied s0.dev 1 (configValue s0.mirrors 1) = some .range ∧
      (∀ k, k < 1 → checkField s0.applied s0.dev k (configValue s0.mirrors k) = none)) ∧
    (let s := sCommit runLeg (Mirrors.put (cfgMirrors 1 2 0 0) (4 * 55) 256)
     s.accepts ∧ s.contentsCanonical ∧ checkField s.applied s.dev 55 (configValue s.mirrors 55) = some .range ∧
      (∀ k, k < 55 → checkField s.applied s.dev k (configValue s.mirrors k) = none)) :=
  ⟨⟨base_accepts _ _, base_canonical _ _, by decide +kernel⟩,
   ⟨commit_accepts _ _, ⟨rfl, by decide +kernel⟩, by decide +kernel⟩⟩

/-! ### Cycles, pace timers, FLT -/

theorem hyp_CyclesAndThePaceTimer :
    (s0.phase = .running ∧ (s0.dev.leg 0).running = true ∧ (s0.dev.leg 0).paced = false ∧ 1 < (s0.dev.leg 0).timer) ∧
    (let s := base { runLeg with paced := true, timer := 1 } []
     s.phase = .running ∧ (s.dev.leg 0).paced = true) ∧
    (let s := base { runLeg with st := .faulted } []
     s.phase = .running ∧ (s.dev.leg 0).st = .faulted ∧ (s.dev.leg 1).st = .dark) ∧
    (let s := base { runLeg with timer := 1 } []
     (s.dev.leg 0).running = true ∧ (s.dev.leg 0).paced = false ∧ (s.dev.leg 0).timer ≤ 1 ∧ (s.dev.leg 0).mode = .continuous) ∧
    (let s := base { runLeg with timer := 1, mode := .single } []
     (s.dev.leg 0).running = true ∧ (s.dev.leg 0).paced = false ∧ (s.dev.leg 0).timer ≤ 1 ∧ (s.dev.leg 0).mode = .single) ∧
    (s0.dev.leg 1).running = false := by
  decide +kernel

/-- A leg in each kind of work whose markers carry flags. -/
theorem hyp_CyclesAndThePaceTimer_markers :
    (let g := { runLeg with chan := .hail { since := 95, reach := 40000, opened := some (96, 2), hails := false, others := false } }
     g.quietTail = [] ∧ g.hailOpenIn 97 = true ∧ g.hailOpenIn 98 = false) ∧
    (let g := { runLeg with chan := .survey { since := 95, reach := 40000, reqs := ⟨true, [], false⟩, opened := some ⟨96, 2, 30⟩, lit := 0 } }
     g.quietTail = [] ∧ g.quietIn 97 = true ∧ g.quietIn 98 = false) ∧
    (let g := flying (flight .probe (.record 5) 96)
     g.quietTail = [] ∧ g.quietIn 98 = true ∧ g.quietIn 99 = false) ∧
    (runLeg.quietTail = [] ∧ runLeg.chan = .free) := by
  decide +kernel

theorem hyp_FltAssertedFlushesTheLeg :
    (let s := sFly .probing .probe (.record 5) 100
     s.phase = .running ∧ s.Inv ∧ (s.dev.leg 0).st = .running ∧ (s.dev.record 5).state.isStage = true ∧
       (s.dev.leg 0).directivesOf 5 = [⟨.individual 0x123, .probe⟩] ∧ Body.probe.cls = .stage ∧ (s.dev.leg 0).directivesOf 4 = []) ∧
    (let s := sFly .withdrawing .dismiss (.record 5) 100
     s.Inv ∧ (s.dev.leg 0).directivesOf 5 = [⟨.individual 0x123, .dismiss⟩] ∧ (s.dev.record 5).enrol.leg = 0 ∧
       (s.dev.record 5).state = .withdrawing) ∧
    (let s := base { runLeg with st := .suspended } [(5, recAt .ranging)]
     s.Inv ∧ (s.dev.leg 0).st = .suspended ∧ (s.dev.leg 0).directivesOf 5 = [] ∧ (s.dev.record 5).state.isStage = true) :=
  ⟨⟨rfl, inv_of_check (by decide +kernel), by decide +kernel, by decide +kernel, by decide +kernel, rfl, by decide +kernel⟩,
   ⟨inv_of_check (by decide +kernel), by decide +kernel⟩,
   ⟨inv_of_check (by decide +kernel), by decide +kernel⟩⟩

/-- Record 7 of leg 0 uses entry 0, for which record 8 of leg 1 waits; every other entry is in use. -/
def sPinsFull (waits : List Nat) : State :=
  let x : Rec := { recAt .loading with enrol := { (recAt .loading).enrol with noProfile := false, start := 40 } }
  let s := base { runLeg with st := .suspended }
    [(7, { x with pin := some 0 }), (8, { x with pinWait := waits.contains 8, enrol := { x.enrol with leg := 1, start := 50 } })]
  { s with dev := { s.dev with pinWait := waits, pins := (List.range 32).map fun i => (i, ⟨.openEntry, 40 + i, 0, 1⟩) } }

/-- No record waits for an entry; and one of leg 1 does, which the entry freed by FLT on leg 0 serves. -/
theorem hyp_FltAssertedFlushesTheLeg_frame :
    (∀ waits r, ((sPinsFull waits).dev.leg 0).directivesOf r = []) ∧ (sPinsFull []).Inv ∧ (sPinsFull []).dev.pinWait = [] ∧
      (sPinsFull [8]).Inv ∧ (after (.fltAsserted 0) (sPinsFull [8])).dev.pinWait = [] ∧
      ((after (.fltAsserted 0) (sPinsFull [8])).dev.record 8).pin = some 0 ∧
      ((after (.fltAsserted 0) (sPinsFull [8])).dev.leg 1).queue.length = 1 :=
  ⟨fun _ _ => rfl, inv_of_check (by decide +kernel), rfl, inv_of_check (by decide +kernel), by decide +kernel⟩

/-- Slot 3 RUNNING a SURVEY of every leg whose parts of legs 1 to 3 have ended, leg 0's in its window. -/
def sAllParts (p3 : Option (SurveyOut × Nat)) : State :=
  let b := base { runLeg with chan := .survey { since := 95, reach := 40000, reqs := ⟨false, [3], false⟩, opened := none, lit := 0 } } []
  { b with dev := { b.dev with
    slots := [(3, { slotWith .running [8, 4] with parts := [none, some (.dark, 1), some (.notRun, 0), p3] })] } }

/-- A slot of leg 0 after FLT. -/
def fltSlot (s : State) (n : Nat) : Slot := (after (.fltAsserted 0) s).dev.slot n

/-- A stage record behind its UNMUTE; an ACTIVE record with its slots; a PEEK, an estate CALL, a queued PEEK, a SURVEY, the last and not
the last part of an all-legs SURVEY, a hunt's command, an open hail window. -/
theorem hyp_FltAssertedFlushesTheLeg_more :
    (let s := sFly .probing .unmute (.record 5) 99
     s.Inv ∧ (s.dev.leg 0).directivesOf 5 = [⟨.individual 0x123, .unmute⟩] ∧
       ((after (.fltAsserted 0) s).dev.record 5).fault = .legFault) ∧
    (let s := base { runLeg with slotMap := [(8, 8), (47, 8)] } [(5, { recAt .active with label := some 8, slotList := [8, 47] })]
     s.Inv ∧ (s.dev.leg 0).directivesOf 5 = [] ∧ (s.dev.record 5).label = some 8 ∧ (s.dev.leg 0).slotByte 47 = 8 ∧
       ((after (.fltAsserted 0) s).dev.leg 0).slotByte 47 = 8 ∧ ((after (.fltAsserted 0) s).dev.record 5).slotList = [8, 47]) ∧
    ((sPeek 99).Inv ∧ ((sPeek 99).dev.leg 0).hunt.phase = .idle ∧ 3 ∉ ((sPeek 99).dev.leg 0).surveySlots ∧
      fltSlot (sPeek 99) 3 = { (sPeek 99).dev.slot 3 with st := .done, result := .legFault, detail := { Detail.zero with a := 1 } }) ∧
    (sGroup.Inv ∧ (fltSlot sGroup 3).detail = { len := 0, a := 1, b := 1, w14 := packHalves 2 1, w15 := 1 }) ∧
    (sQueuedPeek.Inv ∧ fltSlot sQueuedPeek 3 = { sQueuedPeek.dev.slot 3 with st := .done, result := .legFault }) ∧
    (sSurveying.Inv ∧ 3 ∈ (sSurveying.dev.leg 0).surveySlots ∧ (sSurveying.dev.slot 3).parts = [] ∧
      fltSlot sSurveying 3 = { sSurveying.dev.slot 3 with st := .done, result := .legFault }) ∧
    ((sAllParts none).Inv ∧ ((sAllParts none).dev.leg 0).surveySlots = [3] ∧ (fltSlot (sAllParts none) 3).st = .running ∧
      (fltSlot (sAllParts none) 3).parts[0]? = some (some (.legFault, 0))) ∧
    ((sAllParts (some (.lit, 40))).Inv ∧ (fltSlot (sAllParts (some (.lit, 40))) 3).result = .ok ∧
      (fltSlot (sAllParts (some (.lit, 40))) 3).detail = { Detail.zero with a := 0x15, b := 0x24, w14 := 0x10000, w15 := 0x280000 }) ∧
    (sHunting.Inv ∧ (sHunting.dev.leg 0).hunt.owner = some 3 ∧ (fltSlot sHunting 3).result = .legFault ∧
      ((after (.fltAsserted 0) sHunting).dev.leg 0).hunt = { Hunt.idle with steps := 2, lastResult := .legFault }) ∧
    (let w : HailWindow := { since := 95, reach := 40000, opened := some (96, 2), hails := false, others := true }
     let s := base { runLeg with chan := .hail w } []
     s.Inv ∧ ((after (.fltAsserted 0) s).dev.leg 0).lastWindow = .garbled) :=
  ⟨⟨inv_of_check (by decide +kernel), by decide +kernel⟩,
   ⟨inv_of_check (by decide +kernel), by decide +kernel⟩,
   ⟨inv_of_check (by decide +kernel), by decide +kernel⟩,
   ⟨inv_of_check (by decide +kernel), by decide +kernel⟩, ⟨inv_of_check (by decide +kernel), by decide +kernel⟩,
   ⟨inv_of_check (by decide +kernel), by decide +kernel⟩,
   ⟨inv_of_check (by decide +kernel), by decide +kernel⟩,
   ⟨inv_of_check (by decide +kernel), by decide +kernel⟩,
   ⟨inv_of_check (by decide +kernel), by decide +kernel⟩,
   ⟨inv_of_check (by decide +kernel), by decide +kernel⟩⟩

theorem hyp_FltDeassertedRecoversTheLeg :
    (let s := base { runLeg with st := .faulted, wasSusp := true } [(5, { recAt .active with muted := true })]
     s.phase = .running ∧ s.Inv ∧ (s.dev.leg 0).st = .faulted ∧ (s.dev.leg 0).queue = [] ∧ (s.dev.leg 0).waiting = [] ∧
       s.dev.mutedOn 0 = [5]) ∧
    (s0.phase = .running ∧ (s0.dev.leg 3).st = .dark) ∧ ((base { runLeg with st := .faulted } []).dev.leg 0).st = .faulted :=
  ⟨⟨rfl, inv_of_check (by decide +kernel), by decide +kernel⟩, by decide +kernel⟩

/-! ### The channel -/

/-- A LEVEL and a PROBE in the queue of leg 0. -/
def twoEntries : List Entry := [⟨⟨.individual 0x123, .level⟩, .level 5⟩, ⟨⟨.individual 0x123, .probe⟩, .record 5⟩]

theorem hyp_HandOverTakesTheFirstClaimant_hunt :
    let s := base { runLeg with st := .hunting, hunt := { Hunt.idle with phase := .muting, todo := [5] } } [(5, recAt .active)]
    s.phase = .running ∧ (s.dev.leg 0).chan = .free ∧ (s.dev.leg 0).hunt.phase ≠ .starting ∧ (s.dev.leg 0).waiting = [] ∧
      (s.dev.leg 0).st = .hunting ∧ (s.dev.leg 0).hunt.todo = [5] ∧ (s.dev.leg 0).hunt.phase = .muting := by
  decide +kernel

theorem hyp_HandOverTakesTheFirstClaimant :
    (let s := base { runLeg with pendSurvey := some ⟨true, [], false⟩, pendHail := true } []
     s.phase = .running ∧ (s.dev.leg 0).chan = .free ∧ (s.dev.leg 0).hunt.phase ≠ .starting ∧ (s.dev.leg 0).waiting = [] ∧
       (s.dev.leg 0).huntStep = none ∧ (s.dev.leg 0).st = .running ∧ (s.dev.leg 0).pendSurvey = some ⟨true, [], false⟩) ∧
    (let s := base { runLeg with pendHail := true } []
     (s.dev.leg 0).chan = .free ∧ (s.dev.leg 0).hunt.phase ≠ .starting ∧ (s.dev.leg 0).waiting = [] ∧ (s.dev.leg 0).st = .running ∧
       (s.dev.leg 0).pendSurvey = none ∧ (s.dev.leg 0).pendHail = true) ∧
    (let s := base { runLeg with st := .suspended, queue := twoEntries, pendHail := true } []
     (s.dev.leg 0).chan = .free ∧ (s.dev.leg 0).st = .suspended ∧ (s.dev.leg 0).pendSurvey = none ∧ (s.dev.leg 0).waiting = [] ∧
       (s.dev.leg 0).hunt.phase ≠ .starting ∧
       takeHead (s.dev.leg 0).queue = some (⟨⟨.individual 0x123, .probe⟩, .record 5⟩, [⟨⟨.individual 0x123, .level⟩, .level 5⟩])) ∧
    ((s0.dev.leg 0).chan = .free ∧ (s0.dev.leg 0).huntStep = none ∧ (s0.dev.leg 0).pendSurvey = none ∧
       (s0.dev.leg 0).pendHail = false ∧ (s0.dev.leg 0).queue = [] ∧ (s0.dev.leg 1).st = .dark) := by
  decide +kernel

theorem hyp_HandOverTakesTheFirstClaimant_load :
    let s := sLoading { runLeg with queue := [⟨⟨.individual 0x123, loadBody⟩, .record 5⟩] }
    s.phase = .running ∧ (s.dev.leg 0).chan = .free ∧ (s.dev.leg 0).st = .running ∧ (s.dev.leg 0).hunt.phase ≠ .starting ∧
      (s.dev.leg 0).pendSurvey = none ∧ (s.dev.leg 0).pendHail = false ∧ (s.dev.leg 0).waiting = [] ∧
      takeHead (s.dev.leg 0).queue = some (⟨⟨.individual 0x123, loadBody⟩, .record 5⟩, []) ∧
      s.bus.port = .free ∧ s.bus.held = none ∧ s.dev.burst = none ∧ s.dev.requests = [] ∧ s.dev.fetches = [] ∧
      s.dev.ring.writeList = [] ∧ sPassing.bus.port ≠ .free ∧
      (after (.channelHandover 0) s).dev.burst = some (.fetch ⟨0, 0, 16⟩ false) ∧ (after (.channelHandover 0) s).bus.port = .engine := by
  decide +kernel

theorem hyp_QueueHeadIsTheOldestOfTheHighestClass :
    takeHead [] = none ∧
    (takeHead twoEntries).map (·.1.cls) = some .stage ∧
    (takeHead [⟨⟨.individual 1, .level⟩, .level 5⟩]).map (·.1.cls) = some .service ∧
    (takeHead (twoEntries ++ [⟨⟨.individual 1, .dismiss⟩, .record 6⟩])).map (·.1.cls) = some .urgent ∧
    (let s := base { runLeg with queue := twoEntries } []
     s.phase = .running ∧ (s.dev.leg 0).chan = .free ∧ (s.dev.leg 0).hunt.phase ≠ .starting ∧ (s.dev.leg 0).waiting = [] ∧
       (s.dev.leg 0).pendSurvey = none ∧ (s.dev.leg 0).st = .running ∧ (s.dev.leg 0).pendHail = false) := by
  decide +kernel

/-- Leg 0 with a directive handed the channel in cycle 99, not yet sent. -/
def sReady (d : Directive) (o : Origin) (r : Rec) : State :=
  base { runLeg with chan := .directive (takenNow d o (.ready 99) 40000) } [(5, r)]

/-- A first send is due for a RANGE, for a command's CALL to the estate and for a record's ASSIGN. -/
theorem hyp_SendsTakeAndKeepTheTag_first :
    (let s := sReady ⟨.individual 0x123, .range⟩ (.record 5) { recAt .ranging with ranging := some ⟨3, 1, none⟩ }
     s.phase = .running ∧ s.Inv ∧
       (s.dev.leg 0).chan = .directive (takenNow ⟨.individual 0x123, .range⟩ (.record 5) (.ready 99) 40000) ∧ (99 : BitVec 16) ≠ s.cycle ∧
       (s.dev.record 5).ranging = some ⟨3, 1, none⟩ ∧ (Origin.record 5).countedRecord = some 5) ∧
    (let s := sReady ⟨.estate, .call [1]⟩ (.cmd 3) (recAt .active)
     s.phase = .running ∧ s.Inv ∧
       (s.dev.leg 0).chan = .directive (takenNow ⟨.estate, .call [1]⟩ (.cmd 3) (.ready 99) 40000) ∧ Target.estate.isMany = true) ∧
    (let s := sReady ⟨.serial 0xA5, .assign 0x123 0 0 0⟩ (.record 5) (recAt .assigning)
     s.phase = .running ∧ s.Inv ∧ (Target.serial 0xA5).isMany = false) :=
  ⟨⟨rfl, inv_of_check (by decide +kernel), by decide +kernel⟩,
   ⟨rfl, inv_of_check (by decide +kernel), by decide +kernel⟩,
   ⟨rfl, inv_of_check (by decide +kernel), by decide +kernel⟩⟩

/-- The call context of a group and of an estate CALL at its first send. -/
theorem hyp_SendsTakeAndKeepTheTag_call :
    let r := { recAt .active with addressed := true, groupRank := some 0, enrol := { (recAt .active).enrol with group := 0xE01 } }
    let call (t : Target) :=
      ((after (.directiveFirstSend 0) (sReady ⟨t, .call [1]⟩ (.cmd 3) r)).dev.leg 0).inFlight.bind InFlight.call
    call .estate = some ⟨[0x123], [], false, false, false, []⟩ ∧ call (.group 0xE01) = some ⟨[0x123], [], false, false, false, []⟩ ∧
      call (.group 0xE02) = some ⟨[], [], false, false, false, []⟩ := by
  decide +kernel

/-- A directive of record 5 sent in cycle 90 whose window ended in cycle `e`. -/
def spaced (e : BitVec 16) : InFlight := { flight .probe (.record 5) 90 with phase := .spacing 90 e }

/-- A retry is due at its first cycle, also in the cycle of its window's end. -/
theorem hyp_SendsTakeAndKeepTheTag_retry :
    (let s := base (flying (spaced 94)) [(5, recAt .probing)]
     s.phase = .running ∧ s.Inv ∧ (s.dev.leg 0).chan = .directive (spaced 94) ∧ (spaced 94).phase = .spacing 90 94 ∧
       (spaced 94).tag = some 7 ∧ (spaced 94).window + (spaced 94).spacing ≤ cyclesFrom 90 s.cycle ∧ s.cycle ≠ 94) ∧
    (let s := base (flying (spaced 100)) [(5, recAt .probing)]
     s.phase = .running ∧ s.Inv ∧ (s.dev.leg 0).chan = .directive (spaced 100) ∧ s.cycle = 100) :=
  ⟨⟨rfl, inv_of_check (by decide +kernel), by decide +kernel, rfl, rfl, by decide +kernel⟩,
   ⟨rfl, inv_of_check (by decide +kernel), by decide +kernel, rfl⟩⟩

/-- A spacing of two cycles at a reach target: cycle e + S begins before the window has ended at 31,251, and just as it ends at 31,250. -/
theorem hyp_SendsTakeAndKeepTheTag_retry_short :
    let x (reach : Nat) : InFlight := { spaced 100 with phase := .spacing 96 100, spacing := 2, reach := reach }
    let s (reach : Nat) : State := base (flying (x reach)) [(5, recAt .probing)]
    (∀ r ∈ [31250, 31251], invCheck (s r) = true) ∧ (x 31250).window + (x 31250).spacing ≤ cyclesFrom 96 (s 31250).cycle ∧
      (s 31250).cycle = 100 ∧ 31250 + 31250 ≤ 2 * 31250 ∧ ¬ 31250 + 31251 ≤ 2 * 31250 ∧
      ((after (.directiveRetry 0) (s 31250)).dev.leg 0).lastSent.isSome = true ∧ after (.directiveRetry 0) (s 31251) = s 31251 := by
  decide +kernel

/-- A single attempt. -/
def last (x : InFlight) : InFlight := { x with attempts := 1 }

/-- The window of a PEEK's send ends at its first cycle (96 + 2 + 1 + 1), with sends left and with none; one cycle later it is open. -/
theorem hyp_SendWindowEndRetriesOrEnds :
    (let s := sPeek 97
     s.phase = .running ∧ (s.dev.leg 0).chan = .directive (flight (.peek 0 2) (.cmd 3) 97) ∧
       cyclesFrom 97 s.cycle < 2 + 1 + lag 40000) ∧
    ((sPeek 96).windowEnded 0 (flight (.peek 0 2) (.cmd 3) 96) 96 ∧ (flight (.peek 0 2) (.cmd 3) 96).sends < 3) ∧
    (let x := last (flight (.peek 0 2) (.cmd 3) 96)
     let s := busySlot (base (flying x) [(5, recAt .active)]) [4, 5, 0, 2]
     s.windowEnded 0 x 96 ∧ s.Inv ∧ x.attempts ≤ x.sends ∧ x.origin = .cmd 3) :=
  ⟨by decide +kernel, ⟨⟨rfl, rfl, rfl, rfl, by decide +kernel⟩, by decide⟩,
   ⟨⟨rfl, rfl, rfl, rfl, by decide +kernel⟩, inv_of_check (by decide +kernel), by decide, rfl⟩⟩

/-- A CALL to the estate with one expected and no answered address. -/
def estateCall : InFlight :=
  { flight (.call [1]) (.cmd 3) 96 with
    dir := ⟨.estate, .call [1]⟩, call := some ⟨[0x123], [], false, false, false, []⟩ }

theorem hyp_SendWindowEndRetriesOrEnds_call :
    let s := busySlot (base (flying estateCall) [(5, recAt .active)]) [6, 0, 0xEFF, 1, 1]
    s.phase = .running ∧ s.Inv ∧ (s.dev.leg 0).chan = .directive estateCall ∧ estateCall.phase = .listening 96 ∧
      estateCall.window + 1 + lag estateCall.reach ≤ cyclesFrom 96 s.cycle ∧
      estateCall.call = some ⟨[0x123], [], false, false, false, []⟩ ∧ estateCall.origin = .cmd 3 ∧
      estateCall.dir.body = .call [1] :=
  ⟨rfl, inv_of_check (by decide +kernel), rfl, rfl, by decide +kernel, rfl, rfl, rfl⟩

/-! ### Replies -/

/-- A reply placed in control slot 0 of the cycle after the send of cycle 99. -/
def heard : Option Placement := some ⟨100, 0⟩

theorem hyp_RepliesThatEndNothing :
    ((s0.dev.leg 0).chan = .free) ∧
    (let s := base { runLeg with chan := .survey ⟨90, 40000, ⟨true, [], false⟩, none, 0⟩ } []
     s.phase = .running ∧ ∃ w, (s.dev.leg 0).chan = .survey w) ∧
    (let s := sPeek 99
     let x := flight (.peek 0 2) (.cmd 3) 99
     s.phase = .running ∧ (s.dev.leg 0).chan = .directive x ∧ x.tag ≠ some 6 ∧ x.tag = some 7 ∧ x.call = none ∧
       x.dir.target.answeredBy 0x124 = false ∧ x.hearsReply heard = true ∧
       (s.dev.leg 0).stray + 1 < (s.applied.leg 0).strayLimit ∧ (s.dev.leg 0).stray < 255) ∧
    ((sPeek 99).Inv ∧ (sPeek 99).answers 0 (flight (.peek 0 2) (.cmd 3) 99) 0x123 7 heard ∧
      ((sPeek 99).dev.recordsOn 0).find? (fun q => decide (q.2.enrol.addr = 0x123)) = some (5, (sPeek 99).dev.record 5)) :=
  ⟨rfl, ⟨rfl, _, rfl⟩, by decide +kernel,
   ⟨inv_of_check (by decide +kernel), ⟨rfl, rfl, rfl, rfl, by decide +kernel⟩, by decide +kernel⟩⟩

/-- An OK answer to a PEEK of two bytes that carries one. -/
theorem hyp_RepliesThatEndNothing_peek :
    (sPeek 99).Inv ∧ (sPeek 99).answers 0 (flight (.peek 0 2) (.cmd 3) 99) 0x123 7 heard ∧ [(1 : Byte)].length ≠ 2 ∧
      ((after (.replyBurst 0 0x123 7 .ok [1] 50 0 heard) (sPeek 99)).dev.leg 0).chan =
        .directive { flight (.peek 0 2) (.cmd 3) 99 with unsettled := true } :=
  ⟨inv_of_check (by decide +kernel), ⟨rfl, rfl, rfl, rfl, by decide +kernel⟩, by decide, by decide +kernel⟩

/-- A CHECK answer to a LEVEL that a read has asked for: the level code is set, LEVEL_WANTED stands. -/
theorem hyp_RepliesThatEndNothing_level :
    let s := base (flying (flight .level (.level 5) 99)) [(5, { recAt .active with levelWanted := true })]
    let t := after (.replyBurst 0 0x123 7 .check [] 50 0 heard) s
    s.Inv ∧ s.answers 0 (flight .level (.level 5) 99) 0x123 7 heard ∧
      (s.dev.recordsOn 0).find? (fun q => decide (q.2.enrol.addr = 0x123)) = some (5, s.dev.record 5) ∧
      (t.dev.record 5).level = 50 ∧ (t.dev.record 5).levelWanted = true ∧ (t.dev.record 5).levelFresh = false :=
  ⟨inv_of_check (by decide +kernel), ⟨rfl, rfl, rfl, rfl, by decide +kernel⟩, by decide +kernel⟩

/-- A CALL to the estate in flight: a member's REFUSED answer, another record's, and a source that is no individual address. -/
theorem hyp_RepliesThatEndNothing_call :
    let x := { flight (.call [1]) (.cmd 3) 99 with dir := ⟨.estate, .call [1]⟩, call := some ⟨[0x123], [], false, false, false, []⟩ }
    let s := busySlot (base (flying x) [(5, recAt .active)]) [6, 0, 0xEFF, 1, 1]
    let seen (src : BitVec 12) := ((after (.replyBurst 0 src 7 .refused [] 50 0 (some ⟨101, 7⟩)) s).dev.leg 0)
    s.phase = .running ∧ s.Inv ∧ (s.dev.leg 0).chan = .directive x ∧ x.tag = some 7 ∧ x.hearsReply (some ⟨101, 7⟩) = true ∧
      (s.dev.recordsOn 0).find? (fun q => decide (q.2.enrol.addr = 0x123)) = some (5, s.dev.record 5) ∧
      (seen 0x123).chan = .directive { x with call := some ⟨[0x123], [0x123], false, true, false, []⟩ } ∧
      (seen 0xDFF).chan = .directive { x with call := some ⟨[0x123], [], false, false, false, [0xDFF]⟩ } ∧
      (seen 0xE00).stray = (s.dev.leg 0).stray + 1 ∧ (s.dev.leg 0).stray + 1 < (s.applied.leg 0).strayLimit :=
  ⟨rfl, inv_of_check (by decide +kernel), rfl, rfl, by decide +kernel⟩

/-- Slot 3 RUNNING a command whose directive is in flight on leg 0. -/
def sCmd (b : Body) (ps : List Nat) : State := busySlot (sFly .active b (.cmd 3) 99) ps

theorem hyp_AnswerCompletesTheCommand :
    (let s := sCmd (.peek 0 8) [4, 5, 0, 8]
     s.Inv ∧ s.answers 0 (flight (.peek 0 8) (.cmd 3) 99) 0x123 7 heard ∧ (List.replicate 8 (1 : Byte)).length = 8) ∧
    (let s := sCmd (.poke 0 [1]) [5, 5, 0, 1]
     s.Inv ∧ s.answers 0 (flight (.poke 0 [1]) (.cmd 3) 99) 0x123 7 heard) ∧
    (let s := sCmd (.call [1]) [6, 0, 0x123, 1]
     s.Inv ∧ s.answers 0 (flight (.call [1]) (.cmd 3) 99) 0x123 7 heard) ∧
    (let s := sCmd .dismiss [7, 0, 0x123]
     s.Inv ∧ s.answers 0 (flight .dismiss (.cmd 3) 99) 0x123 7 heard) :=
  ⟨⟨inv_of_check (by decide +kernel), ⟨rfl, rfl, rfl, rfl, by decide +kernel⟩, rfl⟩,
   ⟨inv_of_check (by decide +kernel), ⟨rfl, rfl, rfl, rfl, by decide +kernel⟩⟩,
   ⟨inv_of_check (by decide +kernel), ⟨rfl, rfl, rfl, rfl, by decide +kernel⟩⟩,
   ⟨inv_of_check (by decide +kernel), ⟨rfl, rfl, rfl, rfl, by decide +kernel⟩⟩⟩

/-- The last send of a directive of an origin whose window has ended, and the same answered. -/
theorem endsBy_of (s : State) (x : InFlight) (h1 : s.phase = .running) (h2 : (s.dev.leg 0).chan = .directive x)
    (h3 : x.phase = .listening 94) (h4 : x.call = none) (h5 : x.window + 1 + lag x.reach ≤ cyclesFrom 94 s.cycle)
    (h6 : x.attempts ≤ x.sends) : s.endsBy 0 x (.sendWindowEnd 0) :=
  Or.inr ⟨94, rfl, ⟨h1, h2, h3, h4, h5⟩, h6⟩

theorem endsBy_reply (s : State) (x : InFlight) (h1 : s.phase = .running) (h2 : (s.dev.leg 0).chan = .directive x)
    (h3 : x.tag = some 7) (h4 : x.call = none) (h5 : (x.dir.target.answeredBy 0x123 && x.hearsReply heard) = true) :
    s.endsBy 0 x (.replyBurst 0 0x123 7 .ok [] 50 0 heard) :=
  have h := Bool.and_eq_true_iff.mp h5
  Or.inl ⟨0x123, 7, .ok, [], 50, 0, heard, rfl, ⟨h1, h2, h3, h4, h.1, h.2⟩, Or.inl rfl⟩

/-- Leg 0 with the last send of a directive in cycle 94, record 5 as given. -/
def sEnding (b : Body) (o : Origin) (r : Rec) : State := base (flying { flight b o 94 with attempts := 1 }) [(5, r)]

/-- A withdrawal's DISMISS without an answer; an UNMUTE with a stage directive held; a LEVEL answered. -/
theorem hyp_AnswerCompletesTheCommand_more :
    (let s := sEnding .dismiss (.record 5) (recAt .withdrawing)
     s.Inv ∧ s.endsBy 0 { flight .dismiss (.record 5) 94 with attempts := 1 } (.sendWindowEnd 0) ∧
       (after (.sendWindowEnd 0) s).dev.recs = []) ∧
    (let s := sEnding .unmute (.record 5) { recAt .probing with muted := true, held := some ⟨.individual 0x123, .probe⟩ }
     let t := after (.sendWindowEnd 0) s
     s.Inv ∧ s.endsBy 0 { flight .unmute (.record 5) 94 with attempts := 1 } (.sendWindowEnd 0) ∧
       (s.dev.leg 0).hasEntry 5 = false ∧ (s.dev.leg 0).isWaiting 5 = false ∧
       (t.dev.leg 0).queue = [⟨⟨.individual 0x123, .probe⟩, .record 5⟩] ∧ (t.dev.record 5).muted = false) ∧
    (let s := sFly .active .level (.level 5) 99
     let t := after (.replyBurst 0 0x123 7 .ok [] 50 0 heard) s
     s.Inv ∧ s.endsBy 0 (flight .level (.level 5) 99) (.replyBurst 0 0x123 7 .ok [] 50 0 heard) ∧
       (s.dev.recordsOn 0).find? (fun q => decide (q.2.enrol.addr = 0x123)) = some (5, s.dev.record 5) ∧
       (t.dev.record 5).level = 50 ∧ (t.dev.leg 0).chan = .free) :=
  ⟨⟨inv_of_check (by decide +kernel), endsBy_of _ _ rfl rfl rfl rfl (by decide +kernel) (by decide), by decide +kernel⟩,
   ⟨inv_of_check (by decide +kernel), endsBy_of _ _ rfl rfl rfl rfl (by decide +kernel) (by decide), by decide +kernel⟩,
   ⟨inv_of_check (by decide +kernel), endsBy_reply _ _ rfl rfl rfl rfl (by decide +kernel), by decide +kernel⟩⟩

/-- A stage's directive in flight: the hypotheses that the statements of a stage's answer share. -/
def stageMet (s : State) (x : InFlight) (st : RecState) : Prop :=
  s.Inv ∧ s.answers 0 x 0x123 7 heard ∧ s.dev.stageInFlight 0 5 x st

theorem stageMet_of (s : State) (x : InFlight) (st : RecState) (hi : invCheck s = true) (h1 : s.phase = .running)
    (h2 : (s.dev.leg 0).chan = .directive x) (h3 : x.tag = some 7) (h4 : x.call = none)
    (h5 : (x.dir.target.answeredBy 0x123 && x.hearsReply heard) = true) (h6 : (s.dev.record 5).state = st)
    (h7 : (s.dev.record 5).enrol.leg = 0) (h8 : x.origin = .record 5) : stageMet s x st :=
  have h := Bool.and_eq_true_iff.mp h5
  ⟨inv_of_check hi, ⟨h1, h2, h3, h4, h.1, h.2⟩, h6, h7, h8⟩

theorem hyp_AnswerThatStopsAStage :
    stageMet (sFly .probing .probe (.record 5) 99) (flight .probe (.record 5) 99) .probing ∧
    stageMet (sFly .assigning (.assign 0x123 0 0 0) (.record 5) 99) (flight (.assign 0x123 0 0 0) (.record 5) 99) .assigning ∧
    stageMet (sFly .ranging .range (.record 5) 99) (flight .range (.record 5) 99) .ranging ∧
    stageMet (sFly .equalising (.equalise 10) (.record 5) 99) (flight (.equalise 10) (.record 5) 99) .equalising ∧
    stageMet (sFly .loading loadBody (.record 5) 99) (flight loadBody (.record 5) 99) .loading ∧
    stageMet (sFly .granting (.grant 8 [8]) (.record 5) 99) (flight (.grant 8 [8]) (.record 5) 99) .granting := by
  refine ⟨?_, ?_, ?_, ?_, ?_, ?_⟩ <;>
    exact stageMet_of _ _ _ (by decide +kernel) rfl rfl rfl rfl (by decide +kernel) (by decide +kernel) (by decide +kernel) rfl

/-- A stage's directive whose one send's window has ended. -/
def silentMet (s : State) (x : InFlight) (st : RecState) : Prop :=
  s.Inv ∧ s.windowEnded 0 x 94 ∧ x.attempts ≤ x.sends ∧ s.dev.stageInFlight 0 5 x st

/-- Leg 0 with the last send of a directive of record 5 of cycle 94. -/
def sLast (st : RecState) (b : Body) : State := base (flying (last (flight b (.record 5) 94))) [(5, recAt st)]

theorem silentMet_of (s : State) (x : InFlight) (st : RecState) (hi : invCheck s = true) (h1 : s.phase = .running)
    (h2 : (s.dev.leg 0).chan = .directive x) (h3 : x.phase = .listening 94) (h4 : x.call = none)
    (h5 : x.window + 1 + lag x.reach ≤ cyclesFrom 94 s.cycle) (h6 : x.attempts ≤ x.sends) (h7 : (s.dev.record 5).state = st)
    (h8 : (s.dev.record 5).enrol.leg = 0) (h9 : x.origin = .record 5) : silentMet s x st :=
  ⟨inv_of_check hi, ⟨h1, h2, h3, h4, h5⟩, h6, h7, h8, h9⟩

theorem hyp_SilenceMovesAStage :
    silentMet (sLast .probing .probe) (last (flight .probe (.record 5) 94)) .probing ∧
    silentMet (sLast .assigning (.assign 0x123 0 0 0)) (last (flight (.assign 0x123 0 0 0) (.record 5) 94)) .assigning ∧
    silentMet (sLast .equalising (.equalise 10)) (last (flight (.equalise 10) (.record 5) 94)) .equalising ∧
    silentMet (sLast .loading loadBody) (last (flight loadBody (.record 5) 94)) .loading ∧
    silentMet (sLast .granting (.grant 8 [8])) (last (flight (.grant 8 [8]) (.record 5) 94)) .granting := by
  refine ⟨?_, ?_, ?_, ?_, ?_⟩ <;>
    exact silentMet_of _ _ _ (by decide +kernel) rfl rfl rfl rfl (by decide +kernel) (by decide +kernel) (by decide +kernel)
      (by decide +kernel) rfl

/-- A PROBE that drew a CHECK or FULL; a RANGE whose stage has no sends left; a silent PROBE with room in the queue. -/
theorem hyp_SilenceMovesAStage_more :
    (let x := { last (flight .probe (.record 5) 94) with unsettled := true }
     silentMet (base (flying x) [(5, recAt .probing)]) x .probing ∧ x.unsettled = true) ∧
    (let x := last (flight .range (.record 5) 94)
     let s := base (flying x) [(5, { recAt .ranging with ranging := some ⟨2, 2, none⟩ })]
     silentMet s x .ranging ∧ (s.dev.record 5).ranging = some ⟨2, 2, none⟩) ∧
    (let s := sLast .probing .probe
     (last (flight .probe (.record 5) 94)).unsettled = false ∧ (s.dev.leg 0).queue.length < queueCap ∧
       (s.dev.leg 0).hasEntry 5 = false ∧ (s.dev.leg 0).isWaiting 5 = false) :=
  ⟨⟨silentMet_of _ _ _ (by decide +kernel) rfl rfl rfl rfl (by decide +kernel) (by decide +kernel) (by decide +kernel)
      (by decide +kernel) rfl, rfl⟩,
   ⟨silentMet_of _ _ _ (by decide +kernel) rfl rfl rfl rfl (by decide +kernel) (by decide +kernel) (by decide +kernel)
      (by decide +kernel) rfl, by decide +kernel⟩, by decide +kernel⟩

/-- A silent RANGE with one send left. -/
theorem hyp_SilenceMovesAStage_range :
    let x := last (flight .range (.record 5) 94)
    let s := base (flying x) [(5, { recAt .ranging with ranging := some ⟨2, 1, none⟩ })]
    let t := after (.sendWindowEnd 0) s
    silentMet s x .ranging ∧ (s.dev.record 5).ranging = some ⟨2, 1, none⟩ ∧ (s.dev.leg 0).queue.length < queueCap ∧
      (s.dev.leg 0).hasEntry 5 = false ∧ (s.dev.leg 0).isWaiting 5 = false ∧ t.dev.recs = s.dev.recs ∧
      (t.dev.leg 0).queue = [⟨⟨.individual 0x123, .range⟩, .record 5⟩] :=
  ⟨silentMet_of _ _ _ (by decide +kernel) rfl rfl rfl rfl (by decide +kernel) (by decide +kernel) (by decide +kernel)
    (by decide +kernel) rfl, by decide +kernel⟩

/-- Record 5 in RANGING with a reference echo of 1000 units, one send before the last. -/
def sRange : State :=
  base (flying (flight .range (.record 5) 99)) [(5, { recAt .ranging with ranging := some ⟨3, 2, some (1000, 50)⟩ })]

/-- The ASSIGN, RANGE, EQUALISE, LOAD and GRANT of record 5 are in flight (AssignAnsweredOk, RangeAnsweredOk, EqualiseAnsweredOk,
LoadAnsweredOk, GrantAnsweredOk). -/
theorem hyp_StageAnsweredOk :
    stageMet (sFly .assigning (.assign 0x123 0 0 0) (.record 5) 99) (flight (.assign 0x123 0 0 0) (.record 5) 99) .assigning ∧
    (stageMet sRange (flight .range (.record 5) 99) .ranging ∧ (sRange.dev.record 5).ranging = some ⟨3, 2, some (1000, 50)⟩) ∧
    stageMet (sFly .equalising (.equalise 10) (.record 5) 99) (flight (.equalise 10) (.record 5) 99) .equalising ∧
    (let s := sLoading (flying (flight loadBody (.record 5) 99))
     let t := after (.replyBurst 0 0x123 7 .ok [] 50 0 heard) s
     stageMet s (flight loadBody (.record 5) 99) .loading ∧ (s.dev.record 5).pinWait = false ∧ 5 ∉ s.dev.pinWait ∧
       (t.dev.leg 0).queue = [⟨⟨.individual 0x123, .load 1 16 .inc 16 16 true⟩, .record 5⟩]) ∧
    stageMet (sFly .granting (.grant 8 [8]) (.record 5) 99) (flight (.grant 8 [8]) (.record 5) 99) .granting := by
  refine ⟨?_, ⟨?_, by decide +kernel⟩, ?_, ⟨?_, by decide +kernel⟩, ?_⟩ <;>
    exact stageMet_of _ _ _ (by decide +kernel) rfl rfl rfl rfl (by decide +kernel) (by decide +kernel) (by decide +kernel) rfl

/-- The queue of leg 0 and record 5 after the OK answer of record 5's directive. -/
def answeredOk (b : Body) (x : Rec) (delay : Nat) : List Directive × Rec :=
  let t := after (.replyBurst 0 0x123 7 .ok [] 50 delay heard) (base (flying (flight b (.record 5) 99)) [(5, x)])
  ((t.dev.leg 0).queue.map Entry.dir, t.dev.record 5)

/-- The directive of the stage entered joins the empty queue: RANGE, EQUALISE, another RANGE, LOAD and GRANT. -/
theorem hyp_StageAnsweredOk_offered :
    let en := (recAt .equalising).enrol
    let only (b : Body) : List Directive := [⟨.individual 0x123, b⟩]
    (s0.dev.leg 0).queue.length < 12 ∧ (s0.dev.leg 0).hasEntry 5 = false ∧ (s0.dev.leg 0).isWaiting 5 = false ∧
    (answeredOk (.assign 0x123 0 0 0) (recAt .assigning) 0).1 = only .range ∧
    (answeredOk .range { recAt .ranging with ranging := some ⟨3, 2, some (1000, 50)⟩ } 1006).1 = only (.equalise 38994) ∧
    (answeredOk .range { recAt .ranging with ranging := some ⟨3, 2, some (1000, 50)⟩ } 1007).1 = only .range ∧
    (let x := { recAt .equalising with enrol := { en with noProfile := false, lenCode := 31 } }
     (answeredOk (.equalise 10) x 0).1 = only (.load 0 0 .inc 0 16 false) ∧ (answeredOk (.equalise 10) x 0).2.pinWait = false) ∧
    (let x := { recAt .equalising with enrol := { en with noProfile := true, demand := 2 } }
     (answeredOk (.equalise 10) x 0).1 = only (.grant 8 [8, 9]) ∧ (answeredOk (.equalise 10) x 0).2.slotList = [8, 9]) := by
  decide +kernel

/-- Record 5 holds label 8 with slots 8 and 47. -/
theorem hyp_GrantAnsweredOk_release :
    let d := (base { runLeg with slotMap := [(8, 8), (9, 10), (47, 8)] } [(5, { recAt .active with label := some 8, slotList := [8, 47] })]).dev
    d.mapsCanonical ∧ (d.record 5).label = some 8 ∧ (8 : Nat) ≠ 0 :=
  ⟨⟨by decide +kernel, rfl, rfl, by decide +kernel⟩, by decide +kernel, by decide⟩

/-! ### Hails and windows -/

/-- An open hail window of two cycles from cycle 96. -/
def hailWin : HailWindow := { since := 95, reach := 40000, opened := some (96, 2), hails := false, others := false }

/-- Leg 0 in that window, record 5 as given. -/
def sHail (r : Rec) : State := base { runLeg with chan := .hail hailWin } [(5, r)]

/-- A hail from a serial on no record, and one from record 5 of leg 0 heard on leg 1. -/
theorem hyp_UnmatchedHailGoesToTheRing :
    (let s := sHail (recAt .active)
     s.phase = .running ∧ (s.dev.leg 0).chan = .hail hailWin ∧ hailWin.opened = some (96, 2) ∧
       s.dev.enrolled.find? (fun p => decide (p.2.enrol.serial = 0xA6)) = none) ∧
    (let r := { recAt .active with enrol := { (recAt .active).enrol with leg := 1 } }
     let s := sHail r
     s.dev.enrolled.find? (fun p => decide (p.2.enrol.serial = 0xA5)) = some (5, r) ∧ r.enrol.leg ≠ 0) ∧
    (let s := base { runLeg with chan := .hail { hailWin with since := 100, opened := none }, quietTail := [⟨98, 2, none⟩] } []
     (s.dev.leg 0).quietSpanRuns (s.applied.leg 0).reach s.cycle = true ∧ s.dev.ring.badTail = false ∧ s.bus.port = .free ∧
       s.bus.held = none ∧ s.dev.burst = none ∧ s.dev.requests = [] ∧ s.dev.fetches = [] ∧ s.dev.ring.count 16 = 0 ∧
       s.dev.ring.count 16 + s.dev.ring.writeList.length < 16 - 1) := by
  decide +kernel

/-- The hypotheses of a matched hail at record 5. -/
def hailMet (r : Rec) : Bool :=
  let s := sHail r
  invCheck s && decide (s.phase = .running) && decide ((s.dev.leg 0).chan = .hail hailWin) && decide (hailWin.opened = some (96, 2)) &&
    decide (s.dev.enrolled.find? (fun p => decide (p.2.enrol.serial = 0xA5)) = some (5, s.dev.record 5)) &&
    decide ((s.dev.record 5).enrol.leg = 0)

theorem hyp_MatchedHailActsByState :
    hailMet (recAt .expected) ∧ hailMet (recAt .probing) ∧ hailMet (recAt .ranging) ∧ hailMet (recAt .active) ∧
      hailMet (recAt .halted) ∧ hailMet (recAt .withdrawing) ∧ hailMet { recAt .held with stage := some .assigning } ∧
      hailMet { recAt .held with stage := some .loading, addressed := true } := by
  decide +kernel

/-- A restart with no record waiting for a pin-table entry and room in the queue. -/
theorem hyp_MatchedHailActsByState_offered :
    let s := sHail (recAt .active)
    s.dev.pinWait = [] ∧ (s.dev.leg 0).queue.length < 12 ∧ (s.dev.leg 0).hasEntry 5 = false ∧ (s.dev.leg 0).isWaiting 5 = false ∧
      ((after (.decodedHail 0 0xA5 1 1 50 99) s).dev.leg 0).queue = [⟨⟨.individual 0x123, .probe⟩, .record 5⟩] := by
  decide +kernel

theorem hyp_StrayBurstsAreCounted :
    (let s := sHail (recAt .active)
     s.phase = .running ∧ (s.dev.leg 0).chan = .hail hailWin ∧ hailWin.opened = some (96, 2)) ∧
    (∃ x, ((sPeek 99).dev.leg 0).chan = .directive x ∧ x.hears heard = true) ∧
    ((s0.dev.leg 1).chan = .free ∧ (s0.dev.leg 1).st = .dark) ∧
    ((s0.dev.leg 0).chan = .free ∧ (s0.dev.leg 0).st = .running ∧ heard.isSome = true ∧ (s0.dev.leg 0).stray < 255 ∧
      (s0.dev.leg 0).stray + 1 < (s0.applied.leg 0).strayLimit) ∧
    (let s := base { runLeg with quietTail := [⟨98, 2, none⟩] } []
     (s.dev.leg 0).chan = .free ∧ (s.dev.leg 0).quietSpanRuns (s.applied.leg 0).reach s.cycle = true) ∧
    (let w := { hailWin with opened := none }
     let s := base { runLeg with chan := .hail w } []
     (s.dev.leg 0).chan = .hail w ∧ w.opened = none ∧ (s.dev.leg 0).quietSpanRuns (s.applied.leg 0).reach s.cycle = false) :=
  ⟨by decide +kernel, ⟨_, rfl, by decide +kernel⟩, by decide +kernel⟩

/-- An open survey window of two cycles from cycle 96. -/
def survWin (q : Requesters) : SurveyWindow := { since := 95, reach := 40000, reqs := q, opened := some ⟨96, 2, 30⟩, lit := 0 }

theorem hyp_WindowsOpenWithTheirFlags :
    (let w := { hailWin with opened := none }
     let s := base { runLeg with chan := .hail w } []
     s.phase = .running ∧ (s.dev.leg 0).chan = .hail w ∧ w.opened = none ∧ s.cycle ≠ w.since ∧ 1 ≤ (s.applied.leg 0).hailLen) ∧
    (let w := { survWin ⟨true, [], false⟩ with opened := none }
     let s := base { runLeg with chan := .survey w } []
     s.phase = .running ∧ (s.dev.leg 0).chan = .survey w ∧ w.opened = none ∧ s.cycle ≠ w.since ∧
       1 ≤ (s.applied.leg 0).surveyLen) := by
  decide +kernel

theorem hyp_HailWindowEnds :
    let s := sHail (recAt .active)
    s.phase = .running ∧ (s.dev.leg 0).chan = .hail hailWin ∧ hailWin.opened = some (96, 2) ∧
      2 + lag hailWin.reach ≤ cyclesFrom 96 s.cycle := by
  decide +kernel

/-- Leg 0 in a survey window; its hunt and state as given. -/
def sSurvey (q : Requesters) (st : LegState) (h : Hunt) (recs : List (Nat × Rec)) : State :=
  base { runLeg with st := st, chan := .survey (survWin q), hunt := h } recs

/-- An automatic survey; a SURVEY command's; with no, with 511 and with 512 of 512 samples lit. -/
theorem hyp_SurveyWindowEndsAndJudges :
    (let s := sSurvey ⟨true, [], false⟩ .running .idle []
     s.phase = .running ∧ (s.dev.leg 0).chan = .survey (survWin ⟨true, [], false⟩) ∧
       (survWin ⟨true, [], false⟩).opened = some ⟨96, 2, 30⟩ ∧ 2 + lag 40000 ≤ cyclesFrom 96 s.cycle ∧ 512 ≤ 256 * 2) ∧
    (let s := busySlot (sSurvey ⟨false, [3], false⟩ .running .idle []) [8, 0]
     s.phase = .running ∧ (s.dev.leg 0).chan = .survey (survWin ⟨false, [3], false⟩) ∧ (s.dev.slot 3).parts = []) ∧
    (busySlot (sSurvey ⟨false, [3], false⟩ .running .idle []) [8, 0]).Inv :=
  ⟨by decide +kernel, by decide +kernel, inv_of_check (by decide +kernel)⟩

/-- The last part of slot 3's SURVEY of every leg, and one of two parts of slot 4's that have not ended, in one window. -/
theorem hyp_SurveyWindowEndsAndJudges_parts :
    let parts (p : Option (SurveyOut × Nat)) : Slot := { slotWith .running [8, 4] with parts := [none, p, some (.lit, 2), some (.notRun, 0)] }
    let b := sSurvey ⟨true, [3, 4], false⟩ .running .idle []
    let s : State := { b with dev := { b.dev with slots := [(3, parts (some (.dark, 1))), (4, parts none)] } }
    let t := after (.surveyWindowEnd 0 512) s
    s.Inv ∧ (survWin ⟨true, [3, 4], false⟩).reqs.slots.Nodup ∧ (t.dev.slot 3).st = .done ∧ (t.dev.slot 3).result = .ok ∧
      (t.dev.slot 4).st = .running ∧ (t.dev.slot 4).parts[0]? = some (some (.blazing, 512)) :=
  ⟨inv_of_check (by decide +kernel), by decide +kernel⟩

/-- The hypotheses of a hunt's survey that ends. -/
def huntMet (h : Hunt) (recs : List (Nat × Rec)) : Bool :=
  let s := sSurvey ⟨false, [], true⟩ .hunting h recs
  invCheck s && decide (s.phase = .running) && decide ((s.dev.leg 0).chan = .survey (survWin ⟨false, [], true⟩)) &&
    decide (2 + lag 40000 ≤ cyclesFrom 96 s.cycle) && decide ((s.dev.leg 0).st = .hunting) && decide ((s.dev.leg 0).hunt = h) &&
    decide (h.steps ≤ 255)

/-- A record of leg 0 that a hunt may name. -/
def candidate (a : BitVec 12) : Rec :=
  { recAt .active with addressed := true, enrol := { (recAt .active).enrol with addr := a, serial := a.setWidth 64 } }

/-- The confirming survey with two candidates, with one and with none; a survey of a bisection; the final step's; steps at their top. -/
theorem hyp_HuntSurveyMovesTheHunt :
    (huntMet { Hunt.idle with phase := .confirming } [(5, candidate 1), (6, candidate 2)] = true ∧
      (sSurvey ⟨false, [], true⟩ .hunting { Hunt.idle with phase := .confirming } [(5, candidate 1), (6, candidate 2)]).dev.candidates 0
        = [5, 6]) ∧
    huntMet { Hunt.idle with phase := .confirming, owner := some 3, steps := 255 } [] = true ∧
    (huntMet { Hunt.idle with phase := .confirming } [(5, candidate 1)] = true ∧
      (sSurvey ⟨false, [], true⟩ .hunting { Hunt.idle with phase := .confirming } [(5, candidate 1)]).dev.candidates 0 = [5]) ∧
    huntMet { Hunt.idle with phase := .surveying, cands := [5, 6], half := [5] } [(5, candidate 1), (6, candidate 2)] = true ∧
    (huntMet { Hunt.idle with phase := .surveying, cands := [5], final := true } [(5, candidate 1)] = true ∧
      (candidate 1).state ≠ .held ∧ (candidate 1).state ≠ .halted) := by
  decide +kernel

/-- A hunt that slot 3 owns: the final step's survey LIT and BLAZING, one candidate at a LIT confirming survey, FOUND and NO_ROGUE. -/
theorem hyp_HuntSurveyMovesTheHunt_owned :
    let fin : Hunt := { Hunt.idle with phase := .surveying, owner := some 3, steps := 4, cands := [5], final := true }
    let conf : Hunt := { Hunt.idle with phase := .confirming, owner := some 3 }
    let run (h : Hunt) (lit : Nat) := (after (.surveyWindowEnd 0 lit)
      (busySlot (sSurvey ⟨false, [], true⟩ .hunting h [(5, candidate 1)]) [9, 0])).dev
    ((run fin 30).leg 0).hunt = { fin with phase := .unmuting, todo := [5], steps := 5 } ∧
      ((run fin 512).leg 0).hunt.phase = .unmuting ∧ ((run fin 512).leg 0).lastSurvey = .blazing ∧
      ((run conf 512).leg 0).hunt = { conf with phase := .muting, cands := [5], todo := [5], steps := 1, final := true } ∧
      ((run fin 0).slot 3).detail = { Detail.zero with a := 1, b := 5, w14 := 5 } ∧ ((run fin 0).slot 3).result = .ok ∧
      ((run conf 29).slot 3).detail = { Detail.zero with a := 2, b := 1, w14 := 0xFFFF } := by
  decide +kernel

/-- A hunt whose half, or whose final step's candidate, has withdrawn: its survey DARK and LIT, and its list of none, one and two. -/
theorem hyp_HuntSurveyMovesTheHunt_emptied :
    let h (cs : List Nat) (f : Bool) : Hunt := { Hunt.idle with phase := .surveying, cands := cs, final := f }
    let rs : List (Nat × Rec) := [(5, candidate 1), (6, candidate 2)]
    let k (cs : List Nat) (f : Bool) (lit : Nat) :=
      ((after (.surveyWindowEnd 0 lit) (sSurvey ⟨false, [], true⟩ .hunting (h cs f) rs)).dev.leg 0).hunt
    (∀ cs ∈ [[], [5], [5, 6]], huntMet (h cs false) rs = true) ∧ huntMet (h [] true) rs = true ∧
      (k [5, 6] false 0).lastResult = .strayRogue ∧ (k [] false 512).lastResult = .strayRogue ∧ (k [5] false 512).final = true ∧
      (k [5, 6] false 512).todo = [5] ∧ (k [] true 0).lastResult = .strayRogue ∧ (k [] true 512).lastResult = .strayRogue := by
  decide +kernel

theorem hyp_HuntSurveyMovesTheHunt_maps : (base runLeg [(5, candidate 1)]).dev.mapsCanonical :=
  ⟨by decide +kernel, rfl, rfl, by decide +kernel⟩

theorem hyp_StartingHuntEntersHunting :
    (let s := base { runLeg with hunt := { Hunt.idle with phase := .starting } } []
     s.phase = .running ∧ (s.dev.leg 0).hunt.phase = .starting ∧ (s.dev.leg 0).st = .running ∧ (s.dev.leg 0).chan = .free) ∧
    (let s := base { runLeg with hunt := { Hunt.idle with phase := .starting }, chan := .hail hailWin } []
     s.phase = .running ∧ (s.dev.leg 0).hunt.phase = .starting ∧ (s.dev.leg 0).chan ≠ .free) := by
  decide +kernel

/-- Leg 0 HUNTING with the last send of a hunt's directive to record 5 in cycle 94 and the hunt as given. -/
def sHuntEnding (b : Body) (h : Hunt) : State :=
  base { flying { flight b (.hunt 5) 94 with attempts := 1 } with st := .hunting, hunt := h } [(5, { candidate 1 with muted := true })]

theorem huntEnding_met (b : Body) (h : Hunt) (hi : invCheck (sHuntEnding b h) = true) :
    (sHuntEnding b h).Inv ∧ (sHuntEnding b h).endsBy 0 { flight b (.hunt 5) 94 with attempts := 1 } (.sendWindowEnd 0) :=
  ⟨inv_of_check hi, endsBy_of _ _ rfl rfl rfl rfl (show 2 + 1 + lag 40000 ≤ cyclesFrom 94 100 by decide +kernel) (Nat.le_refl 1)⟩

/-- The hunts after the last UNMUTE with a list of two, of one and of none; in the final step; with a step left; after the last MUTE. -/
theorem hyp_StartingHuntEntersHunting_directives :
    let un : Hunt := { Hunt.idle with phase := .unmuting, owner := some 3 }
    let k (b : Body) (h : Hunt) := (after (.sendWindowEnd 0) (sHuntEnding b h)).dev.leg 0
    let hs := [{ un with newList := [5, 6] }, { un with newList := [5] }, un, { un with final := true, cands := [5] },
      { un with todo := [6] }]
    (∀ h ∈ hs, invCheck (sHuntEnding .unmute h) = true) ∧
    invCheck (sHuntEnding .mute { un with phase := .muting }) = true ∧
    (k .unmute { un with newList := [5, 6] }).hunt = { un with phase := .muting, cands := [5, 6], half := [5], todo := [5] } ∧
    (k .unmute { un with newList := [5] }).hunt = { un with phase := .muting, cands := [5], todo := [5], final := true } ∧
    (k .unmute un).st = .suspended ∧ (k .unmute { un with final := true, cands := [5] }).hunt.lastResult = .strayRogue ∧
    (k .unmute { un with todo := [6] }).hunt = { un with todo := [6] } ∧
    (k .mute { un with phase := .muting }).pendSurvey = some ⟨false, [], true⟩ := by
  decide +kernel

/-! ### Waiting lists, engines -/

/-- Record 5 on the pin-wait list with its profile, the pin table free. -/
def sPinWait : State :=
  let r := { recAt .loading with enrol := { (recAt .loading).enrol with noProfile := false, lenCode := 31 }, pinWait := true }
  let s := base runLeg [(5, r)]
  { s with dev := { s.dev with pinWait := [5] } }

/-- Record 5 waits behind a queue of eleven entries, and behind one of twelve. -/
def sWaiting (n : Nat) : State :=
  base { runLeg with
    queue := List.replicate n ⟨⟨.individual 1, .dismiss⟩, .cmd 9⟩, waiting := [⟨5, ⟨.individual 0x123, .probe⟩⟩] }
    [(5, { recAt .probing with waiting := true })]

theorem hyp_WaitingListsAreServed :
    (s0.phase = .running ∧ s0.dev.mapsCanonical ∧ s0.dev.pinWait = []) ∧
    (sPinWait.phase = .running ∧ sPinWait.dev.mapsCanonical ∧ sPinWait.dev.pinWait = [5] ∧ sPinWait.dev.freePin = some 0 ∧
      (sPinWait.dev.record 5).state = .loading ∧ (sPinWait.dev.leg 0).busyWith 5 = false ∧
      ((after .pinWaitServe sPinWait).dev.leg 0).queue = [⟨⟨.individual 0x123, loadBody⟩, .record 5⟩] ∧
      ((after .pinWaitServe sPinWait).dev.pin 0).users = 1) ∧
    ((sWaiting 11).phase = .running ∧ (sWaiting 11).dev.mapsCanonical ∧ ((sWaiting 11).dev.leg 0).queue.length = 11 ∧
      ((after (.waitingListAdmit 0) (sWaiting 11)).dev.leg 0).queue.length = 12 ∧
      ((after (.waitingListAdmit 0) (sWaiting 11)).dev.leg 0).waiting = []) ∧
    (let s := sWaiting 12
     let e : Entry := ⟨⟨.individual 1, .dismiss⟩, .cmd 9⟩
     let t := after (.channelHandover 0) s
     (s.dev.leg 0).chan = .free ∧ (s.dev.leg 0).st = .running ∧ (s.dev.leg 0).queue.length = 12 ∧ (s.dev.leg 0).waiting.length = 1 ∧
       takeHead (s.dev.leg 0).queue = some (e, List.replicate 11 e) ∧ (t.dev.leg 0).queue.length = 12 ∧
       (t.dev.leg 0).waiting = [] ∧ (t.dev.record 5).waiting = false) :=
  ⟨⟨rfl, s0_inv.1.1, rfl⟩, ⟨rfl, (inv_of_check (s := sPinWait) (by decide +kernel)).1.1, rfl, by decide +kernel⟩,
   ⟨rfl, ⟨by decide +kernel, rfl, rfl, by decide +kernel⟩, by decide +kernel⟩, by decide +kernel⟩

/-- Records 5 and 6 of one range on the pin-wait list, and the pin table served to both. -/
theorem hyp_WaitingListsAreServed_shared :
    let r := { recAt .loading with enrol := { (recAt .loading).enrol with noProfile := false, lenCode := 31 }, pinWait := true }
    let b := base runLeg [(5, r), (6, { r with enrol := { r.enrol with addr := 0x124 } })]
    let s : State := { b with dev := { b.dev with pinWait := [5, 6] } }
    let t := after .pinWaitServe s
    s.dev.pinWait = 5 :: [6] ∧ [5, 6].Nodup ∧ s.dev.freePin = some 0 ∧ (s.dev.record 6).enrol.start = (s.dev.record 5).enrol.start ∧
      (s.dev.record 6).enrol.lenCode = (s.dev.record 5).enrol.lenCode ∧ (t.dev.pin 0).users = 2 ∧ t.dev.pinWait = [] ∧
      (t.dev.record 6).pin = some 0 := by
  decide +kernel

/-- Requests of the engines with the bus as given. -/
def sAsk (b : Bus) (reqs : List Client) (fs : List Fetch) (ring : Ring) : State :=
  { s0 with bus := b, dev := { s0.dev with requests := reqs, fetches := fs, ring := ring } }

theorem hyp_EngineBurstTakesThePort :
    (let s := sAsk .afterReset [.load] [⟨0, 0, 16⟩] .afterReset
     s.phase = .running ∧ s.bus.port = .free ∧ s.bus.held = none ∧ s.dev.requests = .load :: [] ∧ s.dev.fetches = ⟨0, 0, 16⟩ :: []) ∧
    (let s := sAsk { Bus.afterReset with held := some (wr 0 7), passCount := 8 } [.ring] [] { Ring.afterReset with writeList := [entry] }
     s.phase = .running ∧ s.bus.port = .free ∧ s.bus.passCount = 8 ∧ s.dev.requests = .ring :: [] ∧
       s.dev.ring.full s.applied.ringCap = false) ∧
    (let s := sAsk .afterReset [.ring] [] { Ring.afterReset with head := 15, writeList := [entry] }
     s.bus.held = none ∧ (s.dev.dropEntry []).requests = [] ∧ s.dev.requests = .ring :: [] ∧ s.dev.ring.full s.applied.ringCap = true) ∧
    (sPassing.phase = .running ∧ sPassing.bus.port ≠ .free) ∧
    (let s := sAsk { Bus.afterReset with held := some (wr 0 7), passCount := 7 } [.ring] [] .afterReset
     s.bus.held ≠ none ∧ s.bus.passCount < 8) ∧
    (let s := sAsk { Bus.afterReset with passCount := 8 } [.ring] [] .afterReset
     s.bus.port = .free ∧ s.bus.held = none ∧ s.dev.requests = .ring :: [] ∧ s.dev.ring.full s.applied.ringCap = false ∧
       s.bus.passCount = 8 ∧ s.usesPort (wr 0 7) = true) := by
  decide +kernel

/-- An entry dropped at a full ring, another behind it and a fetch with no request. -/
theorem hyp_EngineBurstTakesThePort_dropped :
    let s := sAsk .afterReset [.ring] [⟨0, 0, 16⟩] { Ring.afterReset with head := 15, writeList := [entry, entry] }
    s.dev.requests = .ring :: [] ∧ s.dev.ring.full s.applied.ringCap = true ∧ s.dev.burst = none ∧ Client.ring ∉ ([] : List Client) ∧
      (s.dev.dropEntry []).requests = [.load, .ring] := by
  decide +kernel

/-- A burst runs: a fetch whose LOAD is in flight on leg 0, the same with the LOAD gone, a ring entry's. -/
theorem hyp_EngineBurstsComplete :
    (let x := takenNow ⟨.individual 0x123, loadBody⟩ (.record 5) .fetching 40000
     let b := sLoading { runLeg with chan := .directive x }
     let s : State := { b with
       bus := { Bus.afterReset with port := .engine }, dev := { b.dev with burst := some (.fetch ⟨0, 0, 16⟩ false), fetches := [⟨0, 0, 16⟩] } }
     s.phase = .running ∧ s.bus.held = none ∧ s.dev.burst = some (.fetch ⟨0, 0, 16⟩ false) ∧ s.dev.fetches = ⟨0, 0, 16⟩ :: [] ∧
       (s.dev.leg 0).chan = .directive x) ∧
    (sEngine.phase = .running ∧ sEngine.bus.held = none ∧ sEngine.dev.burst = some (.fetch ⟨0, 0, 16⟩ true)) ∧
    (let s : State := { sEngine with dev := { sEngine.dev with burst := some .ring, ring := { Ring.afterReset with writeList := [entry] } } }
     s.bus.held = none ∧ s.dev.burst = some .ring ∧ s.dev.ring.writeList = entry :: []) ∧
    sEngine.contentsCanonical ∧
    { entry with disp := .wrongLeg, rec_ := some 9 }.bytes =
      [0xA6, 0, 0, 0, 0, 0, 0, 0, 0, 2, 1, 2, 97, 0, 50, 0, 9, 0] ++ List.replicate 14 0 :=
  ⟨by decide +kernel, by decide +kernel, by decide +kernel, ⟨rfl, rfl⟩, by decide +kernel⟩

/-! ### Examinations -/

/-- Mirrors with enrolment words of record 9: serial 0xA6, leg 0, address 0xDFF, group 0xE00, no profile, demand 8, hold point 3. -/
def enrolMirrors (addr : Nat) : List (Nat × Word) :=
  let w k := (offRecord 9) / 4 + k
  [(w 0, 0xA6), (w 2, 0x00080300), (w 3, BitVec.ofNat 32 (addr + 0xE00 * 65536)), (w 4, 0x80000000)]

/-- An ENROL of record 9 is at the front of the intake order. -/
def sEnrol (addr : Nat) (recs : List (Nat × Rec)) : State := { queued (base runLeg recs) [1, 9] with mirrors := enrolMirrors addr }

/-- The captured ENROL of record 9. -/
def enrolPs : List Word := [1, 9]

theorem enrol_examines (addr : Nat) (recs : List (Nat × Rec)) : (sEnrol addr recs).examines .enrol 3 [] enrolPs :=
  ⟨rfl, rfl, rfl, by decide⟩

theorem hyp_EnrolMakesTheRecordExpected :
    let s := sEnrol 0xDFF [(5, recAt .active)]
    let f := enrolFields s.mirrors 9
    s.examines .enrol 3 [] enrolPs ∧ s.Inv ∧ paramNat enrolPs 1 = 9 ∧ (s.dev.record 9).state = .vacant ∧ f.inRange ∧
      (s.dev.leg f.copy.leg).st ≠ .dark ∧ (∀ q, s.dev.otherOn 9 q f.copy.leg → (s.dev.record q).enrol.addr ≠ f.copy.addr) ∧
      (∀ q, q ≠ 9 → (s.dev.record q).state ≠ .vacant → (s.dev.record q).enrol.serial ≠ f.copy.serial) ∧
      f.copy.group ≠ 0 ∧ (s.dev.groupMembers 9 f.copy.leg f.copy.group).length < 64 ∧
      (∃ k, k < 256 ∧ ∀ q, s.dev.otherOn 9 q f.copy.leg → (s.dev.record q).legRank ≠ k) := by
  have hr : ∀ q, (sEnrol 0xDFF [(5, recAt .active)]).dev.record q = if q = 5 then recAt .active else Rec.vacant := by
    intro q
    rfl
  refine ⟨enrol_examines _ _, inv_of_check (by decide +kernel), by decide, by decide +kernel, ?_, by decide +kernel, ?_, ?_,
    by decide +kernel, by decide +kernel, 255, by decide, ?_⟩
  · unfold EnrolFields.inRange
    decide +kernel
  · rintro q ⟨-, hv, -⟩
    rw [hr] at hv ⊢
    split at hv
    · rename_i h
      subst h
      decide +kernel
    · exact absurd rfl hv
  · intro q _ hv
    rw [hr] at hv ⊢
    split at hv
    · rename_i h
      subst h
      decide +kernel
    · exact absurd rfl hv
  · rintro q ⟨-, hv, -⟩
    rw [hr] at hv ⊢
    split at hv
    · rename_i h
      subst h
      decide +kernel
    · exact absurd rfl hv

/-- ENROL of an enrolled record, of an address out of range, on a DARK leg, of a taken address, of a taken serial. -/
theorem hyp_EnrolRefusedLeavesTheRoster :
    (let s := sEnrol 0xDFF [(9, recAt .active)]
     s.examines .enrol 3 [] enrolPs ∧ s.Inv ∧ paramNat enrolPs 1 = 9 ∧ (s.dev.record 9).state ≠ .vacant) ∧
    (let s := sEnrol 0xE00 []
     s.examines .enrol 3 [] enrolPs ∧ s.Inv ∧ (s.dev.record 9).state = .vacant ∧ ¬ (enrolFields s.mirrors 9).inRange) ∧
    (let s : State := { sEnrol 1 [] with dev := { (sEnrol 1 []).dev with legs := State.reset.dev.legs } }
     s.examines .enrol 3 [] enrolPs ∧ s.Inv ∧ (enrolFields s.mirrors 9).inRange ∧ (s.dev.leg 0).st = .dark) ∧
    (let s := sEnrol 0x123 [(5, recAt .active)]
     let f := enrolFields s.mirrors 9
     s.examines .enrol 3 [] enrolPs ∧ s.Inv ∧ f.inRange ∧ (s.dev.leg f.copy.leg).st ≠ .dark ∧
       ∃ q, s.dev.otherOn 9 q f.copy.leg ∧ (s.dev.record q).enrol.addr = f.copy.addr) ∧
    (let r := { recAt .active with enrol := { (recAt .active).enrol with serial := 0xA6, leg := 1 } }
     let s := sEnrol 0xDFF [(5, r)]
     let f := enrolFields s.mirrors 9
     s.Inv ∧ f.inRange ∧ ∃ q, q ≠ 9 ∧ (s.dev.record q).state ≠ .vacant ∧ (s.dev.record q).enrol.serial = f.copy.serial) := by
  refine ⟨⟨enrol_examines _ _, inv_of_check (by decide +kernel), by decide, by decide +kernel⟩,
    ⟨enrol_examines _ _, inv_of_check (by decide +kernel), by decide +kernel, ?_⟩,
    ⟨⟨rfl, rfl, rfl, by decide⟩, inv_of_check (by decide +kernel), ?_, by decide +kernel⟩,
    ⟨enrol_examines _ _, inv_of_check (by decide +kernel), ?_, by decide +kernel, 5,
      ⟨by decide, by decide +kernel⟩, by decide +kernel⟩,
    ⟨inv_of_check (by decide +kernel), ?_, 5, by decide, by decide +kernel⟩⟩ <;>
    · unfold EnrolFields.inRange
      decide +kernel

/-- Sixty-four records of group 0xE00 on leg 0, indices 10 to 73. -/
def fullGroup : List (Nat × Rec) :=
  (List.range 64).map fun k =>
    (10 + k, { recAt .expected with
      legRank := k, groupRank := some k
      enrol := { (recAt .expected).enrol with serial := BitVec.ofNat 64 (0x100 + k), addr := BitVec.ofNat 12 (1 + k), group := 0xE00 } })

/-- A drop address above 0xDFF is the first field that fails, field 4. -/
theorem hyp_EnrolRefusedLeavesTheRoster_field :
    (after .enrol (sEnrol 0xE00 [])).dev.slot 3 =
      { (sEnrol 0xE00 []).dev.slot 3 with st := .done, result := .badField, detail := { Detail.zero with a := 4 } } := by
  decide +kernel

theorem hyp_EnrolRefusedLeavesTheRoster_group :
    let s := sEnrol 0xDFF fullGroup
    let f := enrolFields s.mirrors 9
    s.examines .enrol 3 [] enrolPs ∧ s.Inv ∧ f.copy.group ≠ 0 ∧ 64 ≤ (s.dev.groupMembers 9 f.copy.leg f.copy.group).length :=
  ⟨enrol_examines _ _, inv_of_check (by decide +kernel), by decide +kernel⟩

/-- The words of a captured command. -/
def words (ps : List Nat) : List Word := ps.map fun v => BitVec.ofNat 32 v

theorem queued_examines (s : State) (ps : List Nat) (row : ExamRow) (hs : s.phase = .running)
    (h : examRow (words ps) = row) : (queued s ps).examines row 3 [] (words ps) :=
  ⟨hs, rfl, rfl, h⟩

/-- A record parameter of 256 in an ENROL, a WITHDRAW and a CONTINUE. -/
theorem hyp_RecordParameterAbove255 :
    ((queued s0 [1, 256]).examines .enrol 3 [] (words [1, 256]) ∧ (queued s0 [1, 256]).Inv ∧ 255 < paramNat (words [1, 256]) 1) ∧
    ((queued s0 [2, 256]).examines .withdraw 3 [] (words [2, 256]) ∧ (queued s0 [2, 256]).Inv ∧ 255 < paramNat (words [2, 256]) 1) ∧
    ((queued s0 [3, 256]).examines .continueRecord 3 [] (words [3, 256]) ∧ (queued s0 [3, 256]).Inv ∧
      255 < paramNat (words [3, 256]) 1) ∧
    ((after .enrol (queued s0 [1, 256])).dev.slot 3).result = .badField :=
  ⟨⟨queued_examines _ _ _ rfl rfl, inv_of_check (by decide +kernel), by decide⟩,
   ⟨queued_examines _ _ _ rfl rfl, inv_of_check (by decide +kernel), by decide⟩,
   ⟨queued_examines _ _ _ rfl rfl, inv_of_check (by decide +kernel), by decide⟩, by decide +kernel⟩

theorem hyp_WithdrawEndsThePlan :
    ((queued s0 [2, 255]).examines .withdraw 3 [] (words [2, 255]) ∧ (queued s0 [2, 255]).Inv ∧ paramNat (words [2, 255]) 1 = 255 ∧
      ((queued s0 [2, 255]).dev.record 255).state = .vacant) ∧
    (let s := queued (base runLeg [(5, candidate 1)]) [2, 5]
     s.examines .withdraw 3 [] (words [2, 5]) ∧ s.Inv ∧ paramNat (words [2, 5]) 1 = 5 ∧ (s.dev.record 5).state = .active ∧
       (s.dev.record 5).addressed = true ∧ (s.dev.leg 0).queue.length < queueCap ∧ (s.dev.leg 0).hunt.cands = [] ∧ s.dev.pinWait = []) :=
  ⟨⟨queued_examines _ _ _ rfl rfl, inv_of_check (by decide +kernel), by decide, by decide +kernel⟩,
   ⟨queued_examines _ _ _ rfl rfl, inv_of_check (by decide +kernel), by decide, by decide +kernel⟩⟩

/-- A WITHDRAW of record 5, a candidate of leg 0's hunt, is at the front of the intake order. -/
def sLeaving (c : Chan) (h : Hunt) : State :=
  queued (base { runLeg with st := .hunting, chan := c, hunt := h } [(5, { candidate 1 with muted := true }), (6, candidate 2)]) [2, 5]

/-- A candidate withdrawn with a step left, with its MUTE and with its UNMUTE in flight, as the last to be muted, and after the last
UNMUTE with a new list of two, one and none, and in the final step. -/
theorem hyp_WithdrawEndsThePlan_candidate :
    let mu : Hunt := { Hunt.idle with phase := .muting, owner := some 7, cands := [5, 6], half := [5], steps := 1 }
    let un : Hunt := { mu with phase := .unmuting }
    let fly (b : Body) : Chan := .directive (flight b (.hunt 5) 99)
    let k (c : Chan) (h : Hunt) := (after .withdraw (sLeaving c h)).dev.leg 0
    (sLeaving .free { mu with todo := [5, 6] }).examines .withdraw 3 [] (words [2, 5]) ∧
    (∀ h ∈ [{ mu with todo := [5, 6] }, { mu with todo := [5] }, mu, un, { un with final := true }], invCheck (sLeaving .free h) = true) ∧
    invCheck (sLeaving (fly .mute) mu) = true ∧ invCheck (sLeaving (fly .unmute) un) = true ∧
    (k .free { mu with todo := [5, 6] }).hunt = { mu with cands := [6], half := [], todo := [6] } ∧
    ((k (fly .mute) mu).chan = .free ∧ ((after .withdraw (sLeaving (fly .mute) mu)).dev.record 5).muted = true) ∧
    ((k (fly .unmute) { un with todo := [6] }).chan = .free ∧
      ((after .withdraw (sLeaving (fly .unmute) { un with todo := [6] })).dev.record 5).muted = false) ∧
    ((k .free { mu with todo := [5] }).hunt.phase = .surveying ∧ (k .free { mu with todo := [5] }).pendSurvey = some ⟨false, [], true⟩) ∧
    (k .free { un with newList := [5, 6, 7] }).hunt.half = [6] ∧ (k .free { un with newList := [5, 6] }).hunt.final = true ∧
    ((k .free { un with newList := [5] }).st = .suspended ∧ (k .free { un with final := true }).hunt.lastResult = .strayRogue ∧
      ((after .withdraw (sLeaving .free un)).dev.slot 7).result = .ok) ∧
    (k .free { un with newList := [5] }).queue = [⟨⟨.individual 1, .dismiss⟩, .record 5⟩] :=
  ⟨queued_examines _ _ _ rfl rfl, by decide +kernel⟩

/-- A CONTINUE of record 5 is at the front of the intake order. -/
def sContinue (g : Leg) (x : Rec) : State := queued (base g [(5, x)]) [3, 5]

theorem continue_examines (g : Leg) (x : Rec) : (sContinue g x).examines .continueRecord 3 [] (words [3, 5]) :=
  queued_examines _ _ _ rfl rfl

theorem hyp_ContinueRefusals :
    (let s := sContinue runLeg (recAt .active)
     s.examines .continueRecord 3 [] (words [3, 5]) ∧ s.Inv ∧ paramNat (words [3, 5]) 1 = 5 ∧ (s.dev.record 5).state = .active) ∧
    (let s := sContinue { runLeg with st := .faulted } { recAt .held with stage := some .assigning }
     s.examines .continueRecord 3 [] (words [3, 5]) ∧ s.Inv ∧ (s.dev.record 5).state = .held ∧ (s.dev.leg 0).st = .faulted) ∧
    (let s := sContinue runLeg { recAt .halted with fault := .rogue }
     s.examines .continueRecord 3 [] (words [3, 5]) ∧ s.Inv ∧ (s.dev.record 5).fault = .rogue) :=
  ⟨⟨continue_examines _ _, inv_of_check (by decide +kernel), by decide, by decide +kernel⟩,
   ⟨continue_examines _ _, inv_of_check (by decide +kernel), by decide +kernel⟩,
   ⟨continue_examines _ _, inv_of_check (by decide +kernel), by decide +kernel⟩⟩

/-- The hypotheses that CONTINUE's statements share, as a check. -/
def contMet (x : Rec) : Bool :=
  let s := sContinue runLeg x
  invCheck s && decide ((s.dev.record 5) = x) && decide ((s.dev.leg x.enrol.leg).st ≠ .faulted) &&
    decide (x.enrol.demand ≤ (s.dev.leg x.enrol.leg).freeSlots.length)

/-- HELD after LOADING with a demand of 8 and no slot free: CONTINUE halts it with NO_SLOTS. -/
theorem hyp_ContinueEntersTheNextState_noSlots :
    let g := { runLeg with slotMap := trafficSlots.map fun k => (k, 8) }
    let x := { recAt .held with stage := some .loading, enrol := { (recAt .held).enrol with demand := 8 } }
    let s := sContinue g x
    let t := after .continueRecord s
    invCheck s = true ∧ (s.dev.leg 0).freeSlots.length < x.enrol.demand ∧ (t.dev.record 5).state = .halted ∧
      (t.dev.record 5).fault = .noSlots ∧ (t.dev.record 5).stage = some .granting ∧ (t.dev.record 5).freeCount = 0 ∧
      (t.dev.slot 3).result = .ok ∧ (t.dev.slot 3).detail.b = RecState.halted.code := by
  decide +kernel

/-- HELD after ASSIGNING, EQUALISING and LOADING; HALTED with FLAPPING, in PROBING, in RANGING with and without its address. -/
theorem hyp_ContinueEntersTheNextState :
    contMet { recAt .held with stage := some .assigning } ∧ contMet { recAt .held with stage := some .equalising } ∧
      contMet { recAt .held with stage := some .loading, enrol := { (recAt .held).enrol with demand := 8 } } ∧
      contMet { recAt .halted with fault := .flapping, stage := some .loading } ∧
      contMet { recAt .halted with stage := some .probing } ∧ contMet { recAt .halted with stage := some .ranging } ∧
      contMet { recAt .halted with stage := some .granting, addressed := true } := by
  decide +kernel

/-- A PEEK, a POKE of eight bytes, a CALL to an individual address and one to the estate are examined. -/
theorem hyp_ServiceCommandsAreChecked :
    let s := base runLeg [(5, candidate 1)]
    ((queued s [4, 5, 255, 8]).Inv ∧ (queued s [4, 5, 255, 8]).examines .peek 3 [] (words [4, 5, 255, 8])) ∧
    ((queued s [5, 5, 0, 1, 7]).Inv ∧ (queued s [5, 5, 0, 1, 7]).examines .poke 3 [] (words [5, 5, 0, 1, 7])) ∧
    ((queued s [6, 0, 0xDFF, 16]).Inv ∧ (queued s [6, 0, 0xDFF, 16]).examines .call 3 [] (words [6, 0, 0xDFF, 16])) ∧
    ((queued s [6, 0, 0xEFF, 1]).Inv ∧ (queued s [6, 0, 0xEFF, 1]).examines .groupCall 3 [] (words [6, 0, 0xEFF, 1]) ∧
      (paramNat (words [6, 0, 0xEFF, 1]) 1 ≤ 3 → paramNat (words [6, 0, 0xEFF, 1]) 1 = (0 : Fin 4).val)) :=
  ⟨⟨inv_of_check (by decide +kernel), queued_examines _ _ _ rfl rfl⟩, ⟨inv_of_check (by decide +kernel), queued_examines _ _ _ rfl rfl⟩,
   ⟨inv_of_check (by decide +kernel), queued_examines _ _ _ rfl rfl⟩,
   ⟨inv_of_check (by decide +kernel), queued_examines _ _ _ rfl rfl, fun _ => rfl⟩⟩

/-- Twelve URGENT entries. -/
def twelveUrgent : List Entry := List.replicate 12 ⟨⟨.individual 1, .dismiss⟩, .cmd 9⟩

/-- EVICT on a DARK, a FAULTED and a hunting leg. -/
theorem hyp_EvictIsCheckedAndUrgent_legs :
    let s (st : LegState) := queued (base { runLeg with st := st } []) [7, 0, 0xDFF]
    (∀ st ∈ [LegState.dark, .faulted, .hunting], invCheck (s st) = true) ∧ examRow (words [7, 0, 0xDFF]) = .evict ∧
    ((after .evict (s .dark)).dev.slot 3).result = .legOff ∧ ((after .evict (s .faulted)).dev.slot 3).result = .legFault ∧
    ((after .evict (s .hunting)).dev.slot 3).result = .legHunting := by
  decide +kernel

/-- EVICT of leg 4, of address 0, of an owned address, of a free one, and with a queue of twelve URGENT entries. -/
theorem hyp_EvictIsCheckedAndUrgent :
    ((queued s0 [7, 4, 1]).Inv ∧ (queued s0 [7, 4, 1]).examines .evict 3 [] (words [7, 4, 1]) ∧ 3 < paramNat (words [7, 4, 1]) 1) ∧
    ((queued s0 [7, 3, 0]).Inv ∧ (queued s0 [7, 3, 0]).examines .evict 3 [] (words [7, 3, 0]) ∧ paramNat (words [7, 3, 0]) 1 = 3 ∧
      paramNat (words [7, 3, 0]) 2 = 0) ∧
    (let s := queued (base runLeg [(5, candidate 0xDFF)]) [7, 0, 0xDFF]
     s.Inv ∧ s.examines .evict 3 [] (words [7, 0, 0xDFF]) ∧ (s.dev.leg 0).st = .running ∧ (s.dev.leg 0).hunt.phase ≠ .starting ∧
       (s.dev.record 5).state ≠ .vacant ∧ (s.dev.record 5).enrol.leg = 0 ∧
       (s.dev.record 5).enrol.addr = BitVec.ofNat 12 (paramNat (words [7, 0, 0xDFF]) 2)) ∧
    (let s := queued s0 [7, 0, 1]
     s.Inv ∧ s.examines .evict 3 [] (words [7, 0, 1]) ∧ s.dev.recs = [] ∧ (s.dev.leg 0).queue.length < 12) ∧
    (let s := queued (base { runLeg with queue := twelveUrgent } []) [7, 0, 1]
     s.Inv ∧ s.examines .evict 3 [] (words [7, 0, 1]) ∧ (s.dev.leg 0).queue.length = 12 ∧ ∀ e ∈ (s.dev.leg 0).queue, e.cls = .urgent) :=
  ⟨⟨inv_of_check (by decide +kernel), queued_examines _ _ _ rfl rfl, by decide⟩,
   ⟨inv_of_check (by decide +kernel), queued_examines _ _ _ rfl rfl, by decide, by decide⟩,
   ⟨inv_of_check (by decide +kernel), queued_examines _ _ _ rfl rfl, by decide +kernel⟩,
   ⟨inv_of_check (by decide +kernel), queued_examines _ _ _ rfl rfl, rfl, by decide +kernel⟩,
   ⟨inv_of_check (by decide +kernel), queued_examines _ _ _ rfl rfl, by decide +kernel⟩⟩

/-- Full queues: one with a SERVICE entry between URGENT ones, one with a STAGE entry, one of URGENT entries alone. -/
theorem hyp_UrgentEvictsTheNewestLowest :
    (let q := twelveUrgent.take 5 ++ ⟨⟨.individual 1, .level⟩, .level 5⟩ :: twelveUrgent.take 6
     let d := (base { runLeg with queue := q } []).dev
     (d.leg 0).queue.length = 12 ∧ (d.leg 0).queue = q ∧ (∀ x ∈ twelveUrgent.take 6, x.cls ≠ .service)) ∧
    (let q := twelveUrgent.take 11 ++ ⟨⟨.individual 1, .probe⟩, .record 5⟩ :: []
     let d := (base { runLeg with queue := q } []).dev
     (d.leg 0).queue.length = 12 ∧ (d.leg 0).queue = q ∧ (∀ x ∈ q, x.cls ≠ .service)) ∧
    (let d := (base { runLeg with queue := twelveUrgent } []).dev
     (d.leg 0).queue.length = 12 ∧ ∀ e ∈ (d.leg 0).queue, e.cls = .urgent) ∧
    (base { runLeg with queue := twelveUrgent } []).dev.mapsCanonical :=
  ⟨by decide +kernel, by decide +kernel, by decide +kernel, by decide +kernel, rfl, rfl, by decide +kernel⟩

/-- SURVEY and HUNT of leg 0, of a leg value 5, a SURVEY of every leg, a RESUME and a kind value that names no command are examined
(SurveyAndHuntAreTaken, AllLegsSurveyAsksEachLeg, ResumeAndBadKind). -/
theorem hyp_LegCommands :
    ((queued s0 [8, 0]).Inv ∧ (queued s0 [8, 0]).examines .survey 3 [] (words [8, 0])) ∧
    ((queued s0 [8, 5]).Inv ∧ (queued s0 [8, 5]).examines .survey 3 [] (words [8, 5]) ∧ 3 < paramNat (words [8, 5]) 1) ∧
    ((queued s0 [9, 3]).Inv ∧ (queued s0 [9, 3]).examines .hunt 3 [] (words [9, 3]) ∧ paramNat (words [9, 3]) 1 = 3) ∧
    ((queued s0 [8, 4]).Inv ∧ (queued s0 [8, 4]).examines .allSurvey 3 [] (words [8, 4])) ∧
    ((queued s0 [10, 0]).Inv ∧ (queued s0 [10, 0]).examines .resume 3 [] (words [10, 0])) ∧
    ((queued s0 [0]).Inv ∧ (queued s0 [0]).examines .badKind 3 [] (words [0])) ∧
    ((queued s0 [255]).Inv ∧ (queued s0 [255]).examines .badKind 3 [] (words [255])) :=
  ⟨⟨inv_of_check (by decide +kernel), queued_examines _ _ _ rfl rfl⟩,
   ⟨inv_of_check (by decide +kernel), queued_examines _ _ _ rfl rfl, by decide⟩,
   ⟨inv_of_check (by decide +kernel), queued_examines _ _ _ rfl rfl, by decide⟩,
   ⟨inv_of_check (by decide +kernel), queued_examines _ _ _ rfl rfl⟩, ⟨inv_of_check (by decide +kernel), queued_examines _ _ _ rfl rfl⟩,
   ⟨inv_of_check (by decide +kernel), queued_examines _ _ _ rfl rfl⟩, ⟨inv_of_check (by decide +kernel), queued_examines _ _ _ rfl rfl⟩⟩

/-! ## What single commands do -/

theorem test_commit_from_reset_is_rejected :
    (after (.commit 0 1) State.reset).cstat = { status := .rejected, field := some 1, reason := some .range, count := 1 } := by
  decide +kernel

theorem test_commit_turns_a_leg_on :
    let t := after (.commit 0 1) (sCommit runLeg (cfgMirrors 1 2 1 1))
    t.cstat.status = .applied ∧ (t.dev.leg 1).st = .running ∧ (t.dev.leg 1).timer = 64 ∧ (t.dev.leg 0).timer = 10 := by
  decide +kernel

theorem test_passed_write_takes_the_enabled_lanes :
    let t := after (.passedWrite 0x234567 0xDDCCBBAA 0b0101) s0
    Memory.read t.mem 0x234564 = 0xAA ∧ Memory.read t.mem 0x234565 = 0 ∧ Memory.read t.mem 0x234566 = 0xCC ∧
      Memory.read t.mem 0x234567 = 0 := by
  decide +kernel

theorem test_mirrored_write_merges :
    let t := after (.mirroredWrite (.param 3 11) 0x11223344 0b0010) { s0 with mirrors := [((offSlot 3 + 44) / 4, 0xFFFFFFFF)] }
    Mirrors.word t.mirrors (offSlot 3 + 44) = 0xFFFF33FF := by
  decide +kernel

theorem test_live_word_is_not_written : after (.passedWrite (regionAddr 0 offSummary) 7 0xF) s0 = s0 := by decide +kernel

theorem test_attention_follows_the_mask :
    let s : State := { s0 with dev := { s0.dev with causes := 1 } }
    s.attn = true ∧ s.summaryWord = 0x80000001 ∧ (after (.clearWrite 1 1) s).attn = false := by
  decide +kernel

theorem test_tail_write_out_of_range_sets_bad_tail :
    (after (.tailWrite 16 0xF) s0).dev.ring = { Ring.afterReset with badTail := true } := by
  decide +kernel

theorem test_level_read_queues_a_level :
    let t := after (.levelRead (.level 5) 1) (sRec .active)
    (t.dev.leg 0).queue = [⟨⟨.individual 0x123, .level⟩, .level 5⟩] ∧ (t.dev.record 5).levelWanted = true := by
  decide +kernel

theorem test_go_captures_and_joins_the_intake :
    let t := after (.go 3 1 1) { s0 with mirrors := [(offSlot 3 / 4, 10)] }
    t.dev.intake = [3] ∧ (t.dev.slot 3).st = .queued ∧ param (t.dev.slot 3).params 0 = 10 := by
  decide +kernel

theorem test_clear_of_a_done_slot :
    (after (.clear 3 3 1) { s0 with dev := { s0.dev with slots := [(3, slotWith .done [10])] } }).dev.slots = [] := by
  decide +kernel

theorem test_abort_of_a_flying_peek :
    let t := after (.abort 3 2 1) (sPeek 99)
    (t.dev.leg 0).chan = .free ∧ (t.dev.slot 3).result = .aborted ∧ (t.dev.slot 3).detail.a = 1 := by
  decide +kernel

theorem test_invalid_issue_value_is_ignored :
    (after (.invalidIssueValue 3 4 1) s0).dev.isSet .issueIgnored = true := by
  decide +kernel

theorem test_enrol_makes_a_record :
    let t := after .enrol (sEnrol 0xDFF [(5, recAt .active)])
    (t.dev.record 9).state = .expected ∧ (t.dev.record 9).legRank = 1 ∧ (t.dev.record 9).groupRank = some 0 ∧
      (t.dev.slot 3).result = .ok ∧ (t.dev.slot 3).word 0 = 0x01090103 := by
  decide +kernel

theorem test_enrol_of_a_taken_address :
    ((after .enrol (sEnrol 0x123 [(5, recAt .active)])).dev.slot 3).result = .dupAddress := by
  decide +kernel

theorem test_withdraw_queues_a_dismiss :
    let t := after .withdraw (queued (base runLeg [(5, candidate 1)]) [2, 5])
    (t.dev.record 5).state = .withdrawing ∧ (t.dev.leg 0).queue = [⟨⟨.individual 1, .dismiss⟩, .record 5⟩] := by
  decide +kernel

theorem test_continue_of_a_held_record :
    ((after .continueRecord (sContinue runLeg { recAt .held with stage := some .assigning })).dev.record 5).state = .ranging := by
  decide +kernel

theorem test_peek_without_an_address_is_refused :
    ((after .peek (queued (sRec .expected) [4, 5, 0, 1])).dev.slot 3).result = .wrongState := by
  decide +kernel

theorem test_hail_of_an_expected_record_starts_probing :
    let t := after (.decodedHail 0 0xA5 1 1 50 99) (sHail (recAt .expected))
    (t.dev.record 5).state = .probing ∧ (t.dev.record 5).hails = 1 ∧
      (t.dev.leg 0).queue = [⟨⟨.individual 0x123, .probe⟩, .record 5⟩] := by
  decide +kernel

theorem test_hail_of_a_stranger_is_reported :
    let t := after (.decodedHail 0 0xA6 1 2 50 99) (sHail (recAt .expected))
    t.dev.ring.writeList = [{ entry with cycle := 99 }] ∧ t.dev.requests = [] ∧ t.bus.port = .engine ∧ t.dev.burst = some .ring := by
  decide +kernel

theorem test_first_send_takes_the_tag :
    let t := after (.directiveFirstSend 0) (sReady ⟨.individual 0x123, .probe⟩ (.record 5) (recAt .probing))
    (t.dev.leg 0).tagCtr = 1 ∧ (t.dev.leg 0).lastSent = some ⟨100, 0, ⟨.individual 0x123, .probe⟩, []⟩ ∧
      (t.dev.leg 0).marker = some ⟨100, false, true⟩ ∧ (t.dev.record 5).attempts = 1 := by
  decide +kernel

theorem test_echo_in_tolerance_takes_the_delay :
    let t := after (.replyBurst 0 0x123 7 .ok [] 50 1006 heard) sRange
    (t.dev.record 5).state = .equalising ∧ (t.dev.record 5).measured = some 1006 ∧ (t.dev.record 5).equalise = some 38994 := by
  decide +kernel

theorem test_echo_out_of_tolerance_is_the_new_reference :
    let t := after (.replyBurst 0 0x123 7 .ok [] 50 1007 heard) sRange
    (t.dev.record 5).state = .ranging ∧ (t.dev.record 5).ranging = some ⟨3, 2, some (1007, 50)⟩ := by
  decide +kernel

theorem test_refused_probe_halts :
    let t := after (.replyBurst 0 0x123 7 .refused [] 50 0 heard) (sFly .probing .probe (.record 5) 99)
    (t.dev.record 5).state = .halted ∧ (t.dev.record 5).fault = .addressTaken ∧ (t.dev.record 5).stage = some .probing := by
  decide +kernel

theorem test_watched_write_halts_a_loading_record :
    let t := after (.watchedWrite 7 0xFF 0b1000) (sLoading runLeg)
    (t.dev.record 5).state = .halted ∧ (t.dev.record 5).fault = .sourceChanged := by
  decide +kernel

theorem test_ring_entry_is_written :
    let s : State := { sEngine with dev := { sEngine.dev with burst := some .ring, ring := { Ring.afterReset with head := 15, writeList := [entry] } } }
    let t := after .ringEntryWriteComplete s
    Memory.read t.mem (0x5000 + 32 * 15) = 0xA6 ∧ t.dev.ring.head = 0 ∧ t.bus.port = .free := by
  decide +kernel

theorem test_survey_all_lit_is_blazing :
    ((after (.surveyWindowEnd 0 512) (sSurvey ⟨true, [], false⟩ .running .idle [])).dev.leg 0).lastSurvey = .blazing := by
  decide +kernel

theorem test_flt_halts_the_stages :
    let t := after (.fltAsserted 0) (sFly .probing .probe (.record 5) 99)
    (t.dev.leg 0).st = .faulted ∧ (t.dev.leg 0).chan = .free ∧ (t.dev.record 5).fault = .legFault := by
  decide +kernel

/-- A freed port goes to the held access below pass count 8, and to the engine at 8. -/
theorem test_freed_port_goes_to_the_next_claimant :
    let s (n : Nat) := sAsk { Bus.afterReset with port := .controller, passing := some ⟨wr 4 1, 0⟩, held := some (wr 0 7), passCount := n }
      [.ring] [] { Ring.afterReset with writeList := [entry] }
    (let t := after .memoryAccessComplete (s 7)
     t.bus.port = .controller ∧ t.bus.held = none ∧ t.bus.passCount = 8 ∧ Mirrors.word t.mirrors 0 = 7) ∧
    (let t := after .memoryAccessComplete (s 8)
     t.bus.port = .engine ∧ t.bus.held = some (wr 0 7) ∧ t.bus.passCount = 0 ∧ t.dev.burst = some .ring) := by
  decide +kernel

/-- After a dropped ring entry the held access passes when no entry is left, and waits for the next entry at pass count 8. -/
theorem test_dropped_entry_passes_the_port_on :
    let s (xs : List RingEntry) :=
      sAsk { Bus.afterReset with held := some (wr 0 7), passCount := 8 } [.ring] [] { Ring.afterReset with head := 15, writeList := xs }
    ((after .engineBurstBegin (s [entry])).bus.port = .controller) ∧
    (let t := after .engineBurstBegin (s [entry, entry])
     t.bus.port = .controller ∧ t.dev.ring.writeList = [] ∧ t.dev.ring.overrun = true) := by
  decide +kernel

theorem test_reads_of_other_words :
    (after (.levelRead (.word 0x00010C) 0xF) { s0 with dev := { s0.dev with ring := { Ring.afterReset with overrun := true } } }).bus.rdata
      = 0x10000 ∧
    (let t := after (.levelRead (.word 0x234567) 0xF) { s0 with mem := [(0x234564, 0xAA), (0x234567, 0xDD)] }
     t.bus.rdata = 0xDD0000AA ∧ t.bus.port = .controller ∧ t.mirrors = []) := by
  decide +kernel

theorem test_pace_timer_expires_once :
    let s := base { runLeg with timer := 1 } []
    ((after .cycleStart s).dev.leg 0).timer = 64 ∧ ((after .cycleStart s).dev.leg 0).pendHail = true ∧
    ((after (.paceTimerExpiry 0) s).dev.leg 0).timer = 64 ∧
    ((after .cycleStart (after (.paceTimerExpiry 0) s)).dev.leg 0).timer = 64 ∧
    ((after .cycleStart (after .cycleStart (after (.paceTimerExpiry 0) s))).dev.leg 0).timer = 63 := by
  decide +kernel

theorem test_bursts_are_heard_in_the_rest_of_a_quiet_span :
    let w := { hailWin with since := 100, opened := none }
    let s := base { runLeg with chan := .hail w, quietTail := [⟨98, 2, none⟩] } []
    ((after (.garbledBurst 0 none) s).dev.leg 0).chan = .hail { w with others := true } ∧
    (after (.garbledBurst 0 none) { s with cycle := 103 }).dev.leg 0 = s.dev.leg 0 := by
  decide +kernel

/-- The reach target goes from 62,500 to 1,000 once the span's last upstream cycle has begun: the span runs to its end at first + W + 3. -/
theorem test_a_span_keeps_the_reach_its_last_cycle_began_with :
    let g := { runLeg with quietTail := [⟨94, 2, none⟩] }
    let withReach (reach : Nat) (s : State) : State :=
      { s with applied := { s.applied with leg0 := { s.applied.leg0 with reach := reach } } }
    let t := after .cycleStart (withReach 62500 { base g [] with cycle := 97 })
    (t.dev.leg 0).quietTail = [⟨94, 2, some 62500⟩] ∧ (t.dev.leg 0).quietSpanRuns 1000 98 = true ∧
      ((after .cycleStart (withReach 1000 t)).dev.leg 0).quietTail = [] ∧
      ((after .cycleStart (withReach 1000 { base g [] with cycle := 97 })).dev.leg 0).quietTail = [] := by
  decide +kernel

/-- FLT comes and goes within the span of an ANSWERED PROBE: the next marker carries the quiet flag. -/
theorem test_a_span_outlives_flt :
    let s := base { runLeg with quietTail := [⟨99, 2, none⟩] } []
    let t := after .cycleStart (after (.fltAsserted 0) s)
    (t.dev.leg 0).marker = some ⟨101, false, false⟩ ∧ (t.dev.leg 0).quiet = false ∧
      ((after .cycleStart (after (.fltDeasserted 0) s)).dev.leg 0).marker = some ⟨101, false, true⟩ ∧
      ((after .cycleStart (after (.fltDeasserted 0) (after (.fltAsserted 0) s))).dev.leg 0).marker = some ⟨101, false, true⟩ := by
  decide +kernel

theorem test_live_words :
    let x := { recAt .active with hails := 3, label := some 8, slotList := [8, 47], measured := some 21343, levelWanted := true }
    let s := base { runLeg with slotMap := [(8, 8), (47, 8)] } [(5, x)]
    s.liveWord (offRecord 5 + 32) = 0x40000008 ∧ s.liveWord (offRecord 5 + 36) = 0x00FF0003 ∧
      s.liveWord (offRecord 5 + 48) = 0x00000208 ∧ s.liveWord (offRecord 5 + 52) = 0x00002F08 ∧
      s.liveWord (offLeg 0 + 0x20) = 8 ∧ s.liveWord (offLeg 0 + 0x44) = 0x08000000 ∧ s.liveWord (offLeg 0) = 0x02FF0001 := by
  decide +kernel

theorem test_cycle_number_wraps : (after .cycleStart { s0 with cycle := 65535 }).cycle = 0 := by decide +kernel

theorem test_reset_sequence :
    let t := after .clearingEnd (after (.resetReleased 9) (after .resetAsserted sPassing))
    t.phase = .running ∧ t.base = 9 ∧ t.dev.legs = State.reset.dev.legs ∧ t.bus.port = .controller := by
  decide +kernel
end Sys2Proof.Machine.Slice0
end

section
/-! O27 (R45): the head of a leg's queue, and what a hand-over does with it. First the lists that `takeFirst` and `takeHead` answer,
then the operations of a hand-over on a leg where nothing waits, then the statement. -/

namespace Sys2Proof.Machine

/-! ## The first element of a list with a property -/

theorem takeFirst_eq_none_iff {α : Type} (p : α → Bool) (xs : List α) : takeFirst p xs = none ↔ ∀ x ∈ xs, p x = false := by
  induction xs with
  | nil => simp [takeFirst]
  | cons x xs ih => cases hx : p x <;> simp [takeFirst, hx, ih]

/-- The element taken is the first with the property, and the others keep their order. -/
theorem takeFirst_eq_some_split {α : Type} {p : α → Bool} {xs ys : List α} {y : α} (h : takeFirst p xs = some (y, ys)) :
    ∃ before after, xs = before ++ y :: after ∧ ys = before ++ after ∧ p y = true ∧ ∀ x ∈ before, p x = false := by
  induction xs generalizing ys with
  | nil => simp [takeFirst] at h
  | cons x xs ih =>
    rw [takeFirst] at h
    split at h
    next hx =>
      obtain ⟨rfl, rfl⟩ : x = y ∧ xs = ys := by simpa using h
      exact ⟨[], xs, rfl, rfl, hx, by simp⟩
    next hx =>
      obtain ⟨zs, hzs, rfl⟩ : ∃ zs, takeFirst p xs = some (y, zs) ∧ x :: zs = ys := by simpa using h
      obtain ⟨before, after, rfl, rfl, hy, hbefore⟩ := ih hzs
      exact ⟨x :: before, after, rfl, rfl, hy, by simpa [hx] using hbefore⟩

/-! ## The head of the queue (R45) -/

/-- R44: an entry of neither higher class is a SERVICE entry. -/
theorem QClass.eq_service {c : QClass} (hurgent : c ≠ .urgent) (hstage : c ≠ .stage) : c = .service := by
  cases c with
  | urgent => exact absurd rfl hurgent
  | stage => exact absurd rfl hstage
  | service => rfl

/-- The oldest entry of a class, and the queue without it. -/
def takeClass (c : QClass) (q : List Entry) : Option (Entry × List Entry) := takeFirst (fun e => decide (e.cls = c)) q

theorem takeClass_eq_none_iff (c : QClass) (q : List Entry) : takeClass c q = none ↔ ∀ x ∈ q, x.cls ≠ c := by
  simp [takeClass, takeFirst_eq_none_iff]

theorem takeClass_eq_some_split {c : QClass} {q rest : List Entry} {e : Entry} (h : takeClass c q = some (e, rest)) :
    e.cls = c ∧ ∃ before after, q = before ++ e :: after ∧ rest = before ++ after ∧ ∀ x ∈ before, x.cls ≠ e.cls := by
  obtain ⟨before, after, hq, hrest, he, hbefore⟩ := takeFirst_eq_some_split h
  obtain rfl : e.cls = c := by simpa using he
  exact ⟨rfl, before, after, hq, hrest, by simpa using hbefore⟩

/-- The three searches that `takeHead` makes, the higher class first. -/
theorem takeHead_eq (q : List Entry) :
    takeHead q = ((takeClass .urgent q).or (takeClass .stage q)).or (takeClass .service q) := by
  unfold takeHead takeClass
  split
  next hu => simp [hu]
  next hu =>
    split
    next hs => simp [hu, hs]
    next hs => simp [hu, hs]

theorem takeHead_eq_none_iff (q : List Entry) : takeHead q = none ↔ q = [] := by
  simp only [takeHead_eq, Option.or_eq_none_iff, takeClass_eq_none_iff]
  constructor
  · rintro ⟨⟨hurgent, hstage⟩, hservice⟩
    exact List.eq_nil_iff_forall_not_mem.mpr fun x hx =>
      hservice x hx (QClass.eq_service (hurgent x hx) (hstage x hx))
  · rintro rfl
    simp

/-- The head is the oldest entry of its class, and no entry of a higher class is in the queue. -/
theorem takeHead_eq_some_iff (q : List Entry) (y : Entry × List Entry) :
    takeHead q = some y ↔
      (takeClass .urgent q = some y ∨ (∀ x ∈ q, x.cls ≠ .urgent) ∧ takeClass .stage q = some y) ∨
      ((∀ x ∈ q, x.cls ≠ .urgent) ∧ ∀ x ∈ q, x.cls ≠ .stage) ∧ takeClass .service q = some y := by
  simp only [takeHead_eq, Option.or_eq_some_iff, Option.or_eq_none_iff, takeClass_eq_none_iff]

theorem takeHead_eq_some_split {q rest : List Entry} {e : Entry} (h : takeHead q = some (e, rest)) :
    ∃ before after, q = before ++ e :: after ∧ rest = before ++ after ∧ (∀ x ∈ before, x.cls ≠ e.cls) ∧
      (e.cls = .stage → ∀ x ∈ q, x.cls ≠ .urgent) ∧ (e.cls = .service → ∀ x ∈ q, x.cls = .service) := by
  have hcases : ∃ c, takeClass c q = some (e, rest) ∧ (c = .stage → ∀ x ∈ q, x.cls ≠ .urgent) ∧
      (c = .service → ∀ x ∈ q, x.cls = .service) := by
    rcases (takeHead_eq_some_iff _ _).mp h with (hc | ⟨hurgent, hc⟩) | ⟨⟨hurgent, hstage⟩, hc⟩
    · exact ⟨.urgent, hc, by simp, by simp⟩
    · exact ⟨.stage, hc, fun _ => hurgent, by simp⟩
    · exact ⟨.service, hc, by simp, fun _ x hx => QClass.eq_service (hurgent x hx) (hstage x hx)⟩
  obtain ⟨c, hc, habove⟩ := hcases
  obtain ⟨rfl, before, after, hq, hrest, hbefore⟩ := takeClass_eq_some_split hc
  exact ⟨before, after, hq, hrest, hbefore, habove⟩

/-! ## The operations of a hand-over -/

theorem Dev.enqueue_queue (d : Dev) (l : Fin 4) (dir : Directive) (o : Origin) :
    ((d.enqueue l dir o).leg l).queue = (d.leg l).queue ++ [⟨dir, o⟩] := by
  simp [Dev.enqueue]

/-- R111, R179: a fetch that joins the list, and the request made for it, change no leg. -/
@[simp] theorem Dev.syncRequests_fetches_leg (d : Dev) (fs : List Fetch) (k : Fin 4) :
    ({ d with fetches := fs } : Dev).syncRequests.leg k = d.leg k := rfl

/-- R42, R43: a directive that takes the channel has not been sent, and changes nothing else of the leg. -/
theorem Dev.takeDirective_leg_self (e : Env) (d : Dev) (l : Fin 4) (dir : Directive) (o : Origin) :
    ∃ p, (d.takeDirective e l dir o).leg l =
      { d.leg l with chan := .directive (takenNow dir o p (e.cfg.leg l).reach) } := by
  unfold Dev.takeDirective
  dsimp only
  split
  next => exact ⟨.fetching, (Dev.syncRequests_fetches_leg _ _ l).trans (Dev.modLeg_leg_self d l _)⟩
  next => exact ⟨.ready e.cycle, Dev.modLeg_leg_self d l _⟩

/-- R48: with no record waiting, a free place of the queue stays free. -/
theorem Dev.fillQueue_eq_self {d : Dev} {l : Fin 4} (h : (d.leg l).waiting = []) : d.fillQueue l = d := by
  have hadmit : admitList (d.leg l).queue (d.leg l).waiting = ((d.leg l).queue, [], []) := by rw [h, admitList]
  unfold Dev.fillQueue
  rw [hadmit]
  exact Dev.modLeg_eq_self d l _ (by rw [← h])

/-- R136: only a STARTING hunt takes the leg into HUNTING. -/
theorem Dev.enterHunting_eq_self {d : Dev} {l : Fin 4} (h : (d.leg l).hunt.phase ≠ .starting) : d.enterHunting l = d :=
  if_neg fun hs => h hs.1

theorem Leg.huntStep_eq_none {g : Leg} (h : g.st ≠ .hunting) : g.huntStep = none := by
  unfold Leg.huntStep
  split
  next hst _ _ => exact absurd hst h
  next hst _ _ => exact absurd hst h
  next => rfl

/-- R43: with no claimant before it, the queue has the FREE channel of a RUNNING or SUSPENDED leg. -/
theorem Dev.handOver_eq_takeQueueHead (e : Env) {d : Dev} {l : Fin 4} (hchan : (d.leg l).chan = .free)
    (hhunt : (d.leg l).hunt.phase ≠ .starting) (hsurvey : (d.leg l).pendSurvey = none)
    (hst : (d.leg l).st = .suspended ∨ ((d.leg l).st = .running ∧ (d.leg l).pendHail = false)) :
    d.handOver e l = d.takeQueueHead e l := by
  have hstep : (d.leg l).huntStep = none := Leg.huntStep_eq_none (by rcases hst with h | h <;> simp [h])
  unfold Dev.handOver
  rw [Dev.enterHunting_eq_self hhunt]
  rcases hst with hst | ⟨hst, hhail⟩
  · simp [Leg.mayHandOver, hchan, hst, hstep, hsurvey]
  · simp [Leg.mayHandOver, hchan, hst, hstep, hsurvey, hhail]

/-- R43, R45: the head leaves the queue as it takes the channel; nothing else of the leg changes. -/
theorem Dev.takeQueueHead_leg_self (env : Env) {d : Dev} {l : Fin 4} {e : Entry} {rest : List Entry}
    (hwait : (d.leg l).waiting = []) (hhead : takeHead (d.leg l).queue = some (e, rest)) :
    ∃ p, (d.takeQueueHead env l).leg l =
      { d.leg l with queue := rest, chan := .directive (takenNow e.dir e.origin p (env.cfg.leg l).reach) } := by
  obtain ⟨p, hleg⟩ := Dev.takeDirective_leg_self env (d.modLeg l fun g => { g with queue := rest }) l e.dir e.origin
  rw [Dev.modLeg_leg_self] at hleg
  refine ⟨p, ?_⟩
  unfold Dev.takeQueueHead
  rw [hhead]
  dsimp only
  rw [Dev.fillQueue_eq_self (by rw [hleg]; exact hwait), hleg]

theorem exec_channelHandover {s : State} (h : s.phase = .running) (l : Fin 4) :
    exec (.channelHandover l) s = .next (s.askPort (s.dev.handOver s.env l)) :=
  congrArg Host.Outcome.next (if_pos h)

/-! ## The statement -/

/-- Settles O27: the head by class and age, its hand-over to the channel, and the place of an entry that joins. -/
theorem queueHeadIsTheOldestOfTheHighestClass : Obligations.QueueHeadIsTheOldestOfTheHighestClass := by
  refine ⟨fun q => ⟨takeHead_eq_none_iff q, fun e rest => takeHead_eq_some_split⟩, ?_, Dev.enqueue_queue⟩
  intro s l e rest hrun _ hchan hhunt hwait hsurvey hst hhead
  obtain ⟨p, hleg⟩ := Dev.takeQueueHead_leg_self s.env hwait hhead
  refine ⟨s.dev.takeQueueHead s.env l, takenNow e.dir e.origin p (s.applied.leg l).reach, ?_, by rw [hleg], by rw [hleg]; rfl,
    rfl, rfl⟩
  rw [exec_channelHandover hrun, Dev.handOver_eq_takeQueueHead s.env hchan hhunt hsurvey hst]

end Sys2Proof.Machine
end

section
/-! O17 (R77): a write of the ring's tail word. First what holds of every controller write that is passed to memory: where its word lies
(R171), that the port takes it at once, what it stores, and that its effect on the part leaves the rest of the machine alone (R172 to
R176). Then the tail field, then the statement. -/

namespace Sys2Proof.Machine

/-! ## The word at a region offset (R171) -/

theorem regionAddr_toNat (base : BitVec 4) {off : Nat} (hoff : off < 65536) :
    (regionAddr base off).toNat = base.toNat * 65536 + off := by
  have hbase : base.toNat < 16 := base.isLt
  rw [regionAddr, BitVec.toNat_ofNat]
  omega

theorem inRegion_regionAddr (base : BitVec 4) {off : Nat} (hoff : off < 65536) : inRegion base (regionAddr base off) = true := by
  rw [inRegion, regionAddr_toNat base hoff, decide_eq_true_eq]
  omega

theorem wordOffset_regionAddr (base : BitVec 4) {off : Nat} (hoff : off < 65536) (halign : 4 ∣ off) :
    wordOffset (regionAddr base off) = off := by
  rw [wordOffset, regionAddr_toNat base hoff]
  omega

/-- R175: only a LIVE word is answered off the port. -/
theorem State.usesPort_writeAccess (s : State) {off : Nat} (data : Word) (be : BitVec 4) (hoff : off < 65536) (halign : 4 ∣ off)
    (hlive : liveClass (classOf off) = false) : s.usesPort (s.writeAccess off data be) = true := by
  simp [State.usesPort, State.writeAccess, wordOffset_regionAddr s.base hoff halign, hlive]

/-! ## An access is passed to memory (R173, R180) -/

@[simp] theorem State.toMemory_mirrors (s : State) (a : Access) : (s.toMemory a).mirrors = s.mirrors := rfl
@[simp] theorem State.toMemory_dev (s : State) (a : Access) : (s.toMemory a).dev = s.dev := rfl
@[simp] theorem State.toMemory_applied (s : State) (a : Access) : (s.toMemory a).applied = s.applied := rfl
@[simp] theorem State.toMemory_cstat (s : State) (a : Access) : (s.toMemory a).cstat = s.cstat := rfl

theorem State.controllerFirst_of_accepts {s : State} (h : s.accepts) : s.controllerFirst = true := by
  obtain ⟨-, -, -, hturn⟩ := h
  simpa [State.controllerFirst] using hturn

/-- R173: as the next access comes, the last one has left the port FREE. -/
theorem State.released_of_accepts {s : State} (h : s.accepts) :
    ∃ p, s.released = { s with bus := { s.bus with port := .free, passing := p } } := by
  obtain ⟨-, -, hport, -⟩ := h
  unfold State.released
  split
  next => exact ⟨none, rfl⟩
  next hc => exact ⟨s.bus.passing, by rw [← hport.resolve_right hc]⟩

/-- R173, R180: where the part accepts an access, one that uses the port is passed at once. -/
theorem State.present_eq_pass {s : State} (h : s.accepts) {a : Access} (hport : s.usesPort a = true) : s.present a = s.pass a := by
  obtain ⟨p, hreleased⟩ := State.released_of_accepts h
  have hfirst : s.controllerFirst = true := State.controllerFirst_of_accepts h
  obtain ⟨hrun, hheld, -, -⟩ := h
  calc s.present a
      = (s.released.hold a).settle := by simp [State.present, State.offerAccess, hrun, hheld, hport]
    _ = (({ s with bus := { s.bus with port := .free, passing := p } } : State).hold a).settle := by rw [hreleased]
    _ = (({ s with bus := { s.bus with port := .free, passing := p } } : State).hold a).pass a := if_pos hfirst
    _ = s.pass a := rfl

theorem State.toMemory_writePassed {s : State} (hmem : Memory.wf s.mem = true) {a : Access} (hwrite : a.write = true) :
    s.writePassed (s.toMemory a) a := by
  refine ⟨fun x => ?_, ?_, rfl, rfl, rfl, rfl⟩
  · simp only [State.toMemory, hwrite, if_true]
    exact Memory.read_writeWord s.mem a.wordAddr x a.be a.data hmem
  · simp [State.toMemory, State.countPass, hwrite]

/-! ## The effect of a taken access on the part (R172 to R176) -/

/-- Memory, the bus and what stands outside the blocks and their configuration are the same in both states. -/
structure State.SameSurround (s t : State) : Prop where
  mem : t.mem = s.mem
  bus : t.bus = s.bus
  phase : t.phase = s.phase
  base : t.base = s.base
  cycle : t.cycle = s.cycle
  pending : t.pending = s.pending

/-- R183: a commit acts on the configuration and the blocks alone. -/
theorem State.commitNow_sameSurround (s : State) : s.SameSurround s.commitNow := by
  unfold State.commitNow
  cases firstBadField s.applied s.mirrors s.dev with
  | none => exact ⟨rfl, rfl, rfl, rfl, rfl, rfl⟩
  | some p => exact ⟨rfl, rfl, rfl, rfl, rfl, rfl⟩

theorem State.act_sameSurround (s : State) (off : Nat) (v : Word) : s.SameSurround (s.act off v) := by
  unfold State.act
  split
  next => exact s.commitNow_sameSurround
  next =>
    split
    next => exact ⟨rfl, rfl, rfl, rfl, rfl, rfl⟩
    next =>
      split
      next => exact ⟨rfl, rfl, rfl, rfl, rfl, rfl⟩
      next => exact ⟨rfl, rfl, rfl, rfl, rfl, rfl⟩

theorem State.writeEffect_sameSurround (s : State) (a : Access) (off : Nat) : s.SameSurround (s.writeEffect a off) := by
  unfold State.writeEffect
  cases classOf off with
  | action =>
    obtain ⟨hmem, hbus, hphase, hbase, hcycle, hpending⟩ :=
      State.act_sameSurround (s.putMirror off (s.merged a off)) off (s.merged a off)
    exact ⟨hmem, hbus, hphase, hbase, hcycle, hpending⟩
  | mirrored => exact ⟨rfl, rfl, rfl, rfl, rfl, rfl⟩
  | watched => exact ⟨rfl, rfl, rfl, rfl, rfl, rfl⟩
  | plain => exact ⟨rfl, rfl, rfl, rfl, rfl, rfl⟩
  | live => exact ⟨rfl, rfl, rfl, rfl, rfl, rfl⟩
  | liveRead => exact ⟨rfl, rfl, rfl, rfl, rfl, rfl⟩

theorem State.takenEffect_sameSurround (s : State) (a : Access) : s.SameSurround (s.takenEffect a) := by
  unfold State.takenEffect
  split
  next => exact s.writeEffect_sameSurround a _
  next => exact ⟨rfl, rfl, rfl, rfl, rfl, rfl⟩

/-- R173, R174: whatever word it is to, a write that is passed stores its enabled bytes and stands on the port. -/
theorem State.pass_writePassed {s : State} (hmem : Memory.wf s.mem = true) {a : Access} (hwrite : a.write = true) :
    s.writePassed (s.pass a) a := by
  have hpassed := State.toMemory_writePassed hmem hwrite
  obtain ⟨emem, ebus, ephase, ebase, ecycle, epending⟩ := (s.toMemory a).takenEffect_sameSurround a
  unfold State.writePassed State.pass
  rw [emem, ebus, ephase, ebase, ecycle, epending]
  exact hpassed

/-- R174: a write with no byte enabled has no effect on the part. -/
theorem State.takenEffect_of_no_byte (s : State) {a : Access} (hbe : a.be = 0) : s.takenEffect a = s :=
  if_neg fun h => h.2.1 hbe

/-- R176: a write to an ACTION word: its mirror takes the merged value, and its owner acts on that value. -/
theorem State.takenEffect_action (s : State) {off : Nat} (data : Word) {be : BitVec 4} (hoff : off < 65536) (halign : 4 ∣ off)
    (hclass : classOf off = .action) (hbe : be ≠ 0) :
    s.takenEffect (s.writeAccess off data be) =
      (s.putMirror off (mergeBytes be data (Mirrors.word s.mirrors off))).act off (mergeBytes be data (Mirrors.word s.mirrors off)) := by
  have htaken : s.takenEffect (s.writeAccess off data be) =
      s.writeEffect (s.writeAccess off data be) (wordOffset (regionAddr s.base off)) :=
    if_pos ⟨rfl, hbe, inRegion_regionAddr s.base hoff⟩
  rw [htaken, wordOffset_regionAddr s.base hoff halign, State.writeEffect, hclass]
  rfl

/-- R174: one mirror takes the value, every other stands. -/
theorem Mirrors.put_mirrorsOnly {ms : List (Nat × Word)} (hms : Sparse.wf 0 ms = true) (off : Nat) (v : Word) :
    mirrorsOnly ms (Mirrors.put ms off v) off v := by
  intro o
  split
  next heq =>
    have hword : Mirrors.word (Mirrors.put ms off v) o = Mirrors.word (Mirrors.put ms off v) off := by
      rw [Mirrors.word, Mirrors.word, heq]
    rw [hword, Mirrors.word_put_self ms off v hms]
  next hne => exact Mirrors.word_put_ne ms off o v hne

/-! ## The tail field (R77) -/

/-- Whatever the field, the overrun marker clears, and the head and the write list stand. -/
theorem Ring.takeTail_frame (g : Ring) (cap v : Nat) :
    (g.takeTail cap v).overrun = false ∧ (g.takeTail cap v).head = g.head ∧ (g.takeTail cap v).writeList = g.writeList := by
  unfold Ring.takeTail
  split
  next => exact ⟨rfl, rfl, rfl⟩
  next => exact ⟨rfl, rfl, rfl⟩

theorem Ring.takeTail_of_lt (g : Ring) {cap v : Nat} (h : v < cap) :
    (g.takeTail cap v).tail = v ∧ (g.takeTail cap v).badTail = false := by
  simp [Ring.takeTail, h]

theorem Ring.takeTail_of_le (g : Ring) {cap v : Nat} (h : cap ≤ v) :
    (g.takeTail cap v).tail = g.tail ∧ (g.takeTail cap v).badTail = true := by
  simp [Ring.takeTail, Nat.not_lt.mpr h]

/-! ## The tail write -/

theorem exec_tailWrite {s : State} (h : s.accepts) (data : Word) (be : BitVec 4) :
    exec (.tailWrite data be) s = .next (s.pass (s.writeAccess offTail data be)) :=
  congrArg Host.Outcome.next (State.present_eq_pass h (s.usesPort_writeAccess data be (by decide) (by decide) rfl))

theorem State.pass_tail_of_no_byte (s : State) (data : Word) :
    s.pass (s.writeAccess offTail data 0) = s.toMemory (s.writeAccess offTail data 0) :=
  State.takenEffect_of_no_byte _ rfl

/-- R77, R176: the mirror of the tail word and the ring are all that a tail write changes besides memory and the port. -/
theorem State.pass_tail (s : State) (data : Word) {be : BitVec 4} (hbe : be ≠ 0) :
    s.pass (s.writeAccess offTail data be) =
      { s.toMemory (s.writeAccess offTail data be) with
        mirrors := Mirrors.put s.mirrors offTail (mergeBytes be data (Mirrors.word s.mirrors offTail))
        dev := s.dev.writeTail s.applied.ringCap (mergeBytes be data (Mirrors.word s.mirrors offTail)) } :=
  State.takenEffect_action (s.toMemory (s.writeAccess offTail data be)) data (by decide) (by decide) rfl hbe

theorem State.pass_tail_sameConfig (s : State) (data : Word) (be : BitVec 4) :
    s.sameConfig (s.pass (s.writeAccess offTail data be)) := by
  by_cases hbe : be = 0
  · subst hbe
    rw [s.pass_tail_of_no_byte data]
    exact ⟨rfl, rfl⟩
  · rw [s.pass_tail data hbe]
    exact ⟨rfl, rfl⟩

/-- Settles O17: a tail write that is passed at once, with and without a byte enabled, and its tail field below C and from C up. -/
theorem tailWriteMovesTheTail : Obligations.TailWriteMovesTheTail := by
  intro s data be haccepts ⟨hmem, hmirrors⟩
  refine ⟨s.pass (s.writeAccess offTail data be), exec_tailWrite haccepts data be, State.pass_writePassed hmem rfl,
    s.pass_tail_sameConfig data be, ?_, ?_, rfl, rfl⟩
  · rintro rfl
    rw [s.pass_tail_of_no_byte data]
    exact ⟨rfl, rfl⟩
  · intro hbe
    rw [s.pass_tail data hbe]
    obtain ⟨hoverrun, hhead, hwriteList⟩ := Ring.takeTail_frame s.dev.ring s.applied.ringCap
      (field (mergeBytes be data (Mirrors.word s.mirrors offTail)) 0 16)
    exact ⟨Mirrors.put_mirrorsOnly hmirrors _ _, rfl, hoverrun, hhead, hwriteList, Ring.takeTail_of_lt _, Ring.takeTail_of_le _⟩

end Sys2Proof.Machine
end

section
/-! O15 (R167): RING_PENDING follows the ring's head, tail and bad-tail. First the level itself, then its place in the summary word
(R170), then the two operations on the latched causes, which leave the ring alone. -/

namespace Sys2Proof.Machine

theorem Ring.pendingNow_iff (g : Ring) : g.pendingNow = true ↔ g.head ≠ g.tail ∧ g.badTail = false := by
  simp [Ring.pendingNow]

theorem bit_lt_two (b : Bool) : bit b < 2 := by
  cases b with
  | false => decide
  | true => decide

theorem decide_bit_eq_one (b : Bool) : decide (bit b = 1) = b := by
  cases b with
  | false => rfl
  | true => rfl

/-- R170: the latched causes fill bits 0 to 7 and ATTN is bit 31, so neither reaches bit 8. -/
theorem State.summaryWord_bit8 (s : State) : s.summaryWord.getLsbD 8 = s.dev.ring.pendingNow := by
  have hcauses : s.dev.causes.toNat < 256 := s.dev.causes.isLt
  have hbit : (s.dev.causes.toNat + 256 * bit s.dev.ring.pendingNow + 2147483648 * bit s.attn) / 2 ^ 8 % 2 =
      bit s.dev.ring.pendingNow := by
    have hpending := bit_lt_two s.dev.ring.pendingNow
    omega
  calc s.summaryWord.getLsbD 8
      = Nat.testBit (s.dev.causes.toNat + 256 * bit s.dev.ring.pendingNow + 2147483648 * bit s.attn) 8 := by
        rw [State.summaryWord, BitVec.getLsbD_ofNat, decide_eq_true (by decide : 8 < 32), Bool.true_and]
    _ = decide (bit s.dev.ring.pendingNow = 1) := by rw [Nat.testBit_eq_decide_div_mod_eq, hbit]
    _ = s.dev.ring.pendingNow := decide_bit_eq_one _

/-- R168: the clear word acts on the latched causes only. -/
@[simp] theorem Dev.clearCauses_ring (d : Dev) (v : Word) : (d.clearCauses v).ring = d.ring := rfl

/-- Settles O15: the level is the ring's own, it is read at bit 8, and neither a clear nor a latched event touches the ring. -/
theorem ringPendingIsALiveCause : Obligations.RingPendingIsALiveCause := by
  intro s
  exact ⟨s.dev.ring.pendingNow_iff, s.summaryWord_bit8, fun v => ⟨s.dev.clearCauses_ring v, s.dev.latch_ring⟩⟩

end Sys2Proof.Machine
end

section
/-! O4, O5: what every step keeps. Each of the 51 meanings is one operation whose lemma says that it keeps the invariant
(Laws/GoodState.lean) and the canonical form of the contents (here); a step is the front command's meaning, or nothing. -/

namespace Sys2Proof.Machine

/-- The next state of an answer has a property. -/
def Answer.Leads (P : State → Prop) : Answer → Prop
  | .next t => P t
  | .fault _ => True
  | .refused _ => True

/-- A property that every meaning keeps is kept by every step. -/
theorem step_leads {P : State → Prop} (hexec : ∀ (c : Instr) (s : State), P s → Answer.Leads P (exec c s))
    (hpending : ∀ (s : State) (q : List Instr), P s → P (s.withPending q)) {s t : State} (hs : P s) (h : step s = .next t) : P t := by
  have hstep : Answer.Leads P (step s) := by
    unfold step
    split
    · exact hs
    · exact hexec _ _ (hpending _ _ hs)
  rw [h] at hstep
  exact hstep

/-! ## The invariant -/

theorem State.Inv.withPending {s : State} (h : s.Inv) (q : List Instr) : (s.withPending q).Inv := h.same rfl rfl rfl rfl rfl rfl

/-- An operation of the bus that happens in operation only. -/
theorem State.Inv.whenRunning {s t : State} (h : s.Inv) (ht : s.phase = .running → t.Inv) :
    State.Inv (if s.phase = .running then t else s) := by
  split
  · exact ht ‹_›
  · exact h

/-- A change of the blocks that asks nothing of the port keeps the invariant in every phase. -/
theorem State.Inv.setFlt {s : State} (h : s.Inv) (l : Fin 4) (v : Bool) : State.Inv { s with dev := s.dev.setFlt l v } :=
  .of (s := { s with dev := s.dev.setFlt l v }) (h.good.setFlt l v) h.cap h.2.1 h.2.2.1 h.2.2.2.2.1 h.2.2.2.2.2

/-- FLT changes: in operation the blocks act, and else only the pin's level is kept. -/
theorem State.Inv.fltLine {s : State} (h : s.Inv) (l : Fin 4) (v : Bool) {d : Dev}
    (hd : Dev.Good s.applied.ringCap s.dev.burst.isSome none d) :
    State.Inv { s with dev := if s.phase = .running then d else s.dev.setFlt l v } := by
  split
  · exact h.setDev d ‹_› hd
  · exact h.setFlt l v

theorem State.Inv.nextCycle {s : State} (h : s.Inv) : s.nextCycle.Inv := by
  unfold State.nextCycle
  split
  · exact .of (s := { s with cycle := s.cycle + 1, dev := s.dev.startCycle s.applied (s.cycle + 1) }) (h.good.startCycle _ _)
      h.cap h.2.1 h.2.2.1 h.2.2.2.2.1 fun e => absurd ‹_› e
  · exact h

/-- R161: an examination keeps the invariant where the act on the examined slot does. -/
theorem State.Inv.examine {s : State} (h : s.Inv) (row : ExamRow) (f : Env → Dev → Nat → List Word → Dev)
    (hf : ∀ {cap : Nat} {b : Bool} {d : Dev}, Dev.Good cap b none d → ∀ n ps, Dev.Good cap b none (f s.env d n ps)) :
    (s.running fun e d => d.examine row (f e)).Inv :=
  h.running _ fun g => g.examine row _ fun _ n ps hd => hf hd n ps

theorem exec_keeps_inv (c : Instr) (s : State) (h : s.Inv) : Answer.Leads State.Inv (exec c s) := by
  cases c with
  | resetAsserted => exact h.resetFalls
  | resetReleased straps => exact h.resetRises straps
  | clearingEnd => exact h.clearingEnds
  | fltAsserted l => exact h.fltLine l true (h.good.fltAssert l)
  | fltDeasserted l => exact h.fltLine l false (h.good.fltRelease l)
  | cycleStart => exact h.nextCycle
  | paceTimerExpiry l => exact h.running _ fun g => g.modLeg l _ fun hl => Dev.Good.paceExpiry_ok _ _ hl
  | replyBurst l src tag code data level delay place => exact h.running _ fun g => g.reply _ _ _ _ _ _ _ _ _
  | decodedHail l serial kind count level received => exact h.asking _ fun g => g.hailHeard _ _ _ _ _ _ _
  | garbledBurst l place => exact h.running _ fun g => g.garbled _ _ _
  | sendWindowEnd l => exact h.running _ fun g => g.sendWindowEnd _ _
  | directiveFirstSend l => exact h.running _ fun g => g.firstSend _ _
  | directiveRetry l => exact h.running _ fun g => g.retrySend _ _
  | hailWindowOpen l => exact h.running _ fun g => g.openHail _ _
  | hailWindowEnd l => exact h.running _ fun g => g.endHail _ _
  | surveyWindowOpen l => exact h.running _ fun g => g.openSurvey _ _
  | surveyWindowEnd l lit => exact h.running _ fun g => g.endSurvey _ _ _
  | channelHandover l => exact h.asking _ fun g => g.handOver _ _
  | huntEntersHunting l => exact h.running _ fun g => g.enterHunting _
  | waitingListAdmit l => exact h.running _ fun g => g.fillQueue _
  | pinWaitServe => exact h.running _ fun g => g.servePinWait
  | engineBurstBegin => exact h.whenRunning h.engineBegins
  | chunkFetchComplete => exact h.whenRunning h.fetchComplete
  | ringEntryWriteComplete => exact h.whenRunning h.entryComplete
  | memoryAccessComplete => exact h.whenRunning h.memoryComplete
  | accessWithdrawn => exact h.same rfl rfl rfl rfl rfl rfl
  | passedWrite addr data be => exact h.present _
  | mirroredWrite w data be => exact h.present _
  | watchedWrite i data be => exact h.present _
  | levelRead w be => exact h.present _
  | commit data be => exact h.present _
  | clearWrite data be => exact h.present _
  | tailWrite data be => exact h.present _
  | go n data be => exact h.present _
  | abort n data be => exact h.present _
  | clear n data be => exact h.present _
  | invalidIssueValue n data be => exact h.present _
  | enrol => exact h.examine _ (fun _ => Dev.examineEnrol s.mirrors) fun g => g.examineEnrol _
  | withdraw => exact h.examine _ (fun _ => Dev.examineWithdraw) fun g => g.examineWithdraw
  | continueRecord => exact h.examine _ Dev.examineContinue fun g => g.examineContinue _
  | peek => exact h.examine _ (fun _ => Dev.examinePeek) fun g => g.examinePeek
  | poke => exact h.examine _ (fun _ => Dev.examinePoke) fun g => g.examinePoke
  | call => exact h.examine _ (fun _ => Dev.examineAnyCall) fun g => g.examineAnyCall
  | groupOrEstateCall => exact h.examine _ (fun _ => Dev.examineAnyCall) fun g => g.examineAnyCall
  | evict => exact h.examine _ (fun _ => Dev.examineEvict) fun g => g.examineEvict
  | survey => exact h.examine _ (fun _ => Dev.examineSurvey) fun g => g.examineSurvey
  | allLegsSurvey => exact h.examine _ (fun _ => Dev.examineAllSurvey) fun g => g.examineAllSurvey
  | hunt => exact h.examine _ (fun _ => Dev.examineHunt) fun g => g.examineHunt
  | resume => exact h.examine _ (fun _ => Dev.examineResume) fun g => g.examineResume
  | badKind => exact h.examine _ (fun _ => Dev.examineBadKind) fun g => g.examineBadKind
  | strayHailFormatBurst l serial kind count level place => exact h.running _ fun g => g.strayHail _ _ _

/-- Settles O4: each command's meaning keeps the invariant, by the lemma of the operation it is. -/
theorem everyStepKeepsTheInvariant : Obligations.EveryStepKeepsTheInvariant :=
  fun _ _ hs h => step_leads exec_keeps_inv (fun _ q hs => hs.withPending q) hs h

/-! ## The canonical form of memory and the mirrors -/

/-- What differs in neither memory nor the mirrors. -/
theorem State.contentsCanonical.same {s t : State} (h : s.contentsCanonical) (hmem : t.mem = s.mem) (hmirrors : t.mirrors = s.mirrors) :
    t.contentsCanonical := by
  rw [State.contentsCanonical, hmem, hmirrors]
  exact h

theorem State.contentsCanonical.putMirror {s : State} (h : s.contentsCanonical) (off : Nat) (v : Word) :
    (s.putMirror off v).contentsCanonical := ⟨h.1, Sparse.set_wf _ _ _ h.2⟩

theorem State.contentsCanonical.running {s : State} (h : s.contentsCanonical) (f : Env → Dev → Dev) : (s.running f).contentsCanonical := by
  unfold State.running
  split
  · exact h
  · exact h

theorem State.contentsCanonical.whenRunning {s t : State} (h : s.contentsCanonical) (ht : t.contentsCanonical) :
    State.contentsCanonical (if s.phase = .running then t else s) := by
  split
  · exact ht
  · exact h

/-- R176: an ACTION word's owner changes blocks and configuration, and no mirror. -/
theorem State.act_mirrors (s : State) (off : Nat) (v : Word) : (s.act off v).mirrors = s.mirrors := by
  unfold State.act
  split
  · unfold State.commitNow
    dsimp only
    split <;> rfl
  · split
    · rfl
    · split <;> rfl

theorem State.contentsCanonical.act {s : State} (h : s.contentsCanonical) (off : Nat) (v : Word) : (s.act off v).contentsCanonical :=
  h.same (s.act_sameSurround off v).mem (s.act_mirrors off v)

theorem State.contentsCanonical.takenEffect {s : State} (h : s.contentsCanonical) (a : Access) : (s.takenEffect a).contentsCanonical := by
  unfold State.takenEffect State.writeEffect
  split
  · split
    · exact h.putMirror _ _
    · exact (h.putMirror _ _).act _ _
    · exact h
    · exact h
    · exact h
    · exact h
  · exact h

theorem State.contentsCanonical.pass {s : State} (h : s.contentsCanonical) (a : Access) : (s.pass a).contentsCanonical := by
  refine State.contentsCanonical.takenEffect (s := s.toMemory a) ⟨?_, h.2⟩ a
  show Memory.wf (if a.write then Memory.writeWord s.mem a.wordAddr a.be a.data else s.mem) = true
  split
  · exact Memory.writeWord_wf _ _ _ _ h.1
  · exact h.1

theorem State.contentsCanonical.burstBegin {s : State} (h : s.contentsCanonical) : s.burstBegin.contentsCanonical := by
  unfold State.burstBegin
  split
  · split
    · exact h
    · exact h
  · split
    · exact h
    · exact h
  · exact h

theorem State.contentsCanonical.grantPort {s : State} (h : s.contentsCanonical) (n : Nat) : (s.grantPort n).contentsCanonical := by
  induction n generalizing s with
  | zero => exact h
  | succ n ih =>
    unfold State.grantPort
    split
    · split
      · split
        · exact h.pass _
        · exact ih h.burstBegin
      · split
        · exact h
        · exact ih h.burstBegin
    · exact h

theorem State.contentsCanonical.settle {s : State} (h : s.contentsCanonical) : s.settle.contentsCanonical := h.grantPort _

theorem State.contentsCanonical.asking {s : State} (h : s.contentsCanonical) (f : Env → Dev → Dev) : (s.asking f).contentsCanonical := by
  refine h.whenRunning ?_
  unfold State.askPort
  dsimp only
  split
  · exact h
  · exact State.contentsCanonical.settle (s := { s with dev := f s.env s.dev }) h

theorem State.contentsCanonical.freePort {s : State} (h : s.contentsCanonical) : s.freePort.contentsCanonical :=
  State.contentsCanonical.settle (s := { s with bus := _ }) h

theorem State.contentsCanonical.memoryComplete {s : State} (h : s.contentsCanonical) : s.memoryComplete.contentsCanonical := by
  unfold State.memoryComplete
  split
  · exact h.freePort
  · exact h

theorem State.contentsCanonical.takeLive {s : State} (h : s.contentsCanonical) (a : Access) : (s.takeLive a).contentsCanonical := by
  unfold State.takeLive State.readEffect
  split
  · exact h
  · split
    · exact h
    · split <;> exact h

theorem State.contentsCanonical.released {s : State} (h : s.contentsCanonical) : s.released.contentsCanonical := by
  unfold State.released
  split
  · exact h
  · exact h

theorem State.contentsCanonical.present {s : State} (h : s.contentsCanonical) (a : Access) : (s.present a).contentsCanonical := by
  unfold State.present State.offerAccess
  split
  · exact h
  · split
    · split
      · exact State.contentsCanonical.settle (s := s.released.hold a) h.released
      · exact h.memoryComplete.takeLive a
    · exact h

theorem State.contentsCanonical.engineBegins {s : State} (h : s.contentsCanonical) : s.engineBegins.contentsCanonical := by
  unfold State.engineBegins
  split
  · exact h.burstBegin.settle
  · exact h

theorem State.contentsCanonical.fetchComplete {s : State} (h : s.contentsCanonical) : s.fetchComplete.contentsCanonical := by
  unfold State.fetchComplete
  split
  · exact State.contentsCanonical.freePort (s := { s with dev := _ }) h
  · exact h
  · exact h

theorem State.contentsCanonical.entryComplete {s : State} (h : s.contentsCanonical) : s.entryComplete.contentsCanonical := by
  unfold State.entryComplete
  split
  · exact State.contentsCanonical.freePort (s := { s with mem := _, dev := _ }) ⟨Memory.writeList_wf _ _ _ h.1, h.2⟩
  · exact h
  · exact h

theorem cutLane_wf (seed : Nat) (p : Passing) {m : List Host.Cell} (hm : Memory.wf m = true) (k : Nat) :
    Memory.wf (cutLane seed p m k) = true := by
  unfold cutLane
  split
  · exact Memory.write_wf _ _ _ hm
  · exact hm

/-- R178: a cut controller write leaves memory canonical. -/
theorem cutPass_wf (seed : Nat) (p : Option Passing) {m : List Host.Cell} (hm : Memory.wf m = true) :
    Memory.wf (cutPass seed m p) = true := by
  unfold cutPass
  split
  · split
    · exact cutLane_wf _ _ (cutLane_wf _ _ (cutLane_wf _ _ (cutLane_wf _ _ hm _) _) _) _
    · exact hm
  · exact hm

theorem State.cutEntry_wf (s : State) {m : List Host.Cell} (hm : Memory.wf m = true) : Memory.wf (s.cutEntry m) = true := by
  unfold State.cutEntry
  split
  · exact Memory.writeList_wf _ _ _ hm
  · exact hm
  · exact hm

theorem State.contentsCanonical.resetFalls {s : State} (h : s.contentsCanonical) : s.resetFalls.contentsCanonical := by
  unfold State.resetFalls
  split
  · exact h
  · exact ⟨s.cutEntry_wf (cutPass_wf _ _ h.1), h.2⟩

theorem State.contentsCanonical.resetRises {s : State} (h : s.contentsCanonical) (straps : BitVec 4) :
    (s.resetRises straps).contentsCanonical := by
  unfold State.resetRises
  split
  · exact ⟨h.1, rfl⟩
  · exact h

theorem State.contentsCanonical.clearingEnds {s : State} (h : s.contentsCanonical) : s.clearingEnds.contentsCanonical := by
  unfold State.clearingEnds
  split
  · split
    · exact State.contentsCanonical.present (s := { s with phase := .running, bus := { s.bus with held := none } }) h _
    · exact h
  · exact h

theorem State.contentsCanonical.nextCycle {s : State} (h : s.contentsCanonical) : s.nextCycle.contentsCanonical := h.whenRunning h

theorem exec_keeps_contentsCanonical (c : Instr) (s : State) (h : s.contentsCanonical) : Answer.Leads State.contentsCanonical (exec c s) := by
  cases c with
  | resetAsserted => exact h.resetFalls
  | resetReleased straps => exact h.resetRises straps
  | clearingEnd => exact h.clearingEnds
  | fltAsserted l => exact h
  | fltDeasserted l => exact h
  | cycleStart => exact h.nextCycle
  | decodedHail l serial kind count level received => exact h.asking _
  | channelHandover l => exact h.asking _
  | engineBurstBegin => exact h.whenRunning h.engineBegins
  | chunkFetchComplete => exact h.whenRunning h.fetchComplete
  | ringEntryWriteComplete => exact h.whenRunning h.entryComplete
  | memoryAccessComplete => exact h.whenRunning h.memoryComplete
  | accessWithdrawn => exact h
  | passedWrite addr data be => exact h.present _
  | mirroredWrite w data be => exact h.present _
  | watchedWrite i data be => exact h.present _
  | levelRead w be => exact h.present _
  | commit data be => exact h.present _
  | clearWrite data be => exact h.present _
  | tailWrite data be => exact h.present _
  | go n data be => exact h.present _
  | abort n data be => exact h.present _
  | clear n data be => exact h.present _
  | invalidIssueValue n data be => exact h.present _
  | _ => exact h.running _

/-- Settles O5: memory is written, and a mirror set, by operations that keep the canonical form. -/
theorem everyStepKeepsContentsCanonical : Obligations.EveryStepKeepsContentsCanonical :=
  fun _ _ hs h => step_leads exec_keeps_contentsCanonical (fun _ _ hs => hs) hs h

end Sys2Proof.Machine
end

section
/-! O1, O2, O3, O8, O16, O42, O43: the step itself, the state after reset, an access that is held, the ATTN level, and the windows that open and end. -/

namespace Sys2Proof.Machine

/-! ## The step and reset -/

/-- Settles O1: both clauses are the two branches of `step`. -/
theorem stepRunsFrontCommand : Obligations.StepRunsFrontCommand := by
  refine ⟨fun c rest s => rfl, fun s h => ?_⟩
  unfold step
  rw [h]

/-- R63, R64, R146: every leg after reset is the leg of R63, whatever its number. -/
theorem State.reset_leg (l : Fin 4) : State.reset.dev.leg l = Leg.afterReset false := by
  fin_cases l <;> rfl

theorem Applied.afterReset_leg (l : Fin 4) : Applied.afterReset.leg l = LegConfig.zero := by
  fin_cases l <;> rfl

/-- Settles O2: the legs and their applied fields by the two lemmas above, every other value as the definition of reset has it. -/
theorem resetHoldsSpecValues : Obligations.ResetHoldsSpecValues := by
  refine ⟨rfl, rfl, fun l => ?_, fun _ => rfl, fun _ => rfl, rfl, fun c => ?_, rfl, rfl, rfl, rfl, rfl, Applied.afterReset_leg,
    fun _ => rfl, rfl, rfl, fun _ => rfl, rfl, rfl, rfl, rfl⟩
  · rw [State.reset_leg]
    exact ⟨rfl, rfl, rfl, rfl, rfl, rfl, rfl, rfl, rfl, rfl, rfl, rfl, rfl, rfl, rfl, rfl, rfl, rfl, fun _ => rfl⟩
  · cases c <;> rfl

/-- Settles O3: the blocks at their reset values are good, and the port is FREE with nothing on it. -/
theorem resetSatisfiesInvariants : Obligations.ResetSatisfiesInvariants := by
  refine ⟨.of (b := false) (Dev.Good.afterReset (cap := 16) false false false false 0 (by decide)) ?_ ?_ ?_ (Nat.zero_le _)
    (fun h => absurd rfl h), rfl, rfl⟩
  · exact ⟨Nat.le_refl 16, (by decide : 16 ≤ 384)⟩
  · simp [State.reset, Bus.afterReset]
  · simp [State.reset, Bus.afterReset]

/-! ## An access that is held -/

/-- Every write row, and the read row, presents the access it names. -/
theorem exec_of_accessOf {s : State} {c : Instr} {a : Access} (h : accessOf s.base c = some a) : exec c s = .next (s.present a) := by
  cases c with
  | passedWrite addr data be => cases h; rfl
  | mirroredWrite w data be => cases h; rfl
  | watchedWrite i data be => cases h; rfl
  | levelRead w be => cases h; rfl
  | commit data be => cases h; rfl
  | clearWrite data be => cases h; rfl
  | tailWrite data be => cases h; rfl
  | go n data be => cases h; rfl
  | abort n data be => cases h; rfl
  | clear n data be => cases h; rfl
  | invalidIssueValue n data be => cases h; rfl
  | _ => cases h

/-- R178: outside operation a presented access is held. -/
theorem State.present_of_not_running {s : State} (hheld : s.bus.held = none) (hphase : s.phase ≠ .running) (a : Access) :
    s.present a = s.hold a := by
  rw [State.present, hheld, if_neg (by decide), if_neg hphase]

/-- R173, R181: an engine burst keeps the port, and the access that needs it is held. -/
theorem State.present_of_engine {s : State} (hheld : s.bus.held = none) (hphase : s.phase = .running) (hport : s.bus.port = .engine)
    {a : Access} (huses : s.usesPort a = true) : s.present a = s.hold a := by
  have hreleased : s.released = s := if_neg (by rw [hport]; decide)
  have howned : (s.hold a).bus.port ≠ .free := by
    show s.bus.port ≠ .free
    rw [hport]; decide
  rw [State.present, hheld, if_neg (by decide), if_pos hphase, State.offerAccess, if_pos huses, hreleased,
    State.settle_of_owned howned]

/-- Settles O8: each row presents its access, which is held outside operation and behind an engine burst. -/
theorem accessIsHeldOffThePort : Obligations.AccessIsHeldOffThePort := by
  intro s c a hc hheld hoff
  rw [exec_of_accessOf hc]
  by_cases hphase : s.phase = .running
  · obtain hphase' | ⟨hport, huses⟩ := hoff
    · exact absurd hphase hphase'
    · rw [State.present_of_engine hheld hphase hport huses]; rfl
  · rw [State.present_of_not_running hheld hphase]; rfl

/-! ## ATTN (R169) -/

theorem cause_index_lt (c : Cause) : c.index < 8 := by cases c <;> decide

/-- Every bit of the causes byte is the bit of a cause (13.2). -/
theorem exists_cause_index {i : Nat} (h : i < 8) : ∃ c : Cause, c.index = i := by
  match i, h with
  | 0, _ => exact ⟨.cmdDone, rfl⟩
  | 1, _ => exact ⟨.recActive, rfl⟩
  | 2, _ => exact ⟨.recHalted, rfl⟩
  | 3, _ => exact ⟨.huntEnd, rfl⟩
  | 4, _ => exact ⟨.ringOverrun, rfl⟩
  | 5, _ => exact ⟨.issueIgnored, rfl⟩
  | 6, _ => exact ⟨.legFault, rfl⟩
  | 7, _ => exact ⟨.configDone, rfl⟩

theorem ne_zero_iff_exists_bit {w : Nat} (x : BitVec w) : x ≠ 0 ↔ ∃ i < w, x.getLsbD i = true := by
  constructor
  · intro h
    by_contra hall
    refine h (BitVec.eq_of_getLsbD_eq fun i hi => ?_)
    by_contra hbit
    exact hall ⟨i, hi, by simpa using hbit⟩
  · rintro ⟨i, _, hi⟩ rfl
    simp at hi

/-- R169: some latched cause is wanted exactly where a set cause has its mask bit. -/
theorem Dev.masked_causes_iff (d : Dev) (mask : BitVec 9) :
    d.causes &&& mask.setWidth 8 ≠ 0 ↔ ∃ c : Cause, d.isSet c = true ∧ mask.getLsbD c.index = true := by
  rw [ne_zero_iff_exists_bit]
  constructor
  · rintro ⟨i, hi, hbit⟩
    obtain ⟨c, rfl⟩ := exists_cause_index hi
    simp only [BitVec.getLsbD_and, BitVec.getLsbD_setWidth, Bool.and_eq_true] at hbit
    exact ⟨c, hbit.1, hbit.2.2⟩
  · rintro ⟨c, hset, hmask⟩
    have hset' : d.causes.getLsbD c.index = true := hset
    exact ⟨c.index, cause_index_lt c, by simp [hset', hmask, cause_index_lt c]⟩

/-- Settles O16: ATTN is the phase and the wanted level, whose two parts are the masked causes and the masked RING_PENDING. -/
theorem attnIsTheMaskedLevel : Obligations.AttnIsTheMaskedLevel := by
  intro s
  rw [← Dev.masked_causes_iff, State.attn, State.attnWanted]
  simp only [Bool.and_eq_true, Bool.or_eq_true, decide_eq_true_eq]

/-! ## Windows open and end (R69, R71, R130) -/

theorem cyclesFrom_self (c : BitVec 16) : cyclesFrom c c = 0 := by simp [cyclesFrom]

/-- The leg's marker and QUIET line as the work that begins in cycle `c` has them. -/
theorem Leg.markNow_eq {g : Leg} {c : BitVec 16} {hail quiet : Bool} (hhail : g.hailOpenIn c = hail) (hquiet : g.quietIn c = quiet) :
    g.markNow c = { g with marker := some ⟨c, hail, quiet⟩, quiet := quiet } := by rw [Leg.markNow, hhail, hquiet]

/-- R27, R57: both flags are set in the first cycle of a hail window. -/
theorem Leg.markNow_hail {g : Leg} {w : HailWindow} {c : BitVec 16} {n : Nat} (hchan : g.chan = .hail w)
    (hopened : w.opened = some (c, n)) (hn : 1 ≤ n) : g.markNow c = { g with marker := some ⟨c, true, true⟩, quiet := true } := by
  have hcovers : w.covers c = true := by
    rw [HailWindow.covers, hopened]
    simp only [cyclesFrom_self, decide_eq_true_eq]
    omega
  refine Leg.markNow_eq ?_ ?_
  · rw [Leg.hailOpenIn, hchan]; exact hcovers
  · rw [Leg.quietIn, hchan]; simp only [hcovers, Bool.or_true]

/-- R27, R130: in the first cycle of a survey window quiet is set and hail-open is clear. -/
theorem Leg.markNow_survey {g : Leg} {w : SurveyWindow} {o : SurveyOpen} {c : BitVec 16} (hchan : g.chan = .survey w)
    (hopened : w.opened = some o) (hfirst : o.first = c) (hn : 1 ≤ o.length) :
    g.markNow c = { g with marker := some ⟨c, false, true⟩, quiet := true } := by
  have hcovers : w.covers c = true := by
    rw [SurveyWindow.covers, hopened]
    simp only [hfirst, cyclesFrom_self, decide_eq_true_eq]
    omega
  refine Leg.markNow_eq ?_ ?_
  · rw [Leg.hailOpenIn, hchan]
  · rw [Leg.quietIn, hchan]; simp only [hcovers, Bool.or_true]

/-- Settles O42: the window opens with the applied length, and its marker has the flags of the open window. -/
theorem windowsOpenWithTheirFlags : Obligations.WindowsOpenWithTheirFlags := by
  constructor
  · intro s l w hrun hchan hopened hcycle hlen
    show Host.Outcome.next (s.running fun e d => d.openHail e l) = _
    rw [State.running_eq hrun]
    refine State.next_dev_congr ?_
    rw [Dev.openHail, hchan]
    dsimp only
    rw [if_pos ⟨hopened, hcycle⟩]
    exact Dev.modLeg_congr _ _ _ _ (Leg.markNow_hail rfl rfl hlen)
  · intro s l w hrun hchan hopened hcycle hlen
    show Host.Outcome.next (s.running fun e d => d.openSurvey e l) = _
    rw [State.running_eq hrun]
    refine State.next_dev_congr ?_
    rw [Dev.openSurvey, hchan]
    dsimp only
    rw [if_pos ⟨hopened, hcycle⟩]
    exact Dev.modLeg_congr _ _ _ _ (Leg.markNow_survey rfl rfl rfl hlen)

/-- R69: an open window is over once its last upstream cycle has ended. -/
theorem HailWindow.over_iff {w : HailWindow} {first : BitVec 16} {n : Nat} (h : w.opened = some (first, n)) (now : BitVec 16) :
    w.over now = true ↔ n + lag w.reach ≤ cyclesFrom first now := by
  rw [HailWindow.over, h]
  exact decide_eq_true_iff

/-- Settles O43: the window's end frees the channel with its outcome; before that nothing changes. -/
theorem hailWindowEnds : Obligations.HailWindowEnds := by
  intro s l w first n hrun hchan hopened
  show Host.Outcome.next (s.running fun e d => d.endHail e l) = _
  rw [State.running_eq hrun, Dev.endHail, hchan]
  dsimp only
  have hover : w.over s.env.cycle = true ↔ n + lag w.reach ≤ cyclesFrom first s.cycle := HailWindow.over_iff hopened _
  by_cases h : n + lag w.reach ≤ cyclesFrom first s.cycle
  · rw [if_pos h, if_pos (hover.2 h)]; rfl
  · rw [if_neg h, if_neg (mt hover.1 h)]

end Sys2Proof.Machine
end

section
/-! O9, O10, O11, O14, O18: the controller's writes, by the class of their word. A write that is passed at once stores its bytes
(`State.pass_writePassed`); here is what its effect on the part is, class by class (R172 to R177). -/

namespace Sys2Proof.Machine

/-! ## Writes that are passed (R171 to R173) -/

/-- Where the part accepts an access, the row of a write to a word that uses the port passes it. -/
theorem exec_of_accepts {s : State} (h : s.accepts) {c : Instr} {off : Nat} {data : Word} {be : BitVec 4}
    (hc : accessOf s.base c = some (s.writeAccess off data be)) (hoff : off < 65536) (halign : 4 ∣ off)
    (hlive : liveClass (classOf off) = false) : exec c s = .next (s.pass (s.writeAccess off data be)) := by
  rw [exec_of_accessOf hc, State.present_eq_pass h (s.usesPort_writeAccess data be hoff halign hlive)]

theorem exec_passedWrite (s : State) (addr : BitVec 24) (data : Word) (be : BitVec 4) :
    exec (.passedWrite addr data be) s = .next (s.present ⟨addr, data, be, true⟩) := rfl

/-- R172: what a write with a byte enabled to a word of the region does is its class's effect. -/
theorem State.takenEffect_writeAccess (s : State) {off : Nat} (data : Word) {be : BitVec 4} (hoff : off < 65536) (halign : 4 ∣ off)
    (hbe : be ≠ 0) : s.takenEffect (s.writeAccess off data be) = s.writeEffect (s.writeAccess off data be) off := by
  have htaken : s.takenEffect (s.writeAccess off data be) =
      s.writeEffect (s.writeAccess off data be) (wordOffset (regionAddr s.base off)) :=
    if_pos ⟨rfl, hbe, inRegion_regionAddr s.base hoff⟩
  rw [htaken, wordOffset_regionAddr s.base hoff halign]

/-- R171, R172: outside the region, to a PLAIN word, or with no byte enabled a write reaches memory only. -/
theorem State.takenEffect_memoryOnly (s : State) {a : Access}
    (h : inRegion s.base a.addr = false ∨ classOf (wordOffset a.addr) = .plain ∨ a.be = 0) : s.takenEffect a = s := by
  unfold State.takenEffect
  split
  · rename_i htaken
    obtain ⟨-, hbe, hregion⟩ := htaken
    obtain hout | hplain | hnone := h
    · rw [hout] at hregion; cases hregion
    · rw [State.writeEffect, hplain]
    · exact absurd hnone hbe
  · rfl

theorem State.usesPort_of {s : State} {a : Access} (h : inRegion s.base a.addr = false ∨ liveClass (classOf (wordOffset a.addr)) = false) :
    s.usesPort a = true := by
  obtain h | h := h <;> simp [State.usesPort, h]

/-- R175: an access to a LIVE word is answered off the port. -/
theorem State.usesPort_live {s : State} {a : Access} (hregion : inRegion s.base a.addr = true)
    (hlive : liveClass (classOf (wordOffset a.addr)) = true) : s.usesPort a = false := by
  simp [State.usesPort, hregion, hlive]

/-- R175: presented with none held, it completes what memory was at and is taken. -/
theorem State.present_live {s : State} (hrun : s.phase = .running) (hheld : s.bus.held = none) {a : Access}
    (hregion : inRegion s.base a.addr = true) (hlive : liveClass (classOf (wordOffset a.addr)) = true) :
    s.present a = s.memoryComplete.takeLive a := by
  rw [State.present, hheld, if_neg (by decide), if_pos hrun, State.offerAccess, State.usesPort_live hregion hlive, if_neg (by decide)]

theorem State.memoryComplete_of_ne {s : State} (h : s.bus.port ≠ .controller) : s.memoryComplete = s := if_neg h

theorem State.memoryComplete_of_eq {s : State} (h : s.bus.port = .controller) : s.memoryComplete = s.freePort := if_pos h

/-- R179: with no access held and no engine request a freed port stays FREE. -/
theorem State.freePort_of_idle {s : State} (hheld : s.bus.held = none) (hrequests : s.dev.requests = []) :
    s.freePort = { s with bus := { s.bus with port := .free, passing := none } } :=
  State.settle_of_idle (s := { s with bus := { s.bus with port := .free, passing := none } }) hheld hrequests

theorem exec_memoryAccessComplete {s : State} (hrun : s.phase = .running) : exec .memoryAccessComplete s = .next s.memoryComplete :=
  congrArg Host.Outcome.next (if_pos hrun)

/-- Settles O9: a write with no effect on the part, and a LIVE write, which only completes the access before it. -/
theorem passedWriteByClass : Obligations.PassedWriteByClass := by
  constructor
  · intro s addr data be haccepts ⟨hmem, _⟩ hclass
    have huses : s.usesPort ⟨addr, data, be, true⟩ = true := by
      refine State.usesPort_of ?_
      obtain hout | hplain | ⟨_, hlive⟩ := hclass
      · exact .inl hout
      · right; rw [show classOf (wordOffset addr) = .plain from hplain]; rfl
      · exact .inr hlive
    have hnothing : s.pass ⟨addr, data, be, true⟩ = s.toMemory ⟨addr, data, be, true⟩ := by
      refine State.takenEffect_memoryOnly (s.toMemory ⟨addr, data, be, true⟩) ?_
      obtain hout | hplain | ⟨hnone, _⟩ := hclass
      · exact .inl hout
      · exact .inr (.inl hplain)
      · exact .inr (.inr hnone)
    refine ⟨s.pass ⟨addr, data, be, true⟩, ?_, State.pass_writePassed hmem rfl, ?_, ?_, ?_⟩
    · rw [exec_passedWrite, State.present_eq_pass haccepts huses]
    · rw [hnothing]; rfl
    · rw [hnothing]; exact ⟨rfl, rfl⟩
    · rw [hnothing]; rfl
  · intro s addr data be hrun hheld hregion hlive
    have hexec : exec (.passedWrite addr data be) s = .next s.memoryComplete := by
      rw [exec_passedWrite, State.present_live (a := ⟨addr, data, be, true⟩) hrun hheld hregion hlive]; rfl
    refine ⟨fun hport => ?_, fun hport hrequests => ?_, fun _ => ?_⟩
    · rw [hexec, State.memoryComplete_of_ne hport]
    · rw [hexec, State.memoryComplete_of_eq hport, State.freePort_of_idle hheld hrequests]
    · rw [hexec, exec_memoryAccessComplete hrun]

/-! ## Mirrored writes (R172, R174) -/

theorem byteOf_packBytes (b0 b1 b2 b3 : Nat) {k : Nat} (hk : k < 4) :
    byteOf (packBytes b0 b1 b2 b3) k = BitVec.ofNat 8 ([b0, b1, b2, b3][k]) := by
  refine BitVec.eq_of_toNat_eq ?_
  match k, hk with
  | 0, _ => simp [byteOf, field, packBytes]; omega
  | 1, _ => simp [byteOf, field, packBytes]; omega
  | 2, _ => simp [byteOf, field, packBytes]; omega
  | 3, _ => simp [byteOf, field, packBytes]; omega

/-- R174: the merged value, lane by lane. -/
theorem byteOf_mergeBytes (be : BitVec 4) (new old : Word) {k : Nat} (hk : k < 4) :
    byteOf (mergeBytes be new old) k = if be.getLsbD k then byteOf new k else byteOf old k := by
  have hlane : ∀ (b : Bool) (x y : Byte), BitVec.ofNat 8 (if b then x.toNat else y.toNat) = if b then x else y := by
    intro b x y
    cases b with
    | false => simp
    | true => simp
  unfold mergeBytes
  dsimp only
  rw [byteOf_packBytes _ _ _ _ hk]
  match k, hk with
  | 0, _ => exact hlane _ _ _
  | 1, _ => exact hlane _ _ _
  | 2, _ => exact hlane _ _ _
  | 3, _ => exact hlane _ _ _

/-- 13.1: a mirrored word is a word of the region. -/
theorem mirrorWord_offset (w : MirrorWord) : w.offset < 65536 ∧ 4 ∣ w.offset := by
  cases w with
  | config i => have := i.isLt; simp only [MirrorWord.offset, offConfig]; omega
  | param n i => have := n.isLt; have := i.isLt; simp only [MirrorWord.offset, offSlot]; omega
  | enrolment r i => have := r.isLt; have := i.isLt; simp only [MirrorWord.offset, offRecord]; omega

theorem classOf_param {n i : Nat} (hn : n < 16) (hi : i < 12) : classOf (offSlot n + 4 * i) = .mirrored := by
  have hword : (offSlot n + 4 * i - 0x0400) % 64 / 4 = i := by rw [offSlot]; omega
  unfold classOf
  rw [hword, offSlot]
  repeat rw [if_neg (by omega)]
  rw [if_pos (by omega)]
  exact if_pos hi

theorem classOf_enrolment {r i : Nat} (hr : r < 256) (hi : i < 6) : classOf (offRecord r + 4 * i) = .mirrored := by
  have hword : (offRecord r + 4 * i - 0x1000) % 64 / 4 = i := by rw [offRecord]; omega
  unfold classOf
  rw [hword, offRecord]
  repeat rw [if_neg (by omega)]
  rw [if_pos (by omega)]
  exact if_pos hi

theorem classOf_mirrorWord (w : MirrorWord) : classOf w.offset = .mirrored := by
  cases w with
  | config i =>
    refine if_pos ?_
    have := i.isLt
    show 4 * i.val < 0x00F0
    omega
  | param n i => exact classOf_param n.isLt i.isLt
  | enrolment r i => exact classOf_enrolment r.isLt i.isLt

/-- R172, R174: besides memory and the port a mirrored write changes the mirror of its word. -/
theorem State.pass_mirrored (s : State) {off : Nat} (data : Word) {be : BitVec 4} (hoff : off < 65536) (halign : 4 ∣ off)
    (hclass : classOf off = .mirrored) (hbe : be ≠ 0) :
    s.pass (s.writeAccess off data be) =
      { s.toMemory (s.writeAccess off data be) with
        mirrors := Mirrors.put s.mirrors off (mergeBytes be data (Mirrors.word s.mirrors off)) } := by
  have htaken := State.takenEffect_writeAccess (s.toMemory (s.writeAccess off data be)) data hoff halign hbe
  rw [State.writeEffect, hclass] at htaken
  exact htaken

/-- Settles O10: the mirror takes the merged value, which has the written byte in an enabled lane and the mirror's in another. -/
theorem mirroredWriteSetsMirrorAndMemory : Obligations.MirroredWriteSetsMirrorAndMemory := by
  refine ⟨fun s w data be haccepts ⟨hmem, hmirrors⟩ hbe => ?_, fun be new old k hk => byteOf_mergeBytes be new old hk⟩
  obtain ⟨hoff, halign⟩ := mirrorWord_offset w
  have hclass : classOf w.offset = .mirrored := classOf_mirrorWord w
  have hpass := s.pass_mirrored data hoff halign hclass hbe
  refine ⟨s.pass (s.writeAccess w.offset data be), exec_of_accepts haccepts rfl hoff halign (by rw [hclass]; rfl),
    State.pass_writePassed hmem rfl, ?_, ?_, ?_⟩
  · rw [hpass]; exact Mirrors.put_mirrorsOnly hmirrors _ _
  · rw [hpass]; exact ⟨rfl, rfl⟩
  · rw [hpass]; rfl

/-! ## Watched writes (R115, R116, R177) -/

theorem classOf_store (i : Fin 8192) : classOf (offStore + 4 * i.val) = .watched := by
  unfold classOf
  rw [offStore]
  repeat rw [if_neg (by omega)]

/-- R177: besides memory and the port a watched write changes the blocks by its report. -/
theorem State.pass_watched (s : State) (i : Fin 8192) (data : Word) {be : BitVec 4} (hbe : be ≠ 0) :
    s.pass (s.writeAccess (offStore + 4 * i.val) data be) =
      { s.toMemory (s.writeAccess (offStore + 4 * i.val) data be) with dev := s.dev.watchedReport (4 * i.val) be } := by
  have hoff : offStore + 4 * i.val < 65536 := by have := i.isLt; rw [offStore]; omega
  have halign : 4 ∣ offStore + 4 * i.val := by rw [offStore]; omega
  have htaken :=
    State.takenEffect_writeAccess (s.toMemory (s.writeAccess (offStore + 4 * i.val) data be)) data hoff halign hbe
  rw [State.writeEffect, classOf_store i, Nat.add_sub_cancel_left] at htaken
  exact htaken

theorem Dev.watchedReport_of_untouched {d : Dev} {off : Nat} {be : BitVec 4} (h : d.touchedPins off be = []) :
    d.watchedReport off be = d := by rw [Dev.watchedReport, h]; rfl

/-- R116: one entry with one user: the entry closes, and the user is disturbed. -/
theorem Dev.watchedReport_of_one {d : Dev} {off : Nat} {be : BitVec 4} {k r : Nat} (hpins : d.touchedPins off be = [k])
    (husers : d.pinUsers k = [r]) : d.watchedReport off be = (d.closePin k).disturbUser r := by
  have hall : [k].flatMap d.pinUsers = [r] := by rw [List.flatMap_singleton, husers]
  rw [Dev.watchedReport, hpins, hall]
  rfl

/-- R116: closing the entry changes neither the user's leg nor its record. -/
theorem Dev.closePin_disturbUser (d : Dev) (k r : Nat) :
    (d.closePin k).disturbUser r =
      if (d.leg (d.record r).enrol.leg).loadFlight r then (d.closePin k).modLeg (d.record r).enrol.leg Leg.markDisturbed
      else (d.closePin k).halt r .sourceChanged := rfl

/-- Settles O11: the report, by the entries it touches and by whether the user's LOAD has the channel. -/
theorem watchedWriteReachesTheLoadEngine : Obligations.WatchedWriteReachesTheLoadEngine := by
  intro s i data be haccepts ⟨hmem, _⟩ hinv hbe
  have hoff : offStore + 4 * i.val < 65536 := by have := i.isLt; rw [offStore]; omega
  have halign : 4 ∣ offStore + 4 * i.val := by rw [offStore]; omega
  have hpass := s.pass_watched i data hbe
  refine ⟨s.pass (s.writeAccess (offStore + 4 * i.val) data be),
    exec_of_accepts haccepts rfl hoff halign (by rw [classOf_store i]; rfl), State.pass_writePassed hmem rfl, ?_, ?_, ?_, ?_⟩
  · rw [hpass]; rfl
  · rw [hpass]; exact ⟨rfl, rfl⟩
  · intro huntouched
    rw [hpass]
    exact Dev.watchedReport_of_untouched huntouched
  · intro k r hpins husers hstate
    rw [hpass]
    dsimp only
    rw [Dev.watchedReport_of_one hpins husers, Dev.closePin_disturbUser]
    by_cases hload : (s.dev.leg (s.dev.record r).enrol.leg).loadFlight r = true
    · rw [if_pos hload, if_pos hload]
    · rw [if_neg hload, if_neg hload]
      obtain ⟨hhalted, -, hothers, -, -⟩ := Dev.halt_spec (d := s.dev.closePin k) hinv.good.recs r .sourceChanged .loading hstate
      exact ⟨hhalted, hothers⟩

/-! ## Clear writes (R168) -/

/-- A cause's mask has the cause's own bit and no other. -/
theorem cause_mask_bit (c f : Cause) : c.mask.getLsbD f.index = decide (f = c) := by
  cases c <;> cases f <;> rfl

/-- R166: an event sets its own cause and leaves the others. -/
theorem Dev.isSet_latch (d : Dev) (c f : Cause) : (d.latch c).isSet f = (d.isSet f || decide (f = c)) := by
  rw [← cause_mask_bit c f]
  exact BitVec.getLsbD_or

/-- R168: a clear takes away the causes its value names. -/
theorem Dev.isSet_clearCauses (d : Dev) (v : Word) (c : Cause) : (d.clearCauses v).isSet c = (d.isSet c && !v.getLsbD c.index) := by
  show (d.causes &&& ~~~(v.setWidth 8)).getLsbD c.index = (d.causes.getLsbD c.index && !v.getLsbD c.index)
  simp [cause_index_lt c]

/-- R168, R176: the mirror of the clear word and the causes are all that a clear write changes besides memory and the port. -/
theorem State.pass_clear (s : State) (data : Word) {be : BitVec 4} (hbe : be ≠ 0) :
    s.pass (s.writeAccess offClear data be) =
      { s.toMemory (s.writeAccess offClear data be) with
        mirrors := Mirrors.put s.mirrors offClear (mergeBytes be data (Mirrors.word s.mirrors offClear))
        dev := s.dev.clearCauses (mergeBytes be data (Mirrors.word s.mirrors offClear)) } :=
  State.takenEffect_action (s.toMemory (s.writeAccess offClear data be)) data (by decide) (by decide) rfl hbe

/-- Settles O14: the causes lose the bits of the merged value. -/
theorem clearWriteClearsNamedCauses : Obligations.ClearWriteClearsNamedCauses := by
  intro s data be haccepts ⟨hmem, hmirrors⟩ hbe
  have hpass := s.pass_clear data hbe
  refine ⟨s.pass (s.writeAccess offClear data be), exec_of_accepts haccepts rfl (by decide) (by decide) rfl,
    State.pass_writePassed hmem rfl, ?_, ?_, ?_, ?_⟩
  · rw [hpass]; exact Mirrors.put_mirrorsOnly hmirrors _ _
  · rw [hpass]; exact ⟨rfl, rfl⟩
  · rw [hpass]; rfl
  · rw [hpass]; exact fun c => s.dev.isSet_clearCauses _ c

/-! ## Issue writes (R159, R160, R164, R165) -/

theorem offIssue_word (n : Fin 16) : offIssue n < 65536 ∧ 4 ∣ offIssue n := by
  have := n.isLt
  rw [offIssue, offSlot]
  omega

theorem classOf_issue (n : Fin 16) : classOf (offIssue n) = .action := by
  have hn := n.isLt
  have hword : (offIssue n - 0x0400) % 64 / 4 = 12 := by rw [offIssue, offSlot]; omega
  unfold classOf
  rw [hword, offIssue, offSlot]
  repeat rw [if_neg (by omega)]
  rw [if_pos (by omega)]
  rfl

/-- R160: the issue word is no parameter word, so its mirror plays no part in the capture. -/
theorem captureParams_putIssue (ms : List (Nat × Word)) (n : Nat) (v : Word) :
    captureParams (Mirrors.put ms (offIssue n) v) n = captureParams ms n := by
  refine List.map_congr_left fun i hi => Mirrors.word_put_ne _ _ _ _ ?_
  have hlt : i < 12 := List.mem_range.1 hi
  rw [offIssue, offSlot]
  omega

/-- R159, R176: besides memory and the port an issue write changes the mirror of its word, and the blocks by its issue field. -/
theorem State.pass_issue (s : State) (n : Fin 16) (data : Word) {be : BitVec 4} (hbe : be ≠ 0) :
    s.pass (s.writeAccess (offIssue n) data be) =
      { s.toMemory (s.writeAccess (offIssue n) data be) with
        mirrors := Mirrors.put s.mirrors (offIssue n) (mergeBytes be data (Mirrors.word s.mirrors (offIssue n)))
        dev := s.dev.issue n (captureParams s.mirrors n)
          (field (mergeBytes be data (Mirrors.word s.mirrors (offIssue n))) 0 8) } := by
  obtain ⟨hoff, halign⟩ := offIssue_word n
  have hn := n.isLt
  have hslot : issueSlot (offIssue n) = n.val := by rw [issueSlot, offIssue, offSlot]; omega
  have hcommit : offIssue n ≠ offCommit := by rw [offIssue, offSlot, offCommit]; omega
  have hclear : offIssue n ≠ offClear := by rw [offIssue, offSlot, offClear]; omega
  have htail : offIssue n ≠ offTail := by rw [offIssue, offSlot, offTail]; omega
  have htaken := State.takenEffect_action (s.toMemory (s.writeAccess (offIssue n) data be)) data hoff halign (classOf_issue n) hbe
  rw [State.act, if_neg hcommit, if_neg hclear, if_neg htail, hslot, State.issueWrite, State.putMirror_mirrors,
    captureParams_putIssue] at htaken
  exact htaken

/-- R162, R163: a completed slot, in the words of the statements. -/
theorem Dev.complete_slotDone {d : Dev} (hslots : Sparse.wf Slot.idle d.slots = true) (n : Nat) (res : ResultCode) (x : Detail) :
    slotDone d (d.complete n res x) n res x := by
  refine ⟨?_, ?_, fun m hm => ?_⟩
  · rw [Dev.complete, Dev.latch_slot, Dev.modSlot_slot_self _ _ _ hslots]
  · rw [Dev.complete, Dev.isSet_latch]
    simp
  · rw [Dev.complete, Dev.latch_slot, Dev.modSlot_slot_ne _ _ _ _ hm]

/-- R159: the four acts of an issue field. -/
theorem Dev.issue_go (d : Dev) (n : Nat) (ps : List Word) : d.issue n ps 1 = d.issueGo n ps := rfl
theorem Dev.issue_abort (d : Dev) (n : Nat) (ps : List Word) : d.issue n ps 2 = d.issueAbort n := rfl
theorem Dev.issue_clear (d : Dev) (n : Nat) (ps : List Word) : d.issue n ps 3 = d.issueClear n := rfl

theorem Dev.issue_other (d : Dev) (n : Nat) (ps : List Word) {v : Nat} (h : v = 0 ∨ 3 < v) : d.issue n ps v = d.ignoreIssue := by
  unfold Dev.issue
  split
  · omega
  · omega
  · omega
  · rfl

/-- R159, R160: GO of a slot that may take a command captures the parameters; of one that works it is ignored. -/
theorem Dev.issueGo_eq (d : Dev) (n : Nat) (ps : List Word) :
    d.issueGo n ps = if (d.slot n).st = .idle ∨ (d.slot n).st = .done then d.capture n ps else d.ignoreIssue := by
  unfold Dev.issueGo
  cases (d.slot n).st with
  | idle => rfl
  | done => rfl
  | queued => rfl
  | running => rfl

/-- R160: the captured slot. -/
theorem Dev.capture_slot {d : Dev} (hslots : Sparse.wf Slot.idle d.slots = true) (n : Nat) (ps : List Word) :
    (d.capture n ps).slot n = { st := .queued, params := ps, result := .none, detail := .zero, parts := [] } :=
  Dev.modSlot_slot_self d n (fun s => { s with st := .queued, params := ps, result := .none, detail := .zero, parts := [] }) hslots

theorem Dev.capture_slot_ne (d : Dev) {n m : Nat} (ps : List Word) (h : m ≠ n) : (d.capture n ps).slot m = d.slot m :=
  Dev.modSlot_slot_ne d n m (fun s => { s with st := .queued, params := ps, result := .none, detail := .zero, parts := [] }) h

/-- R165: CLEAR acts on a DONE slot only. -/
theorem Dev.issueClear_eq (d : Dev) (n : Nat) : d.issueClear n = if (d.slot n).st = .done then d.putSlot n .idle else d := by
  unfold Dev.issueClear
  cases (d.slot n).st with
  | idle => rfl
  | done => rfl
  | queued => rfl
  | running => rfl

/-- R164: ABORT of a QUEUED slot. -/
theorem Dev.issueAbort_queued {d : Dev} {n : Nat} (h : (d.slot n).st = .queued) :
    d.issueAbort n = ({ d with intake := without d.intake n } : Dev).complete n .aborted .zero := by
  rw [Dev.issueAbort, h]

theorem Dev.issueAbort_running {d : Dev} {n : Nat} (h : (d.slot n).st = .running) : d.issueAbort n = d.abortRunning n := by
  rw [Dev.issueAbort, h]

theorem Dev.issueAbort_idle {d : Dev} {n : Nat} (h : (d.slot n).st = .idle ∨ (d.slot n).st = .done) : d.issueAbort n = d := by
  obtain h | h := h
  · rw [Dev.issueAbort, h]
  · rw [Dev.issueAbort, h]

theorem accessOf_issue {b : BitVec 4} {n : Fin 16} {data : Word} {be : BitVec 4} {c : Instr}
    (hc : c ∈ [Instr.go n data be, .abort n data be, .clear n data be, .invalidIssueValue n data be]) :
    accessOf b c = some ⟨regionAddr b (offIssue n), data, be, true⟩ := by
  simp only [List.mem_cons, List.not_mem_nil, or_false] at hc
  obtain rfl | rfl | rfl | rfl := hc <;> rfl

theorem exec_issue {s : State} (h : s.accepts) {n : Fin 16} {data : Word} {be : BitVec 4} {c : Instr}
    (hc : c ∈ [Instr.go n data be, .abort n data be, .clear n data be, .invalidIssueValue n data be]) :
    exec c s = .next (s.pass (s.writeAccess (offIssue n) data be)) := by
  obtain ⟨hoff, halign⟩ := offIssue_word n
  exact exec_of_accepts h (accessOf_issue hc) hoff halign (by rw [classOf_issue n]; rfl)

/-- Settles O18: the write itself, and the act of its issue field by the slot's state. -/
theorem issueWriteActsOnTheSlot : Obligations.IssueWriteActsOnTheSlot := by
  intro s n data be c haccepts ⟨hmem, hmirrors⟩ hinv hbe hc
  have hslots := hinv.good.slots
  have hpass := s.pass_issue n data hbe
  refine ⟨s.pass (s.writeAccess (offIssue n) data be), exec_issue haccepts hc, State.pass_writePassed hmem rfl, ?_⟩
  rw [hpass]
  refine ⟨Mirrors.put_mirrorsOnly hmirrors _ _, ⟨rfl, rfl⟩, fun hgo => ?_, fun habort hqueued => ?_, fun habort hidle => ?_,
    fun hclear => ?_, fun hother => ?_⟩
  · dsimp only
    rw [hgo, Dev.issue_go, Dev.issueGo_eq]
    split
    · exact ⟨rfl, Dev.capture_slot hslots n _, fun m hm => s.dev.capture_slot_ne _ hm⟩
    · rfl
  · dsimp only
    rw [habort, Dev.issue_abort, Dev.issueAbort_queued hqueued]
    exact ⟨rfl, Dev.complete_slotDone (d := { s.dev with intake := without s.dev.intake n }) hslots n .aborted .zero⟩
  · dsimp only
    rw [habort, Dev.issue_abort, Dev.issueAbort_idle hidle]
  · dsimp only
    rw [hclear, Dev.issue_clear, Dev.issueClear_eq]
    split
    · exact ⟨rfl, Dev.putSlot_slot_self s.dev n _ hslots, fun m hm => Dev.putSlot_slot_ne s.dev n m _ hm⟩
    · rfl
  · exact s.dev.issue_other n _ hother

end Sys2Proof.Machine
end

section
/-! O20, O21, O22 (chapter 12): the checks of a commit field by field, and what a commit does, applied or rejected. -/

namespace Sys2Proof.Machine

/-! ## The checks (R182, R184) -/

/-- R182: a value outside a field's range is the reason RANGE, whatever the field's state condition. -/
theorem checkField_of_leg (old : Applied) (d : Dev) (l : Fin 4) {k : Nat} (hk : k < 13) (v : Nat) :
    checkField old d (legField l k) v = if legRangeOk k v = true then legStateReason old d l k v else some .range := by
  have hfield : legField l k = 13 * l.val + k + 4 := by rw [legField]; omega
  have hpos : (13 * l.val + k + 4 - 4) % 13 = k := by omega
  have hleg : Fin.ofNat 4 ((13 * l.val + k + 4 - 4) / 13) = l := by
    refine Fin.ext ?_
    have := l.isLt
    rw [Fin.val_ofNat]
    omega
  have hrange : rangeOk (13 * l.val + k + 4) v = legRangeOk k v := by
    rw [rangeOk, hpos]
    · omega
    · omega
    · omega
    · omega
  rw [hfield, checkField, hrange, if_neg (by omega : ¬ 13 * l.val + k + 4 = 3), if_neg (by omega : ¬ 13 * l.val + k + 4 < 4), hpos, hleg]
  by_cases h : legRangeOk k v = true
  · rw [if_neg (not_not.2 h), if_pos h]
  · rw [if_pos h, if_neg h]

theorem within_iff (lo hi v : Nat) : within lo hi v = true ↔ lo ≤ v ∧ v ≤ hi := by simp [within]

theorem within_zero_iff (hi v : Nat) : within 0 hi v = true ↔ v ≤ hi := by simp [within]

/-- R184: the fields of a leg without a state condition. -/
theorem checkField_of_rangeOnly (old : Applied) (d : Dev) (l : Fin 4) {k : Nat} (hk : k < 13) (hstate : 2 ≤ k) (v : Nat) :
    checkField old d (legField l k) v = if legRangeOk k v = true then none else some .range := by
  rw [checkField_of_leg old d l hk]
  have hnone : legStateReason old d l k v = none := by
    rw [legStateReason]
    · omega
    · omega
  rw [hnone]

/-- R184: a leg is occupied by a record, a command's survey or directive, or a hunt. -/
theorem Dev.occupied_iff (d : Dev) (l : Fin 4) :
    d.occupied l = true ↔
      d.recordsOn l ≠ [] ∨ (d.leg l).surveysSlot = true ∨ (d.leg l).carriesCmd = true ∨ (d.leg l).hunt.phase ≠ .idle := by
  simp [Dev.occupied, or_assoc]

/-- R182, R184: turning a leg off asks that it is not occupied. -/
theorem checkField_enable (old : Applied) (d : Dev) (l : Fin 4) (v : Nat) :
    checkField old d (legField l 0) v = (if 1 < v then some .range
      else if (old.leg l).enable = true ∧ v = 0 ∧
        (d.recordsOn l ≠ [] ∨ (d.leg l).surveysSlot = true ∨ (d.leg l).carriesCmd = true ∨ (d.leg l).hunt.phase ≠ .idle)
        then some .legOccupied else none) := by
  have hrange : legRangeOk 0 v = true ↔ v ≤ 1 := within_zero_iff 1 v
  rw [checkField_of_leg old d l (by decide)]
  simp only [← Dev.occupied_iff]
  by_cases h : v ≤ 1
  · rw [if_pos (hrange.2 h), if_neg (by omega)]; rfl
  · rw [if_neg (mt hrange.1 h), if_pos (by omega)]

/-- R182, R184: a new reach target asks that no record is past EXPECTED. -/
theorem checkField_reach (old : Applied) (d : Dev) (l : Fin 4) (v : Nat) :
    checkField old d (legField l 1) v = (if v < 1000 ∨ 62500 < v then some .range
      else if v ≠ (old.leg l).reach ∧ d.pastExpected l = true then some .reachLocked else none) := by
  have hrange : legRangeOk 1 v = true ↔ 1000 ≤ v ∧ v ≤ 62500 := within_iff 1000 62500 v
  rw [checkField_of_leg old d l (by decide)]
  by_cases h : 1000 ≤ v ∧ v ≤ 62500
  · rw [if_pos (hrange.2 h), if_neg (by omega)]; rfl
  · rw [if_neg (mt hrange.1 h), if_pos (by omega)]

/-- R79, R182, R184: a new ring capacity asks for an empty ring with its indices below it. -/
theorem checkField_ringCap (old : Applied) (d : Dev) (v : Nat) :
    checkField old d 3 v = (if v < 16 ∨ 384 < v then some .range
      else if v = old.ringCap ∨ (d.ring.badTail = false ∧ d.ring.head = d.ring.tail ∧ d.ring.tail < v) then none
      else some .ringBusy) := by
  have hrange : rangeOk 3 v = true ↔ 16 ≤ v ∧ v ≤ 384 := within_iff 16 384 v
  rw [checkField]
  by_cases h : 16 ≤ v ∧ v ≤ 384
  · rw [if_neg (not_not.2 (hrange.2 h)), if_pos rfl, if_neg (by omega), ringStateReason]
    by_cases hsame : v = old.ringCap
    · rw [if_neg (fun hnew => hnew.1 hsame), if_pos (.inl hsame)]
    · by_cases hempty : d.ring.badTail = false ∧ d.ring.head = d.ring.tail ∧ d.ring.tail < v
      · rw [if_neg (fun hnew => hnew.2 hempty), if_pos (.inr hempty)]
      · rw [if_pos ⟨hsame, hempty⟩, if_neg (not_or.2 ⟨hsame, hempty⟩)]
  · rw [if_pos (mt hrange.1 h), if_pos (by omega)]

/-- R182: the fields before the legs', but the ring capacity, have a range and no state condition. -/
theorem checkField_of_lt_three (old : Applied) (d : Dev) {f : Nat} (hf : f < 3) (v : Nat) :
    checkField old d f v = if rangeOk f v = true then none else some .range := by
  rw [checkField, if_neg (by omega : ¬ f = 3), if_pos (by omega : f < 4)]
  by_cases h : rangeOk f v = true
  · rw [if_neg (not_not.2 h), if_pos h]
  · rw [if_pos h, if_neg h]

/-- Settles O22: each field by the lemma of its kind, with its range in words. -/
theorem commitChecksRangeThenState : Obligations.CommitChecksRangeThenState := by
  intro old d l v
  have hleg : ∀ {k lo hi : Nat}, k < 13 → 2 ≤ k → legRangeOk k v = within lo hi v →
      checkField old d (legField l k) v = if lo ≤ v ∧ v ≤ hi then none else some .range := by
    intro k lo hi hk hstate hrange
    rw [checkField_of_rangeOnly old d l hk hstate, hrange]
    simp only [within_iff]
  have hleg0 : ∀ {k hi : Nat}, k < 13 → 2 ≤ k → legRangeOk k v = within 0 hi v →
      checkField old d (legField l k) v = if v ≤ hi then none else some .range := by
    intro k hi hk hstate hrange
    rw [checkField_of_rangeOnly old d l hk hstate, hrange]
    simp only [within_zero_iff]
  have h1 : rangeOk 1 v = within 1 15 v := rfl
  have h2 : rangeOk 2 v = within 0 255 v := rfl
  refine ⟨?_, ?_, ?_, checkField_ringCap old d v, checkField_enable old d l v, checkField_reach old d l v,
    hleg (by decide) (by decide) rfl, hleg (by decide) (by decide) rfl, hleg (by decide) (by decide) rfl,
    hleg0 (by decide) (by decide) rfl, hleg (by decide) (by decide) rfl, hleg (by decide) (by decide) rfl,
    hleg (by decide) (by decide) rfl, hleg (by decide) (by decide) rfl, hleg0 (by decide) (by decide) rfl,
    hleg0 (by decide) (by decide) rfl, hleg0 (by decide) (by decide) rfl⟩
  · exact checkField_of_lt_three old d (by decide) v
  · rw [checkField_of_lt_three old d (by decide), h1]
    simp only [within_iff]
  · rw [checkField_of_lt_three old d (by decide), h2]
    simp only [within_zero_iff]

/-! ## The commit word is no configuration word (13.2) -/

theorem configValue_putCommit (ms : List (Nat × Word)) (v : Word) {f : Nat} (hf : f < 56) :
    configValue (Mirrors.put ms offCommit v) f = configValue ms f := by
  have hword : Mirrors.word (Mirrors.put ms offCommit v) (offConfig f) = Mirrors.word ms (offConfig f) := by
    refine Mirrors.word_put_ne _ _ _ _ ?_
    rw [offConfig, offCommit]
    omega
  rw [configValue, configValue, hword]

theorem readLegConfig_putCommit (ms : List (Nat × Word)) (v : Word) {l : Nat} (hl : l < 4) :
    readLegConfig (Mirrors.put ms offCommit v) l = readLegConfig ms l := by
  have hfield : ∀ {k : Nat}, k < 13 → configValue (Mirrors.put ms offCommit v) (legField l k) = configValue ms (legField l k) :=
    fun hk => configValue_putCommit ms v (by rw [legField]; omega)
  simp only [readLegConfig, hfield (by decide : 0 < 13), hfield (by decide : 1 < 13), hfield (by decide : 2 < 13),
    hfield (by decide : 3 < 13), hfield (by decide : 4 < 13), hfield (by decide : 5 < 13), hfield (by decide : 6 < 13),
    hfield (by decide : 7 < 13), hfield (by decide : 8 < 13), hfield (by decide : 9 < 13), hfield (by decide : 10 < 13),
    hfield (by decide : 11 < 13), hfield (by decide : 12 < 13)]

theorem readApplied_putCommit (ms : List (Nat × Word)) (v : Word) :
    readApplied (Mirrors.put ms offCommit v) = readApplied ms := by
  unfold readApplied
  rw [configValue_putCommit ms v (by decide : 0 < 56), configValue_putCommit ms v (by decide : 1 < 56),
    configValue_putCommit ms v (by decide : 2 < 56), configValue_putCommit ms v (by decide : 3 < 56),
    readLegConfig_putCommit ms v (by decide : 0 < 4), readLegConfig_putCommit ms v (by decide : 1 < 4),
    readLegConfig_putCommit ms v (by decide : 2 < 4), readLegConfig_putCommit ms v (by decide : 3 < 4)]

theorem findSome?_congr {α β : Type} {f g : α → Option β} {xs : List α} (h : ∀ x ∈ xs, f x = g x) :
    xs.findSome? f = xs.findSome? g := by
  induction xs with
  | nil => rfl
  | cons x xs ih =>
    rw [List.findSome?_cons, List.findSome?_cons, h x List.mem_cons_self, ih fun y hy => h y (List.mem_cons_of_mem x hy)]

theorem firstBadField_putCommit (old : Applied) (ms : List (Nat × Word)) (v : Word) (d : Dev) :
    firstBadField old (Mirrors.put ms offCommit v) d = firstBadField old ms d := by
  refine findSome?_congr fun f hf => ?_
  rw [configValue_putCommit ms v (List.mem_range.1 hf)]

/-- R183: with no failing field there is no first one. -/
theorem firstBadField_eq_none {old : Applied} {ms : List (Nat × Word)} {d : Dev}
    (h : ∀ f, f < 56 → checkField old d f (configValue ms f) = none) : firstBadField old ms d = none := by
  refine List.findSome?_eq_none_iff.2 fun f hf => ?_
  rw [h f (List.mem_range.1 hf)]
  rfl

/-- R183: the first failing field is the one that every field before it passes. -/
theorem firstBadField_eq_some {old : Applied} {ms : List (Nat × Word)} {d : Dev} {f : Nat} {why : CommitReason} (hf : f < 56)
    (hfail : checkField old d f (configValue ms f) = some why) (hbefore : ∀ k, k < f → checkField old d k (configValue ms k) = none) :
    firstBadField old ms d = some (f, why) := by
  have hsplit : List.range 56 = List.range f ++ f :: (List.range (55 - f)).map (fun k => f + (k + 1)) := by
    rw [show 56 = f + (55 - f + 1) by omega, List.range_add, List.range_succ_eq_map, List.map_cons, List.map_map]
    simp [Function.comp_def]
  refine List.findSome?_eq_some_iff.2 ⟨_, f, _, hsplit, ?_, fun k hk => ?_⟩
  · rw [hfail]; rfl
  · rw [hbefore k (List.mem_range.1 hk)]; rfl

/-! ## What a commit does (R183, R185, R186) -/

theorem exec_commit {s : State} (h : s.accepts) (data : Word) (be : BitVec 4) :
    exec (.commit data be) s = .next (s.pass (s.writeAccess offCommit data be)) :=
  exec_of_accepts h rfl (by decide) (by decide) rfl

/-- The machine when a commit write has reached memory and its mirror, and the commit handler acts. -/
def State.atCommit (s : State) (data : Word) (be : BitVec 4) : State :=
  (s.toMemory (s.writeAccess offCommit data be)).putMirror offCommit (mergeBytes be data (Mirrors.word s.mirrors offCommit))

theorem State.pass_commit (s : State) (data : Word) {be : BitVec 4} (hbe : be ≠ 0) :
    s.pass (s.writeAccess offCommit data be) = (s.atCommit data be).commitNow :=
  State.takenEffect_action (s.toMemory (s.writeAccess offCommit data be)) data (by decide) (by decide) rfl hbe

/-- R183: a commit with a failing field. -/
theorem State.commitNow_rejected {s : State} {f : Nat} {why : CommitReason} (h : firstBadField s.applied s.mirrors s.dev = some (f, why)) :
    s.commitNow = { s with
      cstat := { status := .rejected, field := some f, reason := some why, count := s.cstat.count + 1 }
      dev := s.dev.latch .configDone } := by
  unfold State.commitNow
  rw [h]

/-- R183: a commit with none. -/
theorem State.commitNow_applied {s : State} (h : firstBadField s.applied s.mirrors s.dev = none) :
    s.commitNow = { s with
      applied := readApplied s.mirrors
      cstat := { status := .applied, field := none, reason := none, count := s.cstat.count + 1 }
      dev := (allLegs.foldl (Dev.applyLeg s.applied (readApplied s.mirrors)) s.dev).latch .configDone } := by
  unfold State.commitNow
  rw [h]

/-- Settles O21: the first failing field decides, and only the status and CONFIG_DONE change. -/
theorem commitRejectsAsAWhole : Obligations.CommitRejectsAsAWhole := by
  intro s data be f why haccepts ⟨hmem, _⟩ hbe hf hfail hbefore
  have hfirst : firstBadField s.applied (s.atCommit data be).mirrors s.dev = some (f, why) :=
    (firstBadField_putCommit _ _ _ _).trans (firstBadField_eq_some hf hfail hbefore)
  refine ⟨s.pass (s.writeAccess offCommit data be), exec_commit haccepts data be, State.pass_writePassed hmem rfl, ?_⟩
  rw [s.pass_commit data hbe, State.commitNow_rejected hfirst]
  exact ⟨rfl, rfl, rfl⟩

/-! ## The legs at an applied commit (R56, R61, R62, R64, R66, R67, R187) -/

theorem Dev.applyLeg_leg (old new : Applied) (d : Dev) (l k : Fin 4) :
    (Dev.applyLeg old new d l).leg k = if k = l then (d.leg l).commitLeg (old.leg l) (new.leg l) else d.leg k := by
  unfold Dev.applyLeg
  dsimp only
  split
  · exact d.putLeg_leg l k _
  · exact d.putLeg_leg l k _

/-- R186: an applied commit changes a leg, and causes. -/
theorem Dev.applyLeg_frame (old new : Applied) (d : Dev) (l : Fin 4) :
    Dev.applyLeg old new d l = { d with legs := (Dev.applyLeg old new d l).legs, causes := (Dev.applyLeg old new d l).causes } := by
  unfold Dev.applyLeg
  dsimp only
  split <;> rfl

/-- R61: LEG_FAULT is latched for a leg that is enabled with FLT asserted. -/
theorem Dev.applyLeg_isSet (old new : Applied) (d : Dev) (l : Fin 4) (c : Cause) :
    (Dev.applyLeg old new d l).isSet c = true ↔ d.isSet c = true ∨
      (c = .legFault ∧ enabledFaulted (d.leg l) ((d.leg l).commitLeg (old.leg l) (new.leg l)) = true) := by
  unfold Dev.applyLeg
  dsimp only
  split
  · rename_i henabled
    rw [Dev.isSet_latch]
    simp only [henabled, Bool.or_eq_true, decide_eq_true_eq, and_true]
    rfl
  · rename_i henabled
    simp only [henabled, Bool.false_eq_true, and_false, or_false]
    rfl

theorem Dev.applyLegs_frame (old new : Applied) (ls : List (Fin 4)) (d : Dev) :
    ls.foldl (Dev.applyLeg old new) d =
      { d with legs := (ls.foldl (Dev.applyLeg old new) d).legs, causes := (ls.foldl (Dev.applyLeg old new) d).causes } := by
  induction ls generalizing d with
  | nil => rfl
  | cons l ls ih =>
    rw [List.foldl_cons, ih]
    rw [Dev.applyLeg_frame]

/-- Each leg is committed once, as it stood. -/
theorem Dev.applyLegs_leg (old new : Applied) {ls : List (Fin 4)} (hnodup : ls.Nodup) (d : Dev) (k : Fin 4) :
    (ls.foldl (Dev.applyLeg old new) d).leg k = if k ∈ ls then (d.leg k).commitLeg (old.leg k) (new.leg k) else d.leg k := by
  induction ls generalizing d with
  | nil => rfl
  | cons l ls ih =>
    obtain ⟨hl, hls⟩ := List.nodup_cons.1 hnodup
    rw [List.foldl_cons, ih hls, Dev.applyLeg_leg]
    by_cases hk : k = l
    · subst hk
      simp [hl]
    · simp [hk]

theorem Dev.applyLegs_isSet (old new : Applied) {ls : List (Fin 4)} (hnodup : ls.Nodup) (d : Dev) (c : Cause) :
    (ls.foldl (Dev.applyLeg old new) d).isSet c = true ↔ d.isSet c = true ∨
      (c = .legFault ∧ ∃ l ∈ ls, enabledFaulted (d.leg l) ((d.leg l).commitLeg (old.leg l) (new.leg l)) = true) := by
  induction ls generalizing d with
  | nil => simp
  | cons l ls ih =>
    obtain ⟨hl, hls⟩ := List.nodup_cons.1 hnodup
    have hstand : ∀ k ∈ ls, (Dev.applyLeg old new d l).leg k = d.leg k := by
      intro k hk
      rw [Dev.applyLeg_leg, if_neg]
      rintro rfl
      exact hl hk
    rw [List.foldl_cons, ih hls, Dev.applyLeg_isSet, or_assoc, List.exists_mem_cons_iff, ← and_or_left]
    refine or_congr Iff.rfl (and_congr Iff.rfl (or_congr Iff.rfl (exists_congr fun k => and_congr_right fun hk => ?_)))
    rw [hstand k hk]

theorem mem_allLegs (l : Fin 4) : l ∈ allLegs := by
  fin_cases l <;> decide

/-- R56: the stray count at a commit. -/
theorem Leg.commitStray_eq (g : Leg) (old new : LegConfig) :
    g.commitStray old new = { g with stray := if old.strayLimit ≠ new.strayLimit then 0 else g.stray } := by
  unfold Leg.commitStray
  split <;> rfl

/-- R61, R62: the three things a commit can do with a leg's enable. -/
theorem Leg.commitLeg_on {g : Leg} {c : LegConfig} (old : LegConfig) (hst : g.st = .dark) (hon : c.enable = true) :
    g.commitLeg old c = ((g.commitTimer c).commitStray old c).enableLeg := by
  rw [Leg.commitLeg, Leg.commitStray_eq]
  exact if_pos ⟨hst, hon⟩

theorem Leg.commitLeg_off {g : Leg} {c : LegConfig} (old : LegConfig) (hst : g.st ≠ .dark) (hoff : c.enable = false) :
    g.commitLeg old c = ((g.commitTimer c).commitStray old c).disableLeg := by
  rw [Leg.commitLeg, Leg.commitStray_eq]
  exact (if_neg fun h => hst h.1).trans (if_pos ⟨hst, hoff⟩)

theorem Leg.commitLeg_same {g : Leg} {c : LegConfig} (old : LegConfig) (hsame : g.st ≠ .dark ↔ c.enable = true) :
    g.commitLeg old c = (g.commitTimer c).commitStray old c := by
  rw [Leg.commitLeg, Leg.commitStray_eq]
  refine (if_neg fun h => ?_).trans (if_neg fun h => ?_)
  · exact hsame.2 h.2 h.1
  · rw [hsame.1 h.1] at h
    exact absurd h.2 (by decide)

/-- R66: the value of a timer that does not run: a new pace is taken at once. -/
def Leg.stoppedTimer (g : Leg) (c : LegConfig) : Nat := if c.pace = g.reload then g.timer else c.pace

/-- R66, R67: a DARK leg's timer, or one of mode OFF, is stopped. -/
theorem Leg.commitTimer_stops {g : Leg} {c : LegConfig} (h : g.st = .dark ∨ c.hailMode = .off) :
    g.commitTimer c = { g with mode := c.hailMode, reload := c.pace, timer := g.stoppedTimer c, running := false } := by
  have hstarts : (decide (g.st ≠ .dark) && decide (g.mode = .off) && decide (c.hailMode ≠ .off)) = false := by
    obtain h | h := h <;> simp [h]
  unfold Leg.commitTimer Leg.stoppedTimer
  dsimp only
  rw [hstarts, if_pos h]
  by_cases hpace : c.pace = g.reload <;> simp [hpace]

/-- R66: from mode OFF the timer is loaded and starts. -/
theorem Leg.commitTimer_starts {g : Leg} {c : LegConfig} (hst : g.st ≠ .dark) (hwas : g.mode = .off) (hmode : c.hailMode ≠ .off) :
    g.commitTimer c = { g with mode := c.hailMode, reload := c.pace, timer := c.pace, running := true } := by
  have hstarts : (decide (g.st ≠ .dark) && decide (g.mode = .off) && decide (c.hailMode ≠ .off)) = true := by simp [hst, hwas, hmode]
  unfold Leg.commitTimer
  dsimp only
  rw [hstarts, if_neg (not_or.2 ⟨hst, hmode⟩)]
  rfl

/-- R67: else a running timer runs on at its value. -/
theorem Leg.commitTimer_runs {g : Leg} {c : LegConfig} (hst : g.st ≠ .dark) (hwas : g.mode ≠ .off) (hmode : c.hailMode ≠ .off) :
    g.commitTimer c =
      { g with mode := c.hailMode, reload := c.pace, timer := if g.running then g.timer else g.stoppedTimer c } := by
  have hstarts : (decide (g.st ≠ .dark) && decide (g.mode = .off) && decide (c.hailMode ≠ .off)) = false := by simp [hwas]
  unfold Leg.commitTimer Leg.stoppedTimer
  dsimp only
  rw [hstarts, if_neg (not_or.2 ⟨hst, hmode⟩)]
  cases hrun : g.running with
  | true => simp
  | false => by_cases hpace : c.pace = g.reload <;> simp [hpace]

/-- R62, R67: the timer of a leg that was on is the one of its mode and pace; it runs where the leg stays on. -/
theorem Leg.commitLeg_timer {g : Leg} (old c : LegConfig) (hst : g.st ≠ .dark) :
    (g.commitLeg old c).timer = (g.commitTimer c).timer ∧ (g.commitLeg old c).running = ((g.commitTimer c).running && c.enable) := by
  cases hon : c.enable with
  | true =>
    rw [Leg.commitLeg_same old (iff_of_true hst hon), Leg.commitStray_eq, Bool.and_true]
    exact ⟨rfl, rfl⟩
  | false =>
    rw [Leg.commitLeg_off old hst hon, Leg.commitStray_eq, Bool.and_false]
    exact ⟨rfl, rfl⟩

/-- R64, R66, R67: mode by mode, the timer of a leg that was on. -/
theorem Leg.commitLeg_pace {g : Leg} (old c : LegConfig) (hst : g.st ≠ .dark) :
    if c.hailMode = .off then (g.commitLeg old c).timer = g.stoppedTimer c ∧ (g.commitLeg old c).running = false
    else if g.mode = .off then (g.commitLeg old c).timer = c.pace ∧ (g.commitLeg old c).running = c.enable
    else (g.commitLeg old c).timer = (if g.running then g.timer else g.stoppedTimer c) ∧
      (g.commitLeg old c).running = (g.running && c.enable) := by
  obtain ⟨htimer, hrunning⟩ := Leg.commitLeg_timer old c hst
  rw [htimer, hrunning]
  split
  next hmode =>
    rw [Leg.commitTimer_stops (.inr hmode)]
    exact ⟨rfl, rfl⟩
  next hmode =>
    split
    next hwas =>
      rw [Leg.commitTimer_starts hst hwas hmode]
      exact ⟨rfl, rfl⟩
    next hwas =>
      rw [Leg.commitTimer_runs hst hwas hmode]
      exact ⟨rfl, rfl⟩

/-- Turning a leg on or off leaves its mode, its reload value and its spans. -/
theorem Leg.commitEnable_settings (g : Leg) (c : LegConfig) :
    (g.commitEnable c).mode = g.mode ∧ (g.commitEnable c).reload = g.reload ∧ (g.commitEnable c).quietTail = g.quietTail := by
  unfold Leg.commitEnable
  split
  · exact ⟨rfl, rfl, rfl⟩
  · split
    · exact ⟨rfl, rfl, rfl⟩
    · exact ⟨rfl, rfl, rfl⟩

/-- R64: mode and reload are the applied ones, and the spans of ANSWERED directives run on. -/
theorem Leg.commitLeg_settings (g : Leg) (old c : LegConfig) :
    (g.commitLeg old c).mode = c.hailMode ∧ (g.commitLeg old c).reload = c.pace ∧ (g.commitLeg old c).quietTail = g.quietTail := by
  have h := Leg.commitEnable_settings ((g.commitTimer c).commitStray old c) c
  rw [Leg.commitStray_eq] at h
  rw [Leg.commitLeg, Leg.commitStray_eq]
  exact h

/-- R61: a leg enters FAULTED at a commit that turns it on with FLT asserted. -/
theorem Leg.enabledFaulted_iff (g : Leg) (old c : LegConfig) :
    enabledFaulted g (g.commitLeg old c) = true ↔ g.st = .dark ∧ c.enable = true ∧ g.flt = true := by
  rw [enabledFaulted, Bool.and_eq_true, decide_eq_true_eq, decide_eq_true_eq]
  refine and_congr_right fun hst => ?_
  cases hon : c.enable with
  | true =>
    rw [Leg.commitLeg_on old hst hon, Leg.commitStray_eq]
    show (if g.flt then LegState.faulted else .running) = .faulted ↔ _
    cases g.flt <;> simp
  | false =>
    have hsame : g.st ≠ .dark ↔ c.enable = true := by simp [hst, hon]
    rw [Leg.commitLeg_same old hsame, Leg.commitStray_eq]
    show g.st = .faulted ↔ _
    simp [hst]

/-- Settles O20: the status and the causes, then each leg by what its enable and its mode were and are. -/
theorem commitAppliesTheBlock : Obligations.CommitAppliesTheBlock := by
  intro s data be haccepts ⟨hmem, _⟩ hbe hpass
  have hfirst : firstBadField s.applied (s.atCommit data be).mirrors s.dev = none :=
    (firstBadField_putCommit _ _ _ _).trans (firstBadField_eq_none hpass)
  have hread : readApplied (s.atCommit data be).mirrors = readApplied s.mirrors := readApplied_putCommit _ _
  refine ⟨s.pass (s.writeAccess offCommit data be), exec_commit haccepts data be, State.pass_writePassed hmem rfl, ?_⟩
  rw [s.pass_commit data hbe, State.commitNow_applied hfirst, hread]
  refine ⟨rfl, rfl, fun f => ?_, ?_, fun l => ?_⟩
  · show (Dev.latch (allLegs.foldl (Dev.applyLeg s.applied (readApplied s.mirrors)) s.dev) .configDone).isSet f = true ↔ _
    rw [Dev.isSet_latch, Bool.or_eq_true, Dev.applyLegs_isSet _ _ (by decide)]
    simp only [Leg.enabledFaulted_iff, mem_allLegs, true_and, decide_eq_true_eq]
    exact or_assoc.trans (or_congr Iff.rfl or_comm)
  · show Dev.latch (allLegs.foldl (Dev.applyLeg s.applied (readApplied s.mirrors)) s.dev) .configDone = _
    rw [Dev.applyLegs_frame]
    rfl
  · have hleg : (Dev.latch (allLegs.foldl (Dev.applyLeg s.applied (readApplied s.mirrors)) s.dev) .configDone).leg l =
        (s.dev.leg l).commitLeg (s.applied.leg l) ((readApplied s.mirrors).leg l) := by
      rw [Dev.latch_leg, Dev.applyLegs_leg _ _ (by decide), if_pos (mem_allLegs l)]
    dsimp only
    rw [show (s.atCommit data be).applied = s.applied from rfl, show (s.atCommit data be).dev = s.dev from rfl, hleg]
    obtain ⟨hmode, hreload, hspans⟩ := Leg.commitLeg_settings (s.dev.leg l) (s.applied.leg l) ((readApplied s.mirrors).leg l)
    refine ⟨hmode, hreload, hspans, fun hst hon => ?_, fun hst hoff => ?_, ⟨fun hst hoff => ?_, fun hst => ?_⟩, fun hst hon => ?_,
      fun hsame => ?_⟩
    · rw [Leg.commitLeg_on _ hst hon, Leg.commitStray_eq]
      exact ⟨rfl, rfl, rfl, rfl, rfl, rfl, rfl, rfl⟩
    · rw [Leg.commitLeg_off _ hst hoff, Leg.commitStray_eq]
      exact ⟨rfl, rfl, rfl, rfl, rfl, rfl, rfl, rfl, rfl⟩
    · have hsame : (s.dev.leg l).st ≠ .dark ↔ ((readApplied s.mirrors).leg l).enable = true := by simp [hst, hoff]
      rw [Leg.commitLeg_same _ hsame, Leg.commitStray_eq, Leg.commitTimer_stops (.inl hst)]
      exact ⟨hst, rfl, rfl⟩
    · exact Leg.commitLeg_pace _ _ hst
    · rw [Leg.commitLeg_same _ (iff_of_true hst hon), Leg.commitStray_eq]
      rfl
    · rw [Leg.commitLeg_same _ hsame, Leg.commitStray_eq]
      exact ⟨rfl, rfl, rfl, rfl, rfl, rfl, rfl⟩

end Sys2Proof.Machine
end

section
/-! O6, O7, O13: RESETn falls and rises, the clearing ends, and a port that is freed goes to its next claimant. -/

namespace Sys2Proof.Machine

/-! ## RESETn falls (R178, R181) -/

/-- What a byte reads after a run of bytes is written, by its place in the run. -/
theorem Memory.read_writeList_getD {m : List Host.Cell} (hm : Memory.wf m = true) (a c : Nat) (bs : List Byte) :
    Memory.read (Memory.writeList m a bs) c = if a ≤ c then (bs[c - a]?).getD (Memory.read m c) else Memory.read m c := by
  rw [Memory.read_writeList m a c bs hm]
  by_cases hfrom : a ≤ c
  · rw [if_pos hfrom]
    by_cases hto : c < a + bs.length
    · rw [dif_pos ⟨hfrom, hto⟩, List.getElem?_eq_getElem (by omega : c - a < bs.length)]
      rfl
    · rw [dif_neg (fun h => hto h.2), List.getElem?_eq_none (by omega : bs.length ≤ c - a)]
      rfl
  · rw [if_neg hfrom, dif_neg (fun h => hfrom h.1)]

theorem Memory.getElem?_readList (m : List Host.Cell) (a n j : Nat) :
    (Memory.readList m a n)[j]? = if j < n then some (Memory.read m (a + j)) else none := by
  induction n generalizing a j with
  | zero => rfl
  | succ n ih =>
    cases j with
    | zero => simp [Memory.readList]
    | succ j =>
      rw [Memory.readList, List.getElem?_cons_succ, ih]
      simp only [Nat.add_lt_add_iff_right, Nat.add_assoc, Nat.add_comm 1 j]

/-- R178, R181: a byte of a cut ring entry is the new one where its word was written, and else the old one. -/
theorem getElem?_cutBytes (seed i : Nat) (ns os : List Byte) (j : Nat) :
    (cutBytes seed i ns os)[j]? =
      ns[j]?.bind fun n => os[j]?.map fun o => if cutWritten seed (i + j) then n else o := by
  induction ns generalizing i os j with
  | nil => simp [cutBytes]
  | cons n ns ih =>
    cases os with
    | nil => cases h : (n :: ns)[j]? <;> simp [cutBytes]
    | cons o os =>
      cases j with
      | zero => simp [cutBytes]
      | succ j =>
        rw [cutBytes, List.getElem?_cons_succ, ih, List.getElem?_cons_succ, List.getElem?_cons_succ,
          Nat.add_assoc, Nat.add_comm 1 j]

/-- R178: lane by lane, memory keeps its byte or takes back the one the cut write found. -/
theorem read_cutLane {m : List Host.Cell} (hm : Memory.wf m = true) (seed : Nat) (p : Passing) (k x : Nat) :
    Memory.read (cutLane seed p m k) x = Memory.read m x ∨
      (p.acc.be.getLsbD k = true ∧ x = p.acc.wordAddr + k ∧ Memory.read (cutLane seed p m k) x = byteOf p.old k) := by
  unfold cutLane
  split
  next hcut =>
    obtain ⟨hlane, -⟩ := Bool.and_eq_true_iff.1 hcut
    by_cases hx : x = p.acc.wordAddr + k
    · subst hx
      exact .inr ⟨hlane, rfl, Memory.read_write_self m _ _ hm⟩
    · exact .inl (Memory.read_write_ne m _ _ _ hx)
  next => exact .inl rfl

/-- Lanes that are each kept or put back, one after another. -/
theorem read_cutLanes (seed : Nat) (p : Passing) (ks : List Nat) {m : List Host.Cell} (hm : Memory.wf m = true) (x : Nat) :
    Memory.read (ks.foldl (cutLane seed p) m) x = Memory.read m x ∨
      ∃ k ∈ ks, p.acc.be.getLsbD k = true ∧ x = p.acc.wordAddr + k ∧
        Memory.read (ks.foldl (cutLane seed p) m) x = byteOf p.old k := by
  induction ks generalizing m with
  | nil => exact .inl rfl
  | cons j ks ih =>
    obtain hkeep | ⟨k, hk, hlane, haddr, hold⟩ := ih (cutLane_wf seed p hm j)
    · obtain hfirst | ⟨hlane, haddr, hold⟩ := read_cutLane hm seed p j x
      · exact .inl (hkeep.trans hfirst)
      · exact .inr ⟨j, List.mem_cons_self, hlane, haddr, hkeep.trans hold⟩
    · exact .inr ⟨k, List.mem_cons_of_mem j hk, hlane, haddr, hold⟩

/-- R178: a cut controller write leaves each byte it was to write with its new or its old value. -/
theorem read_cutPass (seed : Nat) (p : Option Passing) {m : List Host.Cell} (hm : Memory.wf m = true) (x : Nat) :
    Memory.read (cutPass seed m p) x = Memory.read m x ∨
      ∃ (q : Passing) (k : Nat), p = some q ∧ q.acc.write = true ∧ k < 4 ∧ q.acc.be.getLsbD k = true ∧ x = q.acc.wordAddr + k ∧
        Memory.read (cutPass seed m p) x = byteOf q.old k := by
  cases p with
  | none => exact .inl rfl
  | some q =>
    unfold cutPass
    dsimp only
    split
    next hwrite =>
      obtain hkeep | ⟨k, hk, hlane, haddr, hold⟩ := read_cutLanes seed q [0, 1, 2, 3] hm x
      · exact .inl hkeep
      · refine .inr ⟨q, k, rfl, hwrite, ?_, hlane, haddr, hold⟩
        simp only [List.mem_cons, List.not_mem_nil, or_false] at hk
        omega
    next => exact .inl rfl

/-- R81, R181: the bytes of a cut ring entry in memory. -/
theorem State.read_cutEntry {s : State} (hburst : s.dev.burst = some .ring) {m : List Host.Cell} (hm : Memory.wf m = true) {x : Nat}
    {b : Byte} (hfrom : s.headAddr ≤ x) (hnew : s.dev.ring.frontBytes[x - s.headAddr]? = some b) (hlt : x - s.headAddr < 32) :
    Memory.read (s.cutEntry m) x = if cutWritten s.dev.seed (x - s.headAddr) then b else Memory.read m x := by
  rw [State.cutEntry, hburst]
  dsimp only
  rw [Memory.read_writeList_getD hm, if_pos hfrom, getElem?_cutBytes, hnew, Memory.getElem?_readList, if_pos hlt, Nat.zero_add,
    Nat.add_sub_cancel' hfrom]
  rfl

/-- Every byte outside the cut entry stands. -/
theorem State.read_cutEntry_of_outside {s : State} {m : List Host.Cell} (hm : Memory.wf m = true) {x : Nat}
    (h : s.dev.burst ≠ some .ring ∨ x < s.headAddr ∨ s.dev.ring.frontBytes[x - s.headAddr]? = none) :
    Memory.read (s.cutEntry m) x = Memory.read m x := by
  unfold State.cutEntry
  split
  next hburst =>
    rw [Memory.read_writeList_getD hm]
    split
    next hfrom =>
      obtain h | h | h := h
      · exact absurd hburst h
      · omega
      · rw [getElem?_cutBytes, h]; rfl
    next => rfl
  next => rfl
  next => rfl

/-- 13.5: a ring entry takes 32 bytes. -/
theorem RingEntry.bytes_length (x : RingEntry) : x.bytes.length = 32 := rfl

theorem Ring.frontBytes_length (g : Ring) : g.frontBytes.length ≤ 32 := by
  unfold Ring.frontBytes
  split
  · exact Nat.le_of_eq (RingEntry.bytes_length _)
  · exact Nat.zero_le _

theorem Ring.frontBytes_length_of_ne {g : Ring} (h : g.writeList ≠ []) : g.frontBytes.length = 32 := by
  unfold Ring.frontBytes
  split
  · exact RingEntry.bytes_length _
  · rename_i hnil
    exact absurd hnil h

/-- R178, R181: of a cut entry each byte is the new one, or the one that stood. -/
theorem State.read_cutEntry_cases (s : State) {m : List Host.Cell} (hm : Memory.wf m = true) (x : Nat) :
    Memory.read (s.cutEntry m) x = Memory.read m x ∨
      (s.dev.burst = some .ring ∧ s.headAddr ≤ x ∧
        s.dev.ring.frontBytes[x - s.headAddr]? = some (Memory.read (s.cutEntry m) x)) := by
  by_cases hburst : s.dev.burst = some .ring
  · by_cases hfrom : s.headAddr ≤ x
    · cases hnew : s.dev.ring.frontBytes[x - s.headAddr]? with
      | none => exact .inl (State.read_cutEntry_of_outside hm (.inr (.inr hnew)))
      | some b =>
        obtain ⟨hlt, -⟩ := List.getElem?_eq_some_iff.1 hnew
        have hread := State.read_cutEntry hburst hm hfrom hnew (Nat.lt_of_lt_of_le hlt s.dev.ring.frontBytes_length)
        cases hcut : cutWritten s.dev.seed (x - s.headAddr) with
        | true =>
          rw [hcut, if_pos rfl] at hread
          exact .inr ⟨hburst, hfrom, by rw [hread]⟩
        | false =>
          rw [hcut, if_neg Bool.false_ne_true] at hread
          exact .inl hread
    · exact .inl (State.read_cutEntry_of_outside hm (.inr (.inl (by omega))))
  · exact .inl (State.read_cutEntry_of_outside hm (.inl hburst))

/-- R181: the words came in ascending order: those before the cut word are written, those after it are not. -/
theorem cutWritten_of_lt {seed i : Nat} (h : i / 4 < (Config.cutWords seed).val) : cutWritten seed i = true := by
  simp [cutWritten, h]

theorem cutWritten_of_gt {seed i : Nat} (h : (Config.cutWords seed).val < i / 4) : cutWritten seed i = false := by
  simp [cutWritten, Nat.not_lt.2 (Nat.le_of_lt h), Nat.ne_of_gt h]

theorem State.resetFalls_of_ne {s : State} (h : s.phase ≠ .low) :
    s.resetFalls = { s with
      phase := .low
      mem := s.cutEntry (cutPass s.dev.seed s.mem s.bus.passing)
      bus := { s.bus with port := .free, passing := none, held := s.bus.heldAtReset }
      dev := s.dev.cutEngines } := if_neg h

/-- R169: ATTN is low outside operation. -/
theorem State.attn_of_not_running {s : State} (h : s.phase ≠ .running) : s.attn = false := by
  simp [State.attn, h]

/-- Settles O6: the bus and the engines, byte by byte the memory of a cut write, and the order of a cut entry's words. -/
theorem resetAssertedCutsTheBus : Obligations.ResetAssertedCutsTheBus := by
  intro s ⟨hmem, _⟩
  have hexec : exec .resetAsserted s = .next s.resetFalls := rfl
  rw [hexec]
  refine ⟨fun hlow => ?_, fun hlow => ?_, fun hlow hburst hpassing hentry => ?_⟩
  · rw [State.resetFalls, if_pos hlow]
  · rw [State.resetFalls_of_ne hlow]
    refine ⟨_, rfl, rfl, State.attn_of_not_running nofun, rfl, rfl, rfl, rfl, rfl, ⟨rfl, rfl⟩, rfl, fun x => ?_⟩
    obtain hkeep | hentry := s.read_cutEntry_cases (cutPass_wf s.dev.seed s.bus.passing hmem) x
    · obtain hstand | ⟨p, k, hpassing, hwrite, hk, hlane, haddr, hold⟩ := read_cutPass s.dev.seed s.bus.passing hmem x
      · exact .inl (hkeep.trans hstand)
      · exact .inr (.inl ⟨p, k, hpassing, hwrite, hk, hlane, haddr, hkeep.trans hold⟩)
    · exact .inr (.inr hentry)
  · rw [State.resetFalls_of_ne hlow, hpassing]
    refine ⟨_, (Config.cutWords s.dev.seed).val, rfl, (Config.cutWords s.dev.seed).isLt, fun i hi => ?_⟩
    have hlen : i < s.dev.ring.frontBytes.length := by rw [Ring.frontBytes_length_of_ne hentry]; exact hi
    have hnew : s.dev.ring.frontBytes[s.headAddr + i - s.headAddr]? = some (s.dev.ring.frontBytes[i]) := by
      rw [Nat.add_sub_cancel_left, List.getElem?_eq_getElem hlen]
    have hread := State.read_cutEntry hburst (m := s.mem) hmem (Nat.le_add_right s.headAddr i) hnew (by omega)
    rw [Nat.add_sub_cancel_left] at hread hnew
    refine ⟨fun hbefore => ?_, fun hafter => ?_⟩
    · rw [cutWritten_of_lt hbefore, if_pos rfl] at hread
      exact hnew.trans (congrArg some hread.symm)
    · rw [cutWritten_of_gt hafter, if_neg Bool.false_ne_true] at hread
      exact hread

/-! ## RESETn rises and the clearing ends (R178) -/

theorem Dev.cleared_leg (d : Dev) (l : Fin 4) : d.cleared.leg l = Leg.afterReset (d.leg l).flt := by
  fin_cases l <;> rfl

theorem State.clearingEnds_held {s : State} {a : Access} (hphase : s.phase = .clearing) (hheld : s.bus.held = some a) :
    s.clearingEnds = ({ s with phase := .running, bus := { s.bus with held := none } } : State).present a := by
  rw [State.clearingEnds, if_pos hphase, hheld]

theorem exec_levelRead (s : State) (w : ReadAddr) (be : BitVec 4) :
    exec (.levelRead w be) s = .next (s.present ⟨w.address s.base, 0, be, false⟩) := rfl

/-- Settles O7: every block at its reset value, and the access held through the clearing presented anew. -/
theorem resetReleasedThenCleared : Obligations.ResetReleasedThenCleared := by
  constructor
  · intro s straps hlow
    have hexec : exec (.resetReleased straps) s = .next (s.resetRises straps) := rfl
    rw [hexec, State.resetRises, if_pos hlow]
    exact ⟨_, rfl, rfl, rfl, rfl, State.attn_of_not_running nofun, rfl, rfl, fun _ => rfl, rfl, rfl, rfl, rfl, rfl, rfl,
      fun _ => rfl, fun _ => rfl, fun _ => rfl, s.dev.cleared_leg, rfl, rfl, rfl, rfl, rfl, rfl, rfl⟩
  · intro s hphase _
    have hexec : exec .clearingEnd s = .next s.clearingEnds := rfl
    refine ⟨fun hheld => ?_, fun a hheld hwrite => ?_, fun addr be hheld => ?_⟩
    · rw [hexec, State.clearingEnds, if_pos hphase, hheld]
    · obtain ⟨addr, data, be, write⟩ := a
      subst hwrite
      rw [hexec, State.clearingEnds_held hphase hheld, exec_passedWrite]
    · rw [hexec, State.clearingEnds_held hphase hheld, exec_levelRead]
      rfl

/-! ## A freed port goes to its next claimant (R173, R179, R180) -/

theorem State.grantPort_of_owned {s : State} (h : s.bus.port ≠ .free) (n : Nat) : s.grantPort n = s := by
  cases n with
  | zero => rfl
  | succ n => exact if_neg h

/-- R180: where the engine's turn has come at a FREE port, the front request's burst begins. -/
theorem State.settle_of_burst {s : State} {b : Burst} {rest : List Client} (hport : s.bus.port = .free)
    (hturn : s.bus.held = none ∨ s.bus.passCount = passLimit) (hrequests : s.dev.requests ≠ [])
    (hburst : s.burstBegin = s.startBurst b rest) : s.settle = s.startBurst b rest := by
  have hempty : s.dev.requests.isEmpty = false := by simpa using hrequests
  have hgrant : (s.startBurst b rest).grantPort s.dev.ring.writeList.length = s.startBurst b rest :=
    State.grantPort_of_owned (s := s.startBurst b rest) (by rw [State.startBurst]; simp) _
  rw [State.settle, State.grantPort, if_pos hport]
  cases hheld : s.bus.held with
  | none =>
    dsimp only
    rw [hempty, if_neg Bool.false_ne_true, hburst, hgrant]
  | some a =>
    have hlast : s.controllerFirst = false := by
      obtain hnone | hcount := hturn
      · rw [hheld] at hnone; cases hnone
      · simp [State.controllerFirst, hempty, hcount]
    dsimp only
    rw [hlast, if_neg Bool.false_ne_true, hburst, hgrant]

theorem State.burstBegin_load {s : State} {f : Fetch} {fs : List Fetch} {rest : List Client}
    (hrequests : s.dev.requests = .load :: rest) (hfetches : s.dev.fetches = f :: fs) :
    s.burstBegin = s.startBurst (.fetch f false) rest := by
  unfold State.burstBegin
  split
  next heq =>
    rw [hrequests] at heq
    cases heq
    split
    next heq => rw [hfetches] at heq; cases heq; rfl
    next heq => rw [hfetches] at heq; cases heq
  next heq => rw [hrequests] at heq; cases heq
  next heq => rw [hrequests] at heq; cases heq

theorem State.burstBegin_ring {s : State} {rest : List Client} (hrequests : s.dev.requests = .ring :: rest)
    (hroom : s.dev.ring.full s.applied.ringCap = false) : s.burstBegin = s.startBurst .ring rest := by
  unfold State.burstBegin
  split
  next heq => rw [hrequests] at heq; cases heq
  next heq =>
    rw [hrequests] at heq
    cases heq
    rw [hroom, if_neg Bool.false_ne_true]
  next heq => rw [hrequests] at heq; cases heq

/-- R173: the bus and memory as an access that is passed leaves them. -/
theorem State.pass_bus_mem (s : State) (a : Access) : (s.pass a).bus = (s.toMemory a).bus ∧ (s.pass a).mem = (s.toMemory a).mem :=
  ⟨((s.toMemory a).takenEffect_sameSurround a).bus, ((s.toMemory a).takenEffect_sameSurround a).mem⟩

theorem State.countPass_eq (s : State) :
    s.countPass = if s.dev.requests = [] then s.bus.passCount else s.bus.passCount + 1 := by
  simp [State.countPass]

theorem State.freePort_of_held {s : State} {a : Access} (hheld : s.bus.held = some a)
    (hturn : s.dev.requests = [] ∨ s.bus.passCount < passLimit) :
    s.freePort = ({ s with bus := { s.bus with port := .free, passing := none } } : State).pass a :=
  State.settle_of_held (s := { s with bus := { s.bus with port := .free, passing := none } }) rfl hheld
    (by simpa [State.controllerFirst] using hturn)

/-- R173: a port-using row presented at a FREE port with none held is the held access at the freed port. -/
theorem State.present_at_freed {s : State} {a : Access} (hrun : s.phase = .running) (hheld : s.bus.held = some a)
    (huses : s.usesPort a = true) :
    ({ s with bus := { s.bus with port := .free, passing := none, held := none } } : State).present a = s.freePort := by
  have huses' : ({ s with bus := { s.bus with port := .free, passing := none, held := none } } : State).usesPort a = true := huses
  rw [State.present, if_neg (by simp), if_pos hrun, State.offerAccess, if_pos huses', State.released, if_neg (by simp), State.hold,
    ← hheld]
  rfl

/-- Settles O13: the completion, the four claims at a freed port, and the withdrawal. -/
theorem accessCompletesOrIsWithdrawn : Obligations.AccessCompletesOrIsWithdrawn := by
  refine ⟨fun s hrun => exec_memoryAccessComplete hrun, fun s => ⟨State.freePort_of_idle, fun a hheld hturn => ?_,
    fun rest b hturn hfront => ?_, fun a c hrun hheld huses hc => ?_⟩, fun s => rfl⟩
  · obtain ⟨hbus, hmem⟩ := State.pass_bus_mem { s with bus := { s.bus with port := .free, passing := none } } a
    rw [State.freePort_of_held hheld hturn, hbus, hmem]
    refine ⟨?_, rfl⟩
    simp only [State.toMemory, State.countPass_eq]
  · have hbegin : ∀ u : State, u.dev = s.dev → u.applied = s.applied → u.burstBegin = u.startBurst b rest := by
      rintro u hdev happlied
      obtain ⟨f, fs, hrequests, hfetches, rfl⟩ | ⟨hrequests, hroom, rfl⟩ := hfront
      · exact State.burstBegin_load (by rw [hdev]; exact hrequests) (by rw [hdev]; exact hfetches)
      · exact State.burstBegin_ring (by rw [hdev]; exact hrequests) (by rw [hdev, happlied]; exact hroom)
    have hrequests : s.dev.requests ≠ [] := by
      obtain ⟨f, fs, hrequests, -, -⟩ | ⟨hrequests, -, -⟩ := hfront <;> rw [hrequests] <;> exact List.cons_ne_nil _ _
    exact State.settle_of_burst (s := { s with bus := { s.bus with port := .free, passing := none } }) rfl hturn hrequests
      (hbegin _ rfl rfl)
  · have hc' : accessOf ({ s with bus := { s.bus with port := .free, passing := none, held := none } } : State).base c = some a := hc
    rw [exec_of_accessOf hc', State.present_at_freed hrun hheld huses]

end Sys2Proof.Machine
end

section
/-! O12: the controller's reads. First the layout of the LIVE words, block by block (13.2 to 13.7, R188), then the read of a LIVE word
off the port (R175), the level read (R24), and the read that is passed to memory. -/

namespace Sys2Proof.Machine

/-! ## Where the LIVE words of a block lie (13.1) -/

theorem State.liveWord_slot (s : State) (n : Fin 16) {i : Nat} (hi : i < 16) :
    s.liveWord (offSlot n + 4 * i) = (s.dev.slot n).word (i - 13) := by
  have hn := n.isLt
  have hslot : (offSlot n + 4 * i - 0x0400) / 64 = n.val := by rw [offSlot]; omega
  have hword : (offSlot n + 4 * i - 0x0400) % 64 / 4 = i := by rw [offSlot]; omega
  have hlo : 0x0400 ≤ offSlot n + 4 * i := by rw [offSlot]; omega
  have hhi : offSlot n + 4 * i < 0x0800 := by rw [offSlot]; omega
  rw [State.liveWord, if_neg (by omega), if_neg (by omega), if_neg (by omega), if_neg (by omega), if_pos hhi, hslot, hword]

theorem State.liveWord_leg (s : State) (l : Fin 4) {i : Nat} (hi : i < 64) :
    s.liveWord (offLeg l + 4 * i) = (s.dev.leg l).word i := by
  have hl := l.isLt
  have hleg : Fin.ofNat 4 ((offLeg l + 4 * i - 0x0800) / 256) = l := by
    refine Fin.ext ?_
    rw [Fin.val_ofNat, offLeg]
    omega
  have hword : (offLeg l + 4 * i - 0x0800) % 256 / 4 = i := by rw [offLeg]; omega
  have hlo : 0x0800 ≤ offLeg l + 4 * i := by rw [offLeg]; omega
  have hhi : offLeg l + 4 * i < 0x0C00 := by rw [offLeg]; omega
  rw [State.liveWord, if_neg (by omega), if_neg (by omega), if_neg (by omega), if_neg (by omega), if_neg (by omega), if_pos hhi,
    hleg, hword]

theorem State.liveWord_record (s : State) (r : Fin 256) {i : Nat} (hi : i < 16) :
    s.liveWord (offRecord r + 4 * i) = (s.dev.record r).word i := by
  have hr := r.isLt
  have hrecord : (offRecord r + 4 * i - 0x1000) / 64 = r.val := by rw [offRecord]; omega
  have hword : (offRecord r + 4 * i - 0x1000) % 64 / 4 = i := by rw [offRecord]; omega
  have hlo : 0x1000 ≤ offRecord r + 4 * i := by rw [offRecord]; omega
  rw [State.liveWord, if_neg (by omega), if_neg (by omega), if_neg (by omega), if_neg (by omega), if_neg (by omega),
    if_neg (by omega), hrecord, hword]

/-! ## Bytes that run through words (R188) -/

/-- A byte of the word that packs four bytes in a row. -/
theorem byteOf_packRow (f : Nat → Nat) (i : Nat) {k : Nat} (hk : k < 4) :
    byteOf (packBytes (f i) (f (i + 1)) (f (i + 2)) (f (i + 3))) k = BitVec.ofNat 8 (f (i + k)) := by
  rw [byteOf_packBytes _ _ _ _ hk]
  match k, hk with
  | 0, _ => rfl
  | 1, _ => rfl
  | 2, _ => rfl
  | 3, _ => rfl

/-- 13.6: the words of the slot map view. -/
theorem Leg.word_slotMap (g : Leg) {i : Nat} (hlo : 8 ≤ i) (hhi : i < 18) :
    g.word i = packBytes (g.slotByte (8 + 4 * (i - 8))) (g.slotByte (8 + 4 * (i - 8) + 1)) (g.slotByte (8 + 4 * (i - 8) + 2))
      (g.slotByte (8 + 4 * (i - 8) + 3)) := by
  rw [Leg.word]
  · exact if_pos ⟨hlo, hhi⟩
  all_goals omega

theorem Leg.word_unused (g : Leg) {i : Nat} (h : i = 7 ∨ (18 ≤ i ∧ i < 64)) : g.word i = 0 := by
  rw [Leg.word]
  · exact if_neg (by omega)
  all_goals omega

theorem Leg.byteOf_slotMap (g : Leg) {k : Nat} (hlo : 8 ≤ k) (hhi : k < 48) :
    byteOf (g.word (6 + k / 4)) (k % 4) = BitVec.ofNat 8 (g.slotByte k) := by
  rw [g.word_slotMap (by omega) (by omega), byteOf_packRow _ _ (by omega)]
  congr 2
  omega

/-- 13.4: the slot list fills words 13 and 14. -/
theorem Rec.byteOf_slotList (x : Rec) {k : Nat} (hk : k < 8) :
    byteOf (x.word (13 + k / 4)) (k % 4) = BitVec.ofNat 8 ((x.slotList[k]?).getD 0) := by
  by_cases hfirst : k < 4
  · rw [show 13 + k / 4 = 13 by omega, show x.word 13 = packBytes ((x.slotList[0]?).getD 0) ((x.slotList[0 + 1]?).getD 0)
      ((x.slotList[0 + 2]?).getD 0) ((x.slotList[0 + 3]?).getD 0) from rfl,
      byteOf_packRow (fun k => (x.slotList[k]?).getD 0) 0 (by omega), show 0 + k % 4 = k by omega]
  · rw [show 13 + k / 4 = 14 by omega, show x.word 14 = packBytes ((x.slotList[4]?).getD 0) ((x.slotList[4 + 1]?).getD 0)
      ((x.slotList[4 + 2]?).getD 0) ((x.slotList[4 + 3]?).getD 0) from rfl,
      byteOf_packRow (fun k => (x.slotList[k]?).getD 0) 4 (by omega), show 4 + k % 4 = k by omega]

/-- R189: the result words of a slot: all three when it is DONE, and else its state alone. -/
theorem Slot.word_done {x : Slot} (h : x.st = .done) :
    x.word 0 = packBytes (3 + 16 * (x.detail.len % 16)) x.result.code x.detail.a x.detail.b ∧ x.word 1 = x.detail.w14 ∧
      x.word 2 = x.detail.w15 := by
  unfold Slot.word
  rw [h]
  exact ⟨rfl, rfl, rfl⟩

theorem Slot.word_of_ne_done {x : Slot} (h : x.st ≠ .done) :
    x.word 0 = BitVec.ofNat 32 x.st.code ∧ x.word 1 = 0 ∧ x.word 2 = 0 := by
  unfold Slot.word
  cases hst : x.st with
  | done => exact absurd hst h
  | idle => exact ⟨rfl, rfl, rfl⟩
  | queued => exact ⟨rfl, rfl, rfl⟩
  | running => exact ⟨rfl, rfl, rfl⟩

/-! ## Reads of LIVE words (R24, R175) -/

/-- R175: a read of a LIVE word shows the word as it stands, or zero with no byte enabled. -/
theorem State.takeLive_live (s : State) {addr : BitVec 24} (be : BitVec 4) (hclass : classOf (wordOffset addr) = .live) :
    s.takeLive ⟨addr, 0, be, false⟩ = s.answerWith (if be = 0 then 0 else s.liveWord (wordOffset addr)) := by
  rw [State.takeLive, if_neg Bool.false_ne_true]
  by_cases hbe : be = 0
  · rw [if_pos hbe, if_pos hbe]
  · rw [if_neg hbe, if_neg hbe, State.readEffect, hclass]

/-- 13.4: the level word of a record. -/
theorem wordOffset_level (base : BitVec 4) (r : Fin 256) :
    inRegion base ((ReadAddr.level r).address base) = true ∧ wordOffset ((ReadAddr.level r).address base) = offRecord r + 4 * 15 ∧
      classOf (offRecord r + 4 * 15) = .liveRead ∧ (offRecord r + 4 * 15 - 0x1000) / 64 = r.val := by
  have hr := r.isLt
  have hoff : offRecord r + 60 < 65536 := by rw [offRecord]; omega
  have halign : 4 ∣ offRecord r + 60 := by rw [offRecord]; omega
  refine ⟨inRegion_regionAddr base hoff, wordOffset_regionAddr base hoff halign, ?_, ?_⟩
  · have hword : (offRecord r + 4 * 15 - 0x1000) % 64 / 4 = 15 := by rw [offRecord]; omega
    unfold classOf
    rw [hword, offRecord]
    repeat rw [if_neg (by omega)]
    rw [if_pos (by omega)]
    rfl
  · rw [offRecord]; omega

/-- R24: the read of a level word shows it and moves its flags. -/
theorem State.takeLive_level (s : State) (r : Fin 256) {be : BitVec 4} (hbe : be ≠ 0) :
    s.takeLive ⟨(ReadAddr.level r).address s.base, 0, be, false⟩ =
      { s.answerWith (s.dev.record r).levelWord with dev := s.dev.levelTaken r } := by
  obtain ⟨-, hoffset, hclass, hrecord⟩ := wordOffset_level s.base r
  rw [State.takeLive, if_neg Bool.false_ne_true, if_neg hbe]
  dsimp only
  rw [hoffset, s.liveWord_record r (by decide), State.readEffect, hclass, hrecord]
  rfl

theorem exec_levelRead_word (s : State) (addr : BitVec 24) (be : BitVec 4) :
    exec (.levelRead (.word addr) be) s = .next (s.present ⟨addr, 0, be, false⟩) := rfl

/-- R175: a level read is answered off the port. -/
theorem exec_levelRead_level {s : State} (hrun : s.phase = .running) (hheld : s.bus.held = none) (hport : s.bus.port ≠ .controller)
    (r : Fin 256) (be : BitVec 4) :
    exec (.levelRead (.level r) be) s = .next (s.takeLive ⟨(ReadAddr.level r).address s.base, 0, be, false⟩) := by
  obtain ⟨hregion, hoffset, hclass, -⟩ := wordOffset_level s.base r
  have hlive : liveClass (classOf (wordOffset ((ReadAddr.level r).address s.base))) = true := by rw [hoffset, hclass]; rfl
  rw [exec_levelRead, State.present_live (a := ⟨(ReadAddr.level r).address s.base, 0, be, false⟩) hrun hheld hregion hlive,
    State.memoryComplete_of_ne hport]

/-- R24: the level read of a record with a terminal. -/
theorem Dev.levelTaken_of_ne {d : Dev} {r : Nat} (h : (d.record r).state ≠ .vacant) :
    d.levelTaken r = (d.modRec r fun x => { x with levelFresh := false, levelWanted := true }).askLevel r := if_neg h

theorem Dev.levelTaken_of_vacant {d : Dev} {r : Nat} (h : (d.record r).state = .vacant) : d.levelTaken r = d := if_pos h

/-- R24: a level request changes the queue of one leg and no record. -/
theorem Dev.askLevel_record (d : Dev) (r q : Nat) : (d.askLevel r).record q = d.record q := by
  unfold Dev.askLevel
  dsimp only
  split <;> rfl

theorem Dev.askLevel_leg (d : Dev) (r : Nat) (k : Fin 4) :
    (d.askLevel r).leg k =
      if k = (d.record r).enrol.leg ∧ (d.record r).state = .active ∧ (d.leg k).busyWith r = false ∧
        ((d.leg k).st = .running ∨ (d.leg k).st = .suspended) ∧ (d.leg k).queue.length < queueCap then
        { d.leg k with queue := (d.leg k).queue ++ [⟨⟨.individual (d.record r).enrol.addr, .level⟩, .level r⟩] } else d.leg k := by
  have hroom : ∀ g : Leg, g.hasRoom = true ↔ g.queue.length < queueCap := fun _ => decide_eq_true_iff
  unfold Dev.askLevel
  simp only [hroom]
  split
  next hask =>
    rw [Dev.enqueue, Dev.modLeg_leg]
    by_cases hk : k = (d.record r).enrol.leg
    · subst hk
      rw [if_pos rfl, if_pos ⟨rfl, hask⟩]
    · rw [if_neg hk, if_neg fun h => hk h.1]
  next hask =>
    by_cases hk : k = (d.record r).enrol.leg
    · subst hk
      rw [if_neg fun h => hask h.2]
    · rw [if_neg fun h => hk h.1]

/-- R173: a read that is passed has no effect on the part. -/
theorem State.pass_read (s : State) {a : Access} (hread : a.write = false) : s.pass a = s.toMemory a :=
  if_neg fun h => by rw [hread] at h; exact Bool.false_ne_true h.1

/-- R189: the current tag is that of the directive in flight. -/
theorem Leg.currentTag_directive {g : Leg} {x : InFlight} (h : g.chan = .directive x) : g.currentTag = x.tag := by
  rw [Leg.currentTag, Leg.inFlight, h]; rfl

theorem Leg.currentTag_none {g : Leg} (h : ∀ x, g.chan ≠ .directive x) : g.currentTag = none := by
  rw [Leg.currentTag, Leg.inFlight]
  cases hchan : g.chan with
  | free => rfl
  | directive x => exact absurd hchan (h x)
  | hail w => rfl
  | survey w => rfl

/-! ## The statement, clause by clause -/

/-- The level read of a record with a terminal. -/
theorem levelRead_of_enrolled (s : State) (r : Fin 256) {be : BitVec 4} (hrun : s.phase = .running) (hheld : s.bus.held = none)
    (hport : s.bus.port ≠ .controller) (hinv : s.Inv) (hbe : be ≠ 0) (hstate : (s.dev.record r).state ≠ .vacant) :
    let x := s.dev.record r
    let l := x.enrol.leg
    let g := s.dev.leg l
    ∃ d, exec (.levelRead (.level r) be) s =
        .next { s with dev := d, bus := { s.bus with rdata := BitVec.ofNat 32 (x.level.toNat + 256 * bit x.levelFresh) } } ∧
      d.record r = { x with levelFresh := false, levelWanted := true } ∧ (∀ q, q ≠ r.val → d.record q = s.dev.record q) ∧
      d.leg l = (if x.state = .active ∧ g.busyWith r = false ∧ (g.st = .running ∨ g.st = .suspended) ∧ g.queue.length < queueCap then
        { g with queue := g.queue ++ [⟨⟨.individual x.enrol.addr, .level⟩, .level r⟩] } else g) ∧
      (∀ k, k ≠ l → d.leg k = s.dev.leg k) := by
  have hmarked : (s.dev.modRec r fun x => { x with levelFresh := false, levelWanted := true }).record r =
      { s.dev.record r with levelFresh := false, levelWanted := true } := Dev.modRec_record_self _ _ _ hinv.good.recs
  refine ⟨s.dev.levelTaken r, ?_, ?_, fun q hq => ?_, ?_, fun k hk => ?_⟩
  · rw [exec_levelRead_level hrun hheld hport, s.takeLive_level r hbe]
    rfl
  · rw [Dev.levelTaken_of_ne hstate, Dev.askLevel_record, hmarked]
  · rw [Dev.levelTaken_of_ne hstate, Dev.askLevel_record, Dev.modRec_record_ne _ _ _ _ hq]
  · rw [Dev.levelTaken_of_ne hstate, Dev.askLevel_leg, hmarked]
    simp only [Dev.modRec_leg, true_and]
  · rw [Dev.levelTaken_of_ne hstate, Dev.askLevel_leg, hmarked, if_neg fun h => hk h.1]
    rfl

/-- R188: the words of a leg status block. -/
theorem State.liveWord_legBlock (s : State) (l : Fin 4) :
    let g := s.dev.leg l
    let w (i : Nat) : Word := s.liveWord (offLeg l + 4 * i)
    w 0 = packBytes g.st.code g.chan.code ((g.currentTag.map BitVec.toNat).getD 0xFF) g.mode.code ∧
      w 1 = BitVec.ofNat 32 (g.queue.length % 16 + 256 * (g.waiting.length % 512) + 16777216 * bit g.pendSurvey.isSome +
        33554432 * bit g.pendHail) ∧
      w 2 = BitVec.ofNat 32 (g.timer % 4096 + 32768 * bit g.running + 65536 * (g.reload % 4096)) ∧
      w 3 = packBytes g.lastWindow.code g.stray g.lastSurvey.code 0 ∧
      w 4 = BitVec.ofNat 32 (g.lastCount % 4096) ∧
      w 5 = packBytes g.hunt.phase.code g.hunt.lastResult.code g.hunt.steps g.hunt.half.length ∧
      w 6 = packHalves (g.hunt.cands.length % 512) (g.hunt.lastCulprit.getD 0xFFFF) ∧
      (∀ k, 8 ≤ k → k < 48 → byteOf (w (6 + k / 4)) (k % 4) = BitVec.ofNat 8 (g.slotByte k)) ∧
      ∀ i, i = 7 ∨ (18 ≤ i ∧ i < 64) → w i = 0 := by
  refine ⟨s.liveWord_leg l (by decide), s.liveWord_leg l (by decide), s.liveWord_leg l (by decide), s.liveWord_leg l (by decide),
    s.liveWord_leg l (by decide), s.liveWord_leg l (by decide), s.liveWord_leg l (by decide), fun k hlo hhi => ?_, fun i hi => ?_⟩
  · dsimp only
    rw [s.liveWord_leg l (by omega), Leg.byteOf_slotMap _ hlo hhi]
  · exact (s.liveWord_leg l (by omega)).trans (Leg.word_unused _ hi)

/-- R188: the LIVE words of a record. -/
theorem State.liveWord_recordBlock (s : State) (r : Fin 256) :
    let x := s.dev.record r
    let w (i : Nat) : Word := s.liveWord (offRecord r + 4 * i)
    w 8 = packBytes x.state.code ((x.stage.map RecState.code).getD 0) x.fault.code
        (bit x.addressed + 2 * bit x.assignSent + 4 * bit x.muted + 8 * bit x.waiting + 16 * bit x.pinWait + 32 * bit x.levelFresh +
          64 * bit x.levelWanted) ∧
      w 9 = packBytes x.hails x.rehails (x.groupRank.getD 0xFF) x.legRank ∧
      w 10 = packHalves (x.measured.getD 0) (x.equalise.getD 0) ∧
      w 11 = packBytes (bit x.measured.isSome + 2 * bit x.equalise.isSome) x.attempts x.chunksAck x.chunksTotal ∧
      w 12 = packBytes (x.label.getD 0) x.slotList.length x.freeCount 0 ∧
      ∀ k, k < 8 → byteOf (w (13 + k / 4)) (k % 4) = BitVec.ofNat 8 ((x.slotList[k]?).getD 0) := by
  refine ⟨s.liveWord_record r (by decide), s.liveWord_record r (by decide), s.liveWord_record r (by decide),
    s.liveWord_record r (by decide), s.liveWord_record r (by decide), fun k hk => ?_⟩
  dsimp only
  rw [s.liveWord_record r (by omega), Rec.byteOf_slotList _ hk]

/-- R189: the result words of a command slot. -/
theorem State.liveWord_slotBlock (s : State) (n : Fin 16) :
    let x := s.dev.slot n
    let y := x.detail
    if x.st = .done then
      s.liveWord (offSlot n + 52) = packBytes (3 + 16 * (y.len % 16)) x.result.code y.a y.b ∧
        s.liveWord (offSlot n + 56) = y.w14 ∧ s.liveWord (offSlot n + 60) = y.w15
    else s.liveWord (offSlot n + 52) = BitVec.ofNat 32 x.st.code ∧ s.liveWord (offSlot n + 56) = 0 ∧
      s.liveWord (offSlot n + 60) = 0 := by
  have h13 : s.liveWord (offSlot n + 52) = (s.dev.slot n).word 0 := s.liveWord_slot n (i := 13) (by decide)
  have h14 : s.liveWord (offSlot n + 56) = (s.dev.slot n).word 1 := s.liveWord_slot n (i := 14) (by decide)
  have h15 : s.liveWord (offSlot n + 60) = (s.dev.slot n).word 2 := s.liveWord_slot n (i := 15) (by decide)
  dsimp only
  rw [h13, h14, h15]
  split
  next hdone => exact Slot.word_done hdone
  next hdone => exact Slot.word_of_ne_done hdone

/-- Settles O12: the four kinds of read, the layout of the LIVE words, and the codes of 13.7. -/
theorem levelReadMarksAndMayQueue : Obligations.LevelReadMarksAndMayQueue := by
  refine ⟨fun s r be hrun hheld hport hinv hbe hstate => levelRead_of_enrolled s r hrun hheld hport hinv hbe hstate,
    fun s r be hrun hheld hport hnothing => ?_, fun s addr be hrun hheld hport hregion hclass => ?_,
    fun s addr be haccepts hoffLive => ?_, fun s => ?_, ?_⟩
  · rw [exec_levelRead_level hrun hheld hport]
    by_cases hbe : be = 0
    · rw [State.takeLive, if_neg Bool.false_ne_true, if_pos hbe]; rfl
    · have hvacant : s.dev.record r = Rec.vacant := hnothing.resolve_left hbe
      rw [s.takeLive_level r hbe, Dev.levelTaken_of_vacant (by rw [hvacant]; rfl), hvacant]
      rfl
  · have hlive : liveClass (classOf (wordOffset addr)) = true := by rw [hclass]; rfl
    rw [exec_levelRead_word, State.present_live (a := ⟨addr, 0, be, false⟩) hrun hheld hregion hlive, State.memoryComplete_of_ne hport,
      State.takeLive_live s be hclass]
    rfl
  · rw [exec_levelRead_word, State.present_eq_pass (a := ⟨addr, 0, be, false⟩) haccepts (State.usesPort_of hoffLive),
      State.pass_read (a := ⟨addr, 0, be, false⟩) s rfl, State.toMemory, State.countPass_eq]
    rfl
  · exact ⟨rfl, rfl, rfl, rfl, rfl, s.liveWord_slotBlock, s.liveWord_legBlock, s.liveWord_recordBlock⟩
  · exact ⟨rfl, rfl, rfl, rfl, rfl, rfl, rfl, rfl, rfl, rfl, rfl, rfl, rfl, fun _ => rfl, fun _ => rfl, fun _ => rfl,
      fun g => ⟨fun _ => Leg.currentTag_directive, Leg.currentTag_none⟩⟩

end Sys2Proof.Machine
end

section
/-! O53, O55 and O60: commands that are refused or taken at their examination. First what an examination and a completion do, then a
leg's refusals (R148), then the commands in their order. -/

namespace Sys2Proof.Machine

/-! ## The slot at the front of the intake order (R161) -/

/-- The blocks with the front slot off the intake order. -/
def Dev.takeFront (d : Dev) (rest : List Nat) : Dev := { d with intake := rest }

@[simp] theorem Dev.takeFront_recs (d : Dev) (rest : List Nat) : (d.takeFront rest).recs = d.recs := rfl
@[simp] theorem Dev.takeFront_slots (d : Dev) (rest : List Nat) : (d.takeFront rest).slots = d.slots := rfl
@[simp] theorem Dev.takeFront_record (d : Dev) (rest : List Nat) (r : Nat) : (d.takeFront rest).record r = d.record r := rfl
@[simp] theorem Dev.takeFront_leg (d : Dev) (rest : List Nat) (l : Fin 4) : (d.takeFront rest).leg l = d.leg l := rfl
@[simp] theorem Dev.takeFront_slot (d : Dev) (rest : List Nat) (n : Nat) : (d.takeFront rest).slot n = d.slot n := rfl

theorem Dev.examine_front {d : Dev} {row : ExamRow} {n : Nat} {rest : List Nat} (hfront : d.intake = n :: rest)
    (hrow : examRow (d.slot n).params = row) (f : Dev → Nat → List Word → Dev) :
    d.examine row f = f (d.takeFront rest) n (d.slot n).params := by
  unfold Dev.examine
  rw [hfront]
  exact if_pos hrow

/-- R161: an examination whose row is the front command's acts on that slot. -/
theorem State.examines.run {s : State} {row : ExamRow} {n : Nat} {rest : List Nat} {ps : List Word} (h : s.examines row n rest ps)
    (f : Env → Dev → Nat → List Word → Dev) :
    s.running (fun e d => d.examine row (f e)) = { s with dev := f s.env (s.dev.takeFront rest) n ps } := by
  obtain ⟨hrun, hfront, hparams, hrow⟩ := h
  subst hparams
  rw [State.running_eq hrun, Dev.examine_front hfront hrow]

/-! ## A command that completes at once or starts to run (R161 to R163) -/

@[simp] theorem Dev.complete_recs (d : Dev) (n : Nat) (res : ResultCode) (x : Detail) : (d.complete n res x).recs = d.recs := rfl
@[simp] theorem Dev.complete_legs (d : Dev) (n : Nat) (res : ResultCode) (x : Detail) : (d.complete n res x).legs = d.legs := rfl
@[simp] theorem Dev.complete_intake (d : Dev) (n : Nat) (res : ResultCode) (x : Detail) : (d.complete n res x).intake = d.intake := rfl
@[simp] theorem Dev.complete_leg (d : Dev) (n : Nat) (res : ResultCode) (x : Detail) (l : Fin 4) : (d.complete n res x).leg l = d.leg l := rfl
@[simp] theorem Dev.complete_record (d : Dev) (n : Nat) (res : ResultCode) (x : Detail) (r : Nat) :
    (d.complete n res x).record r = d.record r := rfl

@[simp] theorem Dev.nowRunning_recs (d : Dev) (n : Nat) : (d.nowRunning n).recs = d.recs := rfl
@[simp] theorem Dev.nowRunning_legs (d : Dev) (n : Nat) : (d.nowRunning n).legs = d.legs := rfl
@[simp] theorem Dev.nowRunning_intake (d : Dev) (n : Nat) : (d.nowRunning n).intake = d.intake := rfl
@[simp] theorem Dev.nowRunning_leg (d : Dev) (n : Nat) (l : Fin 4) : (d.nowRunning n).leg l = d.leg l := rfl

theorem Dev.nowRunning_slot {d : Dev} (hslots : Sparse.wf Slot.idle d.slots = true) (n : Nat) :
    (d.nowRunning n).slot n = { d.slot n with st := .running } := Dev.modSlot_slot_self d n _ hslots

theorem Dev.nowRunning_slot_ne (d : Dev) {n m : Nat} (h : m ≠ n) : (d.nowRunning n).slot m = d.slot m := Dev.modSlot_slot_ne d n m _ h

/-- R162: the completion of a command changes its slot and CMD_DONE, and nothing else of the blocks. -/
theorem Dev.complete_frame (d : Dev) (n : Nat) (res : ResultCode) (x : Detail) :
    d.complete n res x = { d with slots := (d.complete n res x).slots, causes := (d.complete n res x).causes } := rfl

/-- R165, R189: BAD_FIELD as its examination gives it. -/
theorem Dev.badField_slotDone {d : Dev} (hslots : Sparse.wf Slot.idle d.slots = true) (n f : Nat) :
    slotDone d (d.badField n f) n .badField { Detail.zero with a := f } := Dev.complete_slotDone hslots n _ _

theorem Dev.onRecord_of_lt {d : Dev} {ps : List Word} (h : paramNat ps 1 < 256) (n : Nat) (f : Nat → Dev) :
    d.onRecord n ps f = f (paramNat ps 1) := if_pos h

theorem Dev.onRecord_of_ge {d : Dev} {ps : List Word} (h : 255 < paramNat ps 1) (n : Nat) (f : Nat → Dev) :
    d.onRecord n ps f = d.badField n 1 := if_neg (by omega)

/-- R1, R161: a record command whose record parameter is above 255. -/
theorem State.examines.badRecord {s : State} {row : ExamRow} {n : Nat} {rest : List Nat} {ps : List Word} (h : s.examines row n rest ps)
    (hinv : s.Inv) {c : Instr} (f : Env → Dev → Nat → List Word → Nat → Dev)
    (hexec : exec c s = .next (s.running fun e d => d.examine row fun y n ps => y.onRecord n ps (f e y n ps)))
    (hbad : 255 < paramNat ps 1) :
    ∃ d, exec c s = .next { s with dev := d } ∧ slotDone s.dev d n .badField { Detail.zero with a := 1 } ∧
      d = { s.dev with slots := d.slots, causes := d.causes, intake := rest } := by
  refine ⟨(s.dev.takeFront rest).badField n 1, ?_, Dev.badField_slotDone (d := s.dev.takeFront rest) hinv.good.slots n 1, rfl⟩
  rw [hexec, h.run, Dev.onRecord_of_ge hbad]

theorem paramLeg_eq_some {ps : List Word} {i : Nat} {l : Fin 4} (h : paramNat ps i = l.val) : paramLeg ps i = some l := by
  have hl : paramNat ps i < 4 := by rw [h]; exact l.isLt
  rw [paramLeg, dif_pos hl]
  exact congrArg some (Fin.ext h)

theorem paramLeg_eq_none {ps : List Word} {i : Nat} (h : 3 < paramNat ps i) : paramLeg ps i = none := dif_neg (by omega)

/-! ## CONTINUE refused (R16) -/

theorem Dev.continueRefusal_wrong {d : Dev} {r : Nat}
    (h : ((d.record r).state ≠ .held ∧ (d.record r).state ≠ .halted) ∨ ((d.record r).state = .halted ∧ (d.record r).fault = .rogue)) :
    d.continueRefusal r = some .wrongState := by
  unfold Dev.continueRefusal
  by_cases hstate : (d.record r).state ≠ .held ∧ (d.record r).state ≠ .halted
  · exact if_pos hstate
  · exact (if_neg hstate).trans (if_pos (h.resolve_left hstate))

theorem Dev.continueRefusal_right {d : Dev} {r : Nat}
    (h : ¬ (((d.record r).state ≠ .held ∧ (d.record r).state ≠ .halted) ∨
      ((d.record r).state = .halted ∧ (d.record r).fault = .rogue))) :
    d.continueRefusal r = if (d.leg (d.record r).enrol.leg).st = .faulted then some .legFault else none := by
  obtain ⟨hstate, hrogue⟩ := not_or.1 h
  unfold Dev.continueRefusal
  exact (if_neg hstate).trans (if_neg hrogue)

theorem exec_continue_examines {s : State} {n r : Nat} {rest : List Nat} {ps : List Word} (h : s.examines .continueRecord n rest ps)
    (hr : paramNat ps 1 = r) (hlt : r < 256) :
    exec .continueRecord s = .next { s with dev := (s.dev.takeFront rest).continueRecord s.env n r } := by
  have hexec : exec .continueRecord s = .next (s.running fun e d => d.examine .continueRecord (Dev.examineContinue e)) := rfl
  subst hr
  rw [hexec, h.run Dev.examineContinue, Dev.examineContinue, Dev.onRecord_of_lt hlt]

/-- Settles O53: the refusal by the record and its leg completes the slot with the record's detail. -/
theorem continueRefusals : Obligations.ContinueRefusals := by
  constructor
  · intro s n r rest ps code h hinv hr hlt x wrong hcode
    have hrefusal : (s.dev.takeFront rest).continueRefusal r = some code := by
      obtain ⟨hwrong, rfl⟩ | ⟨hright, hfault, rfl⟩ := hcode
      · exact Dev.continueRefusal_wrong (d := s.dev.takeFront rest) hwrong
      · exact (Dev.continueRefusal_right (d := s.dev.takeFront rest) hright).trans (if_pos hfault)
    refine ⟨(s.dev.takeFront rest).refuse n code ((s.dev.takeFront rest).recordDetail r), ?_, rfl, rfl,
      Dev.complete_slotDone (d := s.dev.takeFront rest) hinv.good.slots n code _⟩
    rw [exec_continue_examines h hr hlt, Dev.continueRecord, hrefusal]
  · intro s n rest ps h hinv hbad
    exact h.badRecord hinv (fun e y n _ r => y.continueRecord e n r) rfl hbad

/-! ## RESUME and a bad kind (R147, R161) -/

theorem Dev.examineResume_eq {d : Dev} {ps : List Word} {l : Fin 4} (n : Nat) (h : paramNat ps 1 = l.val) :
    d.examineResume n ps = if (d.leg l).st = .suspended then
        (d.modLeg l fun g => { g with st := .running }).complete n .ok ((d.modLeg l fun g => { g with st := .running }).resumeDetail l)
      else d.refuse n .wrongState (d.resumeDetail l) := by
  unfold Dev.examineResume
  rw [paramLeg_eq_some h]

/-- Settles O60: RESUME by the leg's state, and the captured kind word of a kind without a command. -/
theorem resumeAndBadKind : Obligations.ResumeAndBadKind := by
  constructor
  · intro s n rest ps l hinv h hleg
    have hslots := hinv.good.slots
    have hexec : exec .resume s = .next (s.running fun _ d => d.examine .resume Dev.examineResume) := rfl
    rw [hexec, h.run fun _ => Dev.examineResume]
    refine ⟨_, rfl, ?_⟩
    by_cases hbad : 3 < paramNat ps 1
    · have hnone : (s.dev.takeFront rest).examineResume n ps = (s.dev.takeFront rest).badField n 1 := by
        rw [Dev.examineResume, paramLeg_eq_none hbad]
      rw [hnone, if_pos hbad]
      exact ⟨rfl, rfl, fun _ _ => rfl, Dev.badField_slotDone (d := s.dev.takeFront rest) hslots n 1, rfl⟩
    · rw [Dev.examineResume_eq n (hleg (by omega)), if_neg hbad]
      by_cases hsusp : (s.dev.leg l).st = .suspended
      · rw [if_pos (show ((s.dev.takeFront rest).leg l).st = .suspended from hsusp), if_pos hsusp, Dev.resumeDetail]
        simp only [Dev.complete_leg, Dev.modLeg_leg_self]
        exact ⟨rfl, rfl, fun k hk => Dev.modLeg_leg_ne (s.dev.takeFront rest) l k (fun g => { g with st := .running }) hk,
          Dev.complete_slotDone (d := (s.dev.takeFront rest).modLeg l fun g => { g with st := .running }) hslots n .ok _, rfl⟩
      · rw [if_neg (show ¬ ((s.dev.takeFront rest).leg l).st = .suspended from hsusp), if_neg hsusp]
        exact ⟨rfl, rfl, fun _ _ => rfl, Dev.complete_slotDone (d := s.dev.takeFront rest) hslots n .wrongState _, rfl⟩
  · intro s n rest ps hinv h
    have hexec : exec .badKind s = .next (s.running fun _ d => d.examine .badKind Dev.examineBadKind) := rfl
    rw [hexec, h.run fun _ => Dev.examineBadKind]
    exact ⟨_, rfl, rfl, rfl, rfl, Dev.complete_slotDone (d := s.dev.takeFront rest) hinv.good.slots n .badKind _⟩

/-! ## The refusals of a leg (R134, R136, R148) -/

theorem Leg.huntBusy_iff (g : Leg) : g.huntBusy = true ↔ g.st = .hunting ∨ g.hunt.phase = .starting := by simp [Leg.huntBusy]

/-- R148: the leg's checks in their order. -/
theorem Leg.refusal_eq (g : Leg) :
    g.refusal = if g.st = .dark then some .legOff else if g.st = .faulted then some .legFault
      else if g.st = .hunting ∨ g.hunt.phase = .starting then some .legHunting else none := by
  simp only [Leg.refusal, Leg.huntBusy_iff]

theorem Leg.refusal_eq_none_iff (g : Leg) :
    g.refusal = none ↔ (g.st = .running ∨ g.st = .suspended) ∧ g.hunt.phase ≠ .starting := by
  rw [Leg.refusal_eq]
  cases g.st <;> simp

theorem Leg.hasRoom_iff (g : Leg) : g.hasRoom = true ↔ g.queue.length < 12 := decide_eq_true_iff

/-- R44: a queue that keeps its bound has room unless it holds twelve entries. -/
theorem Leg.hasRoom_eq {g : Leg} (h : g.queueKept) : g.hasRoom = decide (g.queue.length ≠ 12) := by
  have hbound : g.queue.length ≤ 12 := h.1
  rw [Leg.hasRoom, queueCap]
  exact decide_eq_decide.2 (by omega)

/-- R46, R148: the directive of a service command that joins the queue. -/
theorem Dev.offerService_eq {d : Dev} {l : Fin 4} (hkept : (d.leg l).queueKept) (n : Nat) (dir : Directive) :
    d.offerService l n dir =
      if (d.leg l).queue.length = 12 then d.refuse n .legBusy .zero else (d.enqueue l dir (.cmd n)).nowRunning n := by
  unfold Dev.offerService
  rw [Leg.hasRoom_eq hkept]
  by_cases hfull : (d.leg l).queue.length = 12 <;> simp [hfull]

/-- R148: PEEK and POKE after their range check. -/
theorem Dev.offerToRecord_eq {d : Dev} {r : Nat} (hkept : (d.leg (d.record r).enrol.leg).queueKept) (n : Nat) (b : Body) :
    d.offerToRecord n r b =
      if (d.record r).state = .vacant then d.refuse n .wrongState .zero
      else if (d.leg (d.record r).enrol.leg).st = .dark then d.refuse n .legOff .zero
      else if (d.leg (d.record r).enrol.leg).st = .faulted then d.refuse n .legFault .zero
      else if (d.leg (d.record r).enrol.leg).st = .hunting ∨ (d.leg (d.record r).enrol.leg).hunt.phase = .starting then
        d.refuse n .legHunting .zero
      else if (d.record r).state = .withdrawing ∨ (d.record r).addressed = false then d.refuse n .wrongState .zero
      else if (d.leg (d.record r).enrol.leg).queue.length = 12 then d.refuse n .legBusy .zero
      else (d.enqueue (d.record r).enrol.leg ⟨.individual (d.record r).enrol.addr, b⟩ (.cmd n)).nowRunning n := by
  unfold Dev.offerToRecord
  dsimp only
  rw [Leg.refusal_eq, Dev.offerService_eq hkept]
  split_ifs <;> rfl

/-- R148 check 1 for PEEK and POKE, field by field. -/
theorem pageBadField_eq (ps : List Word) :
    pageBadField ps = if 255 < paramNat ps 1 then some 1 else if 255 < paramNat ps 2 then some 2
      else if paramNat ps 3 = 0 ∨ 8 < paramNat ps 3 then some 3 else none := by
  have hrange : ¬ (within 1 8 (paramNat ps 3) = true) ↔ paramNat ps 3 = 0 ∨ 8 < paramNat ps 3 := by
    rw [within_iff]; omega
  simp only [pageBadField, hrange]

/-- R148 check 1 for CALL. -/
theorem callBadField_eq (ps : List Word) :
    callBadField ps = if 3 < paramNat ps 1 then some 1 else if paramNat ps 2 = 0 ∨ 0xF00 ≤ paramNat ps 2 then some 2
      else if paramNat ps 3 = 0 ∨ 16 < paramNat ps 3 then some 3 else none := by
  have htarget : ¬ (callTargetOk (paramNat ps 2) = true) ↔ paramNat ps 2 = 0 ∨ 0xF00 ≤ paramNat ps 2 := by
    simp only [callTargetOk, Bool.and_eq_true, decide_eq_true_eq]; omega
  have hlen : ¬ (within 1 16 (paramNat ps 3) = true) ↔ paramNat ps 3 = 0 ∨ 16 < paramNat ps 3 := by
    rw [within_iff]; omega
  simp only [callBadField, htarget, hlen]

/-- R30: the target of a CALL parameter in range. -/
theorem callTarget_ofNat {v : Nat} (h : v < 0xF00) :
    callTarget (BitVec.ofNat 12 v) = if v < 0xE00 then .individual (BitVec.ofNat 12 v)
      else if v < 0xEFF then .group (BitVec.ofNat 12 v) else .estate := by
  have hval : (BitVec.ofNat 12 v).toNat = v := by rw [BitVec.toNat_ofNat]; omega
  rw [callTarget, hval]

/-! ## PEEK, POKE and CALL (R148, R149) -/

/-- R148: PEEK and POKE: the range check and, where it passes, the offer of the body to the record. -/
def Dev.checkPage (d : Dev) (n : Nat) (ps : List Word) (b : Body) : Dev :=
  match pageBadField ps with
  | some k => d.badField n k
  | none => d.offerToRecord n (paramNat ps 1) b

theorem Dev.examinePeek_eq (d : Dev) (n : Nat) (ps : List Word) :
    d.examinePeek n ps = d.checkPage n ps (.peek (paramNat ps 2) (paramNat ps 3)) := rfl

theorem Dev.examinePoke_eq (d : Dev) (n : Nat) (ps : List Word) :
    d.examinePoke n ps = d.checkPage n ps (.poke (paramNat ps 2) ((paramBytes ps 4 2).take (paramNat ps 3))) := rfl

theorem Dev.checkPage_eq (d : Dev) (n : Nat) (ps : List Word) (b : Body) :
    d.checkPage n ps b = if 255 < paramNat ps 1 then d.badField n 1 else if 255 < paramNat ps 2 then d.badField n 2
      else if paramNat ps 3 = 0 ∨ 8 < paramNat ps 3 then d.badField n 3 else d.offerToRecord n (paramNat ps 1) b := by
  unfold Dev.checkPage
  rw [pageBadField_eq]
  split_ifs <;> rfl

/-- R148, R149: what a command's examination leaves of the records, the intake order and the other legs, and what it does otherwise. -/
def Dev.examined (d d' : Dev) (l : Fin 4) (effect : Prop) : Prop :=
  d'.recs = d.recs ∧ d'.intake = d.intake ∧ (∀ k, k ≠ l → d'.leg k = d.leg k) ∧ effect

theorem Dev.examined_complete {d : Dev} (hslots : Sparse.wf Slot.idle d.slots = true) (l : Fin 4) (n : Nat) (code : ResultCode)
    (y : Detail) {d' : Dev} (h : d' = d.complete n code y) : d.examined d' l (slotDone d d' n code y ∧ d'.leg l = d.leg l) := by
  subst h
  exact ⟨rfl, rfl, fun _ _ => rfl, Dev.complete_slotDone hslots n code y, rfl⟩

theorem Dev.examined_queued {d : Dev} (hslots : Sparse.wf Slot.idle d.slots = true) (l : Fin 4) (n : Nat) (dir : Directive)
    {d' : Dev} (h : d' = (d.enqueue l dir (.cmd n)).nowRunning n) :
    d.examined d' l (d'.leg l = { d.leg l with queue := (d.leg l).queue ++ [⟨dir, .cmd n⟩] } ∧
      d'.slot n = { d.slot n with st := .running } ∧ ∀ m, m ≠ n → d'.slot m = d.slot m) := by
  subst h
  exact ⟨rfl, rfl, fun k hk => Dev.modLeg_leg_ne d l k (fun g => { g with queue := g.queue ++ [⟨dir, .cmd n⟩] }) hk,
    Dev.modLeg_leg_self d l fun g => { g with queue := g.queue ++ [⟨dir, .cmd n⟩] },
    Dev.nowRunning_slot (d := d.enqueue l dir (.cmd n)) hslots n, fun _ hm => Dev.nowRunning_slot_ne (d.enqueue l dir (.cmd n)) hm⟩

/-- A check of an examination and the statement about it go the same way. -/
theorem Dev.examined_ite {d d' a b : Dev} {l : Fin 4} {p : Prop} [Decidable p] {P Q : Prop} (h : d' = if p then a else b)
    (hp : d' = a → d.examined d' l P) (hn : d' = b → d.examined d' l Q) : d.examined d' l (if p then P else Q) := by
  by_cases hc : p
  · rw [if_pos hc] at h ⊢
    exact hp h
  · rw [if_neg hc] at h ⊢
    exact hn h

/-- R148, R149: PEEK and POKE, check by check. -/
theorem Dev.checkPage_spec {d : Dev} (hslots : Sparse.wf Slot.idle d.slots = true) (n : Nat) (ps : List Word) (b : Body) {x : Rec}
    {l : Fin 4} (hx : d.record (paramNat ps 1) = x) (hl : x.enrol.leg = l) (hkept : (d.leg l).queueKept) {d' : Dev}
    (hd' : d' = d.checkPage n ps b) :
    d.examined d' l
      (if 255 < paramNat ps 1 then slotDone d d' n .badField { Detail.zero with a := 1 } ∧ d'.leg l = d.leg l
       else if 255 < paramNat ps 2 then slotDone d d' n .badField { Detail.zero with a := 2 } ∧ d'.leg l = d.leg l
       else if paramNat ps 3 = 0 ∨ 8 < paramNat ps 3 then slotDone d d' n .badField { Detail.zero with a := 3 } ∧ d'.leg l = d.leg l
       else if x.state = .vacant then slotDone d d' n .wrongState .zero ∧ d'.leg l = d.leg l
       else if (d.leg l).st = .dark then slotDone d d' n .legOff .zero ∧ d'.leg l = d.leg l
       else if (d.leg l).st = .faulted then slotDone d d' n .legFault .zero ∧ d'.leg l = d.leg l
       else if (d.leg l).st = .hunting ∨ (d.leg l).hunt.phase = .starting then
        slotDone d d' n .legHunting .zero ∧ d'.leg l = d.leg l
       else if x.state = .withdrawing ∨ x.addressed = false then slotDone d d' n .wrongState .zero ∧ d'.leg l = d.leg l
       else if (d.leg l).queue.length = 12 then slotDone d d' n .legBusy .zero ∧ d'.leg l = d.leg l
       else d'.leg l = { d.leg l with queue := (d.leg l).queue ++ [⟨⟨.individual x.enrol.addr, b⟩, .cmd n⟩] } ∧
        d'.slot n = { d.slot n with st := .running } ∧ ∀ m, m ≠ n → d'.slot m = d.slot m) := by
  subst hx hl
  rw [Dev.checkPage_eq, Dev.offerToRecord_eq hkept] at hd'
  have refused (code : ResultCode) (y : Detail) := Dev.examined_complete hslots (d.record (paramNat ps 1)).enrol.leg n code y (d' := d')
  exact Dev.examined_ite hd' (refused _ _) fun h => Dev.examined_ite h (refused _ _) fun h =>
    Dev.examined_ite h (refused _ _) fun h => Dev.examined_ite h (refused _ _) fun h =>
    Dev.examined_ite h (refused _ _) fun h => Dev.examined_ite h (refused _ _) fun h =>
    Dev.examined_ite h (refused _ _) fun h => Dev.examined_ite h (refused _ _) fun h =>
    Dev.examined_ite h (refused _ _) (Dev.examined_queued hslots _ _ _)

/-- R148, R149: CALL, check by check; the leg parameter names leg `l` where it names one. -/
theorem Dev.examineAnyCall_eq {d : Dev} {l : Fin 4} (hkept : (d.leg l).queueKept) (n : Nat) {ps : List Word}
    (hleg : paramNat ps 1 ≤ 3 → paramNat ps 1 = l.val) :
    d.examineAnyCall n ps =
      if 3 < paramNat ps 1 then d.badField n 1
      else if paramNat ps 2 = 0 ∨ 0xF00 ≤ paramNat ps 2 then d.badField n 2
      else if paramNat ps 3 = 0 ∨ 16 < paramNat ps 3 then d.badField n 3
      else if (d.leg l).st = .dark then d.refuse n .legOff .zero
      else if (d.leg l).st = .faulted then d.refuse n .legFault .zero
      else if (d.leg l).st = .hunting ∨ (d.leg l).hunt.phase = .starting then d.refuse n .legHunting .zero
      else if (d.leg l).queue.length = 12 then d.refuse n .legBusy .zero
      else (d.enqueue l ⟨if paramNat ps 2 < 0xE00 then .individual (BitVec.ofNat 12 (paramNat ps 2))
          else if paramNat ps 2 < 0xEFF then .group (BitVec.ofNat 12 (paramNat ps 2)) else .estate,
        .call ((paramBytes ps 4 4).take (paramNat ps 3))⟩ (.cmd n)).nowRunning n := by
  unfold Dev.examineAnyCall
  rw [callBadField_eq]
  by_cases hbad : 3 < paramNat ps 1
  · rw [if_pos hbad, if_pos hbad]
  · rw [if_neg hbad, if_neg hbad, paramLeg_eq_some (hleg (by omega))]
    by_cases htarget : paramNat ps 2 = 0 ∨ 0xF00 ≤ paramNat ps 2
    · rw [if_pos htarget, if_pos htarget]
    · rw [if_neg htarget, if_neg htarget]
      by_cases hlen : paramNat ps 3 = 0 ∨ 16 < paramNat ps 3
      · rw [if_pos hlen, if_pos hlen]
      · rw [if_neg hlen, if_neg hlen, callTarget_ofNat (by omega)]
        dsimp only
        rw [Dev.offerService_eq hkept, Leg.refusal_eq]
        split_ifs <;> rfl

/-- Settles O55: PEEK and POKE by their common checks, CALL by its own. -/
theorem serviceCommandsAreChecked : Obligations.ServiceCommandsAreChecked := by
  have hexecPeek (s : State) : exec .peek s = .next (s.running fun _ d => d.examine .peek Dev.examinePeek) := rfl
  have hexecPoke (s : State) : exec .poke s = .next (s.running fun _ d => d.examine .poke Dev.examinePoke) := rfl
  have hexecCall (s : State) : exec .call s = .next (s.running fun _ d => d.examine .call Dev.examineAnyCall) := rfl
  have hexecGroup (s : State) :
      exec .groupOrEstateCall s = .next (s.running fun _ d => d.examine .groupCall Dev.examineAnyCall) := rfl
  constructor
  · intro s n rest ps c hinv hc x l g body refused
    have hkept : ((s.dev.takeFront rest).leg l).queueKept := (hinv.1.2.1 l).1
    refine ⟨(s.dev.takeFront rest).checkPage n ps body, ?_,
      Dev.checkPage_spec (d := s.dev.takeFront rest) hinv.good.slots n ps body rfl rfl hkept rfl⟩
    obtain ⟨rfl, h⟩ | ⟨rfl, h⟩ := hc
    · rw [hexecPeek, h.run fun _ => Dev.examinePeek, Dev.examinePeek_eq]
      rfl
    · rw [hexecPoke, h.run fun _ => Dev.examinePoke, Dev.examinePoke_eq]
      rfl
  · intro s n rest ps c l hinv hc hleg g v refused
    have hslots := hinv.good.slots
    have hkept : ((s.dev.takeFront rest).leg l).queueKept := (hinv.1.2.1 l).1
    have hexec : exec c s = .next { s with dev := (s.dev.takeFront rest).examineAnyCall n ps } := by
      obtain ⟨rfl, h⟩ | ⟨rfl, h⟩ := hc
      · rw [hexecCall, h.run fun _ => Dev.examineAnyCall]
      · rw [hexecGroup, h.run fun _ => Dev.examineAnyCall]
    have refused (code : ResultCode) (y : Detail) :=
      Dev.examined_complete (d := s.dev.takeFront rest) hslots l n code y (d' := (s.dev.takeFront rest).examineAnyCall n ps)
    exact ⟨_, hexec, Dev.examined_ite (Dev.examineAnyCall_eq hkept n hleg) (refused _ _) fun h =>
      Dev.examined_ite h (refused _ _) fun h => Dev.examined_ite h (refused _ _) fun h =>
      Dev.examined_ite h (refused _ _) fun h => Dev.examined_ite h (refused _ _) fun h =>
      Dev.examined_ite h (refused _ _) fun h => Dev.examined_ite h (refused _ _)
      (Dev.examined_queued (d := s.dev.takeFront rest) hslots _ _ _)⟩

end Sys2Proof.Machine
end

section
/-! O56 to O59: EVICT and the eviction of R47, SURVEY and HUNT. First the queue's victim and what evicting it does, then the commands. -/

namespace Sys2Proof.Machine

/-! ## The last element of a list with a property -/

theorem takeFirst_append_cons {α : Type} {p : α → Bool} {before after : List α} {y : α} (hbefore : ∀ x ∈ before, p x = false)
    (hy : p y = true) : takeFirst p (before ++ y :: after) = some (y, before ++ after) := by
  induction before with
  | nil => simp [takeFirst, hy]
  | cons x before ih =>
    rw [List.forall_mem_cons] at hbefore
    simp [takeFirst, hbefore.1, ih hbefore.2]

theorem takeLast_append_cons {α : Type} {p : α → Bool} {before after : List α} {y : α} (hafter : ∀ x ∈ after, p x = false)
    (hy : p y = true) : takeLast p (before ++ y :: after) = some (y, before ++ after) := by
  have hrev : (before ++ y :: after).reverse = after.reverse ++ y :: before.reverse := by simp
  rw [takeLast, hrev, takeFirst_append_cons (by simpa using hafter) hy]
  simp

theorem takeLast_eq_none {α : Type} {p : α → Bool} {xs : List α} (h : ∀ x ∈ xs, p x = false) : takeLast p xs = none := by
  rw [takeLast, (takeFirst_eq_none_iff p xs.reverse).2 (by simpa using h)]
  rfl

/-! ## The victim of an URGENT directive (R47) -/

/-- R47: the newest SERVICE entry, and with no SERVICE entry the newest STAGE entry. -/
theorem takeVictim_append_cons {before after : List Entry} {e : Entry}
    (h : (e.cls = .service ∧ ∀ x ∈ after, x.cls ≠ .service) ∨
      (e.cls = .stage ∧ (∀ x ∈ before ++ e :: after, x.cls ≠ .service) ∧ ∀ x ∈ after, x.cls ≠ .stage)) :
    takeVictim (before ++ e :: after) = some (e, before ++ after) := by
  unfold takeVictim
  obtain ⟨hcls, hafter⟩ | ⟨hcls, hservice, hafter⟩ := h
  · rw [takeLast_append_cons (by simpa using hafter) (by simpa using hcls)]
  · rw [takeLast_eq_none (by simpa using hservice), takeLast_append_cons (by simpa using hafter) (by simpa using hcls)]

theorem takeVictim_of_urgent {q : List Entry} (h : ∀ e ∈ q, e.cls = .urgent) : takeVictim q = none := by
  have hne (c : QClass) (hc : c ≠ .urgent) : ∀ e ∈ q, decide (e.cls = c) = false := fun e he => by
    rw [h e he]
    exact decide_eq_false (Ne.symm hc)
  rw [takeVictim, takeLast_eq_none (hne .service (by decide)), takeLast_eq_none (hne .stage (by decide))]

/-! ## What evicting an entry does (R47) -/

/-- R47: an evicted entry has left its queue already: eviction changes no queue. -/
theorem Dev.evicted_queue (d : Dev) (l : Fin 4) (e : Entry) : ((d.evicted l e).leg l).queue = (d.leg l).queue := by
  unfold Dev.evicted
  cases e.origin with
  | cmd n => rfl
  | level r => rfl
  | record r => simp [Dev.waitFront]
  | hunt r => rfl

theorem Leg.hasRoom_of_full {g : Leg} (h : g.queue.length = 12) : g.hasRoom = false := by simp [Leg.hasRoom, queueCap, h]

/-- R46: an URGENT directive joins a queue that has room. -/
theorem Dev.offerUrgent_of_room {d : Dev} {l : Fin 4} (h : (d.leg l).queue.length < 12) (dir : Directive) (o : Origin) :
    d.offerUrgent l dir o = (d.enqueue l dir o, true) := if_pos ((d.leg l).hasRoom_iff.2 h)

/-- R47: it takes a victim's place in a full one. -/
theorem Dev.offerUrgent_of_victim {d : Dev} {l : Fin 4} (hfull : (d.leg l).queue.length = 12) {e : Entry} {q : List Entry}
    (hvictim : takeVictim (d.leg l).queue = some (e, q)) (dir : Directive) (o : Origin) :
    d.offerUrgent l dir o = ((d.modLeg l fun g => { g with queue := q ++ [⟨dir, o⟩] }).evicted l e, true) := by
  simp [Dev.offerUrgent, Leg.hasRoom_of_full hfull, hvictim]

/-- R47: with twelve URGENT entries nothing is evicted. -/
theorem Dev.offerUrgent_of_urgent {d : Dev} {l : Fin 4} (hfull : (d.leg l).queue.length = 12)
    (hurgent : ∀ e ∈ (d.leg l).queue, e.cls = .urgent) (dir : Directive) (o : Origin) : d.offerUrgent l dir o = (d, false) := by
  simp [Dev.offerUrgent, Leg.hasRoom_of_full hfull, takeVictim_of_urgent hurgent]

/-- Settles O57: the victim is found by its class and place, and what becomes of it follows its origin. -/
theorem urgentEvictsTheNewestLowest : Obligations.UrgentEvictsTheNewestLowest := by
  intro d l dir o hfull hmaps
  obtain ⟨hrecs, hslots, -⟩ := hmaps
  refine ⟨fun before e after hqueue hclass => ?_, fun hurgent => Dev.offerUrgent_of_urgent hfull hurgent dir o⟩
  rw [hqueue] at hclass
  have hvictim : takeVictim (d.leg l).queue = some (e, before ++ after) := by rw [hqueue, takeVictim_append_cons hclass]
  rw [Dev.offerUrgent_of_victim hfull hvictim]
  generalize hd' : (d.modLeg l fun g => { g with queue := before ++ after ++ [⟨dir, o⟩] }) = d'
  have hleg : d'.leg l = { d.leg l with queue := before ++ after ++ [⟨dir, o⟩] } := by rw [← hd', Dev.modLeg_leg_self]
  have hd'slots : d'.slots = d.slots := by rw [← hd']; rfl
  have hd'recs : d'.recs = d.recs := by rw [← hd']; rfl
  refine ⟨rfl, by rw [Dev.evicted_queue, hleg], fun n horigin => ?_, fun r horigin => ?_, fun r horigin => ?_⟩
  · rw [Dev.evicted, horigin]
    obtain ⟨hslot, hset, hothers⟩ := Dev.complete_slotDone (d := d') (hd'slots ▸ hslots) n .legBusy .zero
    have hsame (m : Nat) : d'.slot m = d.slot m := by rw [Dev.slot, hd'slots]; rfl
    exact ⟨hslot.trans (by rw [hsame]), hset, fun m hm => (hothers m hm).trans (hsame m)⟩
  · rw [Dev.evicted, horigin]
    exact hd'recs
  · rw [Dev.evicted, horigin]
    dsimp only
    constructor
    · rw [Dev.waitFront, Dev.modRec_leg, Dev.modLeg_leg_self, hleg]
    · rw [Dev.waitFront, Dev.modRec_record_self _ _ _ (by rw [Dev.modLeg_recs, hd'recs]; exact hrecs)]

/-! ## The roster of a leg -/

/-- The non-VACANT records, by their index. -/
theorem Dev.mem_enrolled {d : Dev} (hrecs : Sparse.wf Rec.vacant d.recs = true) (q : Nat) (x : Rec) :
    (q, x) ∈ d.enrolled ↔ d.record q = x ∧ x.state ≠ .vacant := by
  rw [Dev.enrolled, List.mem_filter, Sparse.mem_iff_get d.recs hrecs, decide_eq_true_eq]
  constructor
  · rintro ⟨⟨hx, -⟩, hstate⟩
    exact ⟨hx, hstate⟩
  · rintro ⟨hx, hstate⟩
    exact ⟨⟨hx, fun h => hstate (by rw [h]; rfl)⟩, hstate⟩

theorem Dev.mem_recordsOn {d : Dev} (hrecs : Sparse.wf Rec.vacant d.recs = true) (l : Fin 4) (q : Nat) (x : Rec) :
    (q, x) ∈ d.recordsOn l ↔ d.record q = x ∧ x.state ≠ .vacant ∧ x.enrol.leg = l := by
  rw [Dev.recordsOn, List.mem_filter, Dev.mem_enrolled hrecs, decide_eq_true_eq, and_assoc]

/-- R148: a record of the leg has the drop address. -/
theorem Dev.ownsAddress_iff {d : Dev} (hrecs : Sparse.wf Rec.vacant d.recs = true) (l : Fin 4) (a : BitVec 12) :
    d.ownsAddress l a = true ↔ ∃ q, (d.record q).state ≠ .vacant ∧ (d.record q).enrol.leg = l ∧ (d.record q).enrol.addr = a := by
  simp only [Dev.ownsAddress, List.any_eq_true, decide_eq_true_eq, Prod.exists, Dev.mem_recordsOn hrecs]
  constructor
  · rintro ⟨q, x, ⟨rfl, hstate, hleg⟩, haddr⟩
    exact ⟨q, hstate, hleg, haddr⟩
  · rintro ⟨q, hstate, hleg, haddr⟩
    exact ⟨q, d.record q, ⟨rfl, hstate, hleg⟩, haddr⟩

/-! ## EVICT (R148, R155) -/

/-- R148 check 1 for EVICT. -/
theorem evictBadField_eq (ps : List Word) :
    evictBadField ps = if 3 < paramNat ps 1 then some 1 else if paramNat ps 2 = 0 ∨ 0xDFF < paramNat ps 2 then some 2 else none := by
  have hrange : ¬ (within 1 0xDFF (paramNat ps 2) = true) ↔ paramNat ps 2 = 0 ∨ 0xDFF < paramNat ps 2 := by
    rw [within_iff]; omega
  simp only [evictBadField, hrange]

theorem Dev.examineEvict_badLeg (d : Dev) (n : Nat) {ps : List Word} (h : 3 < paramNat ps 1) :
    d.examineEvict n ps = d.badField n 1 := by
  rw [Dev.examineEvict, evictBadField_eq, if_pos h]

theorem Dev.examineEvict_badAddress (d : Dev) (n : Nat) {ps : List Word} (hleg : paramNat ps 1 ≤ 3)
    (h : paramNat ps 2 = 0 ∨ 0xDFF < paramNat ps 2) : d.examineEvict n ps = d.badField n 2 := by
  rw [Dev.examineEvict, evictBadField_eq, if_neg (by omega), if_pos h]

/-- R148: an EVICT whose fields are in range, by the leg and its records. -/
theorem Dev.examineEvict_eq (d : Dev) (n : Nat) {ps : List Word} {l : Fin 4} (hleg : paramNat ps 1 = l.val)
    (hlo : 1 ≤ paramNat ps 2) (hhi : paramNat ps 2 ≤ 0xDFF) :
    d.examineEvict n ps =
      match (d.leg l).refusal with
      | some code => d.refuse n code .zero
      | none => if d.ownsAddress l (BitVec.ofNat 12 (paramNat ps 2)) then d.refuse n .addressOwned .zero
          else d.offerEvict l n (BitVec.ofNat 12 (paramNat ps 2)) := by
  have hl : l.val < 4 := l.isLt
  rw [Dev.examineEvict, evictBadField_eq, if_neg (by omega), if_neg (by omega), paramLeg_eq_some hleg] <;> rfl

/-- R158: no examination of an EVICT touches the intake order. -/
theorem Dev.examineEvict_intake {d : Dev} (hrecs : Sparse.wf Rec.vacant d.recs = true) (n : Nat) (ps : List Word) :
    (d.examineEvict n ps).intake = d.intake := by
  unfold Dev.examineEvict
  split
  next => rfl
  next => rfl
  next l _ _ =>
    split
    next => rfl
    next =>
      dsimp only
      split_ifs
      · rfl
      · unfold Dev.offerEvict
        dsimp only
        split_ifs
        · exact (Dev.Frame.offerUrgent hrecs l _ _).keeps.intake
        · rfl

theorem Leg.refusal_dark {g : Leg} (h : g.st = .dark) : g.refusal = some .legOff := if_pos h
theorem Leg.refusal_faulted {g : Leg} (h : g.st = .faulted) : g.refusal = some .legFault := by simp [Leg.refusal_eq, h]

theorem Leg.refusal_hunting {g : Leg} (h : g.st = .hunting ∨ ((g.st = .running ∨ g.st = .suspended) ∧ g.hunt.phase = .starting)) :
    g.refusal = some .legHunting := by
  rw [Leg.refusal_eq]
  obtain h | ⟨h | h, hphase⟩ := h
  · simp [h]
  · simp [h, hphase]
  · simp [h, hphase]

/-- Settles O56: the checks in their order, and the three ends of an EVICT that passes them. -/
theorem evictIsCheckedAndUrgent : Obligations.EvictIsCheckedAndUrgent := by
  intro s n rest ps l hinv h hparam g v owned passes checked
  have hslots : Sparse.wf Slot.idle (s.dev.takeFront rest).slots = true := hinv.good.slots
  have hexec : exec .evict s = .next { s with dev := (s.dev.takeFront rest).examineEvict n ps } := by
    have hrow : exec .evict s = .next (s.running fun _ d => d.examine .evict Dev.examineEvict) := rfl
    rw [hrow, h.run fun _ => Dev.examineEvict]
  have hends {code : ResultCode} {y : Detail} (hd : (s.dev.takeFront rest).examineEvict n ps = (s.dev.takeFront rest).complete n code y) :
      slotDone s.dev ((s.dev.takeFront rest).examineEvict n ps) n code y ∧
        ((s.dev.takeFront rest).examineEvict n ps).legs = s.dev.legs := by
    rw [hd]
    exact ⟨Dev.complete_slotDone (d := s.dev.takeFront rest) hslots n code y, rfl⟩
  have hchecked (hc : checked) := Dev.examineEvict_eq (s.dev.takeFront rest) n (hparam hc.1) hc.2.1 hc.2.2
  have hpasses (hp : passes) : (s.dev.takeFront rest).examineEvict n ps =
      if s.dev.ownsAddress l (BitVec.ofNat 12 v) then (s.dev.takeFront rest).refuse n .addressOwned .zero
      else (s.dev.takeFront rest).offerEvict l n (BitVec.ofNat 12 v) := by
    obtain ⟨hleg, hlo, hhi, hst⟩ := hp
    rw [hchecked ⟨hleg, hlo, hhi⟩, Dev.takeFront_leg, (Leg.refusal_eq_none_iff g).2 hst]
    rfl
  have howned := Dev.ownsAddress_iff hinv.good.recs l (BitVec.ofNat 12 v)
  refine ⟨_, hexec, Dev.examineEvict_intake (d := s.dev.takeFront rest) hinv.good.recs n ps, fun hc hst => ?_, fun hc hst => ?_, fun hc hst => ?_, fun hleg => ?_,
    fun hleg hv => ?_, fun hp ho => ?_, fun hp ho hroom => ?_, fun hp ho hfull hurgent => ?_⟩
  · exact hends (by rw [hchecked hc, Dev.takeFront_leg, Leg.refusal_dark hst]; rfl)
  · exact hends (by rw [hchecked hc, Dev.takeFront_leg, Leg.refusal_faulted hst]; rfl)
  · exact hends (by rw [hchecked hc, Dev.takeFront_leg, Leg.refusal_hunting hst]; rfl)
  · exact hends (Dev.examineEvict_badLeg _ n hleg)
  · exact hends (Dev.examineEvict_badAddress _ n hleg hv)
  · exact hends (by rw [hpasses hp, if_pos (howned.2 ho)]; rfl)
  · rw [hpasses hp, if_neg (mt howned.1 ho), Dev.offerEvict, Dev.offerUrgent_of_room (d := s.dev.takeFront rest) hroom]
    exact ⟨Dev.modLeg_leg_self (s.dev.takeFront rest) l fun g => { g with queue := g.queue ++ [⟨⟨.individual (BitVec.ofNat 12 v), .dismiss⟩, .cmd n⟩] },
      Dev.nowRunning_slot (d := (s.dev.takeFront rest).enqueue l _ _) hslots n, rfl⟩
  · refine hends ?_
    rw [hpasses hp, if_neg (mt howned.1 ho), Dev.offerEvict, Dev.offerUrgent_of_urgent (d := s.dev.takeFront rest) hfull hurgent]
    rfl

/-! ## SURVEY and HUNT of one leg (R134, R136) -/

/-- A value that is chosen by a check, and the statement about it, go the same way. -/
theorem ite_follows {α : Type} {x a b : α} {p : Prop} [Decidable p] {P Q : Prop} (h : x = if p then a else b) (hp : x = a → P)
    (hn : x = b → Q) : if p then P else Q := by
  by_cases hc : p
  · rw [if_pos hc] at h ⊢
    exact hp h
  · rw [if_neg hc] at h ⊢
    exact hn h

/-- R134, R136: a command for one leg: refused by its leg value or by its leg, with a detail, else taken. -/
def Dev.onLeg (d : Dev) (n : Nat) (ps : List Word) (x : Fin 4 → Detail) (f : Fin 4 → Dev) : Dev :=
  match paramLeg ps 1 with
  | none => d.badField n 1
  | some l =>
    match (d.leg l).refusal with
    | some code => d.refuse n code (x l)
    | none => f l

theorem Dev.examineSurvey_onLeg (d : Dev) (n : Nat) (ps : List Word) :
    d.examineSurvey n ps =
      d.onLeg n ps (fun l => { Detail.zero with a := l.val }) fun l => (d.requestSurvey l (.ofSlot n)).nowRunning n := rfl

theorem Dev.examineHunt_onLeg (d : Dev) (n : Nat) (ps : List Word) :
    d.examineHunt n ps =
      d.onLeg n ps (fun _ => { Detail.zero with w14 := 0xFFFF }) fun l => (d.startHunt l (some n)).nowRunning n := rfl

theorem Dev.onLeg_eq (d : Dev) (n : Nat) {ps : List Word} {l : Fin 4} (hleg : paramNat ps 1 ≤ 3 → paramNat ps 1 = l.val)
    (x : Fin 4 → Detail) (f : Fin 4 → Dev) :
    d.onLeg n ps x f = if 3 < paramNat ps 1 then d.badField n 1 else if (d.leg l).st = .dark then d.refuse n .legOff (x l)
      else if (d.leg l).st = .faulted then d.refuse n .legFault (x l)
      else if (d.leg l).st = .hunting ∨ (d.leg l).hunt.phase = .starting then d.refuse n .legHunting (x l) else f l := by
  unfold Dev.onLeg
  by_cases hbad : 3 < paramNat ps 1
  · rw [if_pos hbad, paramLeg_eq_none hbad]
  · rw [if_neg hbad, paramLeg_eq_some (hleg (by omega))]
    dsimp only
    rw [Leg.refusal_eq]
    split_ifs <;> rfl

/-- R134, R136, R148: what a command for leg l does, check by check; `T` is what it does where it is taken. -/
theorem Dev.onLeg_spec {d d' : Dev} (hslots : Sparse.wf Slot.idle d.slots = true) {n : Nat} {ps : List Word} {l : Fin 4}
    (hleg : paramNat ps 1 ≤ 3 → paramNat ps 1 = l.val) {x : Fin 4 → Detail} {f : Fin 4 → Dev} (hd' : d' = d.onLeg n ps x f)
    {T : Prop} (htaken : d' = f l → T) :
    if 3 < paramNat ps 1 then slotDone d d' n .badField { Detail.zero with a := 1 }
    else if (d.leg l).st = .dark then slotDone d d' n .legOff (x l) ∧ d'.legs = d.legs
    else if (d.leg l).st = .faulted then slotDone d d' n .legFault (x l) ∧ d'.legs = d.legs
    else if (d.leg l).st = .hunting ∨ (d.leg l).hunt.phase = .starting then slotDone d d' n .legHunting (x l) ∧ d'.legs = d.legs
    else T := by
  have hrefused (code : ResultCode) (h : d' = d.refuse n code (x l)) : slotDone d d' n code (x l) ∧ d'.legs = d.legs := by
    rw [h]
    exact ⟨Dev.complete_slotDone hslots n code _, rfl⟩
  exact ite_follows (hd'.trans (Dev.onLeg_eq d n hleg x f)) (fun h => h ▸ Dev.badField_slotDone hslots n 1) fun h =>
    ite_follows h (hrefused _) fun h => ite_follows h (hrefused _) fun h => ite_follows h (hrefused _) htaken

theorem Dev.onLeg_frame {d : Dev} {n : Nat} {x : Fin 4 → Detail} {f : Fin 4 → Dev} (ps : List Word)
    (hf : ∀ l, (f l).recs = d.recs ∧ (f l).intake = d.intake) :
    (d.onLeg n ps x f).recs = d.recs ∧ (d.onLeg n ps x f).intake = d.intake := by
  unfold Dev.onLeg
  split
  next => exact ⟨rfl, rfl⟩
  next l _ =>
    split
    next => exact ⟨rfl, rfl⟩
    next => exact hf l

theorem Dev.requestSurvey_leg_ne (d : Dev) {l k : Fin 4} (h : k ≠ l) (q : Requesters) : (d.requestSurvey l q).leg k = d.leg k :=
  Dev.modLeg_leg_ne d l k _ h

theorem Dev.startHunt_leg (d : Dev) (l : Fin 4) (owner : Option Nat) :
    (d.startHunt l owner).leg l = { d.leg l with hunt := { Hunt.idle with
      phase := .starting, owner := owner, lastResult := (d.leg l).hunt.lastResult, lastCulprit := (d.leg l).hunt.lastCulprit } } :=
  Dev.modLeg_leg_self d l _

theorem Dev.startHunt_leg_ne (d : Dev) {l k : Fin 4} (h : k ≠ l) (owner : Option Nat) : (d.startHunt l owner).leg k = d.leg k :=
  Dev.modLeg_leg_ne d l k _ h

/-- R128: a slot that joins is a requester, and those before it stay. -/
theorem Requesters.mem_join_ofSlot (p : Requesters) (n : Nat) : n ∈ (p.join (.ofSlot n)).slots := by
  by_cases hn : n ∈ p.slots <;> simp [Requesters.join, Requesters.ofSlot, Requesters.empty, hn]

theorem Requesters.join_ofSlot_keeps (p : Requesters) (n : Nat) :
    (p.join (.ofSlot n)).auto = p.auto ∧ (p.join (.ofSlot n)).hunt = p.hunt ∧ ∀ m ∈ p.slots, m ∈ (p.join (.ofSlot n)).slots := by
  refine ⟨by simp [Requesters.join, Requesters.ofSlot, Requesters.empty], by simp [Requesters.join, Requesters.ofSlot, Requesters.empty],
    fun m hm => ?_⟩
  simp [Requesters.join, hm]

/-- R129: the pending survey of leg l after slot n's request. -/
theorem Dev.requestSurvey_ofSlot_leg (d : Dev) (l : Fin 4) (n : Nat) :
    ∃ q, (d.requestSurvey l (.ofSlot n)).leg l = { d.leg l with pendSurvey := some q } ∧ n ∈ q.slots ∧
      ((d.leg l).pendSurvey = none → q = ⟨false, [n], false⟩) ∧
      ∀ p, (d.leg l).pendSurvey = some p → q.auto = p.auto ∧ q.hunt = p.hunt ∧ ∀ m ∈ p.slots, m ∈ q.slots := by
  unfold Dev.requestSurvey
  rw [Dev.modLeg_leg_self]
  cases hpend : (d.leg l).pendSurvey with
  | none => exact ⟨.ofSlot n, rfl, List.mem_singleton.2 rfl, fun _ => rfl, nofun⟩
  | some p =>
    refine ⟨p.join (.ofSlot n), rfl, p.mem_join_ofSlot n, nofun, ?_⟩
    rintro _ ⟨⟩
    exact p.join_ofSlot_keeps n

/-- Settles O58: SURVEY and HUNT by the common checks of a command for one leg. -/
theorem surveyAndHuntAreTaken : Obligations.SurveyAndHuntAreTaken := by
  have hexecSurvey (s : State) : exec .survey s = .next (s.running fun _ d => d.examine .survey Dev.examineSurvey) := rfl
  have hexecHunt (s : State) : exec .hunt s = .next (s.running fun _ d => d.examine .hunt Dev.examineHunt) := rfl
  constructor
  · intro s n rest ps l hinv h hleg g refusedAs
    have hslots : Sparse.wf Slot.idle (s.dev.takeFront rest).slots = true := hinv.good.slots
    have hframe := Dev.onLeg_frame (d := s.dev.takeFront rest) (n := n) (x := fun l => { Detail.zero with a := l.val })
      (f := fun l => ((s.dev.takeFront rest).requestSurvey l (.ofSlot n)).nowRunning n) ps fun _ => ⟨rfl, rfl⟩
    refine ⟨(s.dev.takeFront rest).examineSurvey n ps, by rw [hexecSurvey, h.run fun _ => Dev.examineSurvey], hframe.1, hframe.2,
      Dev.onLeg_spec hslots hleg ((s.dev.takeFront rest).examineSurvey_onLeg n ps) fun htaken => ?_⟩
    rw [htaken]
    exact ⟨Dev.nowRunning_slot (d := (s.dev.takeFront rest).requestSurvey l (.ofSlot n)) hslots n,
      fun k hk => (s.dev.takeFront rest).requestSurvey_leg_ne hk _, (s.dev.takeFront rest).requestSurvey_ofSlot_leg l n⟩
  · intro s n rest ps l hinv h hleg g refusedAs
    have hslots : Sparse.wf Slot.idle (s.dev.takeFront rest).slots = true := hinv.good.slots
    have hframe := Dev.onLeg_frame (d := s.dev.takeFront rest) (n := n) (x := fun _ => { Detail.zero with w14 := 0xFFFF })
      (f := fun l => ((s.dev.takeFront rest).startHunt l (some n)).nowRunning n) ps fun _ => ⟨rfl, rfl⟩
    refine ⟨(s.dev.takeFront rest).examineHunt n ps, by rw [hexecHunt, h.run fun _ => Dev.examineHunt], hframe.1, hframe.2,
      Dev.onLeg_spec hslots hleg ((s.dev.takeFront rest).examineHunt_onLeg n ps) fun htaken => ?_⟩
    rw [htaken]
    exact ⟨Dev.nowRunning_slot (d := (s.dev.takeFront rest).startHunt l (some n)) hslots n,
      fun k hk => (s.dev.takeFront rest).startHunt_leg_ne hk _, (s.dev.takeFront rest).startHunt_leg l (some n)⟩

/-! ## SURVEY of every leg (R135) -/

theorem Dev.mem_surveyLegs (d : Dev) (l : Fin 4) :
    l ∈ d.surveyLegs ↔ ((d.leg l).st = .running ∨ (d.leg l).st = .suspended) ∧ (d.leg l).hunt.phase ≠ .starting := by
  rw [Dev.surveyLegs, List.mem_filter, Option.isNone_iff_eq_none, Leg.refusal_eq_none_iff]
  exact and_iff_right (mem_allLegs l)

theorem Dev.surveyLegs_nodup (d : Dev) : d.surveyLegs.Nodup := List.Nodup.filter _ (by decide)

theorem getElem?_map_allLegs {α : Type} (f : Fin 4 → α) (l : Fin 4) : (allLegs.map f)[l.val]? = some (f l) := by
  fin_cases l <;> rfl

/-- R129: requests on several legs change nothing but those legs. -/
theorem Dev.requestSurveys_frame (q : Requesters) (ls : List (Fin 4)) (d : Dev) :
    (ls.foldl (fun y l => y.requestSurvey l q) d) = { d with legs := (ls.foldl (fun y l => y.requestSurvey l q) d).legs } := by
  induction ls generalizing d with
  | nil => rfl
  | cons l ls ih => exact ih (d.requestSurvey l q)

theorem Dev.requestSurveys_leg (q : Requesters) {ls : List (Fin 4)} (hnodup : ls.Nodup) (d : Dev) (k : Fin 4) :
    (ls.foldl (fun y l => y.requestSurvey l q) d).leg k = if k ∈ ls then (d.requestSurvey k q).leg k else d.leg k := by
  induction ls generalizing d with
  | nil => rfl
  | cons l ls ih =>
    obtain ⟨hl, hls⟩ := List.nodup_cons.1 hnodup
    rw [List.foldl_cons, ih hls]
    by_cases hk : k = l
    · subst hk
      rw [if_neg hl, if_pos List.mem_cons_self]
    · have hother : (d.requestSurvey l q).leg k = d.leg k := d.requestSurvey_leg_ne hk q
      have hsame : ((d.requestSurvey l q).requestSurvey k q).leg k = (d.requestSurvey k q).leg k := by
        simp [Dev.requestSurvey, Dev.modLeg_leg_ne _ _ _ _ hk]
      simp only [List.mem_cons, hk, false_or, hsame, hother]

/-- R135: the parts of an all-legs SURVEY at its examination. -/
def Dev.firstParts (d : Dev) : List (Option (SurveyOut × Nat)) :=
  allLegs.map fun l => if d.surveyLegs.contains l then none else some (SurveyOut.notRun, 0)

theorem Dev.getElem?_firstParts (d : Dev) (l : Fin 4) :
    d.firstParts[l.val]? = some (if l ∈ d.surveyLegs then none else some (.notRun, 0)) := by
  rw [Dev.firstParts, getElem?_map_allLegs]
  simp

theorem Dev.examineAllSurvey_eq (d : Dev) (n : Nat) (ps : List Word) :
    d.examineAllSurvey n ps =
      d.surveyLegs.foldl (fun y l => y.requestSurvey l (.ofSlot n)) ((d.nowRunning n).settleParts n d.firstParts) := rfl

/-- R135: with a leg to survey the slot waits for its parts. -/
theorem Dev.settleParts_of_open {d : Dev} {l : Fin 4} (h : l ∈ d.surveyLegs) (n : Nat) :
    (d.nowRunning n).settleParts n d.firstParts = (d.nowRunning n).modSlot n fun s => { s with parts := d.firstParts } := by
  refine if_neg fun hall => ?_
  have hpart : d.firstParts[l.val]? = some none := by rw [d.getElem?_firstParts, if_pos h]
  exact absurd (List.all_eq_true.1 hall none (List.mem_of_getElem? hpart)) (by decide)

/-- R135, R189: with none it completes with OK and four parts NOT_RUN. -/
theorem Dev.settleParts_of_none {d : Dev} (h : d.surveyLegs = []) (n : Nat) :
    (d.nowRunning n).settleParts n d.firstParts =
      (d.nowRunning n).complete n .ok { Detail.zero with a := 0x44, b := 0x44 } := by
  have hparts : d.firstParts = List.replicate 4 (some (.notRun, 0)) := by
    rw [Dev.firstParts, h]
    rfl
  rw [hparts]
  rfl

theorem Dev.settleParts_frame (d : Dev) (n : Nat) (ps : List (Option (SurveyOut × Nat))) :
    (d.settleParts n ps).recs = d.recs ∧ (d.settleParts n ps).intake = d.intake ∧ (d.settleParts n ps).legs = d.legs := by
  unfold Dev.settleParts
  split
  next => exact ⟨rfl, rfl, rfl⟩
  next => exact ⟨rfl, rfl, rfl⟩

/-- R135: the examination leaves the records and the intake order, the requests change legs, and the slot is settled before them. -/
theorem Dev.examineAllSurvey_frame (d : Dev) (n : Nat) (ps : List Word) :
    (d.examineAllSurvey n ps).recs = d.recs ∧ (d.examineAllSurvey n ps).intake = d.intake ∧
      (d.examineAllSurvey n ps).slots = ((d.nowRunning n).settleParts n d.firstParts).slots ∧
      (d.examineAllSurvey n ps).causes = ((d.nowRunning n).settleParts n d.firstParts).causes := by
  obtain ⟨hrecs, hintake, -⟩ := (d.nowRunning n).settleParts_frame n d.firstParts
  rw [Dev.examineAllSurvey_eq, Dev.requestSurveys_frame]
  exact ⟨hrecs, hintake, rfl, rfl⟩

theorem Dev.examineAllSurvey_leg (d : Dev) (n : Nat) (ps : List Word) (l : Fin 4) :
    (d.examineAllSurvey n ps).leg l = if l ∈ d.surveyLegs then (d.requestSurvey l (.ofSlot n)).leg l else d.leg l := by
  have hleg : ((d.nowRunning n).settleParts n d.firstParts).leg l = d.leg l :=
    congrArg (Legs.get · l) ((d.nowRunning n).settleParts_frame n d.firstParts).2.2
  rw [Dev.examineAllSurvey_eq, Dev.requestSurveys_leg _ d.surveyLegs_nodup]
  simp only [Dev.requestSurvey, Dev.modLeg_leg_self, hleg]

/-- Settles O59: the legs asked are those whose refusal is none, and the slot waits while one is. -/
theorem allLegsSurveyAsksEachLeg : Obligations.AllLegsSurveyAsksEachLeg := by
  intro s n rest ps hinv h runs
  have hexec : exec .allLegsSurvey s = .next (s.running fun _ d => d.examine .allSurvey Dev.examineAllSurvey) := rfl
  have hrun : exec .allLegsSurvey s = .next { s with dev := (s.dev.takeFront rest).examineAllSurvey n ps } := by
    rw [hexec, h.run fun _ => Dev.examineAllSurvey]
  generalize hd : s.dev.takeFront rest = d at hrun
  have hslots : Sparse.wf Slot.idle d.slots = true := by rw [← hd]; exact hinv.good.slots
  have hrunning : Sparse.wf Slot.idle (d.nowRunning n).slots = true := Sparse.set_wf _ _ _ hslots
  have hruns (l : Fin 4) : runs l ↔ l ∈ d.surveyLegs := by rw [d.mem_surveyLegs, ← hd]; rfl
  have hleg (l : Fin 4) : s.dev.leg l = d.leg l := by rw [← hd]; rfl
  obtain ⟨hrecs, hintake, hslotsEnd, hcauses⟩ := d.examineAllSurvey_frame n ps
  have hslot (m : Nat) : (d.examineAllSurvey n ps).slot m = ((d.nowRunning n).settleParts n d.firstParts).slot m := by
    rw [Dev.slot, hslotsEnd]
    rfl
  refine ⟨_, hrun, by rw [hrecs, ← hd]; rfl, by rw [hintake, ← hd]; rfl, fun l hl => ?_, fun l hl => ?_, ?_, fun hnone => ?_⟩
  · rw [Dev.examineAllSurvey_leg, if_pos ((hruns l).1 hl), hleg]
    obtain ⟨q, hq, hmem, -⟩ := d.requestSurvey_ofSlot_leg l n
    exact ⟨q, hq, hmem⟩
  · rw [Dev.examineAllSurvey_leg, if_neg (mt (hruns l).2 hl), hleg]
  · rintro ⟨l, hl⟩
    rw [hslot, Dev.settleParts_of_open ((hruns l).1 hl), Dev.modSlot_slot_self (d.nowRunning n) n _ hrunning,
      Dev.nowRunning_slot hslots]
    refine ⟨rfl, fun k => ⟨fun hk => ?_, fun hk => ?_⟩⟩
    · exact (d.getElem?_firstParts k).trans (by rw [if_pos ((hruns k).1 hk)])
    · exact (d.getElem?_firstParts k).trans (by rw [if_neg (mt (hruns k).2 hk)])
  · have hempty : d.surveyLegs = [] := List.eq_nil_iff_forall_not_mem.2 fun l hl => hnone l ((hruns l).2 hl)
    have hset : (d.examineAllSurvey n ps).isSet .cmdDone = ((d.nowRunning n).settleParts n d.firstParts).isSet .cmdDone := by
      rw [Dev.isSet, hcauses]
      rfl
    rw [hslot, hset, Dev.settleParts_of_none hempty]
    obtain ⟨hdone, hcmd, -⟩ := Dev.complete_slotDone (d := d.nowRunning n) hrunning n .ok { Detail.zero with a := 0x44, b := 0x44 }
    rw [hdone]
    exact ⟨rfl, rfl, rfl, rfl, hcmd⟩

end Sys2Proof.Machine
end

section
/-! O50 and O51: ENROL. First its range checks, then the other records and the ranks (R5), then the two statements. -/

namespace Sys2Proof.Machine

/-! ## The range checks of an ENROL (R10 check 2) -/

/-- R10: enrolment field k is out of its range (13.3). -/
def EnrolFields.wrong (f : EnrolFields) (k : Nat) : Prop :=
  (k = 2 ∧ f.serial = 0) ∨ (k = 3 ∧ 3 < f.leg) ∨ (k = 4 ∧ (f.addr = 0 ∨ 0xDFF < f.addr.toNat)) ∨
  (k = 5 ∧ f.group ≠ 0 ∧ (f.group.toNat < 0xE00 ∨ 0xEFE < f.group.toNat)) ∨
  (f.noProfile = false ∧
    ((k = 6 ∧ 32767 < f.start) ∨ (k = 7 ∧ 32768 < f.start + f.lenCode + 1) ∨
     (k = 9 ∧ (1 < f.mode ∨ 1024 < f.dest + destSpan f)))) ∨
  (k = 10 ∧ 8 < f.demand) ∨ (k = 11 ∧ 3 < f.hold)

theorem toNat_lt_one_iff {w : Nat} (a : BitVec w) : a.toNat < 1 ↔ a = 0 := by
  rw [Nat.lt_one_iff, ← BitVec.toNat_inj]
  rfl

/-- A search by checks finds an answer no greater than j. -/
theorem exists_le_ite {p : Prop} [Decidable p] {a j : Nat} {x : Option Nat} :
    (∃ k ≤ j, (if p then some a else x) = some k) ↔ if p then a ≤ j else ∃ k ≤ j, x = some k := by
  by_cases hp : p <;> simp [hp]

/-- R10: the field named is out of its range. -/
theorem enrolBadField_wrong {f : EnrolFields} {k : Nat} (h : enrolBadField f = some k) : f.wrong k := by
  unfold enrolBadField at h
  simp only [toNat_lt_one_iff, Bool.not_eq_true] at h
  split_ifs at h with h2 h3 h4 h5 h6 h7 hmode hdest h10 h11
  all_goals obtain rfl := Option.some.inj h
  · exact Or.inl ⟨rfl, h2⟩
  · exact Or.inr (Or.inl ⟨rfl, h3⟩)
  · exact Or.inr (Or.inr (Or.inl ⟨rfl, h4⟩))
  · exact Or.inr (Or.inr (Or.inr (Or.inl ⟨rfl, h5⟩)))
  · exact Or.inr (Or.inr (Or.inr (Or.inr (Or.inl ⟨h6.1, Or.inl ⟨rfl, h6.2⟩⟩))))
  · exact Or.inr (Or.inr (Or.inr (Or.inr (Or.inl ⟨h7.1, Or.inr (Or.inl ⟨rfl, h7.2⟩)⟩))))
  · exact Or.inr (Or.inr (Or.inr (Or.inr (Or.inl ⟨hmode.1, Or.inr (Or.inr ⟨rfl, Or.inl hmode.2⟩)⟩))))
  · exact Or.inr (Or.inr (Or.inr (Or.inr (Or.inl ⟨hdest.1, Or.inr (Or.inr ⟨rfl, Or.inr hdest.2⟩)⟩))))
  · exact Or.inr (Or.inr (Or.inr (Or.inr (Or.inr (Or.inl ⟨rfl, h10⟩)))))
  · exact Or.inr (Or.inr (Or.inr (Or.inr (Or.inr (Or.inr ⟨rfl, h11⟩)))))

/-- R10: no field is out of its range before the one named. -/
theorem enrolBadField_le {f : EnrolFields} {j : Nat} (h : f.wrong j) : ∃ k ≤ j, enrolBadField f = some k := by
  simp only [enrolBadField, toNat_lt_one_iff, exists_le_ite]
  obtain ⟨rfl, hw⟩ | ⟨rfl, hw⟩ | ⟨rfl, hw⟩ | ⟨rfl, hw⟩ | ⟨hprofile, ⟨rfl, hw⟩ | ⟨rfl, hw⟩ | ⟨rfl, hw⟩⟩ | ⟨rfl, hw⟩ | ⟨rfl, hw⟩ := h
  all_goals grind (splits := 20)

theorem ite_some_eq_none {α : Type} {p : Prop} [Decidable p] {a : α} {x : Option α} :
    (if p then some a else x) = none ↔ ¬ p ∧ x = none := by
  by_cases hp : p <;> simp [hp]

theorem enrolBadField_eq_none_iff (f : EnrolFields) : enrolBadField f = none ↔ f.inRange := by
  simp only [enrolBadField, ite_some_eq_none, EnrolFields.inRange, destSpan]
  grind

/-! ## The other records (R1, R5) -/

theorem Dev.mem_others {d : Dev} (hrecs : Sparse.wf Rec.vacant d.recs = true) (r : Nat) (x : Rec) :
    x ∈ d.others r ↔ ∃ q, q ≠ r ∧ (d.record q).state ≠ .vacant ∧ d.record q = x := by
  simp only [Dev.others, List.mem_map, List.mem_filter, Prod.exists, Dev.mem_enrolled hrecs, decide_eq_true_eq]
  constructor
  · rintro ⟨q, y, ⟨⟨rfl, hstate⟩, hq⟩, rfl⟩
    exact ⟨q, hq, hstate, rfl⟩
  · rintro ⟨q, hq, hstate, rfl⟩
    exact ⟨q, d.record q, ⟨⟨rfl, hstate⟩, hq⟩, rfl⟩

theorem Dev.mem_groupMembers {d : Dev} (hrecs : Sparse.wf Rec.vacant d.recs = true) (r : Nat) (l : Fin 4) (group : BitVec 12) (x : Rec) :
    x ∈ d.groupMembers r l group ↔ ∃ q, d.otherOn r q l ∧ (d.record q).enrol.group = group ∧ d.record q = x := by
  simp only [Dev.groupMembers, List.mem_filter, Dev.mem_others hrecs, Bool.and_eq_true, decide_eq_true_eq, Dev.otherOn]
  constructor
  · rintro ⟨⟨q, hq, hstate, rfl⟩, hleg, hgroup⟩
    exact ⟨q, ⟨hq, hstate, hleg⟩, hgroup, rfl⟩
  · rintro ⟨q, ⟨hq, hstate, hleg⟩, hgroup, rfl⟩
    exact ⟨⟨q, hq, hstate, rfl⟩, hleg, hgroup⟩

theorem Dev.dupAddress_iff {d : Dev} (hrecs : Sparse.wf Rec.vacant d.recs = true) (r : Nat) (c : Enrolment) :
    (d.others r).any (fun x => decide (x.enrol.leg = c.leg) && decide (x.enrol.addr = c.addr)) = true ↔
      ∃ q, d.otherOn r q c.leg ∧ (d.record q).enrol.addr = c.addr := by
  simp only [List.any_eq_true, Dev.mem_others hrecs, Bool.and_eq_true, decide_eq_true_eq, Dev.otherOn]
  constructor
  · rintro ⟨_, ⟨q, hq, hstate, rfl⟩, hleg, haddr⟩
    exact ⟨q, ⟨hq, hstate, hleg⟩, haddr⟩
  · rintro ⟨q, ⟨hq, hstate, hleg⟩, haddr⟩
    exact ⟨d.record q, ⟨q, hq, hstate, rfl⟩, hleg, haddr⟩

theorem Dev.dupSerial_iff {d : Dev} (hrecs : Sparse.wf Rec.vacant d.recs = true) (r : Nat) (c : Enrolment) :
    (d.others r).any (fun x => decide (x.enrol.serial = c.serial)) = true ↔
      ∃ q, q ≠ r ∧ (d.record q).state ≠ .vacant ∧ (d.record q).enrol.serial = c.serial := by
  simp only [List.any_eq_true, Dev.mem_others hrecs, decide_eq_true_eq]
  constructor
  · rintro ⟨_, ⟨q, hq, hstate, rfl⟩, hserial⟩
    exact ⟨q, hq, hstate, hserial⟩
  · rintro ⟨q, hq, hstate, hserial⟩
    exact ⟨d.record q, ⟨q, hq, hstate, rfl⟩, hserial⟩

/-! ## Ranks (R5) -/

/-- R5: the lowest number below n that is not in use, where one is. -/
theorem lowestFree_spec {used : List Nat} {n : Nat} (h : ∃ k, k < n ∧ k ∉ used) :
    lowestFree used n < n ∧ lowestFree used n ∉ used ∧ ∀ k, k < lowestFree used n → k ∈ used := by
  unfold lowestFree
  cases hfind : (List.range n).find? fun k => !used.contains k with
  | none =>
    obtain ⟨k, hk, hfree⟩ := h
    exact absurd (List.find?_eq_none.1 hfind k (List.mem_range.2 hk)) (by simpa using hfree)
  | some k =>
    obtain ⟨hfree, hk, hbelow⟩ := List.find?_range_eq_some.1 hfind
    exact ⟨List.mem_range.1 hk, by simpa using hfree, fun j hj => by simpa using hbelow j hj⟩

/-- Fewer numbers than n leave one below n free. -/
theorem exists_not_mem_of_length_lt {used : List Nat} {n : Nat} (h : used.length < n) : ∃ k, k < n ∧ k ∉ used := by
  by_contra hall
  have hsubset : List.range n ⊆ used := fun k hk => by
    by_contra hfree
    exact hall ⟨k, List.mem_range.1 hk, hfree⟩
  have hlength := List.nodup_range.length_le_of_subset hsubset
  rw [List.length_range] at hlength
  omega

/-- R5: the leg rank is the lowest that no other record of the leg has. -/
theorem Dev.newLegRank_spec {d : Dev} (hrecs : Sparse.wf Rec.vacant d.recs = true) {r : Nat} {c : Enrolment}
    (h : ∃ k, k < 256 ∧ ∀ q, d.otherOn r q c.leg → (d.record q).legRank ≠ k) :
    (∀ q, d.otherOn r q c.leg → (d.record q).legRank ≠ d.newLegRank r c) ∧
      ∀ k, k < d.newLegRank r c → ∃ q, d.otherOn r q c.leg ∧ (d.record q).legRank = k := by
  have hused (k : Nat) : k ∈ ((d.others r).filter fun x => decide (x.enrol.leg = c.leg)).map (fun x => x.legRank) ↔
      ∃ q, d.otherOn r q c.leg ∧ (d.record q).legRank = k := by
    simp only [List.mem_map, List.mem_filter, Dev.mem_others hrecs, decide_eq_true_eq, Dev.otherOn]
    constructor
    · rintro ⟨_, ⟨⟨q, hq, hstate, rfl⟩, hleg⟩, rfl⟩
      exact ⟨q, ⟨hq, hstate, hleg⟩, rfl⟩
    · rintro ⟨q, ⟨hq, hstate, hleg⟩, rfl⟩
      exact ⟨d.record q, ⟨⟨q, hq, hstate, rfl⟩, hleg⟩, rfl⟩
  obtain ⟨k, hk, hfree⟩ := h
  obtain ⟨-, hnew, hbelow⟩ := lowestFree_spec ⟨k, hk, fun hmem =>
    have ⟨q, hq, hrank⟩ := (hused k).1 hmem
    hfree q hq hrank⟩
  exact ⟨fun q hq hrank => hnew ((hused _).2 ⟨q, hq, hrank⟩), fun j hj => (hused j).1 (hbelow j hj)⟩

/-- R5: the group rank is the lowest that no other member has; a group of fewer than 64 others leaves one. -/
theorem Dev.newGroupRank_spec {d : Dev} (hrecs : Sparse.wf Rec.vacant d.recs = true) {r : Nat} {c : Enrolment} (hgroup : c.group ≠ 0)
    (hroom : (d.groupMembers r c.leg c.group).length < 64) :
    ∃ k, d.newGroupRank r c = some k ∧ k < 64 ∧
      (∀ q, d.otherOn r q c.leg → (d.record q).enrol.group = c.group → (d.record q).groupRank ≠ some k) ∧
      ∀ j, j < k → ∃ q, d.otherOn r q c.leg ∧ (d.record q).enrol.group = c.group ∧ (d.record q).groupRank = some j := by
  have hused (k : Nat) : k ∈ (d.groupMembers r c.leg c.group).filterMap (fun x => x.groupRank) ↔
      ∃ q, d.otherOn r q c.leg ∧ (d.record q).enrol.group = c.group ∧ (d.record q).groupRank = some k := by
    simp only [List.mem_filterMap, Dev.mem_groupMembers hrecs]
    constructor
    · rintro ⟨_, ⟨q, hq, hmember, rfl⟩, hrank⟩
      exact ⟨q, hq, hmember, hrank⟩
    · rintro ⟨q, hq, hmember, hrank⟩
      exact ⟨d.record q, ⟨q, hq, hmember, rfl⟩, hrank⟩
  have hlength := List.length_filterMap_le (fun x : Rec => x.groupRank) (d.groupMembers r c.leg c.group)
  obtain ⟨hlt, hnew, hbelow⟩ := lowestFree_spec (exists_not_mem_of_length_lt (hlength.trans_lt hroom))
  exact ⟨_, if_neg hgroup, hlt, fun q hq hmember hrank => hnew ((hused _).2 ⟨q, hq, hmember, hrank⟩), fun j hj =>
    (hused j).1 (hbelow j hj)⟩

/-! ## ENROL (R10, R11) -/

theorem Dev.enrolRecord_of_taken {d : Dev} {r : Nat} (h : (d.record r).state ≠ .vacant) (n : Nat) (f : EnrolFields) :
    d.enrolRecord n r f = d.refuse n .wrongState (d.recordDetail r) := if_pos h

theorem Dev.enrolRecord_of_badField {d : Dev} {r : Nat} (h : (d.record r).state = .vacant) (n : Nat) {f : EnrolFields} {k : Nat}
    (hbad : enrolBadField f = some k) : d.enrolRecord n r f = d.badField n k := by
  unfold Dev.enrolRecord
  rw [if_neg (not_not.2 h), hbad]

theorem Dev.enrolRecord_of_conflict {d : Dev} {r : Nat} (h : (d.record r).state = .vacant) (n : Nat) {f : EnrolFields}
    (hrange : f.inRange) {code : ResultCode} (hconflict : d.enrolConflict r f.copy = some code) :
    d.enrolRecord n r f = d.refuse n code (d.recordDetail r) := by
  unfold Dev.enrolRecord
  rw [if_neg (not_not.2 h), (enrolBadField_eq_none_iff f).2 hrange]
  dsimp only
  rw [hconflict]

/-- R11: the record that an ENROL makes. -/
def Dev.newRecord (d : Dev) (r : Nat) (c : Enrolment) : Rec :=
  { Rec.vacant with enrol := c, state := .expected, legRank := d.newLegRank r c, groupRank := d.newGroupRank r c }

theorem Dev.enrolRecord_of_free {d : Dev} {r : Nat} (h : (d.record r).state = .vacant) (n : Nat) {f : EnrolFields}
    (hrange : f.inRange) (hconflict : d.enrolConflict r f.copy = none) :
    d.enrolRecord n r f =
      (d.putRec r (d.newRecord r f.copy)).complete n .ok ((d.putRec r (d.newRecord r f.copy)).enrolledDetail r) := by
  unfold Dev.enrolRecord
  rw [if_neg (not_not.2 h), (enrolBadField_eq_none_iff f).2 hrange]
  dsimp only
  rw [hconflict]
  rfl

theorem exec_enrol_examines {s : State} {n r : Nat} {rest : List Nat} {ps : List Word} (h : s.examines .enrol n rest ps)
    (hr : paramNat ps 1 = r) (hlt : r < 256) :
    exec .enrol s = .next { s with dev := (s.dev.takeFront rest).enrolRecord n r (enrolFields s.mirrors r) } := by
  have hexec : exec .enrol s = .next (s.running fun _ d => d.examine .enrol (Dev.examineEnrol s.mirrors)) := rfl
  subst hr
  rw [hexec, h.run fun _ => Dev.examineEnrol s.mirrors, Dev.examineEnrol, Dev.onRecord_of_lt hlt]

/-- R10 checks 3 to 6, in their order. -/
theorem Dev.enrolConflict_eq_some {d : Dev} (hrecs : Sparse.wf Rec.vacant d.recs = true) {r : Nat} {c : Enrolment} {code : ResultCode}
    (h : ((d.leg c.leg).st = .dark ∧ code = .legOff) ∨
      ((d.leg c.leg).st ≠ .dark ∧ (∃ q, d.otherOn r q c.leg ∧ (d.record q).enrol.addr = c.addr) ∧ code = .dupAddress) ∨
      ((d.leg c.leg).st ≠ .dark ∧ (¬ ∃ q, d.otherOn r q c.leg ∧ (d.record q).enrol.addr = c.addr) ∧
        (∃ q, q ≠ r ∧ (d.record q).state ≠ .vacant ∧ (d.record q).enrol.serial = c.serial) ∧ code = .dupSerial) ∨
      ((d.leg c.leg).st ≠ .dark ∧ (¬ ∃ q, d.otherOn r q c.leg ∧ (d.record q).enrol.addr = c.addr) ∧
        (¬ ∃ q, q ≠ r ∧ (d.record q).state ≠ .vacant ∧ (d.record q).enrol.serial = c.serial) ∧
        c.group ≠ 0 ∧ 64 ≤ (d.groupMembers r c.leg c.group).length ∧ code = .groupFull)) :
    d.enrolConflict r c = some code := by
  rw [← Dev.dupAddress_iff hrecs, ← Dev.dupSerial_iff hrecs] at h
  unfold Dev.enrolConflict
  obtain ⟨hdark, rfl⟩ | ⟨hdark, haddr, rfl⟩ | ⟨hdark, haddr, hserial, rfl⟩ | ⟨hdark, haddr, hserial, hgroup, hfull, rfl⟩ := h
  · exact if_pos hdark
  · rw [if_neg hdark, if_pos haddr]
  · rw [if_neg hdark, if_neg haddr, if_pos hserial]
  · rw [if_neg hdark, if_neg haddr, if_neg hserial, if_pos ⟨hgroup, hfull⟩]

theorem Dev.enrolConflict_eq_none {d : Dev} (hrecs : Sparse.wf Rec.vacant d.recs = true) {r : Nat} {c : Enrolment}
    (hdark : (d.leg c.leg).st ≠ .dark) (haddr : ∀ q, d.otherOn r q c.leg → (d.record q).enrol.addr ≠ c.addr)
    (hserial : ∀ q, q ≠ r → (d.record q).state ≠ .vacant → (d.record q).enrol.serial ≠ c.serial)
    (hgroup : c.group = 0 ∨ (d.groupMembers r c.leg c.group).length < 64) : d.enrolConflict r c = none := by
  unfold Dev.enrolConflict
  rw [if_neg hdark, if_neg, if_neg, if_neg]
  · rintro ⟨hne, hfull⟩
    exact absurd (hgroup.resolve_left hne) (by omega)
  · rw [Dev.dupSerial_iff hrecs]
    rintro ⟨q, hq, hstate, hsame⟩
    exact hserial q hq hstate hsame
  · rw [Dev.dupAddress_iff hrecs]
    rintro ⟨q, hq, hsame⟩
    exact haddr q hq hsame

/-- Settles O51: the checks in their order, each with its result and detail. -/
theorem enrolRefusedLeavesTheRoster : Obligations.EnrolRefusedLeavesTheRoster := by
  constructor
  · intro s n r rest ps h hinv f c d dupAddress dupSerial wrong hr hlt code hcode
    have hslots : Sparse.wf Slot.idle (s.dev.takeFront rest).slots = true := hinv.good.slots
    have hexec := exec_enrol_examines h hr hlt
    obtain ⟨hstate, rfl⟩ | ⟨hstate, hrange, rfl⟩ | ⟨hstate, hrange, hconflict⟩ := hcode
    · rw [Dev.enrolRecord_of_taken (d := s.dev.takeFront rest) hstate] at hexec
      exact ⟨_, _, hexec, Dev.complete_slotDone hslots n _ _, rfl, rfl, rfl, rfl, nofun, fun _ => rfl⟩
    · obtain ⟨k, hk⟩ := Option.ne_none_iff_exists'.1 (mt (enrolBadField_eq_none_iff f).1 hrange)
      rw [Dev.enrolRecord_of_badField (d := s.dev.takeFront rest) hstate n hk] at hexec
      refine ⟨_, _, hexec, Dev.badField_slotDone hslots n k, rfl, rfl, rfl, rfl, fun _ j hj hfirst => ?_, fun hne => absurd rfl hne⟩
      obtain ⟨i, hi, hfound⟩ := enrolBadField_le hj
      obtain rfl : i = k := Option.some.inj (hfound.symm.trans hk)
      rw [Nat.le_antisymm hi (hfirst i (enrolBadField_wrong hk))]
    · have hsome : (s.dev.takeFront rest).enrolConflict r f.copy = some code :=
        Dev.enrolConflict_eq_some (d := s.dev.takeFront rest) hinv.good.recs hconflict
      have hne : code ≠ .badField := by
        obtain ⟨-, rfl⟩ | ⟨-, -, rfl⟩ | ⟨-, -, -, rfl⟩ | ⟨-, -, -, -, -, rfl⟩ := hconflict <;> decide
      rw [Dev.enrolRecord_of_conflict (d := s.dev.takeFront rest) hstate n hrange hsome] at hexec
      exact ⟨_, _, hexec, Dev.complete_slotDone hslots n _ _, rfl, rfl, rfl, rfl, fun hbad => absurd hbad hne, fun _ => rfl⟩
  · intro s n rest ps h hinv hbad
    exact h.badRecord hinv (fun _ y n _ r => y.enrolRecord n r (enrolFields s.mirrors r)) rfl hbad

/-- Settles O50: the record made, its ranks and the detail that reads it. -/
theorem enrolMakesTheRecordExpected : Obligations.EnrolMakesTheRecordExpected := by
  intro s n r rest ps h hinv f c d hr hlt hstate hrange hdark haddr hserial hgroup hrank
  have hrecs : Sparse.wf Rec.vacant (s.dev.takeFront rest).recs = true := hinv.good.recs
  have hslots : Sparse.wf Slot.idle (s.dev.takeFront rest).slots = true := hinv.good.slots
  have hexec := exec_enrol_examines h hr hlt
  rw [Dev.enrolRecord_of_free (d := s.dev.takeFront rest) hstate n hrange
    (Dev.enrolConflict_eq_none (d := s.dev.takeFront rest) hrecs hdark haddr hserial hgroup)] at hexec
  generalize hx : (s.dev.takeFront rest).newRecord r (enrolFields s.mirrors r).copy = x at hexec
  have hrecord : ((s.dev.takeFront rest).putRec r x).record r = x := Dev.putRec_record_self _ r x hrecs
  refine ⟨_, hexec, ?_, fun q hq => Dev.putRec_record_ne (s.dev.takeFront rest) r q x hq, rfl, rfl⟩
  rw [Dev.complete_record, hrecord, Dev.enrolledDetail, hrecord]
  subst hx
  obtain ⟨hnew, hbelow⟩ := Dev.newLegRank_spec (d := s.dev.takeFront rest) hrecs hrank
  refine ⟨rfl, hnew, hbelow, fun hnone => if_pos hnone, fun hmember =>
    Dev.newGroupRank_spec (d := s.dev.takeFront rest) hrecs hmember (hgroup.resolve_left hmember), ?_⟩
  exact Dev.complete_slotDone (d := (s.dev.takeFront rest).putRec r _) hslots n .ok _

end Sys2Proof.Machine
end

section
/-! O26 (R43, R111): the hand-over of a FREE channel. First a directive that takes the channel, then each claimant in its order, then the
statement. -/

namespace Sys2Proof.Machine

/-! ## A directive takes the channel (R42, R43, R111) -/

/-- R43: a directive other than a LOAD is ready in the cycle of its hand-over, and nothing else changes. -/
theorem Dev.takeDirective_of_ne_load (e : Env) (d : Dev) (l : Fin 4) {dir : Directive} (o : Origin)
    (h : ∀ k dest m src len fin, dir.body ≠ .load k dest m src len fin) :
    d.takeDirective e l dir o =
      d.modLeg l fun g => { g with chan := .directive (takenNow dir o (.ready e.cycle) (e.cfg.leg l).reach) } := by
  unfold Dev.takeDirective
  dsimp only
  split
  next hbody => exact absurd hbody (h _ _ _ _ _ _)
  next => rfl

/-- R111: a LOAD waits for its chunk, whose fetch joins the list. -/
theorem Dev.takeDirective_of_load (e : Env) (d : Dev) (l : Fin 4) {dir : Directive} (o : Origin) {k dest src len : Nat} {m : DestMode}
    {fin : Bool} (h : dir.body = .load k dest m src len fin) :
    d.takeDirective e l dir o =
      ({ d.modLeg l fun g => { g with chan := .directive (takenNow dir o .fetching (e.cfg.leg l).reach) } with
        fetches := d.fetches ++ [⟨l, src, len⟩] } : Dev).syncRequests := by
  unfold Dev.takeDirective
  dsimp only
  split
  next hbody =>
    rw [h] at hbody
    cases hbody
    rfl
  next hbody => exact absurd h (hbody _ _ _ _ _ _)

theorem Dev.modLeg_takeDirective {d : Dev} {l : Fin 4} {f : Leg → Leg} (e : Env) {dir : Directive} (o : Origin)
    (h : ∀ k dest m src len fin, dir.body ≠ .load k dest m src len fin) :
    (d.modLeg l f).takeDirective e l dir o =
      d.modLeg l fun g => { f g with chan := .directive (takenNow dir o (.ready e.cycle) (e.cfg.leg l).reach) } := by
  rw [Dev.takeDirective_of_ne_load _ _ _ _ h, Dev.modLeg_modLeg]

/-! ## The claimants in their order (R43) -/

theorem Leg.mayHandOver_of {g : Leg} (hchan : g.chan = .free) (hst : g.st = .running ∨ g.st = .suspended ∨ g.st = .hunting) :
    g.mayHandOver = true := by
  obtain h | h | h := hst <;> simp [Leg.mayHandOver, hchan, h]

theorem Leg.mayHandOver_of_stopped {g : Leg} (hst : g.st = .dark ∨ g.st = .faulted) : g.mayHandOver = false := by
  obtain h | h := hst <;> simp [Leg.mayHandOver, h]

/-- R138: the hunt's next step in a pass of MUTEs or UNMUTEs. -/
theorem Leg.huntStep_of {g : Leg} {r : Nat} {rest : List Nat} (hst : g.st = .hunting) (htodo : g.hunt.todo = r :: rest)
    (hphase : g.hunt.phase = .muting ∨ g.hunt.phase = .unmuting) :
    g.huntStep = some (r, if g.hunt.phase = .muting then .mute else .unmute, rest) := by
  unfold Leg.huntStep
  obtain h | h := hphase <;> rw [hst, h, htodo] <;> rfl

section
variable {d : Dev} {l : Fin 4} (e : Env) (hhunt : (d.leg l).hunt.phase ≠ .starting)
include hhunt

theorem Dev.handOver_of_stopped (h : (d.leg l).mayHandOver = false) : d.handOver e l = d := by
  unfold Dev.handOver
  rw [Dev.enterHunting_eq_self hhunt]
  simp [h]

theorem Dev.handOver_huntStep (h : (d.leg l).mayHandOver = true) {r : Nat} {b : Body} {rest : List Nat}
    (hstep : (d.leg l).huntStep = some (r, b, rest)) :
    d.handOver e l = (d.modLeg l fun g => { g with hunt := { g.hunt with todo := rest } }).takeDirective e l
      ⟨.individual (d.record r).enrol.addr, b⟩ (.hunt r) := by
  unfold Dev.handOver
  rw [Dev.enterHunting_eq_self hhunt]
  simp [h, hstep]

theorem Dev.handOver_survey (h : (d.leg l).mayHandOver = true) (hstep : (d.leg l).huntStep = none) {q : Requesters}
    (hpend : (d.leg l).pendSurvey = some q) :
    d.handOver e l = d.modLeg l fun g => { g with
      pendSurvey := none
      chan := .survey { since := e.cycle, reach := (e.cfg.leg l).reach, reqs := q, opened := none, lit := 0 } } := by
  unfold Dev.handOver
  rw [Dev.enterHunting_eq_self hhunt]
  simp [h, hstep, hpend]

theorem Dev.handOver_hail (h : (d.leg l).mayHandOver = true) (hst : (d.leg l).st = .running) (hpend : (d.leg l).pendSurvey = none)
    (hhail : (d.leg l).pendHail = true) :
    d.handOver e l = d.modLeg l fun g => { g with
      pendHail := false
      chan := .hail { since := e.cycle, reach := (e.cfg.leg l).reach, opened := none, hails := false, others := false } } := by
  have hstep : (d.leg l).huntStep = none := Leg.huntStep_eq_none (by simp [hst])
  unfold Dev.handOver
  rw [Dev.enterHunting_eq_self hhunt]
  simp [h, hstep, hpend, hst, hhail]

/-- R43: with no claimant nothing changes. -/
theorem Dev.handOver_of_no_claimant (h : (d.leg l).mayHandOver = true) (hstep : (d.leg l).huntStep = none)
    (hpend : (d.leg l).pendSurvey = none) (hhail : (d.leg l).pendHail = false ∨ (d.leg l).st ≠ .running)
    (hqueue : (d.leg l).queue = [] ∨ (d.leg l).st = .hunting) : d.handOver e l = d := by
  have hnoHail : ((d.leg l).pendHail && decide ((d.leg l).st = .running)) = false := by
    obtain h | h := hhail <;> simp [h]
  have hhead : (d.leg l).st = .running ∨ (d.leg l).st = .suspended → d.takeQueueHead e l = d := by
    intro hst
    have hempty : (d.leg l).queue = [] := hqueue.resolve_right (by obtain h | h := hst <;> simp [h])
    rw [Dev.takeQueueHead, hempty]
    rfl
  unfold Dev.handOver
  rw [Dev.enterHunting_eq_self hhunt]
  simpa [h, hstep, hpend, hnoHail] using hhead

end

theorem exec_channelHandover_of {s : State} (hrun : s.phase = .running) {l : Fin 4} {f : Leg → Leg}
    (h : s.dev.handOver s.env l = s.dev.modLeg l f) :
    exec (.channelHandover l) s = .next { s with dev := s.dev.modLeg l f } := by
  rw [exec_channelHandover hrun, h, State.askPort_eq]
  rfl

theorem exec_channelHandover_self {s : State} (hrun : s.phase = .running) {l : Fin 4} (h : s.dev.handOver s.env l = s.dev) :
    exec (.channelHandover l) s = .next s := by
  rw [exec_channelHandover hrun, h, State.askPort_eq rfl]

/-- R43, R48: the head takes the channel where nothing waits behind it. -/
theorem Dev.takeQueueHead_of {d : Dev} {l : Fin 4} (env : Env) (hwait : (d.leg l).waiting = []) {e : Entry} {q : List Entry}
    (hhead : takeHead (d.leg l).queue = some (e, q)) :
    d.takeQueueHead env l = (d.modLeg l fun g => { g with queue := q }).takeDirective env l e.dir e.origin := by
  unfold Dev.takeQueueHead
  rw [hhead]
  refine Dev.fillQueue_eq_self ?_
  obtain ⟨p, hleg⟩ := Dev.takeDirective_leg_self env (d.modLeg l fun g => { g with queue := q }) l e.dir e.origin
  rw [hleg, Dev.modLeg_leg_self]
  exact hwait

/-! ## The engine request of a LOAD's fetch (R111, R179, R180) -/

/-- R179: with a fetch on the list, the load engine has asked for a burst or has one. -/
theorem Dev.syncRequests_load {d : Dev} (h : d.fetches ≠ []) :
    .load ∈ d.syncRequests.requests ∨ ∃ f b, d.burst = some (.fetch f b) := by
  by_cases hwants : d.wantsLoad = true
  · exact Or.inl (by simp [Dev.syncRequests, hwants])
  · have hfetches : d.fetches.isEmpty = false := by simpa using h
    simp only [Dev.wantsLoad, hfetches, Bool.not_false, Bool.true_and, Bool.and_eq_true, Bool.not_eq_true', not_and] at hwants
    by_cases hasked : Client.load ∈ d.requests
    · exact Or.inl (by simp [Dev.syncRequests, hasked])
    · refine Or.inr ?_
      have hburst := hwants (by simpa using hasked)
      split at hburst
      next f b hb => exact ⟨f, b, hb⟩
      next => exact absurd rfl hburst
      next => exact absurd rfl hburst

/-- R179: a lone fetch is the one thing asked for. -/
theorem Dev.syncRequests_lone {d : Dev} {f : Fetch} (hburst : d.burst = none) (hrequests : d.requests = []) (hfetches : d.fetches = [f])
    (hring : d.ring.writeList = []) : d.syncRequests.requests = [.load] := by
  simp [Dev.syncRequests, Dev.wantsLoad, Dev.wantsRing, hburst, hrequests, hfetches, hring]

/-- R180: a lone fetch takes a FREE port at once. -/
theorem State.askPort_lone_fetch {s : State} {d : Dev} {f : Fetch} (hport : s.bus.port = .free) (hheld : s.bus.held = none)
    (hnone : s.dev.requests = []) (hrequests : d.requests = [.load]) (hfetches : d.fetches = [f]) :
    s.askPort d = { s with
      bus := { s.bus with port := .engine, passCount := 0 }, dev := { d with burst := some (.fetch f false), requests := [] } } := by
  have hasks : d.requests ≠ s.dev.requests := by simp [hrequests, hnone]
  exact (if_neg hasks).trans (State.settle_of_load (s := { s with dev := d }) hport hheld hrequests hfetches)

/-- Settles O26: the claimants by their order, and the fetch of a LOAD that takes the channel. -/
theorem handOverTakesTheFirstClaimant : Obligations.HandOverTakesTheFirstClaimant := by
  constructor
  · intro s l hrun g reach next hchan hhunt hwait
    have hmay (hst : g.st = .running ∨ g.st = .suspended ∨ g.st = .hunting) : g.mayHandOver = true := Leg.mayHandOver_of hchan hst
    refine ⟨fun hst r rest htodo hphase => ?_, fun hstep hst q hpend => ?_, fun hst hpend hhail => ?_, fun hst hpend e q hhead hload => ?_,
      fun hnone => ?_⟩
    · refine exec_channelHandover_of hrun ?_
      rw [Dev.handOver_huntStep s.env hhunt (hmay (.inr (.inr hst))) (Leg.huntStep_of hst htodo hphase), Dev.modLeg_takeDirective]
      · rfl
      · intro k dest m src len fin
        dsimp only
        split_ifs <;> nofun
    · exact exec_channelHandover_of hrun (Dev.handOver_survey s.env hhunt (hmay hst) hstep hpend)
    · exact exec_channelHandover_of hrun (Dev.handOver_hail s.env hhunt (hmay (.inl hst)) hst hpend hhail)
    · refine exec_channelHandover_of hrun ?_
      rw [Dev.handOver_eq_takeQueueHead s.env hchan hhunt hpend hst.symm, Dev.takeQueueHead_of s.env hwait hhead,
        Dev.modLeg_takeDirective s.env e.origin hload]
      rfl
    · refine exec_channelHandover_self hrun ?_
      obtain hst | hst | ⟨hstep, hpend, hhail, hqueue⟩ := hnone
      · exact Dev.handOver_of_stopped s.env hhunt (Leg.mayHandOver_of_stopped (.inl hst))
      · exact Dev.handOver_of_stopped s.env hhunt (Leg.mayHandOver_of_stopped (.inr hst))
      · cases hm : g.mayHandOver with
        | false => exact Dev.handOver_of_stopped s.env hhunt hm
        | true => exact Dev.handOver_of_no_claimant s.env hhunt hm hstep hpend hhail hqueue
  · intro s l e q k dest src len m fin hrun g hchan hst hhunt hpend hhail hwait hhead hbody
    have hhandOver : s.dev.handOver s.env l = (s.dev.modLeg l fun g => { g with queue := q }).takeDirective s.env l e.dir e.origin := by
      rw [Dev.handOver_eq_takeQueueHead s.env hchan hhunt hpend (hst.symm.imp_right fun h => ⟨h, hhail⟩),
        Dev.takeQueueHead_of s.env hwait hhead]
    rw [Dev.takeDirective_of_load s.env _ l e.origin hbody, Dev.modLeg_modLeg] at hhandOver
    refine ⟨_, (exec_channelHandover hrun l).trans (by rw [hhandOver]), ?_, rfl, ?_, State.askPort_of_owned, ?_⟩
    · exact (Dev.syncRequests_fetches_leg _ _ l).trans (Dev.modLeg_leg_self s.dev l _)
    · exact Dev.syncRequests_load (by simp)
    · intro hport hheld hburst hrequests hfetches hring
      have hone : s.dev.fetches ++ [⟨l, src, len⟩] = [⟨l, src, len⟩] := by rw [hfetches, List.nil_append]
      exact State.askPort_lone_fetch hport hheld hrequests (Dev.syncRequests_lone hburst hrequests hone hring) hone

end Sys2Proof.Machine
end

section
/-! O30 and O41 (R53 to R56): bursts that end no directive. First stray bursts, then what a burst does by the owner of the channel, then
levels (R25), then the two statements. -/

namespace Sys2Proof.Machine

/-! ## Stray bursts (R56) -/

/-- R128: the automatic mark asks for a survey. -/
def Requesters.withAuto (p : Option Requesters) : Requesters :=
  match p with
  | some q => { q with auto := true }
  | none => ⟨true, [], false⟩

theorem Requesters.join_ofAuto (q : Requesters) : q.join .ofAuto = { q with auto := true } := by
  simp [Requesters.join, Requesters.ofAuto, Requesters.empty]

/-- R56: what a stray burst makes of its leg. -/
def Leg.strayed (g : Leg) (limit : Nat) : Leg :=
  if limit ≠ 0 ∧ limit ≤ satInc g.stray 255 ∧ (g.st = .running ∨ g.st = .suspended) then
    { g with stray := 0, pendSurvey := some (.withAuto g.pendSurvey) }
  else { g with stray := satInc g.stray 255 }

theorem Dev.strayBurst_eq (e : Env) (d : Dev) (l : Fin 4) :
    d.strayBurst e l = d.modLeg l fun g => g.strayed (e.cfg.leg l).strayLimit := by
  unfold Dev.strayBurst
  dsimp only
  split
  next h =>
    rw [Dev.requestSurvey, Dev.modLeg_modLeg]
    refine Dev.modLeg_congr d l _ _ ?_
    show _ = (d.leg l).strayed _
    rw [Leg.strayed, if_pos h]
    cases hpend : (d.leg l).pendSurvey with
    | none => rfl
    | some q => simp [Requesters.withAuto, Requesters.join_ofAuto]
  next h => exact Dev.modLeg_congr d l _ _ (if_neg h).symm

/-- R56: below the limit a stray burst only counts. -/
theorem Leg.strayed_of_below {g : Leg} {limit : Nat} (hstray : g.stray < 255) (hlimit : limit = 0 ∨ g.stray + 1 < limit) :
    g.strayed limit = { g with stray := g.stray + 1 } := by
  have hcount : satInc g.stray 255 = g.stray + 1 := if_pos hstray
  rw [Leg.strayed, hcount, if_neg (by omega)]

theorem Dev.strayBurst_of_below {e : Env} {d : Dev} {l : Fin 4} (hstray : (d.leg l).stray < 255)
    (hlimit : (e.cfg.leg l).strayLimit = 0 ∨ (d.leg l).stray + 1 < (e.cfg.leg l).strayLimit) :
    d.strayBurst e l = d.modLeg l fun g => { g with stray := g.stray + 1 } := by
  rw [Dev.strayBurst_eq]
  exact Dev.modLeg_congr d l _ _ (Leg.strayed_of_below hstray hlimit)

/-! ## Bursts by the owner of the channel (R54, R55, R70) -/

theorem Dev.hailHears_iff (e : Env) (d : Dev) (l : Fin 4) (w : HailWindow) :
    d.hailHears e l w = true ↔ w.opened ≠ none ∨ (d.leg l).quietSpanRuns (e.cfg.leg l).reach e.cycle = true := by
  simp [Dev.hailHears, Dev.inQuietSpan, Option.isSome_iff_ne_none]

theorem Leg.decodesFree_iff (g : Leg) (reach : Nat) (c : BitVec 16) (p : Option Placement) :
    g.decodesFree reach c p = true ↔
      (g.st = .running ∨ g.st = .suspended ∨ g.st = .hunting) ∧ (p.isSome = true ∨ g.quietSpanRuns reach c = true) := by
  simp only [Leg.decodesFree, Leg.decodes, Bool.and_eq_true, Bool.or_eq_true, decide_eq_true_eq, or_assoc]

section
variable {d : Dev} {l : Fin 4} (e : Env)

theorem Dev.garbled_free (h : (d.leg l).chan = .free) (p : Option Placement) :
    d.garbled e l p = if (d.leg l).decodesFree (e.cfg.leg l).reach e.cycle p then d.strayBurst e l else d := by
  unfold Dev.garbled
  dsimp only
  rw [h]

theorem Dev.garbled_hail {w : HailWindow} (h : (d.leg l).chan = .hail w) (p : Option Placement) :
    d.garbled e l p = if d.hailHears e l w then d.modLeg l fun g => { g with chan := .hail { w with others := true } } else d := by
  unfold Dev.garbled
  dsimp only
  rw [h]

theorem Dev.garbled_owned (h : (∃ x, (d.leg l).chan = .directive x) ∨ ∃ w, (d.leg l).chan = .survey w) (p : Option Placement) :
    d.garbled e l p = d := by
  unfold Dev.garbled
  dsimp only
  obtain ⟨x, h⟩ | ⟨w, h⟩ := h <;> rw [h]

theorem Dev.strayHail_free (h : (d.leg l).chan = .free) (p : Option Placement) :
    d.strayHail e l p = if (d.leg l).decodesFree (e.cfg.leg l).reach e.cycle p then d.strayBurst e l else d := by
  unfold Dev.strayHail
  dsimp only
  rw [h]

theorem Dev.strayHail_directive {x : InFlight} (h : (d.leg l).chan = .directive x) (p : Option Placement) :
    d.strayHail e l p = if x.hears p || d.inQuietSpan e l then d.strayBurst e l else d := by
  unfold Dev.strayHail
  dsimp only
  rw [h]

variable (src : BitVec 12) (tag : BitVec 6) (code : ReplyCode) (data : List Byte) (level : Byte) (delay : Nat)

theorem Dev.reply_hail {w : HailWindow} (h : (d.leg l).chan = .hail w) (p : Option Placement) :
    d.reply e l src tag code data level delay p =
      if d.hailHears e l w then (d.modLeg l fun g => { g with chan := .hail { w with others := true } }).strayBurst e l else d := by
  unfold Dev.reply
  rw [h]

/-- R54: with no directive on the channel, or another tag, a reply is ignored. -/
theorem Dev.reply_ignored (h : (d.leg l).chan = .free ∨ (∃ w, (d.leg l).chan = .survey w) ∨
      ∃ x, (d.leg l).chan = .directive x ∧ x.tag ≠ some tag) (p : Option Placement) :
    d.reply e l src tag code data level delay p = d := by
  unfold Dev.reply
  obtain h | ⟨w, h⟩ | ⟨x, h, htag⟩ := h
  · rw [h]
  · rw [h]
  · rw [h]
    dsimp only
    rw [if_pos htag]
    exact ite_self d

section
variable {x : InFlight} (h : (d.leg l).chan = .directive x) (htag : x.tag = some tag) {p : Option Placement}
  (hheard : x.hearsReply p = true)
include h htag hheard

/-- R54: a reply with the current tag, heard, from a source that answers the directive. -/
theorem Dev.reply_answer (hcall : x.call = none) (hsource : x.dir.target.answeredBy src = true) :
    d.reply e l src tag code data level delay p = d.answer e l x src code data level delay := by
  unfold Dev.reply
  simp [h, hheard, htag, hcall, hsource]

/-- R54: and from one that cannot. -/
theorem Dev.reply_stray (hcall : x.call = none) (hsource : x.dir.target.answeredBy src = false) :
    d.reply e l src tag code data level delay p = d.strayBurst e l := by
  unfold Dev.reply
  simp [h, hheard, htag, hcall, hsource]

/-- R53: a reply with the current tag, heard, to a group or estate CALL. -/
theorem Dev.reply_call {k : CallSets} (hcall : x.call = some k) :
    d.reply e l src tag code data level delay p = d.callReply e l x k src code level := by
  unfold Dev.reply
  simp [h, hheard, htag, hcall]

end

end

theorem exec_replyBurst {s : State} (hrun : s.phase = .running) (l : Fin 4) (src : BitVec 12) (tag : BitVec 6) (code : ReplyCode)
    (data : List Byte) (level : Byte) (delay : Nat) (p : Option Placement) :
    exec (.replyBurst l src tag code data level delay p) s =
      .next { s with dev := s.dev.reply s.env l src tag code data level delay p } :=
  congrArg Host.Outcome.next (State.running_eq hrun _)

theorem exec_garbledBurst {s : State} (hrun : s.phase = .running) (l : Fin 4) (p : Option Placement) :
    exec (.garbledBurst l p) s = .next { s with dev := s.dev.garbled s.env l p } :=
  congrArg Host.Outcome.next (State.running_eq hrun _)

theorem exec_strayHail {s : State} (hrun : s.phase = .running) (l : Fin 4) (serial : BitVec 64) (kind count level : Byte)
    (p : Option Placement) :
    exec (.strayHailFormatBurst l serial kind count level p) s = .next { s with dev := s.dev.strayHail s.env l p } :=
  congrArg Host.Outcome.next (State.running_eq hrun _)

/-- Settles O41: garbled bursts by the owner of the channel, and a hail-format burst outside a hail window as stray. -/
theorem strayBurstsAreCounted : Obligations.StrayBurstsAreCounted := by
  constructor
  · intro s l p hrun g span
    have hhears (w : HailWindow) := s.dev.hailHears_iff s.env l w
    refine ⟨fun w hchan hopen => ?_, fun w hchan hclosed hspan => ?_, fun w src tag code data level delay hchan hopen hstray hlimit => ?_,
      fun howned => ?_, fun hchan hst hplace hstray hlimit => ?_⟩
    · rw [exec_garbledBurst hrun, Dev.garbled_hail s.env hchan, if_pos ((hhears w).2 hopen)]
    · rw [exec_garbledBurst hrun, Dev.garbled_hail s.env hchan, if_neg (mt (hhears w).1 (not_or.2 ⟨not_not.2 hclosed, hspan⟩))]
    · rw [exec_replyBurst hrun, Dev.reply_hail s.env src tag code data level delay hchan, if_pos ((hhears w).2 hopen),
        Dev.strayBurst_of_below, Dev.modLeg_modLeg]
      · rw [Dev.modLeg_leg_self]
        exact hstray
      · rw [Dev.modLeg_leg_self]
        exact hlimit
    · rw [exec_garbledBurst hrun]
      refine State.next_dev_self ?_
      obtain hdir | hsurvey | ⟨hfree, hst⟩ := howned
      · exact Dev.garbled_owned s.env (.inl hdir) p
      · exact Dev.garbled_owned s.env (.inr hsurvey) p
      · have hdeaf : ¬ g.decodesFree (s.env.cfg.leg l).reach s.env.cycle p = true := fun h => by
          obtain ⟨hon, -⟩ := (Leg.decodesFree_iff _ _ _ _).1 h
          obtain hst | hst := hst <;> simp [hst] at hon
        rw [Dev.garbled_free s.env hfree, if_neg hdeaf]
    · have hdecodes : (s.dev.leg l).decodesFree (s.env.cfg.leg l).reach s.env.cycle p = true :=
        (Leg.decodesFree_iff _ _ _ _).2 ⟨hst, hplace⟩
      rw [exec_garbledBurst hrun, Dev.garbled_free s.env hchan, if_pos hdecodes, Dev.strayBurst_of_below hstray hlimit]
  · intro s l serial kind count level p hrun g limit hst span hheard
    rw [exec_strayHail hrun]
    refine State.next_dev_congr ?_
    have hstray : s.dev.strayHail s.env l p = s.dev.strayBurst s.env l := by
      obtain ⟨x, hchan, hplace⟩ | ⟨hchan, hplace⟩ := hheard
      · rw [Dev.strayHail_directive s.env hchan, if_pos (by rw [Bool.or_eq_true]; exact hplace)]
      · have hdecodes : (s.dev.leg l).decodesFree (s.env.cfg.leg l).reach s.env.cycle p = true :=
          (Leg.decodesFree_iff _ _ _ _).2 ⟨hst, hplace⟩
        rw [Dev.strayHail_free s.env hchan, if_pos hdecodes]
    rw [hstray, Dev.strayBurst_eq]
    refine Dev.modLeg_congr s.dev l _ _ ?_
    have hon : (g.st = .running ∨ g.st = .suspended) ↔ g.st ≠ .hunting := by
      obtain h | h | h := hst <;> simp [h]
    show g.strayed limit = _
    unfold Leg.strayed
    simp only [hon]
    rfl

/-! ## Levels (R25, R157) -/

/-- The record found for a drop address is changed. -/
theorem Dev.modSource_record {d : Dev} (hrecs : Sparse.wf Rec.vacant d.recs = true) {l : Fin 4} {src : BitVec 12} {r : Nat} {x : Rec}
    (hfind : (d.recordsOn l).find? (fun q => decide (q.2.enrol.addr = src)) = some (r, x)) (f : Rec → Rec) :
    (d.modSource l src f).record r = f (d.record r) := by
  unfold Dev.modSource
  rw [hfind]
  exact Dev.modRec_record_self d r f hrecs

/-- R25, R157: the level fields after an answer; a LEVEL's CHECK or FULL leaves the flags. -/
theorem Dev.answerLevel_record {d : Dev} (hrecs : Sparse.wf Rec.vacant d.recs = true) {l : Fin 4} {src : BitVec 12} {r : Nat}
    (hfind : (d.recordsOn l).find? (fun q => decide (q.2.enrol.addr = src)) = some (r, d.record r)) {x : InFlight}
    (hfrom : ∀ a g i j, x.dir.body = .assign a g i j → src = a) (code : ReplyCode) (v : Byte) :
    (d.answerLevel l x src code v).record r =
      if x.leavesWanted code then { d.record r with level := v } else (d.record r).setLevel v := by
  have hlevel : x.levelFrom src = true := by
    unfold InFlight.levelFrom
    split
    next a g i j hbody => exact decide_eq_true (hfrom a g i j hbody)
    next => rfl
  unfold Dev.answerLevel
  rw [if_pos hlevel]
  split
  next => exact Dev.modSource_record hrecs hfind _
  next => exact Dev.modSource_record hrecs hfind _

theorem InFlight.leavesWanted_of_unsettled {x : InFlight} {code : ReplyCode} (h : code = .check ∨ code = .full) :
    x.leavesWanted code = decide (x.dir.body = .level) := by
  unfold InFlight.leavesWanted
  obtain rfl | rfl := h <;> cases x.dir.body <;> rfl

theorem InFlight.leavesWanted_of_ne_level {x : InFlight} (h : x.dir.body ≠ .level) (code : ReplyCode) :
    x.leavesWanted code = false := by
  unfold InFlight.leavesWanted
  cases hbody : x.dir.body with
  | level => exact absurd hbody h
  | _ => rfl

/-! ## An answer that does not end its directive (R51, R150) -/

/-- R51, R150: the answers that leave the send open. -/
def Body.keepsOpen (b : Body) (code : ReplyCode) (data : List Byte) : Prop :=
  code = .check ∨ code = .full ∨ (code = .ok ∧ ∃ off len, b = .peek off len ∧ data.length ≠ len)

theorem Body.endingCode_of_keepsOpen {b : Body} {code : ReplyCode} {data : List Byte} (h : b.keepsOpen code data) :
    b.endingCode code data = none := by
  obtain rfl | rfl | ⟨rfl, off, len, rfl, hlen⟩ := h
  · rfl
  · rfl
  · simp [Body.endingCode, Body.okEnds, hlen]

/-- Where an answer keeps the send open, the flags stay exactly for a LEVEL. -/
theorem InFlight.leavesWanted_of_keepsOpen {x : InFlight} {code : ReplyCode} {data : List Byte} (h : x.dir.body.keepsOpen code data) :
    x.leavesWanted code = decide (x.dir.body = .level) := by
  obtain h | h | ⟨-, off, len, hbody, -⟩ := h
  · exact InFlight.leavesWanted_of_unsettled (.inl h)
  · exact InFlight.leavesWanted_of_unsettled (.inr h)
  · have hne : x.dir.body ≠ .level := by rw [hbody]; nofun
    rw [InFlight.leavesWanted_of_ne_level hne, decide_eq_false hne]

theorem Dev.answer_of_keepsOpen (e : Env) (d : Dev) (l : Fin 4) {x : InFlight} {code : ReplyCode} {data : List Byte}
    (h : x.dir.body.keepsOpen code data) (src : BitVec 12) (level : Byte) (delay : Nat) :
    d.answer e l x src code data level delay =
      (d.answerLevel l x src code level).modLeg l fun g => { g with chan := .directive { x with unsettled := true } } := by
  unfold Dev.answer
  dsimp only
  rw [Body.endingCode_of_keepsOpen h]

/-! ## Replies to a group or estate CALL (R53, R54) -/

/-- R53: what a reply that is no stray adds to the collected sets. -/
def CallSets.heard (k : CallSets) (src : BitVec 12) (code : ReplyCode) : CallSets :=
  if src ∈ k.expected then
    if code = .ok then { k with answered := if src ∈ k.answered then k.answered else k.answered ++ [src], okSeen := true }
    else if code = .refused then
      { k with answered := if src ∈ k.answered then k.answered else k.answered ++ [src], refusedSeen := true }
    else { k with unsettled := true }
  else { k with others := if src ∈ k.others then k.others else k.others ++ [src] }

theorem addOnce_eq (xs : List (BitVec 12)) (a : BitVec 12) : addOnce xs a = if a ∈ xs then xs else xs ++ [a] := by
  simp [addOnce]

theorem isIndividual_iff (a : BitVec 12) : isIndividual a = true ↔ 1 ≤ a.toNat ∧ a.toNat ≤ 0xDFF := by simp [isIndividual]

theorem Dev.callReply_of_heard (e : Env) (d : Dev) (l : Fin 4) (x : InFlight) {k : CallSets} {src : BitVec 12}
    (h : src ∈ k.expected ∨ (1 ≤ src.toNat ∧ src.toNat ≤ 0xDFF)) (code : ReplyCode) (level : Byte) :
    d.callReply e l x k src code level =
      (d.levelUpdate l src level).modLeg l fun g => { g with chan := .directive { x with call := some (k.heard src code) } } := by
  unfold Dev.callReply
  dsimp only
  by_cases hmem : src ∈ k.expected
  · have hmember : k.member src code = k.heard src code := by
      rw [CallSets.heard, if_pos hmem]
      cases code <;> simp [CallSets.member, addOnce_eq]
    rw [if_pos (by simpa using hmem), hmember]
  · have hother : ({ k with others := addOnce k.others src } : CallSets) = k.heard src code := by
      rw [CallSets.heard, if_neg hmem, addOnce_eq]
    rw [if_neg (by simpa using hmem), if_pos ((isIndividual_iff src).2 (h.resolve_left hmem)), hother]

theorem Dev.callReply_of_stray (e : Env) (d : Dev) (l : Fin 4) (x : InFlight) {k : CallSets} {src : BitVec 12} (h : src ∉ k.expected)
    (hsrc : ¬ (1 ≤ src.toNat ∧ src.toNat ≤ 0xDFF)) (code : ReplyCode) (level : Byte) :
    d.callReply e l x k src code level = d.strayBurst e l := by
  unfold Dev.callReply
  dsimp only
  rw [if_neg (by simpa using h), if_neg (mt (isIndividual_iff src).1 hsrc)]

/-- Settles O30: a burst that is ignored, a stray answer, an answer that leaves its send open, and the replies to a CALL of many. -/
theorem repliesThatEndNothing : Obligations.RepliesThatEndNothing := by
  refine ⟨fun s l src tag code data level delay p hrun howner => ?_,
    fun s l x src tag code data level delay p hrun hchan htag hcall hsource hheard hlimit hstray => ?_,
    fun s l x src tag code data level delay p hinv hanswers hopen => ?_,
    fun s l x k src tag code data level delay p hrun hinv hchan htag hcall hheard => ⟨fun hkeep => ?_,
      fun hout hsource hstray hlimit => ?_⟩⟩
  · rw [exec_replyBurst hrun]
    exact State.next_dev_self (Dev.reply_ignored s.env src tag code data level delay howner p)
  · rw [exec_replyBurst hrun, Dev.reply_stray s.env src tag code data level delay hchan htag hheard hcall hsource,
      Dev.strayBurst_of_below hstray hlimit]
  · obtain ⟨hrun, hchan, htag, hcall, hsource, hheard⟩ := hanswers
    have hrecs := hinv.good.recs
    have hreply : s.dev.reply s.env l src tag code data level delay p =
        (s.dev.answerLevel l x src code level).modLeg l fun g => { g with chan := .directive { x with unsettled := true } } := by
      rw [Dev.reply_answer s.env src tag code data level delay hchan htag hheard hcall hsource, Dev.answer_of_keepsOpen s.env s.dev l hopen]
    have hlegs (k : Fin 4) : (s.dev.answerLevel l x src code level).leg k = s.dev.leg k := by rw [Dev.answerLevel_eq]; rfl
    refine ⟨_, (exec_replyBurst hrun l src tag code data level delay p).trans (State.next_dev_congr hreply), by rw [Dev.modLeg_leg_self, hlegs], fun k hk => ?_, ?_, fun r => ?_,
      fun r hfind hfrom => ?_⟩
    · rw [Dev.modLeg_leg_ne _ _ _ _ hk, hlegs]
    · rw [Dev.answerLevel_eq]
      rfl
    · rw [Dev.modLeg_record]
      exact Dev.answerLevel_plan hrecs l x src code level r
    · dsimp only
      rw [Dev.modLeg_record, Dev.answerLevel_record hrecs hfind hfrom, InFlight.leavesWanted_of_keepsOpen hopen]
      by_cases hlevel : x.dir.body = .level
      · simp [hlevel]
      · simp [hlevel, Rec.setLevel]
  · have hrecs := hinv.good.recs
    have hlegs (j : Fin 4) : (s.dev.levelUpdate l src level).leg j = s.dev.leg j := by rw [Dev.levelUpdate_leg]
    have hreply : s.dev.reply s.env l src tag code data level delay p =
        (s.dev.levelUpdate l src level).modLeg l fun g => { g with chan := .directive { x with call := some (k.heard src code) } } := by
      rw [Dev.reply_call s.env src tag code data level delay hchan htag hheard hcall]
      exact Dev.callReply_of_heard s.env s.dev l x hkeep code level
    refine ⟨_, (exec_replyBurst hrun l src tag code data level delay p).trans (State.next_dev_congr hreply), by rw [Dev.modLeg_leg_self, hlegs]; rfl, fun j hj => ?_, ?_, fun r => ?_,
      fun r hfind => ?_⟩
    · rw [Dev.modLeg_leg_ne _ _ _ _ hj, hlegs]
    · rw [Dev.levelUpdate_eq]
      rfl
    · rw [Dev.modLeg_record]
      exact Dev.levelUpdate_plan hrecs l src level r
    · rw [Dev.modLeg_record, Dev.levelUpdate, Dev.modSource_record hrecs hfind]
      exact ⟨rfl, rfl, rfl⟩
  · rw [exec_replyBurst hrun, Dev.reply_call s.env src tag code data level delay hchan htag hheard hcall,
      Dev.callReply_of_stray s.env s.dev l x hout hsource, Dev.strayBurst_of_below hstray hlimit]

end Sys2Proof.Machine
end

section
/-! O28 and O29 (R50, R51, R53): the sends of a directive and the end of a send's window. -/

namespace Sys2Proof.Machine

/-! ## The end of a directive (R51) -/

/-- R40, R51: only a quiet directive that is answered leaves a span behind. -/
theorem InFlight.tailSpan_of_not_answered (x : InFlight) {o : Ending} (h : o = .silent ∨ o = .unsettled) (now : BitVec 16) :
    x.tailSpan o now = [] := by
  obtain rfl | rfl := h <;> rfl

theorem InFlight.tailSpan_of_not_quiet {x : InFlight} (h : x.dir.body.quiet = false) (o : Ending) (now : BitVec 16) :
    x.tailSpan o now = [] := by
  unfold InFlight.tailSpan
  split
  next => simp [h]
  next => rfl

/-- R42, R51: the channel is FREE as the outcome is delivered. -/
theorem Dev.finish_of_no_span (e : Env) (d : Dev) (l : Fin 4) {x : InFlight} {o : Ending} (h : x.tailSpan o e.cycle = []) :
    d.finish e l x o = (d.modLeg l fun g => { g with chan := .free }).deliver e l x o := by
  unfold Dev.finish
  rw [h]
  simp only [List.append_nil]

theorem Dev.deliver_cmd (e : Env) (d : Dev) (l : Fin 4) {x : InFlight} {n : Nat} (h : x.origin = .cmd n) (o : Ending) :
    d.deliver e l x o = d.commandOutcome n x o := by
  unfold Dev.deliver
  rw [h]

theorem Dev.commandOutcome_one (d : Dev) (n : Nat) {x : InFlight} (h : x.call = none) (o : Ending) :
    d.commandOutcome n x o = d.complete n o.result (o.detail x) := by
  unfold Dev.commandOutcome
  rw [h]

theorem Dev.commandOutcome_many (d : Dev) (n : Nat) {x : InFlight} {k : CallSets} (h : x.call = some k) (o : Ending) :
    d.commandOutcome n x o = d.complete n k.result (.groupCall x.sends (some k)) := by
  unfold Dev.commandOutcome
  rw [h]

/-- R149: a command's directive that ends frees the channel and completes its slot. -/
theorem Dev.complete_freed {d : Dev} (hslots : Sparse.wf Slot.idle d.slots = true) (l : Fin 4) (n : Nat) (res : ResultCode) (y : Detail) :
    let d' := (d.modLeg l fun g => { g with chan := .free }).complete n res y
    d'.leg l = { d.leg l with chan := .free } ∧ slotDone d d' n res y ∧ d'.recs = d.recs ∧ ∀ k, k ≠ l → d'.leg k = d.leg k :=
  ⟨Dev.modLeg_leg_self d l fun g => { g with chan := .free }, Dev.complete_slotDone (d := d.modLeg l fun g => { g with chan := .free }) hslots n res y,
    rfl, fun k hk => Dev.modLeg_leg_ne d l k (fun g => { g with chan := .free }) hk⟩

/-- R153: the result of a group or estate CALL, in the order of choice. -/
theorem CallSets.result_eq (k : CallSets) :
    k.result = if k.refusedSeen then .refused else if k.complete then .ok else if k.answered ≠ [] then .partialAnswer
      else if k.unsettled then .unsettled else .silent := by
  simp [CallSets.result, CallSets.complete]

/-! ## The window of a send (R51, R53) -/

theorem Leg.inFlight_directive {g : Leg} {x : InFlight} (h : g.chan = .directive x) : g.inFlight = some x := by
  unfold Leg.inFlight
  rw [h]

theorem InFlight.windowOver_of {x : InFlight} {c0 now : BitVec 16} (hphase : x.phase = .listening c0)
    (hover : x.window + 1 + lag x.reach ≤ cyclesFrom c0 now) : x.windowOver now = true := by
  unfold InFlight.windowOver
  rw [hphase]
  exact decide_eq_true hover

section
variable {d : Dev} {l : Fin 4} {x : InFlight} {c0 : BitVec 16} (e : Env) (hchan : (d.leg l).chan = .directive x)
  (hphase : x.phase = .listening c0)
include hchan hphase

/-- R28: before its end nothing changes. -/
theorem Dev.sendWindowEnd_early (h : cyclesFrom c0 e.cycle < x.window + 1 + lag x.reach) : d.sendWindowEnd e l = d := by
  have hover : x.windowOver e.cycle = false := by
    unfold InFlight.windowOver
    rw [hphase]
    exact decide_eq_false (by omega)
  unfold Dev.sendWindowEnd
  simp [Leg.inFlight_directive hchan, hphase, hover]

/-- R51: a directive with one target is sent again while sends are left, and else ends. -/
theorem Dev.sendWindowEnd_one (hover : x.window + 1 + lag x.reach ≤ cyclesFrom c0 e.cycle) (hcall : x.call = none) :
    d.sendWindowEnd e l =
      if x.sends < x.attempts then d.modLeg l fun g => { g with chan := .directive { x with phase := .spacing c0 e.cycle } }
      else d.finish e l x (if x.unsettled then .unsettled else .silent) := by
  unfold Dev.sendWindowEnd
  rw [Leg.inFlight_directive hchan]
  dsimp only
  split
  next c hlistening =>
    cases hphase.symm.trans hlistening
    rw [if_pos (InFlight.windowOver_of hphase hover)]
    split
    next k hsome => cases hcall.symm.trans hsome
    next => rfl
  next hother => cases hphase.symm.trans hother
  next hother => cases hphase.symm.trans hother
  next hother => cases hphase.symm.trans hother

/-- R53: a CALL of many ends when every expected address has answered, and else likewise. -/
theorem Dev.sendWindowEnd_many (hover : x.window + 1 + lag x.reach ≤ cyclesFrom c0 e.cycle) {k : CallSets} (hcall : x.call = some k) :
    d.sendWindowEnd e l =
      if k.complete then d.finish e l x (.answered true [] 0 0)
      else if x.sends < x.attempts then d.modLeg l fun g => { g with chan := .directive { x with phase := .spacing c0 e.cycle } }
      else d.finish e l x k.ending := by
  unfold Dev.sendWindowEnd
  rw [Leg.inFlight_directive hchan]
  dsimp only
  split
  next c hlistening =>
    cases hphase.symm.trans hlistening
    rw [if_pos (InFlight.windowOver_of hphase hover)]
    split
    next k hsome =>
      cases hcall.symm.trans hsome
      rfl
    next hnone => cases hcall.symm.trans hnone
  next hother => cases hphase.symm.trans hother
  next hother => cases hphase.symm.trans hother
  next hother => cases hphase.symm.trans hother

end

theorem exec_sendWindowEnd {s : State} (hrun : s.phase = .running) (l : Fin 4) :
    exec (.sendWindowEnd l) s = .next { s with dev := s.dev.sendWindowEnd s.env l } :=
  congrArg Host.Outcome.next (State.running_eq hrun _)

/-- Settles O29: a window too early, a send left, and the two ends. -/
theorem sendWindowEndRetriesOrEnds : Obligations.SendWindowEndRetriesOrEnds := by
  constructor
  · intro s l x c0
    refine ⟨fun hrun hchan hphase hearly => ?_, fun hended hmore => ?_, fun n hended hinv hlast horigin => ?_⟩
    · rw [exec_sendWindowEnd hrun]
      exact State.next_dev_self (Dev.sendWindowEnd_early s.env hchan hphase hearly)
    · obtain ⟨hrun, hchan, hphase, hcall, hover⟩ := hended
      rw [exec_sendWindowEnd hrun, Dev.sendWindowEnd_one s.env hchan hphase hover hcall, if_pos hmore]
      rfl
    · obtain ⟨hrun, hchan, hphase, hcall, hover⟩ := hended
      have hspan : x.tailSpan (if x.unsettled then .unsettled else .silent) s.env.cycle = [] :=
        x.tailSpan_of_not_answered (by split_ifs <;> simp) _
      have hend : s.dev.sendWindowEnd s.env l = (s.dev.modLeg l fun g => { g with chan := .free }).complete n
          (if x.unsettled then .unsettled else .silent) { Detail.zero with a := x.sends } := by
        rw [Dev.sendWindowEnd_one s.env hchan hphase hover hcall, if_neg (by omega), Dev.finish_of_no_span s.env s.dev l hspan,
          Dev.deliver_cmd s.env _ l horigin, Dev.commandOutcome_one _ n hcall]
        split_ifs <;> rfl
      exact ⟨_, (exec_sendWindowEnd hrun l).trans (State.next_dev_congr hend), Dev.complete_freed hinv.good.slots l n _ _⟩
  · intro s l x k c0 n body hrun hinv hchan hphase hover hcall horigin hbody all
    have hquiet : x.dir.body.quiet = false := by rw [hbody]; rfl
    have hfinish (o : Ending) : s.dev.finish s.env l x o =
        (s.dev.modLeg l fun g => { g with chan := .free }).complete n k.result (.groupCall x.sends (some k)) := by
      rw [Dev.finish_of_no_span s.env s.dev l (InFlight.tailSpan_of_not_quiet hquiet o _), Dev.deliver_cmd s.env _ l horigin,
        Dev.commandOutcome_many _ n hcall]
    have hend := Dev.sendWindowEnd_many s.env hchan hphase hover hcall
    rw [hfinish, hfinish] at hend
    by_cases hagain : all = false ∧ x.sends < x.attempts
    · obtain ⟨hopen, hmore⟩ := hagain
      have hincomplete : ¬ k.complete = true := Bool.not_eq_true _ ▸ hopen
      rw [if_pos ⟨hopen, hmore⟩, exec_sendWindowEnd hrun, hend, if_neg hincomplete, if_pos hmore]
      rfl
    · have hdone : s.dev.sendWindowEnd s.env l =
          (s.dev.modLeg l fun g => { g with chan := .free }).complete n k.result (.groupCall x.sends (some k)) := by
        rw [hend]
        by_cases hcomplete : k.complete = true
        · rw [if_pos hcomplete]
        · rw [if_neg hcomplete, if_neg fun hmore => hagain ⟨Bool.not_eq_true _ ▸ hcomplete, hmore⟩]
      obtain ⟨hleg, hslot, hrecs, -⟩ := Dev.complete_freed hinv.good.slots l n k.result (.groupCall x.sends (some k))
      rw [if_neg hagain]
      exact ⟨_, (exec_sendWindowEnd hrun l).trans (State.next_dev_congr hdone), hleg, hrecs, k.result_eq ▸ hslot⟩

/-! ## A send (R3, R50, R87, R140) -/

/-- R3: the record that an origin's sends count for is changed. -/
def Dev.countOn (d : Dev) (o : Origin) (f : Rec → Rec) : Dev :=
  match o.countedRecord with
  | some r => d.modRec r f
  | none => d

theorem Dev.countOn_legs (d : Dev) (o : Origin) (f : Rec → Rec) : (d.countOn o f).legs = d.legs := by
  unfold Dev.countOn
  split
  next => rfl
  next => rfl

theorem Dev.countOn_leg (d : Dev) (o : Origin) (f : Rec → Rec) (k : Fin 4) : (d.countOn o f).leg k = d.leg k :=
  congrArg (Legs.get · k) (d.countOn_legs o f)

theorem Dev.countOn_cmd (d : Dev) {o : Origin} {n : Nat} (h : o = .cmd n) (f : Rec → Rec) : d.countOn o f = d := by
  subst h
  rfl

theorem Dev.countOn_record {d : Dev} (hrecs : Sparse.wf Rec.vacant d.recs = true) {o : Origin} {r : Nat} (h : o.countedRecord = some r)
    (f : Rec → Rec) : (d.countOn o f).record r = f (d.record r) ∧ ∀ q, q ≠ r → (d.countOn o f).record q = d.record q := by
  unfold Dev.countOn
  rw [h]
  exact ⟨Dev.modRec_record_self d r f hrecs, fun q hq => Dev.modRec_record_ne d r q f hq⟩

/-- R31, R40: leg l as a send goes out. -/
def Leg.sent (g : Leg) (c : BitVec 16) (x : InFlight) (t : BitVec 6) : Leg :=
  Leg.markNow { g with
    chan := .directive { x with phase := .listening c, tag := some t, sends := x.sends + 1 }
    lastSent := some ⟨c, t, x.dir, x.data⟩ } c

theorem Dev.sendNow_eq (e : Env) (d : Dev) (l : Fin 4) (x : InFlight) (t : BitVec 6) :
    d.sendNow e l x t = d.modLeg l fun g => g.sent e.cycle x t := rfl

/-- R50: what a first send fixes of its directive. -/
def Dev.fixed (e : Env) (d : Dev) (l : Fin 4) (x : InFlight) : InFlight :=
  { x with
    attempts := d.attemptsFor e l x.dir x.origin, spacing := (e.cfg.leg l).spacing, window := d.replyWindow e l x.dir
    call := d.callSets l x.dir.target }

theorem Dev.firstSend_eq {d : Dev} {l : Fin 4} {x : InFlight} {since : BitVec 16} (e : Env) (hchan : (d.leg l).chan = .directive x)
    (hphase : x.phase = .ready since) (hdue : since ≠ e.cycle) :
    d.firstSend e l =
      (d.modLeg l fun g => Leg.sent { g with tagCtr := g.tagCtr + 1 } e.cycle (d.fixed e l x) (d.leg l).tagCtr).countOn x.origin
        fun z => (z.countSend x.dir.body).markFirstSend x.dir.body := by
  have hfirst : x.firstDue e.cycle = true := by
    unfold InFlight.firstDue
    rw [hphase]
    exact decide_eq_true hdue.symm
  unfold Dev.firstSend
  dsimp only
  rw [Leg.inFlight_directive hchan]
  dsimp only
  rw [if_pos hfirst, Dev.sendNow_eq, Dev.modLeg_modLeg] <;> rfl

theorem InFlight.spacingShort_eq_false_iff (x : InFlight) : x.spacingShort = false ↔ 31250 + x.reach ≤ x.spacing * 31250 :=
  decide_eq_false_iff_not.trans not_lt

theorem InFlight.retryDue_iff {x : InFlight} {c0 ended : BitVec 16} (hphase : x.phase = .spacing c0 ended) (c : BitVec 16) :
    x.retryDue c = true ↔ x.window + x.spacing ≤ cyclesFrom c0 c ∧ (c ≠ ended ∨ 31250 + x.reach ≤ x.spacing * 31250) := by
  unfold InFlight.retryDue
  rw [hphase, ← x.spacingShort_eq_false_iff]
  simp [or_comm]

theorem Dev.retrySend_eq {d : Dev} {l : Fin 4} {x : InFlight} {t : BitVec 6} (e : Env) (hchan : (d.leg l).chan = .directive x)
    (htag : x.tag = some t) :
    d.retrySend e l = if x.retryDue e.cycle then
        (d.modLeg l fun g => g.sent e.cycle x t).countOn x.origin fun z => z.countSend x.dir.body
      else d := by
  unfold Dev.retrySend
  rw [Leg.inFlight_directive hchan]
  dsimp only
  rw [Dev.sendNow_eq, htag] <;> rfl

/-! ## What a first send fixes (R38, R50, R53, R89) -/

theorem Dev.replyWindow_range (e : Env) (d : Dev) (l : Fin 4) {dir : Directive} (h : dir.body = .range) : d.replyWindow e l dir = 3 := by
  unfold Dev.replyWindow
  rw [h]

theorem Dev.replyWindow_of_ne (e : Env) (d : Dev) (l : Fin 4) {dir : Directive} (h : dir.body ≠ .range) :
    d.replyWindow e l dir = rankCycles (d.callRanks l dir.target) + (e.cfg.leg l).replyWin := by
  unfold Dev.replyWindow
  split
  next hbody => exact absurd hbody h
  next => rfl

/-- R38: a directive with one target waits for no rank. -/
theorem Dev.rankCycles_one (d : Dev) (l : Fin 4) {t : Target} (h : t.isMany = false) : rankCycles (d.callRanks l t) = 0 := by
  cases t with
  | individual a => rfl
  | serial a => rfl
  | group a => cases h
  | estate => cases h

theorem Dev.attemptsFor_of_ne (e : Env) (d : Dev) (l : Fin 4) {dir : Directive} (o : Origin) (h : dir.body ≠ .range) :
    d.attemptsFor e l dir o = (e.cfg.leg l).attempts := by
  unfold Dev.attemptsFor
  split
  next hbody => exact absurd hbody h
  next => rfl

theorem Dev.attemptsFor_range (e : Env) {d : Dev} (l : Fin 4) {dir : Directive} {r : Nat} {z : Ranging} (h : dir.body = .range)
    (hz : (d.record r).ranging = some z) : d.attemptsFor e l dir (.record r) = min (e.cfg.leg l).attempts (z.limit - z.sends) := by
  have hctx : (d.record r).rangingCtx = z := by rw [Rec.rangingCtx, hz]; rfl
  unfold Dev.attemptsFor
  rw [h]
  dsimp only
  rw [hctx]

theorem Dev.callSets_isSome (d : Dev) (l : Fin 4) (t : Target) : (d.callSets l t).isSome = t.isMany := by
  cases t <;> rfl

/-- R53: the record is called: of the group where the call is to one. -/
def Target.calls (t : Target) (z : Rec) : Prop := z.addressed = true ∧ ∀ a, t = .group a → z.enrol.group = a

/-- R53: the expected set of a call, with nothing collected yet. -/
theorem Dev.callSets_spec {d : Dev} (hrecs : Sparse.wf Rec.vacant d.recs = true) {l : Fin 4} {t : Target} {k : CallSets}
    (h : d.callSets l t = some k) :
    k = { k with answered := [], okSeen := false, refusedSeen := false, unsettled := false, others := [] } ∧
    (∀ a, a ∈ k.expected ↔ ∃ r, (d.record r).state ≠ .vacant ∧ (d.record r).enrol.leg = l ∧ t.calls (d.record r) ∧
      (d.record r).enrol.addr = a) ∧
    (((d.recordsOn l).map fun p => p.2.enrol.addr).Nodup → k.expected.Nodup) := by
  unfold Dev.callSets at h
  cases t with
  | individual a => cases h
  | serial a => cases h
  | group a =>
    cases h
    refine ⟨rfl, fun b => ?_, fun hnodup => hnodup.sublist ?_⟩
    · simp only [List.mem_map, List.mem_filter, Prod.exists, Dev.mem_recordsOn hrecs, decide_eq_true_eq, Target.calls]
      constructor
      · rintro ⟨q, x, ⟨⟨⟨rfl, hstate, hleg⟩, hgroup⟩, haddressed⟩, rfl⟩
        exact ⟨q, hstate, hleg, ⟨haddressed, by rintro _ ⟨⟩; exact hgroup⟩, rfl⟩
      · rintro ⟨q, hstate, hleg, ⟨haddressed, hgroup⟩, rfl⟩
        exact ⟨q, d.record q, ⟨⟨⟨rfl, hstate, hleg⟩, hgroup a rfl⟩, haddressed⟩, rfl⟩
    · exact (List.filter_sublist.trans List.filter_sublist).map _
  | estate =>
    cases h
    refine ⟨rfl, fun b => ?_, fun hnodup => hnodup.sublist (List.filter_sublist.map _)⟩
    simp only [List.mem_map, List.mem_filter, Prod.exists, Dev.mem_recordsOn hrecs, Target.calls]
    constructor
    · rintro ⟨q, x, ⟨⟨rfl, hstate, hleg⟩, haddressed⟩, rfl⟩
      exact ⟨q, hstate, hleg, ⟨haddressed, nofun⟩, rfl⟩
    · rintro ⟨q, hstate, hleg, ⟨haddressed, -⟩, rfl⟩
      exact ⟨q, d.record q, ⟨⟨rfl, hstate, hleg⟩, haddressed⟩, rfl⟩

/-- R3, R87, R140: what a first send makes of the record it counts for. -/
theorem Rec.firstSend_fields (z : Rec) (b : Body) :
    let y := (z.countSend b).markFirstSend b
    y.attempts = satInc z.attempts 255 ∧ y.state = z.state ∧
      y.assignSent = (z.assignSent || (match b with
        | .assign _ _ _ _ => true
        | _ => false)) ∧
      y.muted = (z.muted || decide (b = .mute)) := by
  cases b <;> simp [Rec.countSend, Rec.markFirstSend]

/-- Settles O28: the first send of a directive and its further ones. -/
theorem sendsTakeAndKeepTheTag : Obligations.SendsTakeAndKeepTheTag := by
  constructor
  · intro s l x since hrun hinv g c hchan hphase hsince
    have hrecs := hinv.good.recs
    have hexec : exec (.directiveFirstSend l) s = .next { s with dev := s.dev.firstSend s.env l } :=
      congrArg Host.Outcome.next (State.running_eq hrun _)
    rw [Dev.firstSend_eq s.env hchan hphase hsince] at hexec
    refine ⟨_, { s.dev.fixed s.env l x with phase := .listening s.cycle, tag := some g.tagCtr, sends := x.sends + 1 }, hexec, ?_⟩
    simp only [Dev.countOn_leg, Dev.modLeg_leg_self]
    refine ⟨rfl, rfl, rfl, rfl, rfl, rfl, fun k hk => Dev.modLeg_leg_ne _ _ _ _ hk, fun hrange => Dev.replyWindow_range _ _ _ hrange,
      fun hne hone => ?_, fun hne => Dev.replyWindow_of_ne _ _ _ hne, fun hne => Dev.attemptsFor_of_ne _ _ _ _ hne,
      fun r z hrange horigin hz => ?_, Dev.callSets_isSome _ _ _, fun k hk => Dev.callSets_spec hrecs hk,
      fun n hcmd => by rw [Dev.countOn_cmd _ hcmd]; rfl, fun r hr => ?_⟩
    · exact (Dev.replyWindow_of_ne _ _ _ hne).trans (by rw [Dev.rankCycles_one _ _ hone, Nat.zero_add]; rfl)
    · have hattempts := Dev.attemptsFor_range s.env l hrange hz
      rw [← horigin] at hattempts
      exact hattempts
    · obtain ⟨hself, hothers⟩ := Dev.countOn_record (d := s.dev.modLeg l _) hrecs hr
        fun z => (z.countSend x.dir.body).markFirstSend x.dir.body
      rw [hself]
      obtain ⟨hattempts, hstate, hassign, hmuted⟩ := Rec.firstSend_fields (s.dev.record r) x.dir.body
      exact ⟨hattempts, hstate, hassign, hmuted, hothers⟩
  · intro s l x c0 ended t hrun hinv g hchan hphase htag
    have hrecs := hinv.good.recs
    have hexec : exec (.directiveRetry l) s = .next { s with dev := s.dev.retrySend s.env l } :=
      congrArg Host.Outcome.next (State.running_eq hrun _)
    rw [Dev.retrySend_eq s.env hchan htag] at hexec
    by_cases hdue : x.window + x.spacing ≤ cyclesFrom c0 s.cycle ∧ (s.cycle ≠ ended ∨ 31250 + x.reach ≤ x.spacing * 31250)
    · rw [if_pos ((InFlight.retryDue_iff hphase s.env.cycle).2 hdue)] at hexec
      rw [if_pos hdue]
      refine ⟨_, hexec, ?_⟩
      simp only [Dev.countOn_leg, Dev.modLeg_leg_self]
      refine ⟨congrArg (fun o => Chan.directive { x with phase := .listening s.cycle, tag := o, sends := x.sends + 1 }) htag.symm, rfl, rfl, rfl, fun k hk => Dev.modLeg_leg_ne _ _ _ _ hk, fun r hr => ?_⟩
      rw [(Dev.countOn_record (d := s.dev.modLeg l _) hrecs hr fun z => z.countSend x.dir.body).1]
      rfl
    · rw [if_neg (mt (InFlight.retryDue_iff hphase s.env.cycle).1 hdue)] at hexec
      rw [if_neg hdue]
      exact hexec

end Sys2Proof.Machine
end

section
/-! PROOF (O23). The start of a cycle and the pace timer (R26, R27, R57, R65, R68). -/

namespace Sys2Proof.Machine

/-! ## The flags of a marker (R27, R40) -/

theorem QuietSpan.runs_iff (p : QuietSpan) (reach : Nat) (c : BitVec 16) :
    p.runs reach c = true ↔ cyclesFrom p.first c * 31250 < (p.window + 1) * 31250 + p.began.getD reach := decide_eq_true_iff

theorem QuietSpan.noteReach_eq (p : QuietSpan) (reach : Nat) (c : BitVec 16) :
    p.noteReach reach c = if p.began = none ∧ p.window * 31250 + reach ≤ cyclesFrom p.first c * 31250 then
      { p with began := some reach } else p :=
  if_congr (by rw [Bool.and_eq_true, Option.isNone_iff_eq_none, QuietSpan.lastBegun, decide_eq_true_iff]; rfl) rfl rfl

theorem Leg.flags_free {g : Leg} (htail : g.quietTail = []) (hchan : g.chan = .free) (c : BitVec 16) :
    g.hailOpenIn c = false ∧ g.quietIn c = false := by
  simp [Leg.hailOpenIn, Leg.quietIn, htail, hchan]

theorem Leg.flags_hail {g : Leg} {w : HailWindow} (htail : g.quietTail = []) (hchan : g.chan = .hail w) (c : BitVec 16) :
    g.hailOpenIn c = w.covers c ∧ g.quietIn c = w.covers c := by
  simp [Leg.hailOpenIn, Leg.quietIn, htail, hchan]

theorem Leg.flags_survey {g : Leg} {w : SurveyWindow} (htail : g.quietTail = []) (hchan : g.chan = .survey w) (c : BitVec 16) :
    g.hailOpenIn c = false ∧ g.quietIn c = w.covers c := by
  simp [Leg.hailOpenIn, Leg.quietIn, htail, hchan]

theorem Leg.flags_directive {g : Leg} {x : InFlight} (htail : g.quietTail = []) (hchan : g.chan = .directive x) (c : BitVec 16) :
    g.hailOpenIn c = false ∧ g.quietIn c = x.quietIn c := by
  simp [Leg.hailOpenIn, Leg.quietIn, htail, hchan]

theorem HailWindow.covers_of_opened {w : HailWindow} {first : BitVec 16} {n : Nat} (h : w.opened = some (first, n)) (c : BitVec 16) :
    w.covers c = decide (cyclesFrom first c < n) := by
  rw [HailWindow.covers, h]

theorem SurveyWindow.covers_of_opened {w : SurveyWindow} {o : SurveyOpen} (h : w.opened = some o) (c : BitVec 16) :
    w.covers c = decide (cyclesFrom o.first c < o.length) := by
  rw [SurveyWindow.covers, h]

theorem InFlight.quietIn_listening {x : InFlight} {sent : BitVec 16} (h : x.phase = .listening sent) (c : BitVec 16) :
    x.quietIn c = (x.dir.body.quiet && decide (cyclesFrom sent c ≤ x.window)) := by
  rw [InFlight.quietIn, h]
  rfl

theorem Body.quiet_iff (b : Body) : b.quiet = true ↔ b = .probe ∨ b = .range ∨ ∃ a k i j, b = .assign a k i j := by
  cases b <;> simp [Body.quiet]

/-! ## The pace timer (R65, R68) -/

/-- R65: the leg's timer is decreased by the cycle start now due. -/
def Leg.counts (g : Leg) : Prop := g.running = true ∧ g.paced = false

theorem Leg.expire_continuous {g : Leg} (h : g.mode = .continuous) :
    g.expire = { g with timer := g.reload, pendHail := g.pendHail || decide (g.st = .running) } := by
  rw [Leg.expire, h]

theorem Leg.expire_single {g : Leg} (h : g.mode = .single) :
    g.expire = { g with timer := g.reload, running := false, mode := .off, pendHail := g.pendHail || decide (g.st = .running) } := by
  rw [Leg.expire, h]

theorem Leg.countDown_idle {g : Leg} (h : ¬ g.counts) : g.countDown = { g with paced := false } :=
  congrArg (fun k : Leg => { k with paced := false }) (if_neg h)

theorem Leg.countDown_counting {g : Leg} (h : g.counts) (htimer : 1 < g.timer) :
    g.countDown = { g with timer := g.timer - 1, paced := false } :=
  congrArg (fun k : Leg => { k with paced := false }) ((if_pos h).trans (if_neg (Nat.not_le.2 htimer)))

theorem Leg.countDown_expiring {g : Leg} (h : g.counts) (htimer : g.timer ≤ 1) : g.countDown = { g.expire with paced := false } :=
  congrArg (fun k : Leg => { k with paced := false }) ((if_pos h).trans (if_pos htimer))

/-- The expiry touches nothing that a marker depends on. -/
theorem Leg.expire_frame (g : Leg) :
    g.expire.st = g.st ∧ g.expire.chan = g.chan ∧ g.expire.quietTail = g.quietTail := by
  unfold Leg.expire
  cases g.mode
  case off => exact ⟨rfl, rfl, rfl⟩
  case single => exact ⟨rfl, rfl, rfl⟩
  case continuous => exact ⟨rfl, rfl, rfl⟩

theorem Leg.countDown_frame (g : Leg) :
    g.countDown.st = g.st ∧ g.countDown.chan = g.chan ∧ g.countDown.quietTail = g.quietTail := by
  by_cases hcounts : g.counts
  · rcases Nat.lt_or_ge 1 g.timer with htimer | htimer
    · rw [Leg.countDown_counting hcounts htimer]
      exact ⟨rfl, rfl, rfl⟩
    · rw [Leg.countDown_expiring hcounts htimer]
      exact g.expire_frame
  · rw [Leg.countDown_idle hcounts]
    exact ⟨rfl, rfl, rfl⟩

/-! ## The start of a cycle (R26, R27, R57) -/

/-- R26, R27, R57: the marker that the leg sends in cycle c. -/
def Leg.markerIn (g : Leg) (c : BitVec 16) : Option Marker :=
  match g.st with
  | .dark => none
  | .faulted => some ⟨c, false, false⟩
  | .running | .suspended | .hunting => some ⟨c, g.hailOpenIn c, g.quietIn c⟩

/-- R57: the QUIET line as cycle c begins. -/
def Leg.lineIn (g : Leg) (c : BitVec 16) : Bool :=
  match g.st with
  | .dark | .faulted => false
  | .running | .suspended | .hunting => g.quietIn c

theorem Leg.sendMarker_eq (g : Leg) (c : BitVec 16) : g.sendMarker c = { g with marker := g.markerIn c, quiet := g.lineIn c } := by
  unfold Leg.sendMarker Leg.markerIn Leg.lineIn
  cases g.st <;> rfl

theorem Leg.startCycle_eq (g : Leg) (reach : Nat) (c : BitVec 16) :
    g.startCycle reach c = { g.countDown with
      marker := g.markerIn c, quiet := g.lineIn c
      quietTail := (g.quietTail.map fun p => p.noteReach reach c).filter fun p => p.runs reach c } := by
  obtain ⟨hst, hchan, htail⟩ := g.countDown_frame
  have hhail : g.countDown.hailOpenIn c = g.hailOpenIn c := by rw [Leg.hailOpenIn, hchan]; rfl
  have hquiet : g.countDown.quietIn c = g.quietIn c := by rw [Leg.quietIn, hchan, htail]; rfl
  have hmarker : g.countDown.markerIn c = g.markerIn c := by rw [Leg.markerIn, hst, hhail, hquiet]; rfl
  have hline : g.countDown.lineIn c = g.lineIn c := by rw [Leg.lineIn, hst, hquiet]; rfl
  rw [Leg.startCycle, Leg.sendMarker_eq, hmarker, hline, Leg.ageSpans, ← htail]

theorem Leg.line_of_on {g : Leg} (hdark : g.st ≠ .dark) (hfaulted : g.st ≠ .faulted) (c : BitVec 16) :
    g.lineIn c = g.quietIn c ∧ g.markerIn c = some ⟨c, g.hailOpenIn c, g.quietIn c⟩ := by
  unfold Leg.lineIn Leg.markerIn
  cases hst : g.st
  case dark => exact absurd hst hdark
  case faulted => exact absurd hst hfaulted
  case running => exact ⟨rfl, rfl⟩
  case suspended => exact ⟨rfl, rfl⟩
  case hunting => exact ⟨rfl, rfl⟩

theorem Leg.line_dark {g : Leg} (h : g.st = .dark) (c : BitVec 16) : g.markerIn c = none ∧ g.lineIn c = false := by
  simp [Leg.markerIn, Leg.lineIn, h]

theorem Leg.line_faulted {g : Leg} (h : g.st = .faulted) (c : BitVec 16) :
    g.markerIn c = some ⟨c, false, false⟩ ∧ g.lineIn c = false := by
  simp [Leg.markerIn, Leg.lineIn, h]

theorem Dev.startCycle_leg (d : Dev) (cfg : Applied) (c : BitVec 16) (l : Fin 4) :
    (d.startCycle cfg c).leg l = (d.leg l).startCycle (cfg.leg l).reach c :=
  match l with
  | 0 => rfl
  | 1 => rfl
  | 2 => rfl
  | 3 => rfl

theorem Leg.paceExpiry_due {g : Leg} (hrunning : g.running = true) (hpaced : g.paced = false) (htimer : g.timer ≤ 1) :
    g.paceExpiry = { g.expire with paced := true } := if_pos ⟨hrunning, hpaced, htimer⟩

theorem Leg.paceExpiry_of_not_due {g : Leg} (h : g.running = false ∨ g.paced = true ∨ 1 < g.timer) : g.paceExpiry = g := by
  refine if_neg ?_
  rintro ⟨hrunning, hpaced, htimer⟩
  rcases h with h | h | h
  · rw [hrunning] at h; cases h
  · rw [hpaced] at h; cases h
  · omega

theorem exec_paceTimerExpiry {s : State} (hrun : s.phase = .running) {l : Fin 4} {f : Leg → Leg}
    (h : (s.dev.leg l).paceExpiry = f (s.dev.leg l)) : exec (.paceTimerExpiry l) s = .next { s with dev := s.dev.modLeg l f } :=
  (congrArg Host.Outcome.next (State.running_eq hrun _)).trans (State.next_dev_congr (Dev.modLeg_congr _ _ _ _ h))

/-- Settles O23: the legs at the start of a cycle, and the pace timer's expiry. -/
theorem cyclesAndThePaceTimer : Obligations.CyclesAndThePaceTimer := by
  refine ⟨fun s hrun => ?_, fun p reach c => ⟨p.runs_iff reach c, p.noteReach_eq reach c⟩, ?_, ?_⟩
  · have hexec : exec .cycleStart s =
        .next { s with cycle := s.cycle + 1, dev := s.dev.startCycle s.applied (s.cycle + 1) } :=
      congrArg Host.Outcome.next (if_pos hrun)
    refine ⟨_, hexec, rfl, fun l => ?_⟩
    rw [Dev.startCycle_leg, Leg.startCycle_eq]
    refine ⟨fun h => ?_, fun h htimer => ?_, fun h htimer hmode => ?_, fun h htimer hmode => ?_, fun h => Leg.line_dark h _,
      fun h => Leg.line_faulted h _, fun hdark hfaulted => Leg.line_of_on hdark hfaulted _, rfl⟩
    · rw [Leg.countDown_idle h]
    · rw [Leg.countDown_counting h htimer]
    · rw [Leg.countDown_expiring h htimer, Leg.expire_continuous hmode]
    · rw [Leg.countDown_expiring h htimer, Leg.expire_single hmode]
  · refine fun g c htail => ⟨fun h => Leg.flags_free htail h c, fun w first n h hopened => ?_, fun w o h hopened => ?_,
      fun x sent h hphase => ?_, Body.quiet_iff⟩
    · rw [← HailWindow.covers_of_opened hopened]
      exact Leg.flags_hail htail h c
    · rw [← SurveyWindow.covers_of_opened hopened]
      exact Leg.flags_survey htail h c
    · rw [← InFlight.quietIn_listening hphase]
      exact Leg.flags_directive htail h c
  · refine fun s l hrun => ⟨fun hrunning hpaced htimer hmode => ?_, fun hrunning hpaced htimer hmode => ?_, fun h => ?_⟩
    · exact exec_paceTimerExpiry hrun (by rw [Leg.paceExpiry_due hrunning hpaced htimer, Leg.expire_continuous hmode])
    · exact exec_paceTimerExpiry hrun (by rw [Leg.paceExpiry_due hrunning hpaced htimer, Leg.expire_single hmode])
    · refine (exec_paceTimerExpiry hrun (f := id) (Leg.paceExpiry_of_not_due h)).trans (State.next_dev_congr ?_)
      exact Dev.modLeg_eq_self _ _ _ rfl

/-! ## The waiting list of a queue (R48) -/

/-- R48: the front of the waiting list takes as many places as the queue has free. -/
theorem admitList_eq (q : List Entry) (ws : List Waiter) :
    admitList q ws =
      (q ++ (ws.take (12 - q.length)).map (fun w => ⟨w.dir, .record w.r⟩), ws.drop (12 - q.length), (ws.take (12 - q.length)).map Waiter.r) := by
  induction ws generalizing q with
  | nil => simp [admitList]
  | cons w ws ih =>
    unfold admitList
    by_cases hroom : q.length < queueCap
    · have hplaces : 12 - q.length = 12 - (q ++ [(⟨w.dir, .record w.r⟩ : Entry)]).length + 1 := by
        rw [List.length_append, List.length_singleton]
        rw [show queueCap = 12 from rfl] at hroom
        omega
      rw [if_pos hroom, ih, hplaces]
      simp
    · have hplaces : 12 - q.length = 0 := Nat.sub_eq_zero_of_le (Nat.not_lt.1 hroom)
      rw [if_neg hroom, hplaces]
      simp

theorem Dev.foldl_clearWaiting_legs (rs : List Nat) (d : Dev) : (rs.foldl Dev.clearWaiting d).legs = d.legs := by
  induction rs generalizing d with
  | nil => rfl
  | cons r rs ih => exact ih _

theorem Dev.foldl_clearWaiting_record (rs : List Nat) {d : Dev} (hrecs : Sparse.wf Rec.vacant d.recs = true) (q : Nat) :
    (rs.foldl Dev.clearWaiting d).record q = { d.record q with waiting := (d.record q).waiting && !rs.contains q } := by
  induction rs generalizing d with
  | nil => simp
  | cons r rs ih =>
    have hstep := ih (d := d.clearWaiting r) (Dev.modRec_recs_wf d r _ hrecs)
    by_cases hq : q = r
    · subst hq
      rw [List.foldl_cons, hstep, Dev.clearWaiting, Dev.modRec_record_self _ _ _ hrecs]
      simp
    · rw [List.foldl_cons, hstep, Dev.clearWaiting, Dev.modRec_record_ne _ _ _ _ hq]
      simp [hq]

theorem Dev.fillQueue_eq (d : Dev) (l : Fin 4) :
    d.fillQueue l = (((d.leg l).waiting.take (12 - (d.leg l).queue.length)).map Waiter.r).foldl Dev.clearWaiting
      (d.modLeg l fun g => { g with
        queue := (d.leg l).queue ++ ((d.leg l).waiting.take (12 - (d.leg l).queue.length)).map (fun w => ⟨w.dir, .record w.r⟩)
        waiting := (d.leg l).waiting.drop (12 - (d.leg l).queue.length) }) := by
  unfold Dev.fillQueue
  rw [admitList_eq]

theorem Dev.fillQueue_leg (d : Dev) (l k : Fin 4) :
    (d.fillQueue l).leg k = (d.modLeg l fun g => { g with
        queue := (d.leg l).queue ++ ((d.leg l).waiting.take (12 - (d.leg l).queue.length)).map (fun w => ⟨w.dir, .record w.r⟩)
        waiting := (d.leg l).waiting.drop (12 - (d.leg l).queue.length) }).leg k := by
  rw [Dev.fillQueue_eq]
  exact congrArg (Legs.get · k) (Dev.foldl_clearWaiting_legs _ _)

/-- R48: one free place goes to the one at the front. -/
theorem Dev.fillQueue_one {d : Dev} {l : Fin 4} {w : Waiter} {ws : List Waiter} (hwait : (d.leg l).waiting = w :: ws)
    (hqueue : (d.leg l).queue.length = 11) :
    d.fillQueue l = (d.modLeg l fun g => { g with queue := (d.leg l).queue ++ [⟨w.dir, .record w.r⟩], waiting := ws }).clearWaiting w.r := by
  rw [Dev.fillQueue_eq, hwait, hqueue]
  rfl

theorem exec_waitingListAdmit {s : State} (hrun : s.phase = .running) (l : Fin 4) :
    exec (.waitingListAdmit l) s = .next { s with dev := s.dev.fillQueue l } := congrArg Host.Outcome.next (State.running_eq hrun _)

/-- R43, R48: the head of a full queue takes the channel, and the front of the waiting list its place. -/
theorem Dev.takeQueueHead_of_full {d : Dev} {l : Fin 4} (env : Env) {e : Entry} {q : List Entry} {w : Waiter} {ws : List Waiter}
    (hwait : (d.leg l).waiting = w :: ws) (hfull : (d.leg l).queue.length = 12) (hhead : takeHead (d.leg l).queue = some (e, q))
    (hload : ∀ k dest m src len fin, e.dir.body ≠ .load k dest m src len fin) :
    d.takeQueueHead env l = (d.modLeg l fun g => { g with
      queue := q ++ [⟨w.dir, .record w.r⟩], waiting := ws
      chan := .directive (takenNow e.dir e.origin (.ready env.cycle) (env.cfg.leg l).reach) }).clearWaiting w.r := by
  have hlength : q.length = 11 := by
    have h := takeHead_length _ _ _ hhead
    omega
  unfold Dev.takeQueueHead
  rw [hhead]
  dsimp only
  rw [Dev.modLeg_takeDirective env e.origin hload]
  rw [Dev.fillQueue_one (w := w) (ws := ws) (by rw [Dev.modLeg_leg_self]; exact hwait) (by rw [Dev.modLeg_leg_self]; exact hlength),
    Dev.modLeg_leg_self, Dev.modLeg_modLeg]

/-! ## The pin-wait list (R109) -/

theorem Dev.joinPin_record_self {d : Dev} (hrecs : Sparse.wf Rec.vacant d.recs = true) (i r : Nat) :
    (d.joinPin i r).record r = { d.record r with pin := some i, pinWait := false } :=
  Dev.modRec_record_self (d.putPin i _) r _ hrecs

theorem Dev.joinPin_record_ne (d : Dev) (i : Nat) {r q : Nat} (h : q ≠ r) : (d.joinPin i r).record q = d.record q :=
  Dev.modRec_record_ne (d.putPin i _) r q _ h

theorem Dev.joinPin_pin_self {d : Dev} (hpins : Sparse.wf Pin.free d.pins = true) (i r : Nat) :
    (d.joinPin i r).pin i = { d.pin i with users := (d.pin i).users + 1 } := Dev.putPin_pin_self d i _ hpins

theorem Dev.joinPin_pin_ne (d : Dev) {i j : Nat} (r : Nat) (h : j ≠ i) : (d.joinPin i r).pin j = d.pin j :=
  Dev.putPin_pin_ne d i j _ h

/-- R109: the records of a list join entry i, and so does nobody else. -/
theorem Dev.foldl_joinPin (i : Nat) (rs : List Nat) {d : Dev} (hrecs : Sparse.wf Rec.vacant d.recs = true)
    (hpins : Sparse.wf Pin.free d.pins = true) :
    let d' := rs.foldl (fun y q => y.joinPin i q) d
    d'.pin i = { d.pin i with users := (d.pin i).users + rs.length } ∧ (∀ j, j ≠ i → d'.pin j = d.pin j) ∧
      (∀ q, q ∈ rs → d'.record q = { d.record q with pin := some i, pinWait := false }) ∧
      (∀ q, q ∉ rs → d'.record q = d.record q) ∧ d'.legs = d.legs ∧ d'.pinWait = d.pinWait ∧
      Sparse.wf Rec.vacant d'.recs = true := by
  induction rs generalizing d with
  | nil => exact ⟨rfl, fun _ _ => rfl, fun _ h => absurd h List.not_mem_nil, fun _ _ => rfl, rfl, rfl, hrecs⟩
  | cons r rs ih =>
    obtain ⟨hpin, hpinOther, hin, hout, hlegs, hwait, hwf⟩ :=
      ih (d := d.joinPin i r) (Dev.modRec_recs_wf (d.putPin i _) r _ hrecs) (Sparse.set_wf _ _ _ hpins)
    refine ⟨?_, fun j hj => (hpinOther j hj).trans (Dev.joinPin_pin_ne d r hj), fun q hq => ?_, fun q hq => ?_, hlegs, hwait, hwf⟩
    · rw [List.foldl_cons, hpin, Dev.joinPin_pin_self hpins]
      simp only [List.length_cons, Nat.add_assoc, Nat.add_comm 1]
    · by_cases hmem : q ∈ rs
      · rw [List.foldl_cons, hin q hmem]
        by_cases hqr : q = r
        · subst hqr
          rw [Dev.joinPin_record_self hrecs]
        · rw [Dev.joinPin_record_ne d i hqr]
      · have hqr : q = r := (List.mem_cons.1 hq).resolve_right hmem
        subst hqr
        rw [List.foldl_cons, hout q hmem, Dev.joinPin_record_self hrecs]
    · obtain ⟨hqr, hmem⟩ := not_or.1 (mt List.mem_cons.2 hq)
      exact (hout q hmem).trans (Dev.joinPin_record_ne d i hqr)

theorem Dev.waitBack_record_self {d : Dev} (hrecs : Sparse.wf Rec.vacant d.recs = true) (l : Fin 4) (r : Nat) (dir : Directive) :
    (d.waitBack l r dir).record r = { d.record r with waiting := true } := Dev.modRec_record_self (d.modLeg l _) r _ hrecs

theorem Dev.waitBack_record_ne (d : Dev) (l : Fin 4) {r q : Nat} (dir : Directive) (h : q ≠ r) :
    (d.waitBack l r dir).record q = d.record q := Dev.modRec_record_ne (d.modLeg l _) r q _ h

/-- R46, R49: an offer of stage work leaves the pin table, and of the records only the WAITING flag of its own changes. -/
theorem Dev.offerWork_rules {d : Dev} (hrecs : Sparse.wf Rec.vacant d.recs = true) (r : Nat) :
    (d.offerWork r).pins = d.pins ∧ (d.offerWork r).pinWait = d.pinWait ∧ Sparse.wf Rec.vacant (d.offerWork r).recs = true ∧
      (∀ q, (d.offerWork r).record q = { d.record q with waiting := ((d.offerWork r).record q).waiting }) ∧
      ∀ q, q ≠ r → (d.offerWork r).record q = d.record q := by
  unfold Dev.offerWork Dev.offerStage
  dsimp only
  split
  next dir hdir =>
    split
    next => exact ⟨rfl, rfl, hrecs, fun _ => rfl, fun _ _ => rfl⟩
    next =>
      split
      next => exact ⟨rfl, rfl, hrecs, fun _ => rfl, fun _ _ => rfl⟩
      next =>
        refine ⟨rfl, rfl, Dev.modRec_recs_wf _ _ _ hrecs, fun q => ?_, fun q hq => Dev.waitBack_record_ne _ _ _ hq⟩
        by_cases hq : q = r
        · subst hq
          rw [Dev.waitBack_record_self hrecs]
        · rw [Dev.waitBack_record_ne _ _ _ hq]
  next => exact ⟨rfl, rfl, hrecs, fun _ => rfl, fun _ _ => rfl⟩

theorem Dev.foldl_offerWork (rs : List Nat) {d : Dev} (hrecs : Sparse.wf Rec.vacant d.recs = true) :
    let d' := rs.foldl Dev.offerWork d
    d'.pins = d.pins ∧ d'.pinWait = d.pinWait ∧ (∀ q, d'.record q = { d.record q with waiting := (d'.record q).waiting }) ∧
      ∀ q, q ∉ rs → d'.record q = d.record q := by
  induction rs generalizing d with
  | nil => exact ⟨rfl, rfl, fun _ => rfl, fun _ _ => rfl⟩
  | cons r rs ih =>
    obtain ⟨hpins, hwait, hwf, hall, hother⟩ := Dev.offerWork_rules hrecs r
    obtain ⟨hpins', hwait', hall', hother'⟩ := ih hwf
    refine ⟨hpins'.trans hpins, hwait'.trans hwait, fun q => ?_, fun q hq => ?_⟩
    · have h := hall' q
      rw [hall q] at h
      exact h
    · obtain ⟨hqr, hmem⟩ := not_or.1 (mt List.mem_cons.2 hq)
      exact (hother' q hmem).trans (hother q hqr)

/-- R46, R82: the directive that the stage needs joins a queue with room. -/
theorem Dev.offerWork_queue {d : Dev} {r : Nat} {dir : Directive} (hdir : (d.record r).stageDirective = some dir)
    (hbusy : (d.leg (d.record r).enrol.leg).busyWith r = false) (hroom : (d.leg (d.record r).enrol.leg).queue.length < 12) :
    d.offerWork r = d.enqueue (d.record r).enrol.leg dir (.record r) := by
  unfold Dev.offerWork
  dsimp only
  rw [hdir]
  dsimp only
  rw [if_neg (by rw [hbusy]; exact Bool.false_ne_true), Dev.offerStage, if_pos]
  exact decide_eq_true hroom

theorem exec_pinWaitServe {s : State} (hrun : s.phase = .running) : exec .pinWaitServe s = .next { s with dev := s.dev.servePinWait } :=
  congrArg Host.Outcome.next (State.running_eq hrun _)

theorem Dev.servePins_of_nobody {d : Dev} (h : d.pinWait = []) (n : Nat) : d.servePins n = d := by
  cases n with
  | zero => rfl
  | succ n => rw [Dev.servePins, h]

/-- R109: with nobody waiting or no FREE entry, nobody is served. -/
theorem Dev.servePinWait_idle {d : Dev} (h : d.pinWait = [] ∨ d.freePin = none) : d.servePinWait = d := by
  unfold Dev.servePinWait
  cases hwait : d.pinWait with
  | nil => exact Dev.servePins_of_nobody hwait _
  | cons r rest =>
    have hfree : d.freePin = none := h.resolve_left (by rw [hwait]; exact List.cons_ne_nil _ _)
    rw [List.length_cons, Dev.servePins, hwait, hfree]

/-- R109: who waits for the range is served together with the front. -/
theorem Dev.servePinWait_of_one_range {d : Dev} (hrecs : Sparse.wf Rec.vacant d.recs = true) (hpins : Sparse.wf Pin.free d.pins = true)
    {r k : Nat} {rest : List Nat} (hwait : d.pinWait = r :: rest) (hfree : d.freePin = some k)
    (hsame : ∀ q ∈ rest, (d.record q).enrol.start = (d.record r).enrol.start ∧ (d.record q).enrol.lenCode = (d.record r).enrol.lenCode) :
    d.servePinWait = (r :: rest).foldl Dev.offerWork
      ((r :: rest).foldl (fun y q => y.joinPin k q) (({ d with pinWait := [] } : Dev).openFree k (d.record r).enrol)) := by
  have hserved : rest.filter (fun q => decide ((d.record q).enrol.start = (d.record r).enrol.start) &&
      decide ((d.record q).enrol.lenCode = (d.record r).enrol.lenCode)) = rest :=
    List.filter_eq_self.2 fun q hq => by simp [hsame q hq]
  have hleft : rest.filter (fun q => !(decide ((d.record q).enrol.start = (d.record r).enrol.start) &&
      decide ((d.record q).enrol.lenCode = (d.record r).enrol.lenCode))) = [] :=
    List.filter_eq_nil_iff.2 fun q hq => by simp [hsame q hq]
  have hserve : d.servePin k r rest = (r :: rest).foldl Dev.offerWork
      ((r :: rest).foldl (fun y q => y.joinPin k q) (({ d with pinWait := [] } : Dev).openFree k (d.record r).enrol)) := by
    unfold Dev.servePin
    dsimp only
    rw [hserved, hleft]
  obtain ⟨-, -, -, -, -, hjoined, hwf⟩ := Dev.foldl_joinPin k (r :: rest)
    (d := ({ d with pinWait := [] } : Dev).openFree k (d.record r).enrol) hrecs (Sparse.set_wf _ _ _ hpins)
  obtain ⟨-, hoffered, -⟩ := Dev.foldl_offerWork (r :: rest) hwf
  unfold Dev.servePinWait
  rw [hwait, List.length_cons, Dev.servePins, hwait, hfree, ← hserve]
  refine Dev.servePins_of_nobody ?_ _
  rw [hserve, hoffered, hjoined]
  rfl

/-- R103, R109: the LOAD of the next chunk is what LOADING with an entry needs. -/
theorem Rec.stageDirective_loading {x : Rec} {k : Nat} (hstate : x.state = .loading) (hpin : x.pin = some k) :
    x.stageDirective = some ⟨.individual x.enrol.addr, x.enrol.loadBody x.chunksAck⟩ := by
  unfold Rec.stageDirective
  rw [hstate, hpin]
  rfl

/-- R109: a record in LOADING that gets its entry has its LOAD in the queue, where there is room for it. -/
theorem Dev.joinPin_offerWork_queue {d : Dev} (hrecs : Sparse.wf Rec.vacant d.recs = true) (k : Nat) {r : Nat} {en : Enrolment}
    (hen : (d.record r).enrol = en) (hstate : (d.record r).state = .loading) (hbusy : (d.leg en.leg).busyWith r = false)
    (hroom : (d.leg en.leg).queue.length < 12) :
    (((d.joinPin k r).offerWork r).leg en.leg).queue =
      (d.leg en.leg).queue ++ [⟨⟨.individual en.addr, en.loadBody (d.record r).chunksAck⟩, .record r⟩] := by
  subst hen
  have hrecord : (d.joinPin k r).record r = { d.record r with pin := some k, pinWait := false } := Dev.joinPin_record_self hrecs k r
  have hdir : ((d.joinPin k r).record r).stageDirective =
      some ⟨.individual (d.record r).enrol.addr, (d.record r).enrol.loadBody (d.record r).chunksAck⟩ := by
    rw [hrecord]
    exact Rec.stageDirective_loading hstate rfl
  have henrol : ((d.joinPin k r).record r).enrol = (d.record r).enrol := by rw [hrecord]
  rw [Dev.offerWork_queue hdir (by rw [henrol]; exact hbusy) (by rw [henrol]; exact hroom), henrol, Dev.enqueue, Dev.modLeg_leg_self]
  rfl

/-- Settles O47: the waiting list of a queue, and the pin-wait list. -/
theorem waitingListsAreServed : Obligations.WaitingListsAreServed := by
  refine ⟨?_, ?_, ?_⟩
  · intro s l hrun hmaps hqueue g n
    refine ⟨_, exec_waitingListAdmit hrun l, ?_, fun k hk => ?_, fun r => ?_⟩
    · exact (Dev.fillQueue_leg _ _ _).trans (Dev.modLeg_leg_self _ _ _)
    · exact (Dev.fillQueue_leg _ _ _).trans (Dev.modLeg_leg_ne _ _ _ _ hk)
    · rw [Dev.fillQueue_eq]
      exact Dev.foldl_clearWaiting_record _ (d := s.dev.modLeg l _) hmaps.1 r
  · intro s l e q w ws hrun g hchan hst hhunt hsurvey hhail hfull hwait hhead hload
    have hhandOver := (Dev.handOver_eq_takeQueueHead s.env hchan hhunt hsurvey (hst.symm.imp_right fun h => ⟨h, hhail⟩)).trans
      (Dev.takeQueueHead_of_full s.env hwait hfull hhead hload)
    refine (exec_channelHandover hrun l).trans ?_
    rw [hhandOver]
    exact congrArg Host.Outcome.next (State.askPort_eq rfl)
  · intro s hrun hmaps
    obtain ⟨hrecs, -, hpins, -⟩ := hmaps
    refine ⟨fun h => (exec_pinWaitServe hrun).trans (State.next_dev_self (Dev.servePinWait_idle h)), ?_⟩
    intro r rest k hwait hfree hnodup en hsame
    obtain ⟨hpin, hpinOther, hin, hout, hlegs, hjoined, hwf⟩ := Dev.foldl_joinPin k (r :: rest)
      (d := ({ s.dev with pinWait := [] } : Dev).openFree k en) hrecs (Sparse.set_wf _ _ _ hpins)
    obtain ⟨hoffPins, hoffered, hall, hother⟩ := Dev.foldl_offerWork (r :: rest) hwf
    refine ⟨_, (exec_pinWaitServe hrun).trans (State.next_dev_congr
      (Dev.servePinWait_of_one_range hrecs hpins hwait hfree hsame)), hoffered.trans hjoined, ?_, fun i hi => ?_, fun q hq => ?_,
      fun q hq => (hother q hq).trans (hout q hq), ?_⟩
    · have hopen : (({ s.dev with pinWait := [] } : Dev).openFree k en).pin k = ⟨.openEntry, en.start, en.lenCode, 0⟩ :=
        Dev.putPin_pin_self { s.dev with pinWait := [] } k _ hpins
      rw [hopen, List.length_cons, Nat.zero_add] at hpin
      exact (congrArg (Sparse.get Pin.free · k) hoffPins).trans hpin
    · exact (congrArg (Sparse.get Pin.free · i) hoffPins).trans
        ((hpinOther i hi).trans (Dev.putPin_pin_ne { s.dev with pinWait := [] } k i _ hi))
    · rw [hall q, hin q hq]
      exact ⟨rfl, rfl, rfl⟩
    · rintro rfl hstate hbusy hroom
      exact Dev.joinPin_offerWork_queue (d := ({ s.dev with pinWait := [] } : Dev).openFree k en) hrecs k rfl hstate hbusy hroom

/-! ## An engine burst begins (R76, R179, R180) -/

theorem exec_engineBurstBegin {s : State} (hrun : s.phase = .running) : exec .engineBurstBegin s = .next s.engineBegins :=
  congrArg Host.Outcome.next (if_pos hrun)

theorem State.engineTurn_iff (s : State) :
    s.engineTurn = true ↔ s.bus.port = .free ∧ (s.bus.held = none ∨ s.bus.passCount = 8) := by
  rw [State.engineTurn, Bool.and_eq_true, Bool.or_eq_true, decide_eq_true_iff, decide_eq_true_iff, Option.isNone_iff_eq_none]
  rfl

/-- R180: in its turn the front request has its burst. -/
theorem exec_engineBurstBegin_of_burst {s : State} (hrun : s.phase = .running) (hport : s.bus.port = .free)
    (hturn : s.bus.held = none ∨ s.bus.passCount = 8) {b : Burst} {rest : List Client} (hburst : s.burstBegin = s.startBurst b rest) :
    exec .engineBurstBegin s = .next (s.startBurst b rest) := by
  have howned : (s.startBurst b rest).settle = s.startBurst b rest :=
    State.settle_of_owned (s := s.startBurst b rest) (by rw [State.startBurst]; simp)
  rw [exec_engineBurstBegin hrun, State.engineBegins, if_pos (s.engineTurn_iff.2 ⟨hport, hturn⟩), hburst, howned]

theorem State.burstBegin_full {s : State} {rest : List Client} (hrequests : s.dev.requests = .ring :: rest)
    (hfull : s.dev.ring.full s.applied.ringCap = true) : s.burstBegin = { s with dev := s.dev.dropEntry rest } := by
  unfold State.burstBegin
  rw [hrequests]
  exact if_pos hfull

theorem Dev.wantsLoad_of_no_burst {d : Dev} (h : d.burst = none) : d.wantsLoad = decide (d.fetches ≠ [] ∧ .load ∉ d.requests) := by
  unfold Dev.wantsLoad
  rw [h]
  cases d.fetches <;> simp

theorem Dev.wantsRing_of_no_burst {d : Dev} (h : d.burst = none) :
    d.wantsRing = decide (d.ring.writeList ≠ [] ∧ .ring ∉ d.requests) := by
  unfold Dev.wantsRing
  rw [h]
  cases d.ring.writeList <;> simp

/-- R179: with no burst running, each engine that has work and none asked for joins the list. -/
theorem Dev.syncRequests_of_no_burst {d : Dev} (h : d.burst = none) :
    d.syncRequests.requests = d.requests ++ (if d.fetches ≠ [] ∧ .load ∉ d.requests then [.load] else []) ++
      (if d.ring.writeList ≠ [] ∧ .ring ∉ d.requests then [.ring] else []) := by
  rw [Dev.syncRequests, Dev.wantsLoad_of_no_burst h, Dev.wantsRing_of_no_burst h]
  simp only [decide_eq_true_eq]

/-- R76: what a dropped entry leaves behind. -/
theorem Dev.dropEntry_eq (d : Dev) (rest : List Client) :
    d.dropEntry rest = { d with
      ring := { d.ring with writeList := d.ring.writeList.drop 1, overrun := true }
      causes := (d.dropEntry rest).causes, requests := (d.dropEntry rest).requests } := rfl

/-- R179: the engines that have work and none asked for join the list behind the rest. -/
theorem Dev.dropEntry_requests {d : Dev} {rest : List Client} (hburst : d.burst = none) (hring : .ring ∉ rest) :
    (d.dropEntry rest).requests = rest ++ (if d.fetches ≠ [] ∧ .load ∉ rest then [.load] else []) ++
      (if d.ring.writeList.drop 1 = [] then [] else [.ring]) := by
  refine (Dev.syncRequests_of_no_burst
    (d := ({ d with requests := rest, ring := { d.ring with writeList := d.ring.writeList.drop 1 } } : Dev).loseEntry) hburst).trans
    (congrArg₂ _ rfl ?_)
  change (if d.ring.writeList.drop 1 ≠ [] ∧ .ring ∉ rest then [Client.ring] else []) = _
  simp only [hring, not_false_eq_true, and_true, ite_not]

/-- Settles O48: the bursts that begin, the entry that is dropped, and the access that goes first or is held. -/
theorem engineBurstTakesThePort : Obligations.EngineBurstTakesThePort := by
  refine ⟨fun s rest hrun hport hturn => ⟨fun f fs hrequests hfetches => ?_, fun hrequests hroom => ?_, fun hrequests hfull => ?_⟩,
    fun s hrun => ⟨fun h => ?_, fun addr data be b rest hport hheld hpass huses hfront => ?_⟩⟩
  · exact exec_engineBurstBegin_of_burst hrun hport hturn (State.burstBegin_load hrequests hfetches)
  · exact exec_engineBurstBegin_of_burst hrun hport hturn (State.burstBegin_ring hrequests hroom)
  · refine ⟨s.dev.dropEntry rest, ?_, Dev.dropEntry_eq _ _, fun c => Dev.isSet_latch _ _ _, Dev.dropEntry_requests,
      fun hheld hnone => State.settle_of_idle hheld hnone⟩
    rw [exec_engineBurstBegin hrun, State.engineBegins, if_pos (s.engineTurn_iff.2 ⟨hport, hturn⟩), State.burstBegin_full hrequests hfull]
  · have hturn : ¬ s.engineTurn = true := by
      rw [s.engineTurn_iff]
      rintro ⟨hport, hturn⟩
      rcases h with h | ⟨hheld, hpass⟩
      · exact h hport
      · rcases hturn with hturn | hturn
        · exact hheld hturn
        · omega
    rw [exec_engineBurstBegin hrun, State.engineBegins, if_neg hturn]
  · have hrequests : s.dev.requests ≠ [] := by
      rcases hfront with ⟨f, fs, hrequests, -, -⟩ | ⟨hrequests, -, -⟩ <;> simp [hrequests]
    have hburst : (s.hold ⟨addr, data, be, true⟩).burstBegin = (s.hold ⟨addr, data, be, true⟩).startBurst b rest := by
      rcases hfront with ⟨f, fs, hrequests, hfetches, rfl⟩ | ⟨hrequests, hroom, rfl⟩
      · exact State.burstBegin_load (s := s.hold _) hrequests hfetches
      · exact State.burstBegin_ring (s := s.hold _) hrequests hroom
    have hreleased : s.released = s := if_neg (by rw [hport]; decide)
    have hsettle := State.settle_of_burst (s := s.hold ⟨addr, data, be, true⟩) hport (.inr hpass) hrequests hburst
    rw [exec_passedWrite, State.present, if_neg (by rw [hheld]; decide), if_pos hrun, State.offerAccess, if_pos huses, hreleased, hsettle]
    rfl

/-! ## Bursts that complete (R73, R76, R112, R114, R181) -/

theorem Memory.readList_eq_map (m : List Host.Cell) (a n : Nat) :
    Memory.readList m a n = (List.range n).map fun i => Memory.read m (a + i) := by
  refine List.ext_getElem? fun j => ?_
  rw [Memory.getElem?_readList, List.getElem?_map]
  by_cases hj : j < n
  · rw [if_pos hj, List.getElem?_range hj]
    rfl
  · rw [if_neg hj, List.getElem?_eq_none (by rw [List.length_range]; omega)]
    rfl

theorem exec_chunkFetchComplete {s : State} (hrun : s.phase = .running) {f : Fetch} {b : Bool} (hburst : s.dev.burst = some (.fetch f b)) :
    exec .chunkFetchComplete s = .next (State.freePort { s with dev := s.dev.fetchDone s.cycle f b (s.chunkBytes f) }) := by
  refine congrArg Host.Outcome.next ((if_pos hrun).trans ?_)
  unfold State.fetchComplete
  rw [hburst]

/-- R112: the bytes go to the leg of the fetch alone. -/
theorem Dev.fetchDone_leg (d : Dev) (c : BitVec 16) (f : Fetch) (bs : List Byte) (k : Fin 4) :
    (d.fetchDone c f false bs).leg k = if k = f.leg then (d.leg f.leg).placeChunk c bs else d.leg k :=
  Dev.modLeg_leg { d with fetches := d.fetches.drop 1 } f.leg k fun g => g.placeChunk c bs

theorem Leg.placeChunk_directive {g : Leg} {x : InFlight} (h : g.chan = .directive x) (c : BitVec 16) (bs : List Byte) :
    g.placeChunk c bs = { g with chan := .directive { x with phase := .ready c, data := bs } } := by
  rw [Leg.placeChunk, h]

theorem exec_ringEntryWriteComplete {s : State} (hrun : s.phase = .running) (hburst : s.dev.burst = some .ring) :
    exec .ringEntryWriteComplete s = .next (State.freePort { s with
      mem := Memory.writeList s.mem s.headAddr s.dev.ring.frontBytes, dev := s.dev.entryDone s.applied.ringCap }) := by
  refine congrArg Host.Outcome.next ((if_pos hrun).trans ?_)
  unfold State.entryComplete
  rw [hburst]

theorem State.next_freePort_of_idle {s : State} {a : Answer} (h : a = .next s.freePort) (hheld : s.bus.held = none)
    (hrequests : s.dev.requests = []) : a = .next { s with bus := { s.bus with port := .free, passing := none } } :=
  h.trans (congrArg Host.Outcome.next (State.freePort_of_idle hheld hrequests))

/-! ### The bytes of a ring entry (13.5) -/

theorem byteOf_eq_shift (w : Word) (k : Nat) : byteOf w k = (w >>> (8 * k)).setWidth 8 := by
  refine BitVec.eq_of_toNat_eq ?_
  simp [byteOf, field, Nat.shiftRight_eq_div_pow]

theorem byteOf_setWidth_shift (v : BitVec 64) (n : Nat) {k : Nat} (hk : k < 4) :
    byteOf ((v >>> n).setWidth 32) k = (v >>> (n + 8 * k)).setWidth 8 := by
  refine BitVec.eq_of_getLsbD_eq fun i hi => ?_
  rw [byteOf_eq_shift]
  simp only [BitVec.getLsbD_setWidth, BitVec.getLsbD_ushiftRight, hi, decide_true, Bool.true_and,
    decide_eq_true (show 8 * k + i < 32 by omega), Nat.add_assoc]

theorem byteOf_half (v : BitVec 16) {k : Nat} (hk : k < 2) : byteOf (v.setWidth 32) k = (v >>> (8 * k)).setWidth 8 := by
  refine BitVec.eq_of_getLsbD_eq fun i hi => ?_
  rw [byteOf_eq_shift]
  simp only [BitVec.getLsbD_setWidth, BitVec.getLsbD_ushiftRight, hi, decide_true, Bool.true_and,
    decide_eq_true (show 8 * k + i < 32 by omega)]

theorem byteOf_half_high (v : BitVec 16) {k : Nat} (hk : 2 ≤ k) : byteOf (v.setWidth 32) k = 0 := by
  refine BitVec.eq_of_getLsbD_eq fun i hi => ?_
  rw [byteOf_eq_shift]
  simp only [BitVec.getLsbD_setWidth, BitVec.getLsbD_ushiftRight, BitVec.getLsbD_of_ge v (8 * k + i) (by omega), Bool.and_false]
  simp

/-- 13.5: a 16-bit number as its two bytes, the lower first. -/
def halfBytes (v : BitVec 16) : List Byte := [v.setWidth 8, (v >>> 8).setWidth 8]

theorem wordBytes_half (v : BitVec 16) :
    [byteOf (v.setWidth 32) 0, byteOf (v.setWidth 32) 1, byteOf (v.setWidth 32) 2, byteOf (v.setWidth 32) 3] = halfBytes v ++ [0, 0] := by
  rw [byteOf_half v (k := 0) (by omega), byteOf_half v (k := 1) (by omega), byteOf_half_high v (k := 2) (by omega),
    byteOf_half_high v (k := 3) (by omega)]
  simp [halfBytes]

/-- 13.5: the word of the cycle of reception and the level code. -/
theorem wordBytes_cycleLevel (c : BitVec 16) (v : Byte) :
    let w := BitVec.ofNat 32 (c.toNat + 65536 * v.toNat)
    [byteOf w 0, byteOf w 1, byteOf w 2, byteOf w 3] = halfBytes c ++ [v, 0] := by
  intro w
  have hw : w.toNat = c.toNat + 65536 * v.toNat := by
    have hc := c.isLt
    have hv := v.isLt
    rw [BitVec.toNat_ofNat]
    omega
  have h0 : byteOf w 0 = c.setWidth 8 := by
    refine BitVec.eq_of_toNat_eq ?_
    simp only [byteOf, field, hw, BitVec.toNat_ofNat, BitVec.toNat_setWidth]
    omega
  have h1 : byteOf w 1 = (c >>> 8).setWidth 8 := by
    refine BitVec.eq_of_toNat_eq ?_
    simp only [byteOf, field, hw, BitVec.toNat_ofNat, BitVec.toNat_setWidth, BitVec.toNat_ushiftRight, Nat.shiftRight_eq_div_pow]
    omega
  have h2 : byteOf w 2 = v := by
    refine BitVec.eq_of_toNat_eq ?_
    simp only [byteOf, field, hw, BitVec.toNat_ofNat]
    omega
  have h3 : byteOf w 3 = 0#8 := by
    refine BitVec.eq_of_toNat_eq ?_
    simp only [byteOf, field, hw, BitVec.toNat_ofNat]
    omega
  rw [h0, h1, h2, h3]
  rfl

theorem wordBytes_zero : [byteOf 0 0, byteOf 0 1, byteOf 0 2, byteOf 0 3] = List.replicate 4 0 := rfl

theorem wordBytes_pack (b0 b1 b2 b3 : Nat) :
    [byteOf (packBytes b0 b1 b2 b3) 0, byteOf (packBytes b0 b1 b2 b3) 1, byteOf (packBytes b0 b1 b2 b3) 2,
      byteOf (packBytes b0 b1 b2 b3) 3] = [BitVec.ofNat 8 b0, BitVec.ofNat 8 b1, BitVec.ofNat 8 b2, BitVec.ofNat 8 b3] := by
  rw [byteOf_packBytes _ _ _ _ (k := 0) (by omega), byteOf_packBytes _ _ _ _ (k := 1) (by omega),
    byteOf_packBytes _ _ _ _ (k := 2) (by omega), byteOf_packBytes _ _ _ _ (k := 3) (by omega)]
  rfl

/-- 13.5: the low and the high word of a serial. -/
theorem wordBytes_serial (v : BitVec 64) :
    [byteOf (v.setWidth 32) 0, byteOf (v.setWidth 32) 1, byteOf (v.setWidth 32) 2, byteOf (v.setWidth 32) 3] ++
      [byteOf ((v >>> 32).setWidth 32) 0, byteOf ((v >>> 32).setWidth 32) 1, byteOf ((v >>> 32).setWidth 32) 2,
        byteOf ((v >>> 32).setWidth 32) 3] = (List.range 8).map fun i => (v >>> (8 * i)).setWidth 8 := by
  have hlow : v.setWidth 32 = (v >>> 0).setWidth 32 := by rw [BitVec.ushiftRight_zero]
  rw [hlow, byteOf_setWidth_shift v 0 (k := 0) (by omega), byteOf_setWidth_shift v 0 (k := 1) (by omega),
    byteOf_setWidth_shift v 0 (k := 2) (by omega), byteOf_setWidth_shift v 0 (k := 3) (by omega),
    byteOf_setWidth_shift v 32 (k := 0) (by omega), byteOf_setWidth_shift v 32 (k := 1) (by omega),
    byteOf_setWidth_shift v 32 (k := 2) (by omega), byteOf_setWidth_shift v 32 (k := 3) (by omega)]
  rfl

/-- 13.5: the bytes of an entry, in their order. -/
theorem RingEntry.bytes_eq (x : RingEntry) :
    x.bytes = (List.range 8).map (fun i => (x.serial >>> (8 * i)).setWidth 8) ++
      [BitVec.ofNat 8 x.leg.val, BitVec.ofNat 8 x.disp.code, x.kind, x.count] ++
      halfBytes x.cycle ++ [x.level, 0] ++ halfBytes (BitVec.ofNat 16 (x.rec_.getD 0xFFFF)) ++ List.replicate 14 0 := by
  have hbytes : x.bytes =
      ([byteOf (x.serial.setWidth 32) 0, byteOf (x.serial.setWidth 32) 1, byteOf (x.serial.setWidth 32) 2,
          byteOf (x.serial.setWidth 32) 3] ++
        [byteOf ((x.serial >>> 32).setWidth 32) 0, byteOf ((x.serial >>> 32).setWidth 32) 1,
          byteOf ((x.serial >>> 32).setWidth 32) 2, byteOf ((x.serial >>> 32).setWidth 32) 3]) ++
      (let w := packBytes x.leg.val x.disp.code x.kind.toNat x.count.toNat
       [byteOf w 0, byteOf w 1, byteOf w 2, byteOf w 3]) ++
      (let w := BitVec.ofNat 32 (x.cycle.toNat + 65536 * x.level.toNat)
       [byteOf w 0, byteOf w 1, byteOf w 2, byteOf w 3]) ++
      (let w := (BitVec.ofNat 16 (x.rec_.getD 0xFFFF)).setWidth 32
       [byteOf w 0, byteOf w 1, byteOf w 2, byteOf w 3]) ++ List.replicate 12 0 := rfl
  rw [hbytes, wordBytes_serial, wordBytes_cycleLevel]
  dsimp only
  rw [wordBytes_pack, wordBytes_half]
  simp only [BitVec.ofNat_toNat, BitVec.setWidth_eq, List.append_assoc]
  rfl

/-- R73, R181: memory after the 32 bytes of an entry are written. -/
theorem Memory.read_ringEntry {m : List Host.Cell} (hm : Memory.wf m = true) (a c : Nat) (e : RingEntry) :
    Memory.read (Memory.writeList m a e.bytes) c = if a ≤ c ∧ c < a + 32 then (e.bytes[c - a]?).getD 0 else Memory.read m c := by
  have hlength := e.bytes_length
  rw [Memory.read_writeList m a c _ hm]
  by_cases hin : a ≤ c ∧ c < a + 32
  · rw [dif_pos (by rw [hlength]; exact hin), if_pos hin, List.getElem?_eq_getElem (by omega)]
    rfl
  · rw [dif_neg (by rw [hlength]; exact hin), if_neg hin]

/-- Settles O49: the chunk fetch and the ring entry that complete. -/
theorem engineBurstsComplete : Obligations.EngineBurstsComplete := by
  constructor
  · intro s f fs x hrun
    refine ⟨fun hburst hfetches hchan => ?_, fun hburst => ?_⟩
    · have hexec := exec_chunkFetchComplete hrun hburst
      refine ⟨_, hexec, State.next_freePort_of_idle hexec, ?_,
        fun k hk => (Dev.fetchDone_leg _ _ _ _ _).trans (if_neg hk), rfl, ?_, rfl⟩
      · refine (Dev.fetchDone_leg _ _ _ _ _).trans ((if_pos rfl).trans ((Leg.placeChunk_directive hchan _ _).trans ?_))
        rw [State.chunkBytes, Memory.readList_eq_map]
        simp only [State.regionByte, offStore, Nat.add_assoc]
      · show s.dev.fetches.drop 1 = fs
        rw [hfetches]
        rfl
    · have hexec := exec_chunkFetchComplete hrun hburst
      exact ⟨_, hexec, State.next_freePort_of_idle hexec, rfl, rfl, rfl⟩
  · intro s e es hrun hcanon hburst hlist
    have hexec := exec_ringEntryWriteComplete hrun hburst
    have hfront : s.dev.ring.frontBytes = e.bytes := by rw [Ring.frontBytes, hlist]
    refine ⟨_, _, hexec, State.next_freePort_of_idle hexec, fun a => ?_, ?_, ?_, ?_, rfl, rfl, rfl⟩
    · rw [hfront, Memory.read_ringEntry hcanon.1]
    · simp only [State.headAddr, State.regionByte, offRing, Nat.add_assoc]
    · intro half
      rw [e.bytes_eq]
      cases e.disp <;> rfl
    · show s.dev.ring.advance s.applied.ringCap = _
      rw [Ring.advance, hlist]
      rfl

end Sys2Proof.Machine
end

section
/-! PROOF (O31 to O38). The outcomes of a record's directive (R18, R49, R51, R52, R83 to R105, R123, R124). -/

namespace Sys2Proof.Machine

/-! ## Maps -/

/-- A canonical map in which a key takes the value it has is the same map. -/
theorem Sparse.set_get {β : Type} [DecidableEq β] {v : β} (m : List (Nat × β)) (i lo : Nat) (hi : lo ≤ i)
    (hm : Sparse.wfFrom v lo m = true) : Sparse.set v m i (Sparse.get v m i) = m := by
  induction m generalizing lo with
  | nil => simp [Sparse.set, Sparse.get]
  | cons p m ih =>
    obtain ⟨k, w⟩ := p
    simp only [Sparse.wfFrom, Bool.and_eq_true, decide_eq_true_eq] at hm
    obtain ⟨⟨hk, hw⟩, hm⟩ := hm
    rcases Nat.lt_trichotomy i k with hlt | heq | hgt
    · have habsent : Sparse.get v m i = v := Sparse.get_of_wfFrom_lt m (k + 1) i hm (by omega)
      have hne : i ≠ k := by omega
      simp [Sparse.set, Sparse.get, hlt, hne, habsent]
    · subst heq
      simp [Sparse.set, Sparse.get, hw]
    · have hne : i ≠ k := by omega
      have hge : ¬ i < k := by omega
      simp [Sparse.set, Sparse.get, hne, hge, ih (k + 1) (by omega) hm]

theorem Dev.modRec_eq_self {d : Dev} (hrecs : Sparse.wf Rec.vacant d.recs = true) {r : Nat} {f : Rec → Rec}
    (h : f (d.record r) = d.record r) : d.modRec r f = d := by
  have hset : Sparse.set Rec.vacant d.recs r (d.record r) = d.recs := Sparse.set_get d.recs r 0 (Nat.zero_le _) hrecs
  rw [Dev.modRec, h, Dev.putRec, hset]

/-! ## The blocks as an outcome is delivered (R25, R42, R51) -/

/-- The record with another level code and other level flags. -/
def Rec.sameButLevel (x y : Rec) : Prop :=
  ∃ v fresh wanted, y = { x with level := v, levelFresh := fresh, levelWanted := wanted }

theorem Rec.sameButLevel_refl (x : Rec) : x.sameButLevel x := ⟨_, _, _, rfl⟩

theorem Dev.modSource_sameButLevel {d : Dev} (hrecs : Sparse.wf Rec.vacant d.recs = true) (l : Fin 4) (src : BitVec 12) {f : Rec → Rec}
    (hf : ∀ y : Rec, y.sameButLevel (f y)) (q : Nat) : (d.record q).sameButLevel ((d.modSource l src f).record q) := by
  unfold Dev.modSource
  split
  next p hp =>
    by_cases hq : q = p.1
    · subst hq
      rw [Dev.modRec_record_self _ _ _ hrecs]
      exact hf _
    · rw [Dev.modRec_record_ne _ _ _ _ hq]
      exact Rec.sameButLevel_refl _
  next => exact Rec.sameButLevel_refl _

theorem Dev.answerLevel_sameButLevel {d : Dev} (hrecs : Sparse.wf Rec.vacant d.recs = true) (l : Fin 4) (x : InFlight) (src : BitVec 12)
    (code : ReplyCode) (v : Byte) (q : Nat) : (d.record q).sameButLevel ((d.answerLevel l x src code v).record q) := by
  unfold Dev.answerLevel
  split
  next =>
    split
    next => exact Dev.modSource_sameButLevel hrecs l src (fun y => ⟨_, _, _, rfl⟩) q
    next => exact Dev.modSource_sameButLevel hrecs l src (fun y => ⟨_, _, _, rfl⟩) q
  next => exact Rec.sameButLevel_refl _

/-- R42, R51: the channel of leg l is FREE, and its quiet spans are followed by those of the directive that ended. -/
def Dev.freed (d : Dev) (l : Fin 4) (tail : List QuietSpan) : Dev :=
  d.modLeg l fun g => { g with chan := .free, quietTail := g.quietTail ++ tail }

/-- R25, R42, R51: what stands between the end of the directive in flight on leg l and the delivery of its outcome. -/
structure Dev.Ended (d d1 : Dev) (l : Fin 4) (tail : List QuietSpan) : Prop where
  recs : Sparse.wf Rec.vacant d1.recs = true
  record : ∀ q, (d.record q).sameButLevel (d1.record q)
  leg : d1.leg l = { d.leg l with chan := .free, quietTail := (d.leg l).quietTail ++ tail }
  legs : ∀ k, k ≠ l → d1.leg k = d.leg k
  rest : d1 = { d with recs := d1.recs, legs := d1.legs }

theorem Dev.ended_of_freed {d d0 : Dev} (hrecs : Sparse.wf Rec.vacant d0.recs = true) (hd0 : d0 = { d with recs := d0.recs })
    (hrecord : ∀ q, (d.record q).sameButLevel (d0.record q)) (l : Fin 4) (tail : List QuietSpan) :
    Dev.Ended d (d0.freed l tail) l tail where
  recs := hrecs
  record := hrecord
  leg := by
    have hleg : d0.leg l = d.leg l := by rw [hd0]; rfl
    exact (Dev.modLeg_leg_self d0 l _).trans (by rw [hleg])
  legs k hk := by
    have hleg : d0.leg k = d.leg k := by rw [hd0]; rfl
    exact (Dev.modLeg_leg_ne d0 l k _ hk).trans hleg
  rest := by rw [hd0]; rfl

theorem Dev.ended_of_answer {d : Dev} (hrecs : Sparse.wf Rec.vacant d.recs = true) (l : Fin 4) (x : InFlight) (src : BitVec 12)
    (code : ReplyCode) (v : Byte) (tail : List QuietSpan) : Dev.Ended d ((d.answerLevel l x src code v).freed l tail) l tail :=
  Dev.ended_of_freed (Dev.answerLevel_recs_wf hrecs l x src code v) (Dev.answerLevel_eq d l x src code v)
    (Dev.answerLevel_sameButLevel hrecs l x src code v) l tail

theorem Dev.ended_of_window {d : Dev} (hrecs : Sparse.wf Rec.vacant d.recs = true) (l : Fin 4) : Dev.Ended d (d.freed l []) l [] :=
  Dev.ended_of_freed hrecs rfl (fun _ => Rec.sameButLevel_refl _) l []

theorem exec_replyBurst_ends {s : State} {l : Fin 4} {x : InFlight} {src : BitVec 12} {tag : BitVec 6} {p : Option Placement}
    (h : s.answers l x src tag p) {code : ReplyCode} {data : List Byte} {ok : Bool} (hend : x.dir.body.endingCode code data = some ok)
    (level : Byte) (delay : Nat) :
    exec (.replyBurst l src tag code data level delay p) s = .next { s with
      dev := ((s.dev.answerLevel l x src code level).freed l
        (x.tailSpan (.answered ok data level (clampDelay delay)) s.cycle)).deliver s.env l x
          (.answered ok data level (clampDelay delay)) } := by
  obtain ⟨hrun, hchan, htag, hcall, hsource, hheard⟩ := h
  rw [exec_replyBurst hrun, Dev.reply_answer s.env src tag code data level delay hchan htag hheard hcall hsource]
  unfold Dev.answer
  rw [hend]
  rfl

theorem exec_sendWindowEnd_ends {s : State} {l : Fin 4} {x : InFlight} {c0 : BitVec 16} (h : s.windowEnded l x c0)
    (hlast : x.attempts ≤ x.sends) :
    exec (.sendWindowEnd l) s = .next { s with
      dev := (s.dev.freed l []).deliver s.env l x (if x.unsettled then .unsettled else .silent) } := by
  obtain ⟨hrun, hchan, hphase, hcall, hover⟩ := h
  have hspan : x.tailSpan (if x.unsettled then .unsettled else .silent) s.env.cycle = [] :=
    x.tailSpan_of_not_answered (by split_ifs <;> simp) _
  rw [exec_sendWindowEnd hrun, Dev.sendWindowEnd_one s.env hchan hphase hover hcall, if_neg (by omega), Dev.finish, hspan]
  rfl

theorem Dev.deliver_record (e : Env) (d : Dev) (l : Fin 4) {x : InFlight} {r : Nat} (h : x.origin = .record r) (o : Ending) :
    d.deliver e l x o = d.recordOutcome e r x o := by
  unfold Dev.deliver
  rw [h]

namespace Dev.Ended

variable {d d1 : Dev} {l : Fin 4} {tail : List QuietSpan} (h : Dev.Ended d d1 l tail)
include h

theorem plan (q : Nat) : (d1.record q).plan = (d.record q).plan := by
  obtain ⟨v, fresh, wanted, hq⟩ := h.record q
  rw [hq]
  rfl

theorem state (q : Nat) : (d1.record q).state = (d.record q).state := by
  obtain ⟨v, fresh, wanted, hq⟩ := h.record q
  rw [hq]

theorem enrol (q : Nat) : (d1.record q).enrol = (d.record q).enrol := by
  obtain ⟨v, fresh, wanted, hq⟩ := h.record q
  rw [hq]

theorem chan : (d1.leg l).chan = .free := by rw [h.leg]

theorem othersKeep {d' : Dev} {r : Nat} (h' : othersKeep d1 d' r) : othersKeep d d' r := fun q hq => (h' q hq).trans (h.plan q)

end Dev.Ended

/-! ## A stage that stops (R13, R85, R88, R93, R97, R104, R123) -/

/-- R13: a record that is halted in its stage as the outcome is delivered. -/
theorem Dev.Ended.halt {d d1 : Dev} {l : Fin 4} {tail : List QuietSpan} (h : Dev.Ended d d1 l tail) {r : Nat} {st : RecState}
    (hstate : (d.record r).state = st) (f : FaultCode) :
    haltedWith d (d1.halt r f) r f st ∧ ((d1.halt r f).record r).label = none ∧ Machine.othersKeep d (d1.halt r f) r ∧
      ((d1.halt r f).leg l).chan = .free ∧ ∀ k, ((d1.halt r f).leg k).core = (d1.leg k).core := by
  obtain ⟨⟨hplan, hset⟩, hlabel, hothers, hcore, hfree⟩ := Dev.halt_spec h.recs r f st ((h.state r).trans hstate)
  exact ⟨⟨hplan.trans (by rw [h.plan]), hset⟩, hlabel, h.othersKeep hothers, hfree l h.chan, hcore⟩

theorem Dev.Ended.core {d d1 : Dev} {l : Fin 4} {tail : List QuietSpan} (h : Dev.Ended d d1 l tail) :
    (d1.leg l).core = { (d.leg l).core with quietTail := (d.leg l).quietTail ++ tail } := by
  rw [h.leg]
  rfl

theorem InFlight.tailSpan_answered {x : InFlight} {c0 : BitVec 16} (hphase : x.phase = .listening c0) (ok : Bool) (data : List Byte)
    (level : Byte) (delay : Nat) (now : BitVec 16) :
    x.tailSpan (.answered ok data level delay) now =
      if x.dir.body.quiet then [QuietSpan.noteReach ⟨c0, x.window, none⟩ x.reach now] else [] := by
  unfold InFlight.tailSpan
  rw [hphase]

/-- Settles O32: each answer that stops a stage halts the record. -/
theorem answerThatStopsAStage : Obligations.AnswerThatStopsAStage := by
  intro s l r x src tag code data level delay p st f hinv hanswers hstage hcases
  obtain ⟨hstate, hleg, horigin⟩ := hstage
  suffices hhalts : ∃ ok, x.dir.body.endingCode code data = some ok ∧
      ∀ d1 level delay, Dev.recordOutcome s.env d1 r x (.answered ok data level delay) = d1.halt r f by
    obtain ⟨ok, hend, hhalt⟩ := hhalts
    have hexec := exec_replyBurst_ends hanswers hend level delay
    rw [Dev.deliver_record _ _ _ horigin, hhalt] at hexec
    have hended := Dev.ended_of_answer hinv.good.recs l x src code level
      (x.tailSpan (.answered ok data level (clampDelay delay)) s.cycle)
    obtain ⟨hhalted, hlabel, hothers, hfree, hcore⟩ := hended.halt hstate f
    have hlegCore := (hcore l).trans hended.core
    have htagCtr := congrArg Leg.tagCtr hlegCore
    have hst := congrArg Leg.st hlegCore
    refine ⟨_, hexec, hhalted, hlabel, hothers, hfree, htagCtr, hst, fun c0 hphase => ?_⟩
    rw [← InFlight.tailSpan_answered hphase]
    have htail := congrArg Leg.quietTail hlegCore
    exact htail
  unfold Dev.recordOutcome
  obtain ⟨hbody, -, rfl, rfl | rfl⟩ | ⟨⟨a, g, i, j, hbody⟩, -, rfl, rfl⟩ | ⟨hbody, -, rfl, rfl⟩ | ⟨⟨v, hbody⟩, -, rfl, rfl⟩ |
    ⟨⟨k, a, m, b, c, e, hbody⟩, -, rfl, rfl⟩ | ⟨⟨b, ss, hbody⟩, -, rfl, rfl⟩ := hcases
  · exact ⟨true, by rw [hbody]; rfl, fun _ _ _ => by rw [hbody]⟩
  · exact ⟨false, rfl, fun _ _ _ => by rw [hbody]⟩
  · exact ⟨false, rfl, fun _ _ _ => by rw [hbody]⟩
  · exact ⟨false, rfl, fun _ _ _ => by rw [hbody]⟩
  · exact ⟨false, rfl, fun _ _ _ => by rw [hbody]⟩
  · exact ⟨false, rfl, fun _ _ _ => by rw [hbody]⟩
  · exact ⟨false, rfl, fun _ _ _ => by rw [hbody]⟩

/-! ## GRANT (R7, R123, R124) -/

theorem Dev.latch_isSet_self (d : Dev) (c : Cause) : (d.latch c).isSet c = true := by
  rw [Dev.isSet_latch]
  simp

/-- R7: what entering ACTIVE does. -/
theorem Dev.enterActive_rules {d : Dev} (hrecs : Sparse.wf Rec.vacant d.recs = true) (r : Nat) :
    (d.enterActive r).record r = { d.record r with state := .active, stage := none, fault := .none, ranging := none } ∧
      (∀ q, q ≠ r → (d.enterActive r).record q = d.record q) ∧ (d.enterActive r).legs = d.legs ∧
      (d.enterActive r).isSet .recActive = true := by
  refine ⟨?_, fun q hq => ?_, rfl, Dev.latch_isSet_self _ _⟩
  · rw [Dev.enterActive, Dev.latch_record]
    exact Dev.modRec_record_self d r _ hrecs
  · rw [Dev.enterActive, Dev.latch_record]
    exact Dev.modRec_record_ne d r q _ hq

theorem Dev.Ended.leg_of_no_span {d d1 : Dev} {l : Fin 4} {tail : List QuietSpan} (h : Dev.Ended d d1 l tail) (htail : tail = []) :
    d1.leg l = { d.leg l with chan := .free } := by
  rw [h.leg, htail, List.append_nil]

/-- R124: every slot under the label is free again, and no other changes. -/
theorem Sparse.get_filter_ne {m : List (Nat × Nat)} (hm : Sparse.wf 0 m = true) (b k : Nat) :
    Sparse.get 0 (m.filter fun p => decide (p.2 ≠ b)) k = if Sparse.get 0 m k = b then 0 else Sparse.get 0 m k := by
  have hfilter := Sparse.filter_wf (d := 0) (fun p => decide (p.2 ≠ b)) m hm
  have hmem (v : Nat) : Sparse.get 0 (m.filter fun p => decide (p.2 ≠ b)) k = v ∧ v ≠ 0 ↔ Sparse.get 0 m k = v ∧ v ≠ 0 ∧ v ≠ b := by
    rw [← Sparse.mem_iff_get _ hfilter, List.mem_filter, Sparse.mem_iff_get _ hm, decide_eq_true_iff, and_assoc]
  by_cases hb : Sparse.get 0 m k = b
  · rw [if_pos hb]
    by_contra hne
    obtain ⟨hget, -, hnb⟩ := (hmem _).1 ⟨rfl, hne⟩
    exact hnb (hget.symm.trans hb)
  · rw [if_neg hb]
    by_cases hzero : Sparse.get 0 m k = 0
    · rw [hzero]
      by_contra hne
      obtain ⟨hget, hpos, -⟩ := (hmem _).1 ⟨rfl, hne⟩
      exact hpos (hget.symm.trans hzero)
    · exact ((hmem _).2 ⟨rfl, hzero, hb⟩).1

/-- R124: what releasing the slots of a record with a label does. -/
theorem Dev.slotRelease_of_label {d : Dev} {r b : Nat} (h : (d.record r).label = some b) :
    d.slotRelease r = (d.modLeg (d.record r).enrol.leg fun g => { g with slotMap := g.slotMap.filter fun p => decide (p.2 ≠ b) }).modRec r
      fun y => { y with label := none, slotList := [] } := by
  unfold Dev.slotRelease
  dsimp only
  rw [h]

/-- Settles O38: the GRANT that is answered OK, and the slots that a label gives back. -/
theorem grantAnsweredOk : Obligations.GrantAnsweredOk := by
  constructor
  · intro s l r x src tag data level delay p b ss hinv hanswers hstage hbody
    obtain ⟨hstate, hleg, horigin⟩ := hstage
    have hexec := exec_replyBurst_ends hanswers (code := .ok) (data := data) (by rw [hbody]; rfl) level delay
    have hended := Dev.ended_of_answer hinv.good.recs l x src .ok level
      (x.tailSpan (.answered true data level (clampDelay delay)) s.cycle)
    have hspan := InFlight.tailSpan_of_not_quiet (x := x) (by rw [hbody]; rfl) (.answered true data level (clampDelay delay)) s.cycle
    rw [Dev.deliver_record _ _ _ horigin, Dev.recordOutcome, hbody] at hexec
    obtain ⟨hrecord, hothers, hlegs, hset⟩ := Dev.enterActive_rules hended.recs r
    refine ⟨_, hexec, (congrArg (Legs.get · l) hlegs).trans (hended.leg_of_no_span hspan), hset, hended.othersKeep fun q hq => ?_, ?_⟩
    · exact congrArg Rec.plan (hothers q hq)
    · obtain ⟨v, fresh, wanted, hbefore⟩ := hended.record r
      rw [hrecord, hbefore]
      exact ⟨rfl, rfl, rfl⟩
  · intro d r b hmaps hlabel hb d'
    obtain ⟨hrecs, -, -, hslotMaps⟩ := hmaps
    have hrelease : d' = _ := Dev.slotRelease_of_label hlabel
    have hrecord : d'.record r = { d.record r with label := none, slotList := [] } := by
      rw [hrelease]
      exact Dev.modRec_record_self (d.modLeg _ _) r _ hrecs
    have hleg : d'.leg (d.record r).enrol.leg = { d.leg (d.record r).enrol.leg with
        slotMap := (d.leg (d.record r).enrol.leg).slotMap.filter fun p => decide (p.2 ≠ b) } := by
      rw [hrelease, Dev.modRec_leg]
      exact Dev.modLeg_leg_self d (d.record r).enrol.leg _
    refine ⟨by rw [hrecord], by rw [hrecord], by rw [hrecord], fun k => ?_⟩
    rw [hleg]
    exact Sparse.get_filter_ne (hslotMaps _) b k

/-! ## The next directive of a stage (R46, R82) -/

/-- Leg l has no directive in flight, its queue and waiting list as they stood, and so has every record but r its plan. -/
structure Dev.Open (d d1 : Dev) (l : Fin 4) (r : Nat) : Prop where
  recs : Sparse.wf Rec.vacant d1.recs = true
  others : othersKeep d d1 r
  flight : (d1.leg l).inFlight = none
  queue : (d1.leg l).queue = (d.leg l).queue
  waiting : (d1.leg l).waiting = (d.leg l).waiting

theorem Leg.inFlight_free {g : Leg} (h : g.chan = .free) : g.inFlight = none := by
  unfold Leg.inFlight
  rw [h]

theorem Dev.Ended.open {d d1 : Dev} {l : Fin 4} {tail : List QuietSpan} (h : Dev.Ended d d1 l tail) (r : Nat) : Dev.Open d d1 l r where
  recs := h.recs
  others := fun q _ => h.plan q
  flight := Leg.inFlight_free h.chan
  queue := by rw [h.leg]
  waiting := by rw [h.leg]

theorem Leg.busyWith_eq_false {g : Leg} {r : Nat} (hflight : g.inFlight = none) (hentry : g.hasEntry r = false)
    (hwaiting : g.isWaiting r = false) : g.busyWith r = false := by
  rw [Leg.busyWith, hentry, hwaiting, Leg.hasFlight, hflight]
  rfl

namespace Dev.Open

variable {d d1 : Dev} {l : Fin 4} {r : Nat} (h : Dev.Open d d1 l r)
include h

theorem putRec (y : Rec) : Dev.Open d (d1.putRec r y) l r where
  recs := Dev.putRec_recs_wf d1 r y h.recs
  others := fun q hq => (congrArg Rec.plan (Dev.putRec_record_ne d1 r q y hq)).trans (h.others q hq)
  flight := h.flight
  queue := h.queue
  waiting := h.waiting

theorem modRec (f : Rec → Rec) : Dev.Open d (d1.modRec r f) l r := h.putRec _

/-- R46, R82: the offer of the stage's directive, to a leg with none in flight. -/
theorem offerWork (hleg : (d1.record r).enrol.leg = l) :
    othersKeep d (d1.offerWork r) r ∧ (∃ b, (d1.offerWork r).record r = { d1.record r with waiting := b }) ∧
      ∀ b, (d1.record r).stageDirective = some ⟨.individual (d.record r).enrol.addr, b⟩ → offered d (d1.offerWork r) l r b := by
  subst hleg
  obtain ⟨-, -, -, hall, hothers⟩ := Dev.offerWork_rules h.recs r
  refine ⟨fun q hq => (congrArg Rec.plan (hothers q hq)).trans (h.others q hq), ⟨_, hall r⟩, fun b hdir hroom hentry hwaiting => ?_⟩
  have hentry' : (d1.leg (d1.record r).enrol.leg).hasEntry r = false := by rw [Leg.hasEntry, h.queue]; exact hentry
  have hwaiting' : (d1.leg (d1.record r).enrol.leg).isWaiting r = false := by rw [Leg.isWaiting, h.waiting]; exact hwaiting
  rw [Dev.offerWork_queue hdir (Leg.busyWith_eq_false h.flight hentry' hwaiting') (by rw [h.queue]; exact hroom), Dev.enqueue,
    Dev.modLeg_leg_self, h.queue]

end Dev.Open

theorem Dev.offerWork_free {d : Dev} (hrecs : Sparse.wf Rec.vacant d.recs = true) (r : Nat) {l : Fin 4} (h : (d.leg l).chan = .free) :
    ((d.offerWork r).leg l).chan = .free := (Dev.Frame.offerWork hrecs r).keeps.free l h

/-- R9: a record as it enters a stage. -/
def Rec.entering (x : Rec) (st : RecState) : Rec :=
  { x with state := st, stage := none, fault := .none, attempts := 0, ranging := none, held := none }

theorem Dev.enterStage_probing (e : Env) (d : Dev) (r : Nat) :
    d.enterStage e r .probing = (d.putRec r ((d.record r).entering .probing)).offerWork r := rfl

theorem Dev.enterStage_assigning (e : Env) (d : Dev) (r : Nat) :
    d.enterStage e r .assigning = (d.putRec r ((d.record r).entering .assigning)).offerWork r := rfl

theorem Dev.enterStage_ranging (e : Env) (d : Dev) (r : Nat) :
    d.enterStage e r .ranging = (d.putRec r { (d.record r).entering .ranging with
      measured := none, equalise := none
      ranging := some ⟨max 2 (e.cfg.leg (d.record r).enrol.leg).attempts, 0, none⟩ }).offerWork r := rfl

theorem Dev.enterStage_equalising (e : Env) (d : Dev) (r : Nat) :
    d.enterStage e r .equalising = (d.putRec r { (d.record r).entering .equalising with
      equalise := some ((e.cfg.leg (d.record r).enrol.leg).reach - (d.record r).measured.getD 0) }).offerWork r := rfl

/-- R9, R82: a record that enters a stage with the directive of that stage for its drop address. -/
theorem Dev.Open.enter {d d1 : Dev} {l : Fin 4} {r : Nat} (h : Dev.Open d d1 l r) {y : Rec} (hleg : y.enrol.leg = l) {b : Body}
    (hdir : y.stageDirective = some ⟨.individual (d.record r).enrol.addr, b⟩) :
    let d' := (d1.putRec r y).offerWork r
    othersKeep d d' r ∧ (∃ w, d'.record r = { y with waiting := w }) ∧ offered d d' l r b := by
  have hrecord : (d1.putRec r y).record r = y := Dev.putRec_record_self d1 r y h.recs
  obtain ⟨hothers, ⟨w, hself⟩, hoffered⟩ := (h.putRec y).offerWork (by rw [hrecord]; exact hleg)
  exact ⟨hothers, ⟨w, by rw [hself, hrecord]⟩, hoffered b (by rw [hrecord]; exact hdir)⟩

/-! ## ASSIGN (R8, R88, R89) -/

/-- R8: what holding a record does, where leg l has a FREE channel. -/
theorem Dev.Open.hold {d d1 : Dev} {l : Fin 4} {r : Nat} (h : Dev.Open d d1 l r) (hfree : (d1.leg l).chan = .free) (st : RecState) :
    othersKeep d (d1.hold r st) r ∧ ((d1.hold r st).leg l).chan = .free ∧
      ((d1.hold r st).record r).core = { (d1.record r).core with state := .held, stage := some st, fault := .none } := by
  obtain ⟨-, hcore, hothers, -, hkept⟩ := Dev.hold_spec h.recs r st
  exact ⟨fun q hq => (Rec.plan_of_core (hothers q hq)).trans (h.others q hq), hkept l hfree, hcore⟩

/-- Settles O34: the record is held after ASSIGNING or enters RANGING. -/
theorem assignAnsweredOk : Obligations.AssignAnsweredOk := by
  intro s l r x src tag data level delay p a g i j hinv hanswers hstage hbody
  obtain ⟨hstate, hleg, horigin⟩ := hstage
  have hexec := exec_replyBurst_ends hanswers (code := .ok) (data := data) (by rw [hbody]; rfl) level delay
  have hended := Dev.ended_of_answer hinv.good.recs l x src .ok level
    (x.tailSpan (.answered true data level (clampDelay delay)) s.cycle)
  rw [Dev.deliver_record _ _ _ horigin, Dev.recordOutcome, hbody] at hexec
  generalize ((s.dev.answerLevel l x src .ok level).freed l (x.tailSpan (.answered true data level (clampDelay delay)) s.cycle)) = d1
    at hexec hended
  have hopen := (hended.open r).modRec fun y => { y with addressed := true }
  have hrecord : (d1.modRec r fun y => { y with addressed := true }).record r = { d1.record r with addressed := true } :=
    Dev.modRec_record_self d1 r _ hended.recs
  have hranging : (d1.record r).enrol.leg = l := by rw [hended.enrol, hleg]
  refine ⟨_, hexec, ?_⟩
  dsimp only [Dev.assigned]
  rw [hended.enrol]
  by_cases hhold : (s.dev.record r).enrol.hold = .addressed
  · rw [if_pos hhold, if_pos hhold]
    obtain ⟨hothers, hfree, hcore⟩ := hopen.hold hended.chan .assigning
    rw [hrecord] at hcore
    have haddressed := congrArg Rec.addressed hcore
    have hfault := congrArg Rec.fault hcore
    have hheld := congrArg Rec.state hcore
    have hheldAt := congrArg Rec.stage hcore
    exact ⟨hfree, hothers, haddressed, hfault, hheld, hheldAt⟩
  · rw [if_neg hhold, if_neg hhold, Dev.enterStage_ranging, hrecord]
    obtain ⟨hothers, ⟨w, hself⟩, hoffered⟩ := hopen.enter (b := .range)
      (y := { Rec.entering { d1.record r with addressed := true } .ranging with
        measured := none, equalise := none
        ranging := some ⟨max 2 (s.env.cfg.leg (d1.record r).enrol.leg).attempts, 0, none⟩ })
      hranging
      (by rw [← hended.enrol]; rfl)
    refine ⟨Dev.offerWork_free (Dev.putRec_recs_wf _ _ _ hopen.recs) r hended.chan, hothers, ?_⟩
    rw [hself]
    refine ⟨rfl, rfl, rfl, rfl, rfl, rfl, rfl, ?_, hoffered⟩
    show some (Ranging.mk (max 2 (s.applied.leg (d1.record r).enrol.leg).attempts) 0 none) = _
    rw [hranging]

/-! ## A directive that ends unanswered (R85, R88, R93, R97, R104, R123) -/

theorem Rec.rangingCtx_of {x : Rec} {z : Ranging} (h : x.ranging = some z) : x.rangingCtx = z := by
  rw [Rec.rangingCtx, h]
  rfl

theorem Dev.Ended.rangingCtx {d d1 : Dev} {l : Fin 4} {tail : List QuietSpan} (h : Dev.Ended d d1 l tail) {r : Nat} {z : Ranging}
    (hz : (d.record r).ranging = some z) : (d1.record r).ranging = some z := by
  obtain ⟨v, fresh, wanted, hq⟩ := h.record r
  rw [hq]
  exact hz

/-- R93: with the context as it stood, the stage goes on or stops. -/
theorem Dev.noEcho_eq {d : Dev} (hrecs : Sparse.wf Rec.vacant d.recs = true) {r : Nat} {z : Ranging} (hz : (d.record r).ranging = some z) :
    d.noEcho r = if z.sends < z.limit then d.offerWork r else d.halt r (if z.ref.isSome then .unstable else .noEcho) := by
  have hself : d.modRec r (fun x => { x with ranging := some z }) = d := by
    refine Dev.modRec_eq_self hrecs ?_
    rw [← hz]
  unfold Dev.noEcho Dev.rangeAgain
  dsimp only
  rw [Rec.rangingCtx_of hz, hself]
  cases z.ref <;> rfl

theorem Rec.stageDirective_ranging {x : Rec} (h : x.state = .ranging) : x.stageDirective = some ⟨.individual x.enrol.addr, .range⟩ := by
  unfold Rec.stageDirective
  rw [h]

/-- R46: the directive joins a queue with room. -/
theorem Dev.Ended.offerWork_queue {d d1 : Dev} {l : Fin 4} {tail : List QuietSpan} (h : Dev.Ended d d1 l tail) {d2 : Dev} {r : Nat}
    {dir : Directive} (hlegs : d2.legs = d1.legs) (hdir : (d2.record r).stageDirective = some dir) (hleg : (d2.record r).enrol.leg = l)
    (hroom : (d.leg l).queue.length < queueCap) (hentry : (d.leg l).hasEntry r = false) (hwaiting : (d.leg l).isWaiting r = false) :
    d2.offerWork r = d2.modLeg l fun g => { g with queue := g.queue ++ [⟨dir, .record r⟩] } := by
  subst hleg
  have hlegEq : d2.leg (d2.record r).enrol.leg = _ := (congrArg (Legs.get · (d2.record r).enrol.leg) hlegs).trans h.leg
  refine Dev.offerWork_queue hdir (Leg.busyWith_eq_false (Leg.inFlight_free ?_) ?_ ?_) ?_
  · rw [hlegEq]
  · rw [hlegEq]; exact hentry
  · rw [hlegEq]; exact hwaiting
  · rw [hlegEq]; exact hroom

/-- Settles O33: the directives that end unanswered, by the stage of their record. -/
theorem silenceMovesAStage : Obligations.SilenceMovesAStage := by
  refine ⟨?_, ?_, ?_⟩
  · intro s l r x c0 st f hinv hwindow hlast hstage hcases
    obtain ⟨hstate, hleg, horigin⟩ := hstage
    have hended := Dev.ended_of_window hinv.good.recs l
    have hexec := exec_sendWindowEnd_ends hwindow hlast
    rw [Dev.deliver_record _ _ _ horigin] at hexec
    have hhalt : (s.dev.freed l []).recordOutcome s.env r x (if x.unsettled then .unsettled else .silent) = (s.dev.freed l []).halt r f := by
      unfold Dev.recordOutcome
      obtain ⟨hbody, -, rfl, hunsettled⟩ | ⟨⟨a, g, i, j, hbody⟩, -, rfl⟩ | ⟨z, hbody, -, hz, hlimit, rfl⟩ | ⟨⟨v, hbody⟩, -, rfl⟩ |
        ⟨⟨k, a, m, b, c, e, hbody⟩, -, rfl⟩ | ⟨⟨b, ss, hbody⟩, -, rfl⟩ := hcases
      · rw [hbody, hunsettled]
        rfl
      · rw [hbody]
        cases x.unsettled <;> rfl
      · have hnoEcho := (Dev.noEcho_eq hended.recs (hended.rangingCtx hz)).trans (if_neg (Nat.not_lt.2 hlimit))
        rw [hbody, ← hnoEcho]
        cases x.unsettled <;> rfl
      · rw [hbody]
        cases x.unsettled <;> rfl
      · rw [hbody]
        cases x.unsettled <;> rfl
      · rw [hbody]
        cases x.unsettled <;> rfl
    rw [hhalt] at hexec
    obtain ⟨hhalted, -, hothers, hfree, -⟩ := hended.halt hstate f
    exact ⟨_, hexec, hhalted, hothers, hfree⟩
  · intro s l r x c0 z hinv hwindow hlast hstage hbody hz hsends hroom hentry hwaiting
    obtain ⟨hstate, hleg, horigin⟩ := hstage
    have hended := Dev.ended_of_window hinv.good.recs l
    have hexec := exec_sendWindowEnd_ends hwindow hlast
    have houtcome : (s.dev.freed l []).recordOutcome s.env r x (if x.unsettled then .unsettled else .silent) =
        (s.dev.freed l []).noEcho r := by
      unfold Dev.recordOutcome
      rw [hbody]
      cases x.unsettled <;> rfl
    rw [Dev.deliver_record _ _ _ horigin, houtcome, Dev.noEcho_eq hended.recs (hended.rangingCtx hz), if_pos hsends,
      hended.offerWork_queue rfl (Rec.stageDirective_ranging ((hended.state r).trans hstate)) hleg hroom hentry hwaiting] at hexec
    refine ⟨_, hexec, rfl, fun k hk => (Dev.modLeg_leg_ne _ _ _ _ hk).trans (hended.legs k hk), ?_, ?_⟩
    · rw [Dev.modLeg_leg_self]; exact hended.chan
    · rw [Dev.modLeg_leg_self, hended.leg]; rfl
  · intro s l r x c0 hinv hwindow hlast hsettled hstage hbody hroom hentry hwaiting
    obtain ⟨hstate, hleg, horigin⟩ := hstage
    have hended := Dev.ended_of_window hinv.good.recs l
    have hexec := exec_sendWindowEnd_ends hwindow hlast
    have hassigning : (s.dev.freed l []).recordOutcome s.env r x .silent =
        ((s.dev.freed l []).putRec r ((s.dev.record r).entering .assigning)).offerWork r := by
      rw [Dev.recordOutcome, hbody]
      exact Dev.enterStage_assigning s.env _ r
    have hself : ((s.dev.freed l []).putRec r ((s.dev.record r).entering .assigning)).record r = (s.dev.record r).entering .assigning :=
      Dev.putRec_record_self _ r _ hended.recs
    rw [Dev.deliver_record _ _ _ horigin, hsettled, if_neg Bool.false_ne_true, hassigning,
      hended.offerWork_queue (d2 := (s.dev.freed l []).putRec r ((s.dev.record r).entering .assigning)) rfl (by rw [hself]; rfl) (by rw [hself]; exact hleg) hroom hentry hwaiting] at hexec
    refine ⟨_, hexec, ⟨hself, ?_⟩, fun q hq => Dev.putRec_record_ne (s.dev.freed l []) r q _ hq,
      fun k hk => (Dev.modLeg_leg_ne _ _ _ _ hk).trans (hended.legs k hk)⟩
    rw [Dev.modLeg_leg_self, Dev.putRec_leg, hended.leg, List.append_nil]
    rfl

/-! ## RANGE (R89, R91, R92, R93, R95) -/

/-- R91: the echo agrees with the reference. -/
def Ranging.agrees (z : Ranging) (v tol : Nat) : Bool :=
  match z.ref with
  | some (ref, _) => decide (v - ref ≤ tol ∧ ref - v ≤ tol)
  | none => false

theorem delayDiff_le_iff (a b tol : Nat) : delayDiff a b ≤ tol ↔ a - b ≤ tol ∧ b - a ≤ tol := by
  unfold delayDiff
  omega

/-- R91: an echo that agrees settles the delay; any other is the new reference. -/
theorem Dev.echo_eq (e : Env) {d : Dev} {r : Nat} {z : Ranging} (hz : (d.record r).ranging = some z) (v : Nat) (level : Byte) :
    d.echo e r v level = if z.agrees v e.cfg.rangeTol then d.rangeAgreed e r v level
      else d.rangeAgain r { z with ref := some (v, level) } .unstable := by
  unfold Dev.echo Ranging.agrees
  dsimp only
  rw [Rec.rangingCtx_of hz]
  cases z.ref with
  | none => rfl
  | some y =>
    obtain ⟨ref, old⟩ := y
    simp only [delayDiff_le_iff, decide_eq_true_eq]

theorem Rec.stageDirective_equalising {x : Rec} (h : x.state = .equalising) :
    x.stageDirective = some ⟨.individual x.enrol.addr, .equalise (x.equalise.getD 0)⟩ := by
  unfold Rec.stageDirective
  rw [h]

/-- R13: a record that is halted, where leg l has a FREE channel. -/
theorem Dev.Open.halt {d d1 : Dev} {l : Fin 4} {r : Nat} (h : Dev.Open d d1 l r) (hfree : (d1.leg l).chan = .free)
    {st : RecState} (hstate : (d1.record r).state = st) (hplan : (d1.record r).plan = (d.record r).plan) (f : FaultCode) :
    haltedWith d (d1.halt r f) r f st ∧ othersKeep d (d1.halt r f) r ∧ ((d1.halt r f).leg l).chan = .free := by
  obtain ⟨⟨hrecord, hset⟩, -, hothers, -, hkept⟩ := Dev.halt_spec h.recs r f st hstate
  exact ⟨⟨hrecord.trans (by rw [hplan]), hset⟩, fun q hq => (hothers q hq).trans (h.others q hq), hkept l hfree⟩

/-- R91, R93: the stage goes on with the context `c`, or stops. -/
theorem Dev.Ended.rangeAgain {d d1 : Dev} {l : Fin 4} {tail : List QuietSpan} (h : Dev.Ended d d1 l tail) {r : Nat}
    (hstate : (d.record r).state = .ranging) (hleg : (d.record r).enrol.leg = l) (c : Ranging) (f : FaultCode) :
    let d' := d1.rangeAgain r c f
    (d'.leg l).chan = .free ∧ Machine.othersKeep d d' r ∧
      if c.sends < c.limit then (d'.record r).state = .ranging ∧ (d'.record r).ranging = some c ∧
        (d'.record r).attempts = (d.record r).attempts ∧ offered d d' l r .range
      else haltedWith d d' r f .ranging := by
  have hopen := (h.open r).modRec fun y => { y with ranging := some c }
  have hrecord : (d1.modRec r fun y => { y with ranging := some c }).record r = { d1.record r with ranging := some c } :=
    Dev.modRec_record_self d1 r _ h.recs
  obtain ⟨v, fresh, wanted, hbefore⟩ := h.record r
  dsimp only [Dev.rangeAgain]
  by_cases hsends : c.sends < c.limit
  · rw [if_pos hsends, if_pos hsends]
    obtain ⟨hothers, ⟨w, hself⟩, hoffered⟩ := hopen.offerWork (by rw [hrecord, hbefore]; exact hleg)
    refine ⟨Dev.offerWork_free hopen.recs r h.chan, hothers, ?_⟩
    rw [hself, hrecord, hbefore]
    refine ⟨hstate, rfl, rfl, hoffered _ ?_⟩
    rw [hrecord, hbefore]
    exact Rec.stageDirective_ranging hstate
  · rw [if_neg hsends, if_neg hsends]
    obtain ⟨hhalted, hothers, hfree⟩ := hopen.halt h.chan (st := .ranging) (by rw [hrecord, hbefore]; exact hstate)
      (by rw [hrecord, hbefore]; rfl) f
    exact ⟨hfree, hothers, hhalted⟩

/-- R92, R95: the outcome of an echo that agrees. -/
theorem Dev.Ended.rangeAgreed {d d1 : Dev} {l : Fin 4} {tail : List QuietSpan} (h : Dev.Ended d d1 l tail) {r : Nat}
    (hstate : (d.record r).state = .ranging) (hleg : (d.record r).enrol.leg = l) (e : Env) (v : Nat) (level : Byte) :
    let d' := d1.rangeAgreed e r v level
    let c := e.cfg.leg l
    (d'.leg l).chan = .free ∧ Machine.othersKeep d d' r ∧
      if c.reach < v then haltedWith d d' r .tooFar .ranging
      else if level.toNat < c.minLevel then haltedWith d d' r .weakLight .ranging
      else (d'.record r).state = .equalising ∧ (d'.record r).measured = some v ∧ (d'.record r).equalise = some (c.reach - v) ∧
        (d'.record r).ranging = none ∧ (d'.record r).attempts = 0 ∧ offered d d' l r (.equalise (c.reach - v)) := by
  have hlegOf : (d1.record r).enrol.leg = l := by rw [h.enrol, hleg]
  dsimp only [Dev.rangeAgreed]
  rw [hlegOf]
  by_cases hfar : (e.cfg.leg l).reach < v
  · rw [if_pos hfar, if_pos hfar]
    obtain ⟨hhalted, -, hothers, hfree, -⟩ := h.halt hstate .tooFar
    exact ⟨hfree, hothers, hhalted⟩
  · rw [if_neg hfar, if_neg hfar]
    by_cases hweak : level.toNat < (e.cfg.leg l).minLevel
    · rw [if_pos hweak, if_pos hweak]
      obtain ⟨hhalted, -, hothers, hfree, -⟩ := h.halt hstate .weakLight
      exact ⟨hfree, hothers, hhalted⟩
    · rw [if_neg hweak, if_neg hweak]
      have hopen := (h.open r).modRec fun y => { y with measured := some v, ranging := none }
      have hrecord : (d1.modRec r fun y => { y with measured := some v, ranging := none }).record r =
          { d1.record r with measured := some v, ranging := none } := Dev.modRec_record_self d1 r _ h.recs
      rw [Dev.enterStage_equalising, hrecord]
      have hvalue : (e.cfg.leg (d1.record r).enrol.leg).reach - v = (e.cfg.leg l).reach - v := by rw [hlegOf]
      obtain ⟨hothers, ⟨w, hself⟩, hoffered⟩ := hopen.enter (b := .equalise ((e.cfg.leg l).reach - v))
        (y := { Rec.entering { d1.record r with measured := some v, ranging := none } .equalising with
          equalise := some ((e.cfg.leg (d1.record r).enrol.leg).reach - v) }) hlegOf
        (by rw [← h.enrol, ← hvalue]; rfl)
      refine ⟨Dev.offerWork_free (Dev.putRec_recs_wf _ _ _ hopen.recs) r h.chan, hothers, ?_⟩
      simp only [Option.getD_some]
      rw [hself]
      exact ⟨rfl, rfl, congrArg some hvalue, rfl, rfl, hoffered⟩

/-- Settles O35: the echo that agrees, and the one that does not. -/
theorem rangeAnsweredOk : Obligations.RangeAnsweredOk := by
  intro s l r x src tag data level delay p z hinv hanswers hstage hbody hz v c agree
  obtain ⟨hstate, hleg, horigin⟩ := hstage
  have hexec := exec_replyBurst_ends hanswers (code := .ok) (data := data) (by rw [hbody]; rfl) level delay
  have hended := Dev.ended_of_answer hinv.good.recs l x src .ok level
    (x.tailSpan (.answered true data level (clampDelay delay)) s.cycle)
  rw [Dev.deliver_record _ _ _ horigin, Dev.recordOutcome, hbody] at hexec
  dsimp only at hexec
  rw [Dev.echo_eq s.env (hended.rangingCtx hz)] at hexec
  refine ⟨_, hexec, ?_⟩
  change _ ∧ _ ∧ if z.agrees v s.applied.rangeTol = true then _ else _
  by_cases hagrees : z.agrees v s.applied.rangeTol = true
  · have hagrees' : z.agrees (clampDelay delay) s.env.cfg.rangeTol = true := hagrees
    rw [if_pos hagrees', if_pos hagrees]
    exact hended.rangeAgreed hstate hleg s.env v level
  · have hagrees' : ¬ z.agrees (clampDelay delay) s.env.cfg.rangeTol = true := hagrees
    rw [if_neg hagrees', if_neg hagrees]
    exact hended.rangeAgain hstate hleg _ _

end Sys2Proof.Machine
end

section
/-! PROOF (O36, O37). A record that completes EQUALISING or a chunk of its profile (R7, R98 to R105, R116 to R122). -/

namespace Sys2Proof.Machine

/-! ## Entering LOADING (R101, R102, R103, R107, R108) -/

/-- R101: the LOAD of chunk 0. -/
theorem Enrolment.loadBody_zero (x : Enrolment) :
    x.loadBody 0 = .load 0 x.dest x.mode x.start (if decide ((x.lenCode + 16) / 16 = 1) then x.lenCode + 1 else 16)
      (decide ((x.lenCode + 16) / 16 = 1)) := by
  have hfinal : decide (0 + 1 = x.chunks) = decide ((x.lenCode + 16) / 16 = 1) := decide_eq_decide.2 eq_comm
  unfold Enrolment.loadBody
  rw [hfinal]
  cases x.mode <;> rfl

/-- R107: a record that joins an entry, whose range stands. -/
theorem Dev.joinPin_rules {d : Dev} (hrecs : Sparse.wf Rec.vacant d.recs = true) (hpins : Sparse.wf Pin.free d.pins = true) (i r : Nat) :
    let d' := d.joinPin i r
    Sparse.wf Rec.vacant d'.recs = true ∧ d'.legs = d.legs ∧ (∀ q, q ≠ r → d'.record q = d.record q) ∧
      d'.record r = { d.record r with pin := some i, pinWait := false } ∧ (d'.pin i).start = (d.pin i).start ∧
      (d'.pin i).lenCode = (d.pin i).lenCode := by
  refine ⟨Dev.modRec_recs_wf (d.putPin i _) r _ hrecs, rfl, fun q hq => Dev.joinPin_record_ne d i hq, Dev.joinPin_record_self hrecs i r, ?_, ?_⟩
  · rw [Dev.joinPin_pin_self hpins]
  · rw [Dev.joinPin_pin_self hpins]

theorem Dev.openPin_range {d : Dev} {en : Enrolment} {i : Nat} (h : d.openPin en = some i) :
    (d.pin i).start = en.start ∧ (d.pin i).lenCode = en.lenCode := by
  have hfound := List.find?_some h
  simp only [Pin.hasRange, Bool.and_eq_true, decide_eq_true_eq] at hfound
  exact hfound.2

/-- R107, R108: a record that asks for a pin-table entry has one with its range, or waits for one. -/
theorem Dev.pinRequest_rules {d : Dev} (hrecs : Sparse.wf Rec.vacant d.recs = true) (hpins : Sparse.wf Pin.free d.pins = true) (r : Nat) :
    let d' := d.pinRequest r
    let en := (d.record r).enrol
    Sparse.wf Rec.vacant d'.recs = true ∧ d'.legs = d.legs ∧ (∀ q, q ≠ r → d'.record q = d.record q) ∧
      (d'.record r = { d.record r with pinWait := true, pin := none } ∨
        ∃ k, d'.record r = { d.record r with pin := some k, pinWait := false } ∧ (d'.pin k).start = en.start ∧
          (d'.pin k).lenCode = en.lenCode) := by
  unfold Dev.pinRequest
  dsimp only
  split
  next i hopenPin =>
    obtain ⟨hwf, hlegs, hothers, hself, hstart, hlen⟩ := Dev.joinPin_rules hrecs hpins i r
    obtain ⟨hstart', hlen'⟩ := Dev.openPin_range hopenPin
    exact ⟨hwf, hlegs, hothers, .inr ⟨i, hself, hstart.trans hstart', hlen.trans hlen'⟩⟩
  next =>
    split
    next i hfree =>
      have hpin : (d.openFree i (d.record r).enrol).pin i = ⟨.openEntry, (d.record r).enrol.start, (d.record r).enrol.lenCode, 0⟩ :=
        Dev.putPin_pin_self d i _ hpins
      obtain ⟨hwf, hlegs, hothers, hself, hstart, hlen⟩ :=
        Dev.joinPin_rules (d := d.openFree i (d.record r).enrol) hrecs (Sparse.set_wf _ _ _ hpins) i r
      exact ⟨hwf, hlegs, hothers, .inr ⟨i, hself, by rw [hstart, hpin], by rw [hlen, hpin]⟩⟩
    next =>
      exact ⟨Dev.modRec_recs_wf { d with pinWait := d.pinWait ++ [r] } r _ hrecs, rfl,
        fun q hq => Dev.modRec_record_ne { d with pinWait := d.pinWait ++ [r] } r q _ hq,
        .inl (Dev.modRec_record_self { d with pinWait := d.pinWait ++ [r] } r _ hrecs)⟩

/-- R9, R102: a record as it enters LOADING. -/
def Rec.enteringLoading (x : Rec) : Rec := { x.entering .loading with chunksAck := 0, chunksTotal := x.enrol.chunks }

theorem Dev.enterStage_loading (e : Env) (d : Dev) (r : Nat) :
    d.enterStage e r .loading = ((d.putRec r (d.record r).enteringLoading).pinRequest r).offerWork r := rfl

theorem Dev.Open.congr {d d1 d2 : Dev} {l : Fin 4} {r : Nat} (h : Dev.Open d d1 l r) (hrecs : Sparse.wf Rec.vacant d2.recs = true)
    (hothers : ∀ q, q ≠ r → d2.record q = d1.record q) (hlegs : d2.legs = d1.legs) : Dev.Open d d2 l r := by
  have hleg : d2.leg l = d1.leg l := congrArg (Legs.get · l) hlegs
  exact { recs := hrecs, others := fun q hq => (congrArg Rec.plan (hothers q hq)).trans (h.others q hq),
          flight := hleg ▸ h.flight, queue := hleg ▸ h.queue, waiting := hleg ▸ h.waiting }

/-- R101 to R103, R108: a record that enters LOADING. -/
theorem Dev.Open.enterLoading {d d1 : Dev} {l : Fin 4} {r : Nat} (h : Dev.Open d d1 l r) (hfree : (d1.leg l).chan = .free)
    (hpins : Sparse.wf Pin.free d1.pins = true) {en : Enrolment} (hen : (d.record r).enrol = en) (hen1 : (d1.record r).enrol = en)
    (hleg : en.leg = l) (e : Env) :
    let d' := d1.enterStage e r .loading
    let y := d'.record r
    (d'.leg l).chan = .free ∧ othersKeep d d' r ∧ y.state = .loading ∧ y.attempts = 0 ∧ y.chunksAck = 0 ∧
      y.chunksTotal = (en.lenCode + 16) / 16 ∧
      (y.pinWait = true ∨ ∃ k, y.pin = some k ∧ (d'.pin k).start = en.start ∧ (d'.pin k).lenCode = en.lenCode) ∧
      (y.pinWait = false → offered d d' l r (en.loadBody 0)) := by
  rw [Dev.enterStage_loading]
  have hself : (d1.putRec r (d1.record r).enteringLoading).record r = (d1.record r).enteringLoading :=
    Dev.putRec_record_self d1 r _ h.recs
  have hentered := h.putRec (d1.record r).enteringLoading
  obtain ⟨hwf, hlegs, hrecords, hpin⟩ := Dev.pinRequest_rules (d := d1.putRec r (d1.record r).enteringLoading) hentered.recs hpins r
  have hopen := hentered.congr hwf hrecords hlegs
  have hkept : (((d1.putRec r (d1.record r).enteringLoading).pinRequest r).leg l).chan = .free :=
    (congrArg (fun y : Legs => (y.get l).chan) hlegs).trans hfree
  have henrol : (((d1.putRec r (d1.record r).enteringLoading).pinRequest r).record r).enrol = en := by
    obtain hwait | ⟨k, hjoined, -, -⟩ := hpin
    · rw [hwait, hself]; exact hen1
    · rw [hjoined, hself]; exact hen1
  obtain ⟨hothers, ⟨w, hoffer⟩, hoffered⟩ := hopen.offerWork (by rw [henrol, hleg])
  have hpinsKept := (Dev.offerWork_rules hwf r).1
  refine ⟨Dev.offerWork_free hwf r hkept, hothers, ?_⟩
  obtain hwait | ⟨k, hjoined, hstart, hlen⟩ := hpin
  · rw [hself] at hwait
    rw [hoffer, hwait]
    exact ⟨rfl, rfl, rfl, congrArg Enrolment.chunks hen1, .inl rfl, nofun⟩
  · rw [hself] at hjoined hstart hlen
    have hdir : (((d1.putRec r (d1.record r).enteringLoading).pinRequest r).record r).stageDirective =
        some ⟨.individual (d.record r).enrol.addr, en.loadBody 0⟩ := by
      rw [hjoined, Rec.stageDirective_loading (k := k) rfl rfl, hen, ← hen1]
      rfl
    refine ⟨by rw [hoffer, hjoined]; rfl, by rw [hoffer, hjoined]; rfl, by rw [hoffer, hjoined]; rfl,
      by rw [hoffer, hjoined]; exact congrArg Enrolment.chunks hen1, .inr ⟨k, by rw [hoffer, hjoined], ?_, ?_⟩,
      fun _ => hoffered _ hdir⟩
    · rw [Dev.pin, hpinsKept]
      exact hstart.trans (congrArg Enrolment.start hen1)
    · rw [Dev.pin, hpinsKept]
      exact hlen.trans (congrArg Enrolment.lenCode hen1)

/-! ## Entering GRANTING (R118 to R122) -/

theorem Sparse.get_foldl_set (ss : List Nat) (v k : Nat) {m : List (Nat × Nat)} (hm : Sparse.wf 0 m = true) :
    Sparse.get 0 (ss.foldl (fun m s => Sparse.set 0 m s v) m) k = if k ∈ ss then v else Sparse.get 0 m k := by
  induction ss generalizing m with
  | nil => simp
  | cons s ss ih =>
    rw [List.foldl_cons, ih (Sparse.set_wf m s v hm)]
    by_cases hks : k = s
    · subst hks
      simp [Sparse.get_set_self m k v hm]
    · simp [hks, Sparse.get_set_ne m s k v hks]

theorem Rec.stageDirective_granting {x : Rec} (h : x.state = .granting) :
    x.stageDirective = some ⟨.individual x.enrol.addr, .grant (x.label.getD 0) x.slotList⟩ := by
  unfold Rec.stageDirective
  rw [h]

/-- R119: leg l with the slots `taken` under their lowest as the label. -/
def Leg.takeSlots (g : Leg) (taken : List Nat) : Leg :=
  { g with slotMap := taken.foldl (fun m s => Sparse.set 0 m s (taken.headD 0)) g.slotMap }

/-- R119, R122: a record with the slots it is granted, `left` slots staying free. -/
def Rec.granted (x : Rec) (taken : List Nat) (left : Nat) : Rec :=
  { x with label := some (taken.headD 0), slotList := taken, freeCount := left }

/-- R119, R120: the slot map gives the lowest free slots, or the record is halted. -/
theorem Dev.allocate_eq (d : Dev) (r : Nat) {l : Fin 4} (hleg : (d.record r).enrol.leg = l) {n : Nat} (hdemand : (d.record r).enrol.demand = n)
    {free : List Nat} (hfree : (d.leg l).freeSlots = free) :
    d.allocate r = if n ≤ free.length then
        ((d.modLeg l fun g => g.takeSlots (free.take n)).modRec r fun y => y.granted (free.take n) (free.length - n)).offerWork r
      else (d.modRec r fun y => { y with freeCount := free.length }).halt r .noSlots := by
  subst hleg hdemand hfree
  rfl

theorem List.head?_eq_headD_of_ne_nil {xs : List Nat} (h : xs ≠ []) : some (xs.headD 0) = xs.head? := by
  cases xs with
  | nil => exact absurd rfl h
  | cons x xs => rfl

theorem Dev.offerWork_slotMap (d : Dev) (r : Nat) (k : Fin 4) : ((d.offerWork r).leg k).slotMap = (d.leg k).slotMap := by
  have hmod (l : Fin 4) (f : Leg → Leg) (hf : ∀ g : Leg, (f g).slotMap = g.slotMap) : ((d.modLeg l f).leg k).slotMap = (d.leg k).slotMap := by
    rw [Dev.modLeg_leg]
    split
    next hk => rw [hf, hk]
    next => rfl
  unfold Dev.offerWork Dev.offerStage
  dsimp only
  split
  next =>
    split
    next => rfl
    next =>
      split
      next => exact hmod _ _ fun _ => rfl
      next =>
        rw [Dev.waitBack, Dev.modRec_leg]
        exact hmod _ _ fun _ => rfl
  next => rfl

/-- R118 to R122: a record that enters GRANTING. -/
theorem Dev.Open.enterGranting {d d1 : Dev} {l : Fin 4} {r : Nat} (h : Dev.Open d d1 l r) (hfree : (d1.leg l).chan = .free)
    (hmap : (d1.leg l).slotMap = (d.leg l).slotMap) (hwf : Sparse.wf 0 (d.leg l).slotMap = true) {en : Enrolment}
    (hen : (d.record r).enrol = en) (hen1 : (d1.record r).enrol = en) (hleg : en.leg = l) (hdemand : en.demand ≠ 0) (e : Env) :
    let d' := d1.enterStage e r .granting
    let y := d'.record r
    let free := (d.leg l).freeSlots
    (d'.leg l).chan = .free ∧ othersKeep d d' r ∧
      if en.demand ≤ free.length then
        y.state = .granting ∧ y.slotList = free.take en.demand ∧ y.label = y.slotList.head? ∧ y.freeCount = free.length - en.demand ∧
          offered d d' l r (.grant (y.slotList.headD 0) y.slotList) ∧
          ∀ k, (d'.leg l).slotByte k = if k ∈ y.slotList then y.slotList.headD 0 else (d.leg l).slotByte k
      else y.state = .halted ∧ y.fault = .noSlots ∧ y.stage = some .granting ∧ y.freeCount = free.length ∧ d'.isSet .recHalted = true := by
  have hfreeSlots : (d1.leg l).freeSlots = (d.leg l).freeSlots := by rw [Leg.freeSlots, hmap]; rfl
  have hself : (d1.putRec r ((d1.record r).entering .granting)).record r = (d1.record r).entering .granting :=
    Dev.putRec_record_self d1 r _ h.recs
  have hentered := h.putRec ((d1.record r).entering .granting)
  have hallocate : d1.enterStage e r .granting = (d1.putRec r ((d1.record r).entering .granting)).allocate r := rfl
  rw [hallocate, Dev.allocate_eq (d1.putRec r ((d1.record r).entering .granting)) r (l := l) (n := en.demand)
    (by rw [hself]; exact (congrArg Enrolment.leg hen1).trans hleg)
    (by rw [hself]; exact congrArg Enrolment.demand hen1) hfreeSlots]
  dsimp only
  generalize (d.leg l).freeSlots = free
  by_cases henough : en.demand ≤ free.length
  · rw [if_pos henough, if_pos henough]
    have hslots : free.take en.demand ≠ [] := by
      intro hnil
      rw [List.take_eq_nil_iff] at hnil
      rcases hnil with hzero | hnil
      · exact hdemand hzero
      · rw [hnil] at henough
        exact hdemand (Nat.le_zero.1 henough)
    generalize free.take en.demand = taken at hslots ⊢
    have hopen : Dev.Open d (((d1.putRec r ((d1.record r).entering .granting)).modLeg l fun g => g.takeSlots taken)) l r :=
      { recs := hentered.recs, others := hentered.others
        flight := by rw [Dev.modLeg_leg_self]; exact hentered.flight
        queue := by rw [Dev.modLeg_leg_self]; exact hentered.queue
        waiting := by rw [Dev.modLeg_leg_self]; exact hentered.waiting }
    have hgranted := hopen.modRec fun y => y.granted taken (free.length - en.demand)
    have hrecord : (((d1.putRec r ((d1.record r).entering .granting)).modLeg l fun g => g.takeSlots taken).modRec r
        fun y => y.granted taken (free.length - en.demand)).record r =
        ((d1.record r).entering .granting).granted taken (free.length - en.demand) :=
      (Dev.modRec_record_self _ r _ hopen.recs).trans (congrArg (Rec.granted · taken (free.length - en.demand)) hself)
    obtain ⟨hothers, ⟨w, hoffer⟩, hoffered⟩ := hgranted.offerWork (by rw [hrecord]; exact (congrArg Enrolment.leg hen1).trans hleg)
    refine ⟨Dev.offerWork_free hgranted.recs r ?_, hothers, ?_⟩
    · rw [Dev.modRec_leg, Dev.modLeg_leg_self]
      exact hfree
    · rw [hoffer, hrecord]
      refine ⟨rfl, rfl, List.head?_eq_headD_of_ne_nil hslots, rfl, hoffered _ ?_, fun k => ?_⟩
      · rw [hrecord, Rec.stageDirective_granting rfl, hen, ← hen1]
        rfl
      · rw [Leg.slotByte, Dev.offerWork_slotMap, Dev.modRec_leg, Dev.modLeg_leg_self]
        refine (Sparse.get_foldl_set taken _ k (m := (d1.leg l).slotMap) (hmap ▸ hwf)).trans ?_
        rw [hmap]
        rfl
  · rw [if_neg henough, if_neg henough]
    have hopen := hentered.modRec fun y => { y with freeCount := free.length }
    have hrecord : ((d1.putRec r ((d1.record r).entering .granting)).modRec r fun y => { y with freeCount := free.length }).record r =
        { (d1.record r).entering .granting with freeCount := free.length } :=
      (Dev.modRec_record_self _ r _ hentered.recs).trans (congrArg (fun y : Rec => { y with freeCount := free.length }) hself)
    obtain ⟨⟨hplan, hset⟩, -, hothers, -, hkept⟩ := Dev.halt_spec hopen.recs r .noSlots .granting (by rw [hrecord]; rfl)
    rw [hrecord] at hplan
    have hstate := congrArg Rec.state hplan
    have hfault := congrArg Rec.fault hplan
    have hstage := congrArg Rec.stage hplan
    have hcount := congrArg Rec.freeCount hplan
    exact ⟨hkept l hfree, fun q hq => (hothers q hq).trans (hopen.others q hq), hstate, hfault, hstage, hcount, hset⟩

/-! ## EQUALISE (R7, R98) -/

theorem Dev.Ended.slotMap {d d1 : Dev} {l : Fin 4} {tail : List QuietSpan} (h : Dev.Ended d d1 l tail) :
    (d1.leg l).slotMap = (d.leg l).slotMap := by rw [h.leg]

theorem Dev.Ended.pins {d d1 : Dev} {l : Fin 4} {tail : List QuietSpan} (h : Dev.Ended d d1 l tail) : d1.pins = d.pins := by
  rw [h.rest]

/-- R7, R98: the ways on from EQUALISING. -/
theorem Dev.equalised_eq (e : Env) (d : Dev) (r : Nat) {en : Enrolment} (hen : (d.record r).enrol = en) :
    d.equalised e r = if en.hold = .ranged ∨ (en.hold = .loaded ∧ en.noProfile = true) then d.hold r .equalising
      else if en.noProfile = false then d.enterStage e r .loading
      else if en.demand = 0 then d.enterActive r else d.enterStage e r .granting := by
  subst hen
  unfold Dev.equalised Dev.moveTo Enrolment.afterEqualising
  dsimp only
  refine if_congr Iff.rfl rfl ?_
  cases (d.record r).enrol.noProfile
  · rfl
  · by_cases hdemand : (d.record r).enrol.demand = 0
    · simp [hdemand]
    · simp [hdemand]

/-- Settles O36: the record is held, or enters LOADING, ACTIVE or GRANTING. -/
theorem equaliseAnsweredOk : Obligations.EqualiseAnsweredOk := by
  intro s l r x src tag data level delay p v hinv hanswers hstage hbody en
  obtain ⟨hstate, hleg, horigin⟩ := hstage
  have hexec := exec_replyBurst_ends hanswers (code := .ok) (data := data) (by rw [hbody]; rfl) level delay
  have hended := Dev.ended_of_answer hinv.good.recs l x src .ok level
    (x.tailSpan (.answered true data level (clampDelay delay)) s.cycle)
  rw [Dev.deliver_record _ _ _ horigin, Dev.recordOutcome, hbody] at hexec
  dsimp only at hexec
  rw [Dev.equalised_eq s.env _ r (hended.enrol r)] at hexec
  refine ⟨_, hexec, ?_⟩
  generalize ((s.dev.answerLevel l x src .ok level).freed l (x.tailSpan (.answered true data level (clampDelay delay)) s.cycle)) = d1
    at hended
  have hopen := hended.open r
  have hen1 : (d1.record r).enrol = en := hended.enrol r
  change _ ∧ _ ∧ if en.hold = .ranged ∨ (en.hold = .loaded ∧ en.noProfile = true) then _ else _
  by_cases hhold : en.hold = .ranged ∨ (en.hold = .loaded ∧ en.noProfile = true)
  · rw [if_pos hhold, if_pos hhold]
    obtain ⟨hothers, hfree, hcore⟩ := hopen.hold hended.chan .equalising
    have hheld := congrArg Rec.state hcore
    have hheldAt := congrArg Rec.stage hcore
    exact ⟨hfree, hothers, hheld, hheldAt⟩
  rw [if_neg hhold, if_neg hhold]
  by_cases hprofile : en.noProfile = false
  · rw [if_pos hprofile, if_pos hprofile]
    have hpins : Sparse.wf Pin.free d1.pins = true := by rw [hended.pins]; exact hinv.good.pins
    obtain ⟨hfree, hothers, hloading, hattempts, hack, htotal, hpin, hoffered⟩ :=
      hopen.enterLoading hended.chan hpins rfl hen1 hleg s.env
    exact ⟨hfree, hothers, hloading, hattempts, hack, htotal, hpin, fun h => en.loadBody_zero ▸ hoffered h⟩
  rw [if_neg hprofile, if_neg hprofile]
  by_cases hdemand : en.demand = 0
  · rw [if_pos hdemand, if_pos hdemand]
    obtain ⟨hself, hothers, hlegs, hset⟩ := Dev.enterActive_rules hended.recs r
    refine ⟨(congrArg (fun y : Legs => (y.get l).chan) hlegs).trans hended.chan,
      hended.othersKeep fun q hq => congrArg Rec.plan (hothers q hq), ?_, hset⟩
    rw [hself]
  · rw [if_neg hdemand, if_neg hdemand]
    exact hopen.enterGranting hended.chan hended.slotMap (hinv.good.leg l).2.2.2 rfl hen1 hleg hdemand s.env

/-! ## What the resource operations leave of a record (R4, R12, R48, R109, R110) -/

theorem Dev.foldl_joinPin_kept (i : Nat) (rs : List Nat) (d : Dev) :
    (rs.foldl (fun y q => y.joinPin i q) d).pinWait = d.pinWait ∧
      ∀ q, q ∉ rs → (rs.foldl (fun y q => y.joinPin i q) d).record q = d.record q := by
  induction rs generalizing d with
  | nil => exact ⟨rfl, fun _ _ => rfl⟩
  | cons r rs ih =>
    obtain ⟨hwait, hothers⟩ := ih (d.joinPin i r)
    refine ⟨hwait, fun q hq => ?_⟩
    obtain ⟨hqr, hmem⟩ := not_or.1 (mt List.mem_cons.2 hq)
    exact (hothers q hmem).trans (Dev.joinPin_record_ne d i hqr)

theorem Dev.foldl_joinPin_wf (i : Nat) (rs : List Nat) {d : Dev} (hrecs : Sparse.wf Rec.vacant d.recs = true) :
    Sparse.wf Rec.vacant (rs.foldl (fun y q => y.joinPin i q) d).recs = true :=
  (Dev.Frame.foldl (fun _ q hy => Dev.Frame.joinPin hy i q) rs hrecs).recs

/-- R109: record q's range is record r's. -/
def Dev.sameRange (d : Dev) (r q : Nat) : Bool :=
  decide ((d.record q).enrol.start = (d.record r).enrol.start) && decide ((d.record q).enrol.lenCode = (d.record r).enrol.lenCode)

theorem Dev.servePin_eq (d : Dev) (i r : Nat) (rest : List Nat) :
    d.servePin i r rest = (r :: rest.filter (d.sameRange r)).foldl Dev.offerWork
      ((r :: rest.filter (d.sameRange r)).foldl (fun y q => y.joinPin i q)
        (({ d with pinWait := rest.filter fun q => !d.sameRange r q } : Dev).openFree i (d.record r).enrol)) := rfl

/-- R109: serving an entry changes no record that does not wait for one, and nobody joins the list. -/
theorem Dev.servePin_kept {d : Dev} (hrecs : Sparse.wf Rec.vacant d.recs = true) (i r : Nat) (rest : List Nat) :
    (∀ q, q ∈ (d.servePin i r rest).pinWait → q ∈ rest) ∧
      ∀ q, q ∉ r :: rest → (d.servePin i r rest).record q = d.record q := by
  rw [Dev.servePin_eq]
  obtain ⟨hjoinWait, hjoin⟩ := Dev.foldl_joinPin_kept i (r :: rest.filter (d.sameRange r))
    (({ d with pinWait := rest.filter fun q => !d.sameRange r q } : Dev).openFree i (d.record r).enrol)
  obtain ⟨-, hofferWait, -, hoffer⟩ := Dev.foldl_offerWork (r :: rest.filter (d.sameRange r))
    (Dev.foldl_joinPin_wf i (r :: rest.filter (d.sameRange r))
      (d := ({ d with pinWait := rest.filter fun q => !d.sameRange r q } : Dev).openFree i (d.record r).enrol) hrecs)
  refine ⟨fun q hq => ?_, fun q hq => ?_⟩
  · rw [hofferWait, hjoinWait] at hq
    exact List.mem_of_mem_filter hq
  · have hserved : q ∉ r :: rest.filter (d.sameRange r) := fun h => hq <| by
      rcases List.mem_cons.1 h with h | h
      · exact List.mem_cons.2 (.inl h)
      · exact List.mem_cons.2 (.inr (List.mem_of_mem_filter h))
    exact (hoffer q hserved).trans (hjoin q hserved)

theorem Dev.servePins_kept {d : Dev} (hrecs : Sparse.wf Rec.vacant d.recs = true) (n : Nat) {q : Nat} (hq : q ∉ d.pinWait) :
    (d.servePins n).record q = d.record q := by
  induction n generalizing d with
  | zero => rfl
  | succ n ih =>
    unfold Dev.servePins
    split
    next r rest i hwait hfree =>
      obtain ⟨hlist, hkept⟩ := Dev.servePin_kept hrecs i r rest
      rw [hwait] at hq
      rw [ih (Dev.Frame.servePin hrecs i r rest).recs fun h => hq (List.mem_cons_of_mem _ (hlist q h))]
      exact hkept q hq
    next => rfl
    next => rfl

/-- R110: the use of an entry that ends serves no record that does not wait. -/
theorem Dev.dropPinUse_kept {d : Dev} (hrecs : Sparse.wf Rec.vacant d.recs = true) (i : Nat) {q : Nat} (hq : q ∉ d.pinWait) :
    (d.dropPinUse i).record q = d.record q := by
  unfold Dev.dropPinUse
  dsimp only
  split
  next => exact Dev.servePins_kept (d := d.putPin i .free) hrecs _ hq
  next => rfl

theorem Dev.pinRelease_of_pin {d : Dev} {r i : Nat} (hwait : (d.record r).pinWait = false) (hpin : (d.record r).pin = some i) :
    d.pinRelease r = (d.modRec r fun y => { y with pin := none }).dropPinUse i := by
  unfold Dev.pinRelease
  dsimp only
  rw [hwait, if_neg Bool.false_ne_true, hpin]

theorem Dev.pinRelease_eq_self {d : Dev} {r : Nat} (hwait : (d.record r).pinWait = false) (hpin : (d.record r).pin = none) :
    d.pinRelease r = d := by
  unfold Dev.pinRelease
  dsimp only
  rw [hwait, if_neg Bool.false_ne_true, hpin]

/-- R110: a record that does not wait for an entry has none once its use is released. -/
theorem Dev.pinRelease_record {d : Dev} (hrecs : Sparse.wf Rec.vacant d.recs = true) {r : Nat} (hwait : (d.record r).pinWait = false)
    (hlist : r ∉ d.pinWait) : (d.pinRelease r).record r = { d.record r with pin := none } := by
  cases hpin : (d.record r).pin with
  | some i =>
    rw [Dev.pinRelease_of_pin hwait hpin, Dev.dropPinUse_kept (d := d.modRec r _) (Dev.modRec_recs_wf _ _ _ hrecs) i hlist]
    exact Dev.modRec_record_self _ _ _ hrecs
  | none =>
    rw [Dev.pinRelease_eq_self hwait hpin]
    exact congrArg (fun p => { d.record r with pin := p }) hpin

/-- R4, R48, R52: what a change of a queue, or the end of a directive, may change of a record: WAITING and MUTED. -/
def Rec.sameButFlags (x y : Rec) : Prop := ∃ waiting muted, y = { x with waiting := waiting, muted := muted }

theorem Rec.sameButFlags_refl (x : Rec) : x.sameButFlags x := ⟨_, _, rfl⟩

theorem Rec.sameButFlags_trans {x y z : Rec} (h : x.sameButFlags y) (h' : y.sameButFlags z) : x.sameButFlags z := by
  obtain ⟨_, _, rfl⟩ := h
  obtain ⟨w, m, rfl⟩ := h'
  exact ⟨w, m, rfl⟩

theorem Dev.modRec_sameButFlags {d : Dev} (hrecs : Sparse.wf Rec.vacant d.recs = true) (r : Nat) {f : Rec → Rec}
    (hf : ∀ x : Rec, x.sameButFlags (f x)) (q : Nat) : (d.record q).sameButFlags ((d.modRec r f).record q) := by
  by_cases hq : q = r
  · subst hq
    rw [Dev.modRec_record_self _ _ _ hrecs]
    exact hf _
  · rw [Dev.modRec_record_ne _ _ _ _ hq]
    exact Rec.sameButFlags_refl _

theorem Dev.fillQueue_sameButFlags {d : Dev} (hrecs : Sparse.wf Rec.vacant d.recs = true) (l : Fin 4) (q : Nat) :
    (d.record q).sameButFlags ((d.fillQueue l).record q) := by
  rw [Dev.fillQueue_eq, Dev.foldl_clearWaiting_record _ (d := d.modLeg l _) hrecs]
  exact ⟨_, _, rfl⟩

theorem Dev.unqueue_sameButFlags {d : Dev} (hrecs : Sparse.wf Rec.vacant d.recs = true) (l : Fin 4) (r q : Nat) :
    (d.record q).sameButFlags ((d.unqueue l r).record q) := by
  unfold Dev.unqueue
  split
  next e rest hfirst => exact Dev.fillQueue_sameButFlags (d := d.modLeg l _) hrecs l q
  next =>
    split
    next => exact Dev.modRec_sameButFlags (d := d.modLeg l _) hrecs r (fun x => ⟨_, _, rfl⟩) q
    next => exact Rec.sameButFlags_refl _

theorem Dev.cancelFetch_record (d : Dev) (l : Fin 4) (q : Nat) : (d.cancelFetch l).record q = d.record q := by
  have hend : (d.endFetch l).recs = d.recs := by
    unfold Dev.endFetch Dev.withdrawLoad
    split
    next => split <;> rfl
    next => rfl
    next =>
      split
      next => split <;> rfl
      next => rfl
    next =>
      split
      next => split <;> rfl
      next => rfl
  exact congrArg (Sparse.get Rec.vacant · q) hend

theorem Dev.abandon_sameButFlags {d : Dev} (hrecs : Sparse.wf Rec.vacant d.recs = true) (l : Fin 4) (q : Nat) :
    (d.record q).sameButFlags ((d.abandon l).record q) := by
  have hcancel : ∀ q, ((d.modLeg l fun g => { g with chan := .free }).cancelFetch l).record q = d.record q :=
    Dev.cancelFetch_record (d.modLeg l _) l
  have hwf : Sparse.wf Rec.vacant ((d.modLeg l fun g => { g with chan := .free }).cancelFetch l).recs = true :=
    (Dev.Frame.cancelFetch (d := d.modLeg l _) hrecs l).recs
  unfold Dev.abandon
  split
  next x hx =>
    rw [← hcancel q]
    unfold Dev.unmuteEnded
    split
    next => exact Dev.modRec_sameButFlags hwf _ (fun y => ⟨_, _, rfl⟩) q
    next => exact Dev.modRec_sameButFlags hwf _ (fun y => ⟨_, _, rfl⟩) q
    next => exact Rec.sameButFlags_refl _
  next => exact Rec.sameButFlags_refl _

theorem Dev.abandonOf_sameButFlags {d : Dev} (hrecs : Sparse.wf Rec.vacant d.recs = true) (l : Fin 4) (r q : Nat) :
    (d.record q).sameButFlags ((d.abandonOf l r).record q) := by
  unfold Dev.abandonOf
  split
  next => exact Dev.abandon_sameButFlags hrecs l q
  next => exact Rec.sameButFlags_refl _

/-- R124: a record keeps its pin-table use as its slots are released. -/
theorem Dev.slotRelease_pin {d : Dev} (hrecs : Sparse.wf Rec.vacant d.recs = true) (r : Nat) :
    ((d.slotRelease r).record r).pin = (d.record r).pin := by
  unfold Dev.slotRelease
  dsimp only
  split
  next =>
    rw [Dev.modRec_record_self]
    · rfl
    · exact hrecs
  next => rfl

/-- R12: a record that has no pin-table entry and waits for none is given none as it drops its resources. -/
theorem Dev.drop_pin {d : Dev} (hrecs : Sparse.wf Rec.vacant d.recs = true) {r : Nat} (hpin : (d.record r).pin = none)
    (hwait : (d.record r).pinWait = false) : ((d.drop r).record r).pin = none := by
  obtain ⟨w, m, hflags⟩ := Rec.sameButFlags_trans (Dev.unqueue_sameButFlags hrecs (d.record r).enrol.leg r r)
    (Dev.abandonOf_sameButFlags (Dev.Frame.unqueue hrecs (d.record r).enrol.leg r).recs (d.record r).enrol.leg r r)
  have hwf : Sparse.wf Rec.vacant ((d.unqueue (d.record r).enrol.leg r).abandonOf (d.record r).enrol.leg r).recs = true := by
    unfold Dev.abandonOf
    split
    next => exact (Dev.Frame.abandon (Dev.Frame.unqueue hrecs _ r).recs _).recs
    next => exact (Dev.Frame.unqueue hrecs _ r).recs
  unfold Dev.drop
  dsimp only
  rw [Dev.pinRelease_eq_self (by rw [hflags]; exact hwait) (by rw [hflags]; exact hpin)]
  refine (congrArg Rec.pin (Dev.modRec_record_self _ r _ (Dev.Frame.slotRelease hwf r).recs)).trans ?_
  rw [Dev.slotRelease_pin hwf, hflags]
  exact hpin

theorem Dev.haltWith_pin {d : Dev} (hrecs : Sparse.wf Rec.vacant d.recs = true) {r : Nat} (hpin : (d.record r).pin = none)
    (hwait : (d.record r).pinWait = false) (f : FaultCode) (st : Option RecState) : ((d.haltWith r f st).record r).pin = none := by
  rw [Dev.haltWith, Dev.latch_record, Dev.modRec_record_self _ _ _ (Dev.Frame.drop hrecs r).recs]
  exact Dev.drop_pin hrecs hpin hwait

theorem Dev.hold_pin {d : Dev} (hrecs : Sparse.wf Rec.vacant d.recs = true) {r : Nat} (hpin : (d.record r).pin = none)
    (hwait : (d.record r).pinWait = false) (st : RecState) : ((d.hold r st).record r).pin = none := by
  rw [Dev.hold, Dev.modRec_record_self _ _ _ (Dev.Frame.drop hrecs r).recs]
  exact Dev.drop_pin hrecs hpin hwait

/-! ## LOAD (R101, R103, R104, R105, R116) -/

/-- R101: the LOAD of a chunk, its destination by the mode. -/
theorem Enrolment.loadBody_eq (x : Enrolment) (i : Nat) :
    x.loadBody i = .load i (if x.mode = .inc then x.dest + 16 * i else x.dest) x.mode (x.start + 16 * i)
      (if decide (i + 1 = (x.lenCode + 16) / 16) then x.lenCode + 1 - 16 * i else 16) (decide (i + 1 = (x.lenCode + 16) / 16)) := by
  unfold Enrolment.loadBody Enrolment.chunks
  cases x.mode <;> rfl

/-- R7, R105: the ways on from LOADING. -/
theorem Dev.loaded_eq (e : Env) (d : Dev) (r : Nat) {en : Enrolment} (hen : (d.record r).enrol = en) :
    d.loaded e r = if en.hold = .loaded then (d.pinRelease r).hold r .loading
      else if en.demand = 0 then (d.pinRelease r).enterActive r else (d.pinRelease r).enterStage e r .granting := by
  subst hen
  unfold Dev.loaded Dev.moveTo Enrolment.afterLoading
  dsimp only
  refine if_congr Iff.rfl rfl ?_
  by_cases hdemand : (d.record r).enrol.demand = 0
  · simp [hdemand]
  · simp [hdemand]

/-- R46: a record's stage directive joins the back of the waiting list of a full queue. -/
theorem Dev.Open.offerWork_full {d d1 : Dev} {l : Fin 4} {r : Nat} (h : Dev.Open d d1 l r) (hleg : (d1.record r).enrol.leg = l)
    {dir : Directive} (hdir : (d1.record r).stageDirective = some dir) (hentry : (d.leg l).hasEntry r = false)
    (hwaiting : (d.leg l).isWaiting r = false) (hfull : ¬ (d.leg l).queue.length < 12) :
    ((d1.offerWork r).leg l).waiting = (d.leg l).waiting ++ [⟨r, dir⟩] ∧ ((d1.offerWork r).record r).waiting = true := by
  subst hleg
  have hentry' : (d1.leg (d1.record r).enrol.leg).hasEntry r = false := by rw [Leg.hasEntry, h.queue]; exact hentry
  have hwaiting' : (d1.leg (d1.record r).enrol.leg).isWaiting r = false := by rw [Leg.isWaiting, h.waiting]; exact hwaiting
  have hroom : ¬ (d1.leg (d1.record r).enrol.leg).hasRoom = true := by
    rw [Leg.hasRoom, h.queue, decide_eq_true_iff]
    exact hfull
  have hoffer : d1.offerWork r = d1.waitBack (d1.record r).enrol.leg r dir := by
    unfold Dev.offerWork Dev.offerStage
    dsimp only
    rw [hdir]
    dsimp only
    rw [if_neg (by rw [Leg.busyWith_eq_false h.flight hentry' hwaiting']; exact Bool.false_ne_true), if_neg hroom]
  rw [hoffer, Dev.waitBack_record_self h.recs, Dev.waitBack, Dev.modRec_leg, Dev.modLeg_leg_self, h.waiting]
  exact ⟨rfl, rfl⟩

theorem Dev.Ended.pinWait {d d1 : Dev} {l : Fin 4} {tail : List QuietSpan} (h : Dev.Ended d d1 l tail) : d1.pinWait = d.pinWait := by
  rw [h.rest]

/-- R105, R120: GRANTING, or HALTED with NO_SLOTS, of a record without a pin-table entry. -/
theorem Dev.enterGranting_weak {d : Dev} (hrecs : Sparse.wf Rec.vacant d.recs = true) {r : Nat} (hpin : (d.record r).pin = none)
    (hwait : (d.record r).pinWait = false) (e : Env) {l : Fin 4} (hfree : (d.leg l).chan = .free) :
    let d' := d.enterStage e r .granting
    let y := d'.record r
    (d'.leg l).chan = .free ∧ othersKeep d d' r ∧ y.chunksAck = (d.record r).chunksAck ∧
      (y.state = .granting ∨ (y.state = .halted ∧ y.fault = .noSlots)) ∧ y.pin = none := by
  have hself : (d.putRec r ((d.record r).entering .granting)).record r = (d.record r).entering .granting := Dev.putRec_record_self d r _ hrecs
  have hwf := Dev.putRec_recs_wf d r ((d.record r).entering .granting) hrecs
  have hkept : othersKeep d (d.putRec r ((d.record r).entering .granting)) r := fun q hq =>
    congrArg Rec.plan (Dev.putRec_record_ne d r q _ hq)
  have hallocate : d.enterStage e r .granting = (d.putRec r ((d.record r).entering .granting)).allocate r := rfl
  rw [hallocate, Dev.allocate_eq (d.putRec r ((d.record r).entering .granting)) r rfl rfl rfl]
  have hfree2 : ((d.putRec r ((d.record r).entering .granting)).leg l).chan = .free := hfree
  generalize d.putRec r ((d.record r).entering .granting) = d2 at *
  dsimp only
  generalize (d2.leg (d2.record r).enrol.leg).freeSlots = free
  generalize (d2.record r).enrol.demand = n
  generalize (d2.record r).enrol.leg = k
  split
  next =>
    generalize free.take n = taken
    generalize free.length - n = left
    have hrecord : ((d2.modLeg k fun g => g.takeSlots taken).modRec r fun y => y.granted taken left).record r =
        (d2.record r).granted taken left := Dev.modRec_record_self (d2.modLeg k _) r _ hwf
    have hwf3 : Sparse.wf Rec.vacant ((d2.modLeg k fun g => g.takeSlots taken).modRec r fun y => y.granted taken left).recs = true :=
      Dev.modRec_recs_wf (d2.modLeg k _) r _ hwf
    have hfree3 : (((d2.modLeg k fun g => g.takeSlots taken).modRec r fun y => y.granted taken left).leg l).chan = .free := by
      rw [Dev.modRec_leg, Dev.modLeg_leg]
      split
      next hl => subst hl; exact hfree2
      next => exact hfree2
    obtain ⟨-, -, -, hall, hothers⟩ := Dev.offerWork_rules hwf3 r
    have hkept3 : othersKeep d2 ((d2.modLeg k fun g => g.takeSlots taken).modRec r fun y => y.granted taken left) r := fun q hq =>
      congrArg Rec.plan (Dev.modRec_record_ne (d2.modLeg k _) r q _ hq)
    refine ⟨Dev.offerWork_free hwf3 r hfree3, fun q hq => (congrArg Rec.plan (hothers q hq)).trans ((hkept3 q hq).trans (hkept q hq)), ?_⟩
    rw [hall r, hrecord, hself]
    exact ⟨rfl, .inl rfl, hpin⟩
  next =>
    have hrecord : (d2.modRec r fun y => { y with freeCount := free.length }).record r = { d2.record r with freeCount := free.length } :=
      Dev.modRec_record_self d2 r _ hwf
    rw [hself] at hrecord
    have hwf3 := Dev.modRec_recs_wf d2 r (fun y => { y with freeCount := free.length }) hwf
    obtain ⟨⟨hplan, -⟩, -, hothers, -, hfree3⟩ := Dev.halt_spec hwf3 r .noSlots .granting (by rw [hrecord]; rfl)
    rw [hrecord] at hplan
    have hack := congrArg Rec.chunksAck hplan
    have hhalted := congrArg Rec.state hplan
    have hfault := congrArg Rec.fault hplan
    have hkept3 : othersKeep d2 (d2.modRec r fun y => { y with freeCount := free.length }) r := fun q hq =>
      congrArg Rec.plan (Dev.modRec_record_ne d2 r q _ hq)
    exact ⟨hfree3 l hfree2, fun q hq => (hothers q hq).trans ((hkept3 q hq).trans (hkept q hq)), hack, .inr ⟨hhalted, hfault⟩,
      Dev.haltWith_pin hwf3 (by rw [hrecord]; exact hpin) (by rw [hrecord]; exact hwait) _ _⟩

/-- Settles O37: the chunk that is answered OK, disturbed, with more to come, or the last. -/
theorem loadAnsweredOk : Obligations.LoadAnsweredOk := by
  intro s l r x src tag data level delay p k dest srcOff len m fin hinv hanswers hstage hbody hwait hlist en
  obtain ⟨hstate, hleg, horigin⟩ := hstage
  have hexec := exec_replyBurst_ends hanswers (code := .ok) (data := data) (by rw [hbody]; rfl) level delay
  have hended := Dev.ended_of_answer hinv.good.recs l x src .ok level
    (x.tailSpan (.answered true data level (clampDelay delay)) s.cycle)
  rw [Dev.deliver_record _ _ _ horigin, Dev.recordOutcome, hbody] at hexec
  dsimp only [Dev.chunkOk] at hexec
  refine ⟨_, hexec, ?_⟩
  generalize ((s.dev.answerLevel l x src .ok level).freed l (x.tailSpan (.answered true data level (clampDelay delay)) s.cycle)) = d1
    at hended
  obtain ⟨v, fresh, wanted, hbefore⟩ := hended.record r
  have hopen := (hended.open r).modRec fun y => { y with chunksAck := k + 1 }
  have hrecord : (d1.modRec r fun y => { y with chunksAck := k + 1 }).record r = { d1.record r with chunksAck := k + 1 } :=
    Dev.modRec_record_self d1 r _ hended.recs
  rw [hbefore] at hrecord
  have hfree : ((d1.modRec r fun y => { y with chunksAck := k + 1 }).leg l).chan = .free := hended.chan
  have hlist2 : r ∉ (d1.modRec r fun y => { y with chunksAck := k + 1 }).pinWait := hended.pinWait.symm ▸ hlist
  generalize (d1.modRec r fun y => { y with chunksAck := k + 1 }) = d2 at *
  by_cases hdisturbed : x.disturbed = true
  · rw [if_pos hdisturbed]
    obtain ⟨⟨hplan, -⟩, -, hothers, -, hkept⟩ := Dev.halt_spec hopen.recs r .sourceChanged .loading (by rw [hrecord]; exact hstate)
    rw [hrecord] at hplan
    have hack := congrArg Rec.chunksAck hplan
    have hhalted := congrArg Rec.state hplan
    have hfault := congrArg Rec.fault hplan
    have hat := congrArg Rec.stage hplan
    refine ⟨hkept l hfree, fun q hq => (hothers q hq).trans (hopen.others q hq), hack, ?_⟩
    rw [if_pos hdisturbed]
    exact ⟨hhalted, hfault, hat⟩
  rw [if_neg hdisturbed]
  cases fin with
  | false =>
    rw [if_neg Bool.false_ne_true]
    obtain ⟨hothers, ⟨w, hself⟩, -⟩ := hopen.offerWork (by rw [hrecord]; exact hleg)
    refine ⟨Dev.offerWork_free hopen.recs r hfree, hothers, by rw [hself, hrecord], ?_⟩
    dsimp only
    rw [if_neg hdisturbed, if_pos rfl]
    refine ⟨by rw [hself, hrecord]; exact hstate, by rw [hself, hrecord], fun hpin hentry hwaiting => ?_⟩
    have hloading : (d2.record r).state = .loading := by rw [hrecord]; exact hstate
    obtain ⟨i, hi⟩ := Option.ne_none_iff_exists'.1 hpin
    have hdir : (d2.record r).stageDirective = some ⟨.individual en.addr, en.loadBody (k + 1)⟩ := by
      rw [hself] at hi
      rw [Rec.stageDirective_loading hloading hi, hrecord]
    rw [← en.loadBody_eq]
    by_cases hroom : (s.dev.leg l).queue.length < 12
    · rw [if_pos hroom]
      exact (hopen.offerWork (by rw [hrecord]; exact hleg)).2.2 _ hdir hroom hentry hwaiting
    · rw [if_neg hroom]
      exact hopen.offerWork_full (by rw [hrecord]; exact hleg) hdir hentry hwaiting hroom
  | true =>
    have hen : (d2.record r).enrol = en := by rw [hrecord]
    have hrelease := Dev.pinRelease_record hopen.recs (by rw [hrecord]; exact hwait) hlist2
    have hframe := Dev.Frame.pinRelease hopen.recs r
    rw [if_pos rfl, Dev.loaded_eq s.env d2 r hen]
    dsimp only
    rw [if_neg hdisturbed, if_neg (nofun : ¬ true = false)]
    have hothers3 : othersKeep s.dev (d2.pinRelease r) r := fun q hq => (Rec.plan_of_core (hframe.keeps.recs q)).trans (hopen.others q hq)
    have hfree3 := hframe.keeps.free l hfree
    rw [hrecord] at hrelease
    generalize d2.pinRelease r = d3 at *
    have hpin3 : (d3.record r).pin = none := by rw [hrelease]
    have hwait3 : (d3.record r).pinWait = false := by rw [hrelease]; exact hwait
    by_cases hhold : en.hold = .loaded
    · rw [if_pos hhold, if_pos hhold]
      obtain ⟨-, hcore, hothers, -, hkept⟩ := Dev.hold_spec hframe.recs r .loading
      rw [hrelease] at hcore
      have hack := congrArg Rec.chunksAck hcore
      have hheld := congrArg Rec.state hcore
      have hat := congrArg Rec.stage hcore
      exact ⟨hkept l hfree3, fun q hq => (Rec.plan_of_core (hothers q hq)).trans (hothers3 q hq), hack, hheld, hat,
        Dev.hold_pin hframe.recs hpin3 hwait3 .loading⟩
    rw [if_neg hhold, if_neg hhold]
    by_cases hdemand : en.demand = 0
    · rw [if_pos hdemand, if_pos hdemand]
      obtain ⟨hself, hothers, hlegs, hset⟩ := Dev.enterActive_rules hframe.recs r
      refine ⟨(congrArg (fun y : Legs => (y.get l).chan) hlegs).trans hfree3,
        fun q hq => (congrArg Rec.plan (hothers q hq)).trans (hothers3 q hq), ?_⟩
      rw [hself, hrelease]
      exact ⟨rfl, rfl, rfl, hset⟩
    · rw [if_neg hdemand, if_neg hdemand]
      obtain ⟨hfree4, hothers, hack, hstates, hpin⟩ := Dev.enterGranting_weak hframe.recs hpin3 hwait3 s.env hfree3
      exact ⟨hfree4, fun q hq => (hothers q hq).trans (hothers3 q hq), hack.trans (by rw [hrelease]), hstates, hpin⟩

end Sys2Proof.Machine
end

section
/-! PROOF (O31). Command slots and causes that the resource operations leave alone, and the answers and ends of single directives
(R4, R18, R25, R49, R52, R150 to R152, R155, R157). -/

namespace Sys2Proof.Machine

/-! ## Slots and causes stand (R12, R46 to R49, R109, R110, R124) -/

/-- The command slots and the latched causes stand. -/
def Dev.keepsSlots (d d' : Dev) : Prop := d'.slots = d.slots ∧ d'.causes = d.causes

namespace Dev.keepsSlots

theorem refl (d : Dev) : d.keepsSlots d := ⟨rfl, rfl⟩

theorem trans {d d' d'' : Dev} (h : d.keepsSlots d') (h' : d'.keepsSlots d'') : d.keepsSlots d'' :=
  ⟨h'.1.trans h.1, h'.2.trans h.2⟩

theorem foldl {α : Type} {f : Dev → α → Dev} (hf : ∀ (d : Dev) (x : α), d.keepsSlots (f d x)) (xs : List α) (d : Dev) :
    d.keepsSlots (xs.foldl f d) := by
  induction xs generalizing d with
  | nil => exact refl d
  | cons x xs ih => exact (hf d x).trans (ih (f d x))

theorem fillQueue (d : Dev) (l : Fin 4) : d.keepsSlots (d.fillQueue l) := by
  have hmod : d.keepsSlots (d.modLeg l fun g => { g with
      queue := (admitList (d.leg l).queue (d.leg l).waiting).1, waiting := (admitList (d.leg l).queue (d.leg l).waiting).2.1 }) := ⟨rfl, rfl⟩
  exact hmod.trans (foldl (f := Dev.clearWaiting) (fun _ _ => ⟨rfl, rfl⟩) _ _)

theorem offerStage (d : Dev) (l : Fin 4) (r : Nat) (dir : Directive) : d.keepsSlots (d.offerStage l r dir) := by
  unfold Dev.offerStage
  split
  next => exact ⟨rfl, rfl⟩
  next => exact ⟨rfl, rfl⟩

theorem offerWork (d : Dev) (r : Nat) : d.keepsSlots (d.offerWork r) := by
  unfold Dev.offerWork
  dsimp only
  split
  next =>
    split
    next => exact refl d
    next => exact offerStage d _ r _
  next => exact refl d

theorem offerOwed (d : Dev) (r : Nat) : d.keepsSlots (d.offerOwed r) := by
  unfold Dev.offerOwed
  dsimp only
  split
  next =>
    split
    next => exact ⟨rfl, rfl⟩
    next => exact trans (d' := d.modRec r _) ⟨rfl, rfl⟩ (offerStage _ _ r _)
  next => exact offerWork d r

theorem servePin (d : Dev) (i r : Nat) (rest : List Nat) : d.keepsSlots (d.servePin i r rest) := by
  rw [Dev.servePin_eq]
  have hopen : d.keepsSlots (({ d with pinWait := rest.filter fun q => !d.sameRange r q } : Dev).openFree i (d.record r).enrol) := ⟨rfl, rfl⟩
  exact (hopen.trans (foldl (f := fun y q => y.joinPin i q) (fun _ _ => ⟨rfl, rfl⟩) _ _)).trans (foldl offerWork _ _)

theorem servePins (d : Dev) (n : Nat) : d.keepsSlots (d.servePins n) := by
  induction n generalizing d with
  | zero => exact refl d
  | succ n ih =>
    unfold Dev.servePins
    split
    next => exact (servePin d _ _ _).trans (ih _)
    next => exact refl d
    next => exact refl d

theorem pinRelease (d : Dev) (r : Nat) : d.keepsSlots (d.pinRelease r) := by
  unfold Dev.pinRelease Dev.dropPinUse
  dsimp only
  split
  next => exact ⟨rfl, rfl⟩
  next =>
    split
    next =>
      split
      next => exact trans (d' := (d.modRec r _).putPin _ .free) ⟨rfl, rfl⟩ (servePins _ _)
      next => exact ⟨rfl, rfl⟩
    next => exact refl d

theorem slotRelease (d : Dev) (r : Nat) : d.keepsSlots (d.slotRelease r) := by
  unfold Dev.slotRelease
  dsimp only
  split
  next => exact ⟨rfl, rfl⟩
  next => exact refl d

theorem unqueue (d : Dev) (l : Fin 4) (r : Nat) : d.keepsSlots (d.unqueue l r) := by
  unfold Dev.unqueue
  split
  next => exact trans (d' := d.modLeg l _) ⟨rfl, rfl⟩ (fillQueue _ l)
  next =>
    split
    next => exact ⟨rfl, rfl⟩
    next => exact refl d

theorem cancelFetch (d : Dev) (l : Fin 4) : d.keepsSlots (d.cancelFetch l) := by
  have hend : d.keepsSlots (d.endFetch l) := by
    unfold Dev.endFetch Dev.withdrawLoad
    split
    next => split <;> exact ⟨rfl, rfl⟩
    next => exact refl d
    next =>
      split
      next => split <;> exact ⟨rfl, rfl⟩
      next => exact refl d
    next =>
      split
      next => split <;> exact ⟨rfl, rfl⟩
      next => exact refl d
  exact hend.trans ⟨rfl, rfl⟩

theorem abandon (d : Dev) (l : Fin 4) : d.keepsSlots (d.abandon l) := by
  unfold Dev.abandon Dev.unmuteEnded
  split
  next =>
    have hcancel : d.keepsSlots ((d.modLeg l fun g => { g with chan := .free }).cancelFetch l) :=
      trans (d' := d.modLeg l fun g => { g with chan := .free }) ⟨rfl, rfl⟩ (cancelFetch _ l)
    split
    next => exact hcancel.trans ⟨rfl, rfl⟩
    next => exact hcancel.trans ⟨rfl, rfl⟩
    next => exact hcancel
  next => exact refl d

theorem abandonOf (d : Dev) (l : Fin 4) (r : Nat) : d.keepsSlots (d.abandonOf l r) := by
  unfold Dev.abandonOf
  split
  next => exact abandon d l
  next => exact refl d

theorem drop (d : Dev) (r : Nat) : d.keepsSlots (d.drop r) :=
  ((((unqueue d _ r).trans (abandonOf _ _ r)).trans (pinRelease _ r)).trans (slotRelease _ r)).trans ⟨rfl, rfl⟩

theorem vacate (d : Dev) (r : Nat) : d.keepsSlots (d.vacate r) := (drop d r).trans ⟨rfl, rfl⟩

end Dev.keepsSlots

/-! ## A command's directive (R150, R151, R152, R155) -/

/-- R149: the detail of an answered directive with one target. -/
theorem Ending.detail_answered {x : InFlight} (ok : Bool) {data : List Byte} (hdata : data.length ≤ 8) (level : Byte) (delay : Nat) :
    let keep := ok && x.dir.body.keepsData
    Ending.detail (.answered ok data level delay) x =
      { len := if keep then data.length else 0, a := x.sends, b := level.toNat
        w14 := if keep then bytesWord (data.take 4) else 0, w15 := if keep then bytesWord (data.drop 4) else 0 } := by
  have htake : data.take 8 = data := List.take_of_length_le hdata
  have hnone : Detail.service x.sends level [] = ⟨0, x.sends, level.toNat, 0, 0⟩ := rfl
  cases ok with
  | false => exact hnone
  | true =>
    unfold Ending.detail
    dsimp only
    cases x.dir.body.keepsData with
    | false => exact hnone
    | true => rw [if_pos rfl, htake]; rfl

theorem Ending.result_answered (ok : Bool) (data : List Byte) (level : Byte) (delay : Nat) :
    Ending.result (.answered ok data level delay) = if ok then .ok else .refused := by
  cases ok <;> rfl

theorem Dev.slotDone_of_slots {d d1 : Dev} (hslots : d1.slots = d.slots) (hwf : Sparse.wf Slot.idle d.slots = true) (n : Nat) (res : ResultCode)
    (x : Detail) : slotDone d (d1.complete n res x) n res x := by
  have hslot : ∀ m, d1.slot m = d.slot m := fun m => congrArg (Sparse.get Slot.idle · m) hslots
  obtain ⟨hself, hset, hothers⟩ := Dev.complete_slotDone (d := d1) (by rw [hslots]; exact hwf) n res x
  rw [hslot] at hself
  exact ⟨hself, hset, fun m hm => (hothers m hm).trans (hslot m)⟩

/-- R51, R53: the outcome of the directive, however it ended. -/
def State.endedBy (s : State) (l : Fin 4) (x : InFlight) (c : Instr) (d1 : Dev) (o : Ending) : Prop :=
  exec c s = .next { s with dev := d1.deliver s.env l x o } ∧ (∃ tail, Dev.Ended s.dev d1 l tail) ∧
    (c = .sendWindowEnd l → d1.recs = s.dev.recs) ∧
    ∀ src tag code data level delay p, c = .replyBurst l src tag code data level delay p →
      (code = .ok ∨ code = .refused) ∧ d1.recs = (s.dev.answerLevel l x src code level).recs

/-- R51: what ends the directive delivers an outcome. -/
theorem State.endedBy_of {s : State} {l : Fin 4} {x : InFlight} {c : Instr} (hinv : s.Inv) (h : s.endsBy l x c)
    (hpeek : ∀ off len, x.dir.body ≠ .peek off len) : ∃ d1 o, s.endedBy l x c d1 o := by
  obtain ⟨src, tag, code, data, level, delay, p, rfl, hanswers, hcode⟩ | ⟨c0, rfl, hwindow, hlast⟩ := h
  · have hend : ∃ ok, x.dir.body.endingCode code data = some ok := by
      obtain rfl | rfl := hcode
      · have hends : x.dir.body.okEnds data = true := by
          unfold Body.okEnds
          split
          next off len hbody => exact absurd hbody (hpeek off len)
          next => rfl
        exact ⟨true, if_pos hends⟩
      · exact ⟨false, rfl⟩
    obtain ⟨ok, hend⟩ := hend
    refine ⟨_, _, exec_replyBurst_ends hanswers hend level delay, ⟨_, Dev.ended_of_answer hinv.good.recs l x src code level _⟩, nofun, ?_⟩
    rintro _ _ _ _ _ _ _ ⟨⟩
    exact ⟨hcode, rfl⟩
  · exact ⟨_, _, exec_sendWindowEnd_ends hwindow hlast, ⟨[], Dev.ended_of_window hinv.good.recs l⟩, fun _ => rfl, nofun⟩

/-! ## What was held back is offered (R49, R82) -/

/-- A record that is offered work may have changed in where its work stands. -/
def Rec.sameButWork (x y : Rec) : Prop := ∃ waiting held, y = { x with waiting := waiting, held := held }

theorem Dev.offerStage_rules {d : Dev} (hrecs : Sparse.wf Rec.vacant d.recs = true) (l : Fin 4) (r : Nat) (dir : Directive) :
    (∃ w, (d.offerStage l r dir).record r = { d.record r with waiting := w }) ∧
      (∀ q, q ≠ r → (d.offerStage l r dir).record q = d.record q) ∧
      (∀ k, (d.leg k).chan = .free → ((d.offerStage l r dir).leg k).chan = .free) := by
  have hfree : ∀ k, (d.leg k).chan = .free → ((d.offerStage l r dir).leg k).chan = .free :=
    (Dev.Frame.offerStage hrecs l r dir).keeps.free
  refine ⟨?_, ?_, hfree⟩
  · unfold Dev.offerStage
    split
    next => exact ⟨_, rfl⟩
    next => exact ⟨true, Dev.waitBack_record_self hrecs l r dir⟩
  · intro q hq
    unfold Dev.offerStage
    split
    next => rfl
    next => exact Dev.waitBack_record_ne d l dir hq

/-- R49: with a directive held, that one is offered. -/
theorem Dev.offerOwed_of_held {d : Dev} {r : Nat} {dir : Directive} (h : (d.record r).held = some dir) :
    d.offerOwed r = if (d.leg (d.record r).enrol.leg).busyWith r then d.modRec r fun y => { y with held := none }
      else (d.modRec r fun y => { y with held := none }).offerStage (d.record r).enrol.leg r dir := by
  unfold Dev.offerOwed
  dsimp only
  rw [h]
  rfl

theorem Dev.offerOwed_of_none {d : Dev} {r : Nat} (h : (d.record r).held = none) : d.offerOwed r = d.offerWork r := by
  unfold Dev.offerOwed
  dsimp only
  rw [h]

theorem Dev.offerOwed_rules {d : Dev} (hrecs : Sparse.wf Rec.vacant d.recs = true) (r : Nat) :
    (∀ q, (d.record q).sameButWork ((d.offerOwed r).record q)) ∧
      ∀ k, (d.leg k).chan = .free → ((d.offerOwed r).leg k).chan = .free := by
  cases hheld : (d.record r).held with
  | none =>
    rw [Dev.offerOwed_of_none hheld]
    obtain ⟨-, -, -, hall, -⟩ := Dev.offerWork_rules hrecs r
    exact ⟨fun q => ⟨_, _, hall q⟩, (Dev.Frame.offerWork hrecs r).keeps.free⟩
  | some dir =>
    have hself : (d.modRec r fun y => { y with held := none }).record r = { d.record r with held := none } := Dev.modRec_record_self d r _ hrecs
    have hothers (q : Nat) (hq : q ≠ r) : (d.modRec r fun y => { y with held := none }).record q = d.record q :=
      Dev.modRec_record_ne d r q _ hq
    rw [Dev.offerOwed_of_held hheld]
    split
    next =>
      refine ⟨fun q => ?_, fun _ hk => hk⟩
      by_cases hq : q = r
      · subst hq
        exact ⟨_, _, hself⟩
      · exact ⟨_, _, hothers q hq⟩
    next =>
      obtain ⟨⟨w, hw⟩, hne, hfree⟩ := Dev.offerStage_rules (d := d.modRec r fun y => { y with held := none })
        (Dev.modRec_recs_wf d r _ hrecs) (d.record r).enrol.leg r dir
      refine ⟨fun q => ?_, hfree⟩
      by_cases hq : q = r
      · subst hq
        exact ⟨w, none, by rw [hw, hself]⟩
      · exact ⟨_, _, by rw [hne q hq, hothers q hq]⟩

/-- R49: the directive that was held joins a queue with room. -/
theorem Dev.offerOwed_queue {d : Dev} (hrecs : Sparse.wf Rec.vacant d.recs = true) {r : Nat} {l : Fin 4} {dir : Directive}
    (hheld : (d.record r).held = some dir) (hleg : (d.record r).enrol.leg = l) (hflight : (d.leg l).inFlight = none)
    (hentry : (d.leg l).hasEntry r = false) (hwaiting : (d.leg l).isWaiting r = false) (hroom : (d.leg l).queue.length < 12) :
    ((d.offerOwed r).leg l).queue = (d.leg l).queue ++ [⟨dir, .record r⟩] ∧ ((d.offerOwed r).record r).held = none := by
  subst hleg
  have hhasRoom : (d.leg (d.record r).enrol.leg).hasRoom = true := decide_eq_true hroom
  rw [Dev.offerOwed_of_held hheld, if_neg (by rw [Leg.busyWith_eq_false hflight hentry hwaiting]; exact Bool.false_ne_true),
    Dev.offerStage, Dev.modRec_leg, if_pos hhasRoom, Dev.enqueue]
  refine ⟨congrArg Leg.queue (Dev.modLeg_leg_self _ _ _), ?_⟩
  rw [Dev.modLeg_record, Dev.modRec_record_self d r _ hrecs]

theorem Rec.stageDirective_of_not_stage {x : Rec} (h : x.state.isStage = false) : x.stageDirective = none := by
  unfold Rec.stageDirective
  split
  all_goals
    next hstate => first | rfl | (rw [hstate] at h; cases h)

theorem Dev.offerWork_of_none {d : Dev} {r : Nat} (h : (d.record r).stageDirective = none) : d.offerWork r = d := by
  unfold Dev.offerWork
  dsimp only
  rw [h]

/-- R157: only CHECK and FULL leave LEVEL_WANTED. -/
theorem InFlight.leavesWanted_of_ends {x : InFlight} {code : ReplyCode} (h : code = .ok ∨ code = .refused) :
    x.leavesWanted code = false := by
  unfold InFlight.leavesWanted
  obtain rfl | rfl := h
  · cases x.dir.body <;> rfl
  · cases x.dir.body <;> rfl

theorem Dev.Ended.slots {d d1 : Dev} {l : Fin 4} {tail : List QuietSpan} (h : Dev.Ended d d1 l tail) : d1.slots = d.slots := by
  rw [h.rest]

/-- R4, R49, R157: the end of an UNMUTE, which clears MUTED, or of a LEVEL, has what is owed offered. -/
theorem Dev.Ended.deliver_owed {d d1 : Dev} {l : Fin 4} {tail : List QuietSpan} (h : Dev.Ended d d1 l tail) (e : Env) {r : Nat} {x : InFlight}
    (hcases : (x.origin = .record r ∧ x.dir.body = .unmute) ∨ (x.origin = .level r ∧ x.dir.body = .level)) (o : Ending) :
    ∃ d2 : Dev, d1.deliver e l x o = d2.offerOwed r ∧ Sparse.wf Rec.vacant d2.recs = true ∧ d2.legs = d1.legs ∧ d2.slots = d1.slots ∧
      (∀ q, ∃ m, d2.record q = { d1.record q with muted := m }) ∧
      (d2.record r).muted = ((d.record r).muted && decide (x.dir.body = .level)) := by
  obtain ⟨v, fresh, wanted, hbefore⟩ := h.record r
  obtain ⟨horigin, hbody⟩ | ⟨horigin, hbody⟩ := hcases
  · have hself : (d1.clearMuted r).record r = { d1.record r with muted := false } := Dev.modRec_record_self d1 r _ h.recs
    refine ⟨d1.clearMuted r, ?_, Dev.modRec_recs_wf d1 r _ h.recs, rfl, rfl, fun q => ?_, ?_⟩
    · rw [Dev.deliver_record _ _ _ horigin]
      unfold Dev.recordOutcome
      rw [hbody]
    · by_cases hq : q = r
      · subst hq
        exact ⟨false, hself⟩
      · exact ⟨_, Dev.modRec_record_ne d1 r q _ hq⟩
    · rw [hself, hbody]
      exact (Bool.and_false _).symm
  · refine ⟨d1, ?_, h.recs, rfl, rfl, fun q => ⟨_, rfl⟩, ?_⟩
    · unfold Dev.deliver
      rw [horigin]
    · rw [hbefore, hbody]
      exact (Bool.and_true _).symm

/-- Settles O31: the command's slot, the withdrawal's record, and what an UNMUTE or a LEVEL leaves. -/
theorem answerCompletesTheCommand : Obligations.AnswerCompletesTheCommand := by
  refine ⟨?_, ?_, ?_⟩
  · intro s l n x src tag ok data level delay p hinv hanswers horigin hdata hbody
    have hcall : x.call = none := hanswers.2.2.2.1
    have hquiet : x.dir.body.quiet = false := by
      obtain ⟨off, len, hb, -⟩ | ⟨off, bs, hb⟩ | ⟨bs, hb⟩ | hb := hbody <;> rw [hb] <;> rfl
    have hend : x.dir.body.endingCode (if ok then .ok else .refused) data = some ok := by
      cases ok with
      | false => rfl
      | true =>
        refine if_pos ?_
        obtain ⟨off, len, hb, hlen⟩ | ⟨off, bs, hb⟩ | ⟨bs, hb⟩ | hb := hbody
        · rw [hb]; exact decide_eq_true (hlen rfl)
        · rw [hb]; rfl
        · rw [hb]; rfl
        · rw [hb]; rfl
    have hexec := exec_replyBurst_ends hanswers hend level delay
    have hended := Dev.ended_of_answer hinv.good.recs l x src (if ok then .ok else .refused) level
      (x.tailSpan (.answered ok data level (clampDelay delay)) s.cycle)
    rw [Dev.deliver_cmd _ _ _ horigin, Dev.commandOutcome_one _ n hcall, Ending.result_answered, Ending.detail_answered ok hdata] at hexec
    exact ⟨_, hexec, hended.leg_of_no_span (InFlight.tailSpan_of_not_quiet hquiet _ _), hended.legs, hended.plan,
      Dev.slotDone_of_slots hended.slots hinv.good.slots n _ _⟩
  · intro s l r x c hinv hends horigin hbody
    obtain ⟨d1, o, hexec, ⟨tail, hended⟩, -, -⟩ := State.endedBy_of hinv hends (by rw [hbody]; nofun)
    have hvacate : d1.recordOutcome s.env r x o = d1.vacate r := by
      unfold Dev.recordOutcome
      rw [hbody]
    rw [Dev.deliver_record _ _ _ horigin, hvacate] at hexec
    obtain ⟨hvacant, hothers⟩ := Dev.vacate_plan hended.recs r
    obtain ⟨-, -, -, -, hfree⟩ := Dev.vacate_spec hended.recs r
    exact ⟨_, hexec, hvacant, hended.othersKeep hothers, hfree l hended.chan,
      (Dev.keepsSlots.vacate d1 r).1.trans hended.slots⟩
  · intro s l r x c hinv hends hcases y g
    have hpeek : ∀ off len, x.dir.body ≠ .peek off len := by
      obtain ⟨-, hb⟩ | ⟨-, hb⟩ := hcases <;> rw [hb] <;> nofun
    obtain ⟨d1, o, hexec, ⟨tail, hended⟩, hwindow, hreply⟩ := State.endedBy_of hinv hends hpeek
    obtain ⟨d2, hdeliver, hwf, hlegs, hslots, hrecord, hmuted⟩ := hended.deliver_owed s.env hcases o
    rw [hdeliver] at hexec
    obtain ⟨hwork, hfree⟩ := Dev.offerOwed_rules hwf r
    have hleg2 : d2.leg l = { g with chan := .free, quietTail := g.quietTail ++ tail } :=
      (congrArg (Legs.get · l) hlegs).trans hended.leg
    have hfields : ∃ v fresh wanted m, d2.record r = { y with level := v, levelFresh := fresh, levelWanted := wanted, muted := m } ∧
        d1.record r = { y with level := v, levelFresh := fresh, levelWanted := wanted } := by
      obtain ⟨m, hm⟩ := hrecord r
      obtain ⟨v, fresh, wanted, hv⟩ := hended.record r
      exact ⟨v, fresh, wanted, m, by rw [hm, hv], hv⟩
    obtain ⟨v, fresh, wanted, m, h2, h1⟩ := hfields
    obtain ⟨w, hd, hafter⟩ := hwork r
    refine ⟨_, hexec, hfree l (by rw [hleg2]), (Dev.keepsSlots.offerOwed d2 r).1.trans (hslots.trans hended.slots), fun q => ?_, ?_,
      fun dir hheld hleg hentry hwaiting hroom => ?_, fun hheld hstage => ?_, fun hc => ?_, fun src tag code data level delay p hc hfind => ?_⟩
    · obtain ⟨w, hd, hq⟩ := hwork q
      obtain ⟨m, hm⟩ := hrecord q
      rw [hq, hm, ← hended.plan]
      rfl
    · rw [hafter]
      exact hmuted
    · have howed := Dev.offerOwed_queue hwf (l := l) (by rw [h2]; exact hheld) (by rw [h2]; exact hleg)
        (Leg.inFlight_free (by rw [hleg2])) (by rw [hleg2]; exact hentry) (by rw [hleg2]; exact hwaiting) (by rw [hleg2]; exact hroom)
      rw [hleg2] at howed
      exact howed
    · rw [Dev.offerOwed_of_none (by rw [h2]; exact hheld), Dev.offerWork_of_none (by rw [h2]; exact Rec.stageDirective_of_not_stage hstage),
        hleg2]
    · have hsame : d1.record r = y := congrArg (Sparse.get Rec.vacant · r) (hwindow hc)
      rw [hafter, h2, ← hsame, h1]
      exact ⟨rfl, rfl, rfl⟩
    · obtain ⟨hcode, hrecs⟩ := hreply src tag code data level delay p hc
      have hlevel : d1.record r = y.setLevel level := by
        refine (congrArg (Sparse.get Rec.vacant · r) hrecs).trans ((Dev.answerLevel_record hinv.good.recs hfind ?_ code level).trans ?_)
        · obtain ⟨-, hb⟩ | ⟨-, hb⟩ := hcases <;> rw [hb] <;> nofun
        · rw [InFlight.leavesWanted_of_ends hcode]
          rfl
      rw [hafter, h2]
      have hsame := h1.symm.trans hlevel
      exact ⟨congrArg Rec.level hsame, congrArg Rec.levelWanted hsame, congrArg Rec.levelFresh hsame⟩

end Sys2Proof.Machine
end

section
/-! PROOF (O39, O40). The hails that a hail window hears (R20 to R23, R72, R75, R76), and what a record that drops its resources keeps
(R12). -/

namespace Sys2Proof.Machine

/-! ## The ring's write list (R75, R76) -/

/-- R75: the ring has room for one more entry. -/
def Ring.room (g : Ring) (cap : Nat) : Prop :=
  g.badTail = false ∧ g.count cap ≠ cap - 1 ∧ g.count cap + g.writeList.length < cap - 1

theorem Ring.noRoom_iff (g : Ring) (cap : Nat) : g.noRoom cap = true ↔ ¬ g.room cap := by
  simp only [Ring.noRoom, Ring.full, Ring.room, Bool.or_eq_true, decide_eq_true_eq, not_and, Bool.eq_false_iff]
  constructor
  · rintro ((h | h) | h) hbad hcount
    · exact absurd h hbad
    · exact absurd h hcount
    · omega
  · intro h
    by_cases hbad : g.badTail = true
    · exact .inl (.inl hbad)
    · by_cases hcount : g.count cap = cap - 1
      · exact .inl (.inr hcount)
      · exact .inr (Nat.not_lt.1 (h hbad hcount))

theorem Ring.full_of_room {g : Ring} {cap : Nat} (h : g.room cap) : g.full cap = false := by
  obtain ⟨hbad, hcount, -⟩ := h
  simp [Ring.full, hbad, hcount]

section
variable {e : Env} {d : Dev} (x : RingEntry)

theorem Dev.offerRing_of_room (h : d.ring.room e.cfg.ringCap) :
    d.offerRing e x = ({ d with ring := { d.ring with writeList := d.ring.writeList ++ [x] } } : Dev).syncRequests :=
  if_neg fun hno => (Ring.noRoom_iff _ _).1 hno h

theorem Dev.offerRing_of_noRoom (h : ¬ d.ring.room e.cfg.ringCap) : d.offerRing e x = d.loseEntry :=
  if_pos ((Ring.noRoom_iff _ _).2 h)

/-- R75: an entry offered joins the write list or is lost, and changes no record and no leg. -/
theorem Dev.offerRing_rules :
    (d.offerRing e x).recs = d.recs ∧ (d.offerRing e x).legs = d.legs ∧
      (d.ring.room e.cfg.ringCap →
        (d.offerRing e x).ring = { d.ring with writeList := d.ring.writeList ++ [x] } ∧ (d.offerRing e x).causes = d.causes) ∧
      (¬ d.ring.room e.cfg.ringCap →
        (d.offerRing e x).ring = { d.ring with overrun := true } ∧ (d.offerRing e x).isSet .ringOverrun = true) := by
  by_cases hroom : d.ring.room e.cfg.ringCap
  · rw [Dev.offerRing_of_room x hroom]
    exact ⟨rfl, rfl, fun _ => ⟨rfl, rfl⟩, fun h => absurd hroom h⟩
  · rw [Dev.offerRing_of_noRoom x hroom]
    exact ⟨rfl, rfl, fun h => absurd h hroom, fun _ => ⟨rfl, Dev.latch_isSet_self _ _⟩⟩

end

/-! ## A hail that is heard (R70, R72) -/

theorem exec_decodedHail {s : State} (hrun : s.phase = .running) (l : Fin 4) (serial : BitVec 64) (kind count level : Byte)
    (received : BitVec 16) : exec (.decodedHail l serial kind count level received) s =
      .next (s.askPort (s.dev.hailHeard s.env l serial kind count level received)) :=
  congrArg Host.Outcome.next (if_pos hrun)

/-- R71: leg l with a hail counted toward its window's outcome. -/
def Dev.hailed (d : Dev) (l : Fin 4) (w : HailWindow) : Dev := d.modLeg l fun g => { g with chan := .hail { w with hails := true } }

theorem Dev.hailHeard_of {e : Env} {d : Dev} {l : Fin 4} {w : HailWindow} (hchan : (d.leg l).chan = .hail w)
    (hopen : w.opened ≠ none ∨ (d.leg l).quietSpanRuns (e.cfg.leg l).reach e.cycle = true) (serial : BitVec 64) (kind count level : Byte)
    (received : BitVec 16) : d.hailHeard e l serial kind count level received =
      (d.hailed l w).dispose e l serial kind count level received := by
  unfold Dev.hailHeard
  rw [hchan]
  dsimp only
  rw [if_pos ((d.hailHears_iff e l w).2 hopen)]
  rfl

/-- R180: a lone ring entry takes a FREE port at once. -/
theorem State.askPort_lone_entry {s : State} {d : Dev} (hport : s.bus.port = .free) (hheld : s.bus.held = none)
    (hnone : s.dev.requests = []) (hrequests : d.requests = [.ring]) (hroom : d.ring.full s.applied.ringCap = false) :
    s.askPort d = { s with
      bus := { s.bus with port := .engine, passCount := 0 }, dev := { d with burst := some .ring, requests := [] } } := by
  have hasks : d.requests ≠ s.dev.requests := by simp [hrequests, hnone]
  exact (if_neg hasks).trans (State.settle_of_ring (s := { s with dev := d }) hport hheld hrequests hroom)

/-- Settles O39: the entry of a hail whose serial is no record's here. -/
theorem unmatchedHailGoesToTheRing : Obligations.UnmatchedHailGoesToTheRing := by
  intro s l serial kind count level received w other hrun hchan hopen hmatch entry cap room
  have hdispose : (s.dev.hailed l w).dispose s.env l serial kind count level received = (s.dev.hailed l w).offerRing s.env entry := by
    unfold Dev.dispose
    dsimp only
    have henrolled : (s.dev.hailed l w).enrolled = s.dev.enrolled := rfl
    rw [henrolled]
    revert hmatch
    cases s.dev.enrolled.find? fun p => decide (p.2.enrol.serial = serial) with
    | none => rintro rfl; rfl
    | some p =>
      rintro ⟨hleg, rfl⟩
      exact if_neg hleg
  have hexec := (exec_decodedHail hrun l serial kind count level received).trans
    (congrArg (fun d => Host.Outcome.next (s.askPort d)) ((Dev.hailHeard_of (e := s.env) hchan hopen serial kind count level received).trans hdispose))
  obtain ⟨hrecs, hlegs, hjoins, hlost⟩ := Dev.offerRing_rules (e := s.env) (d := s.dev.hailed l w) entry
  have hleg (k : Fin 4) : ((s.dev.hailed l w).offerRing s.env entry).leg k = (s.dev.hailed l w).leg k := congrArg (Legs.get · k) hlegs
  refine ⟨_, hexec, hrecs, (hleg l).trans (Dev.modLeg_leg_self s.dev l _), fun k hk => (hleg k).trans (Dev.modLeg_leg_ne s.dev l k _ hk),
    hjoins, hlost, State.askPort_of_owned, fun hroom hport hheld hburst hrequests hfetches => ?_⟩
  obtain ⟨hring, -⟩ := hjoins hroom
  refine State.askPort_lone_entry hport hheld hrequests ?_ ?_
  · rw [Dev.offerRing_of_room (e := s.env) (d := s.dev.hailed l w) entry hroom]
    refine (Dev.syncRequests_of_no_burst (d := { s.dev.hailed l w with ring := _ }) hburst).trans ?_
    have hnofetch : (s.dev.hailed l w).fetches = [] := hfetches
    have hnorequest : (s.dev.hailed l w).requests = [] := hrequests
    simp [hnofetch, hnorequest]
  · rw [hring]
    exact Ring.full_of_room (g := s.dev.ring) hroom

/-! ## What a record that drops its resources keeps (R12) -/

/-- R48, R109, R110: what the pin table may change of a record. -/
def Rec.sameButPin (x y : Rec) : Prop :=
  ∃ pin pinWait waiting, y = { x with pin := pin, pinWait := pinWait, waiting := waiting }

theorem Rec.sameButPin_refl (x : Rec) : x.sameButPin x := ⟨_, _, _, rfl⟩

theorem Rec.sameButPin_trans {x y z : Rec} (h : x.sameButPin y) (h' : y.sameButPin z) : x.sameButPin z := by
  obtain ⟨_, _, _, rfl⟩ := h
  obtain ⟨p, w, v, rfl⟩ := h'
  exact ⟨p, w, v, rfl⟩

theorem Dev.modRec_sameButPin {d : Dev} (hrecs : Sparse.wf Rec.vacant d.recs = true) (r : Nat) {f : Rec → Rec}
    (hf : ∀ x : Rec, x.sameButPin (f x)) (q : Nat) : (d.record q).sameButPin ((d.modRec r f).record q) := by
  by_cases hq : q = r
  · subst hq
    rw [Dev.modRec_record_self _ _ _ hrecs]
    exact hf _
  · rw [Dev.modRec_record_ne _ _ _ _ hq]
    exact Rec.sameButPin_refl _

theorem Dev.foldl_joinPin_sameButPin (i : Nat) (rs : List Nat) {d : Dev} (hrecs : Sparse.wf Rec.vacant d.recs = true) (q : Nat) :
    (d.record q).sameButPin ((rs.foldl (fun y q => y.joinPin i q) d).record q) := by
  induction rs generalizing d with
  | nil => exact Rec.sameButPin_refl _
  | cons r rs ih =>
    refine Rec.sameButPin_trans ?_ (ih (Dev.Frame.joinPin hrecs i r).recs)
    exact Dev.modRec_sameButPin (d := d.putPin i _) hrecs r (fun _ => ⟨_, _, _, rfl⟩) q

theorem Dev.servePin_sameButPin {d : Dev} (hrecs : Sparse.wf Rec.vacant d.recs = true) (i r : Nat) (rest : List Nat) (q : Nat) :
    (d.record q).sameButPin ((d.servePin i r rest).record q) := by
  rw [Dev.servePin_eq]
  have hjoin := Dev.foldl_joinPin_sameButPin i (r :: rest.filter (d.sameRange r))
    (d := ({ d with pinWait := rest.filter fun q => !d.sameRange r q } : Dev).openFree i (d.record r).enrol) hrecs q
  obtain ⟨-, -, hoffer, -⟩ := Dev.foldl_offerWork (r :: rest.filter (d.sameRange r))
    (Dev.foldl_joinPin_wf i (r :: rest.filter (d.sameRange r))
      (d := ({ d with pinWait := rest.filter fun q => !d.sameRange r q } : Dev).openFree i (d.record r).enrol) hrecs)
  exact Rec.sameButPin_trans hjoin ⟨_, _, _, hoffer q⟩

theorem Dev.servePins_sameButPin {d : Dev} (hrecs : Sparse.wf Rec.vacant d.recs = true) (n q : Nat) :
    (d.record q).sameButPin ((d.servePins n).record q) := by
  induction n generalizing d with
  | zero => exact Rec.sameButPin_refl _
  | succ n ih =>
    unfold Dev.servePins
    split
    next r rest i _ _ =>
      exact Rec.sameButPin_trans (Dev.servePin_sameButPin hrecs i r rest q) (ih (Dev.Frame.servePin hrecs i r rest).recs)
    next => exact Rec.sameButPin_refl _
    next => exact Rec.sameButPin_refl _

theorem Dev.pinRelease_sameButPin {d : Dev} (hrecs : Sparse.wf Rec.vacant d.recs = true) (r q : Nat) :
    (d.record q).sameButPin ((d.pinRelease r).record q) := by
  unfold Dev.pinRelease
  dsimp only
  split
  next => exact Dev.modRec_sameButPin (d := { d with pinWait := without d.pinWait r }) hrecs r (fun _ => ⟨_, _, _, rfl⟩) q
  next =>
    split
    next i _ =>
      refine Rec.sameButPin_trans (Dev.modRec_sameButPin hrecs r (f := fun y => { y with pin := none }) (fun _ => ⟨_, _, _, rfl⟩) q) ?_
      unfold Dev.dropPinUse
      dsimp only
      split
      next => exact Dev.servePins_sameButPin (d := (d.modRec r _).putPin i .free) (Dev.modRec_recs_wf d r _ hrecs) _ q
      next => exact Rec.sameButPin_refl _
    next => exact Rec.sameButPin_refl _

/-- R124: what the release of its slots makes of a record. -/
def Rec.unlabelled (x : Rec) : Rec := { x with label := none, slotList := if x.label.isSome then [] else x.slotList }

theorem Dev.slotRelease_record {d : Dev} (hrecs : Sparse.wf Rec.vacant d.recs = true) (r : Nat) :
    (d.slotRelease r).record r = (d.record r).unlabelled := by
  unfold Rec.unlabelled
  cases hlabel : (d.record r).label with
  | some b =>
    rw [Dev.slotRelease_of_label hlabel, Dev.modRec_record_self]
    · rfl
    · exact hrecs
  | none =>
    unfold Dev.slotRelease
    dsimp only
    rw [hlabel]
    exact congrArg (fun b => { d.record r with label := b }) hlabel

/-- R12: of the record itself: label, slot list, ranging context and held directive go; its flags and its pin-table use may change. -/
theorem Dev.drop_record {d : Dev} (hrecs : Sparse.wf Rec.vacant d.recs = true) (r : Nat) :
    ∃ waiting muted pin pinWait, (d.drop r).record r = { (d.record r).unlabelled with
      waiting := waiting, muted := muted, pin := pin, pinWait := pinWait, ranging := none, held := none } := by
  have hunqueue := (Dev.Frame.unqueue hrecs (d.record r).enrol.leg r).recs
  have hwf : Sparse.wf Rec.vacant ((d.unqueue (d.record r).enrol.leg r).abandonOf (d.record r).enrol.leg r).recs = true := by
    unfold Dev.abandonOf
    split
    next => exact (Dev.Frame.abandon hunqueue _).recs
    next => exact hunqueue
  obtain ⟨w, m, hflags⟩ := Rec.sameButFlags_trans (Dev.unqueue_sameButFlags hrecs (d.record r).enrol.leg r r)
    (Dev.abandonOf_sameButFlags hunqueue (d.record r).enrol.leg r r)
  obtain ⟨p, pw, w', hpin⟩ := Dev.pinRelease_sameButPin hwf r r
  have hrelease := (Dev.Frame.pinRelease hwf r).recs
  refine ⟨w', m, p, pw, ?_⟩
  refine (Dev.modRec_record_self _ r _ (Dev.Frame.slotRelease hrelease r).recs).trans ?_
  rw [Dev.slotRelease_record hrelease, hpin, hflags]
  rfl

/-- The record has no entry in the queue to be taken out. -/
theorem takeFirst_eq_none_of_any {α : Type} {p : α → Bool} {xs : List α} (h : xs.any p = false) : takeFirst p xs = none := by
  induction xs with
  | nil => rfl
  | cons x xs ih =>
    rw [List.any_cons, Bool.or_eq_false_iff] at h
    rw [takeFirst, if_neg (by rw [h.1]; exact Bool.false_ne_true), ih h.2]
    rfl

theorem Dev.unqueue_eq_self {d : Dev} {l : Fin 4} {r : Nat} (hentry : (d.leg l).hasEntry r = false) (hwaiting : (d.leg l).isWaiting r = false) :
    d.unqueue l r = d := by
  unfold Dev.unqueue
  rw [takeFirst_eq_none_of_any hentry]
  dsimp only
  rw [hwaiting, if_neg Bool.false_ne_true]

theorem Dev.abandonOf_eq_self {d : Dev} {l : Fin 4} {r : Nat} (h : (d.leg l).inFlight = none) : d.abandonOf l r = d := by
  unfold Dev.abandonOf Leg.hasFlight
  rw [h]
  exact if_neg Bool.false_ne_true

/-- R110: with nobody waiting for an entry, its release touches no leg. -/
theorem Dev.pinRelease_legs {d : Dev} (h : d.pinWait = []) (r : Nat) : (d.pinRelease r).legs = d.legs := by
  unfold Dev.pinRelease Dev.dropPinUse Dev.servePinWait
  dsimp only
  split
  next => rfl
  next =>
    split
    next =>
      split
      next =>
        rw [Dev.servePins_of_nobody]
        · rfl
        · exact h
      next => rfl
    next => rfl

/-- R12: a record without an entry, a waiting place or a flight drops its resources past the queue. -/
theorem Dev.drop_queue {d : Dev} {l : Fin 4} {r : Nat} (hleg : (d.record r).enrol.leg = l) (hentry : (d.leg l).hasEntry r = false)
    (hwaiting : (d.leg l).isWaiting r = false) (hflight : (d.leg l).inFlight = none) (hpinWait : d.pinWait = []) :
    ∃ m, (d.drop r).leg l = { d.leg l with slotMap := m } := by
  subst hleg
  have hrelease : (d.pinRelease r).leg (d.record r).enrol.leg = d.leg (d.record r).enrol.leg :=
    congrArg (Legs.get · (d.record r).enrol.leg) (Dev.pinRelease_legs hpinWait r)
  unfold Dev.drop
  dsimp only
  rw [Dev.unqueue_eq_self hentry hwaiting, Dev.abandonOf_eq_self hflight, Dev.modRec_leg]
  unfold Dev.slotRelease
  dsimp only
  split
  next =>
    rw [Dev.modRec_leg, Dev.modLeg_leg]
    split
    next heq => rw [← heq, hrelease]; exact ⟨_, rfl⟩
    next => rw [hrelease]; exact ⟨_, rfl⟩
  next => rw [hrelease]; exact ⟨_, rfl⟩

/-! ## A matched hail (R20 to R23) -/

/-- R3: the hail is counted for record r. -/
def Dev.hailCounted (d : Dev) (r : Nat) : Dev := d.modRec r fun x => { x with hails := satInc x.hails 255 }

section
variable {d : Dev} (hrecs : Sparse.wf Rec.vacant d.recs = true) (e : Env) (r : Nat) (entry : Disposition → Option Nat → RingEntry)
include hrecs

theorem Dev.hailCounted_record : (d.hailCounted r).record r = { d.record r with hails := satInc (d.record r).hails 255 } :=
  Dev.modRec_record_self d r _ hrecs

theorem Dev.hailCounted_state : ((d.modRec r fun x => { x with hails := satInc x.hails 255 }).record r).state = (d.record r).state := by
  rw [Dev.modRec_record_self d r _ hrecs]

theorem Dev.matchedHail_expected (h : (d.record r).state = .expected) :
    d.matchedHail e r entry = (d.hailCounted r).enterStage e r .probing := by
  unfold Dev.matchedHail
  dsimp only
  rw [Dev.hailCounted_state hrecs r, h]
  rfl

/-- R21: a record that has only just been hailed, or that is HELD without its address, counts the hail. -/
theorem Dev.matchedHail_counting
    (h : (d.record r).state = .probing ∨ (d.record r).state = .assigning ∨ ((d.record r).state = .held ∧ (d.record r).addressed = false)) :
    d.matchedHail e r entry = d.hailCounted r := by
  unfold Dev.matchedHail
  dsimp only
  rw [Dev.hailCounted_state hrecs r]
  obtain h | h | ⟨h, haddressed⟩ := h
  · rw [h]; rfl
  · rw [h]; rfl
  · rw [h]
    refine if_neg ?_
    rw [Dev.modRec_record_self d r _ hrecs, haddressed]
    exact Bool.false_ne_true

/-- R22: a record past ASSIGNING, or HELD with its address, is restarted. -/
theorem Dev.matchedHail_restarting
    (h : (d.record r).state = .ranging ∨ (d.record r).state = .equalising ∨ (d.record r).state = .loading ∨
      (d.record r).state = .granting ∨ (d.record r).state = .active ∨ ((d.record r).state = .held ∧ (d.record r).addressed = true)) :
    d.matchedHail e r entry = (d.hailCounted r).restart e r := by
  unfold Dev.matchedHail
  dsimp only
  rw [Dev.hailCounted_state hrecs r]
  obtain h | h | h | h | h | ⟨h, haddressed⟩ := h
  · rw [h]; rfl
  · rw [h]; rfl
  · rw [h]; rfl
  · rw [h]; rfl
  · rw [h]; rfl
  · rw [h]
    refine if_pos ?_
    rw [Dev.modRec_record_self d r _ hrecs]
    exact haddressed

theorem Dev.matchedHail_halted (h : (d.record r).state = .halted) :
    d.matchedHail e r entry =
      ((d.hailCounted r).modRec r fun y => { y with addressed := false }).offerRing e (entry .halted (some r)) := by
  unfold Dev.matchedHail
  dsimp only
  rw [Dev.hailCounted_state hrecs r, h]
  rfl

theorem Dev.matchedHail_withdrawing (h : (d.record r).state = .withdrawing) :
    d.matchedHail e r entry = ((d.hailCounted r).vacate r).offerRing e (entry .stray none) := by
  unfold Dev.matchedHail
  dsimp only
  rw [Dev.hailCounted_state hrecs r, h]
  rfl

end

/-! ## A restart (R22) -/

/-- R22: a record as it is restarted. -/
def Rec.restarted (y : Rec) : Rec :=
  { y with
    addressed := false, assignSent := false, measured := none, equalise := none, label := none, slotList := [],
    chunksAck := 0, chunksTotal := 0, stage := none, rehails := y.rehails + 1 }

/-- R13: what the stage field of a restarted record names when it halts. -/
def Rec.foundIn (x : Rec) : Option RecState := if x.state = .held then x.stage else some x.state

/-- R22: the record has dropped its resources and is restarted. -/
def Dev.restarting (d : Dev) (r : Nat) : Dev := (d.drop r).modRec r Rec.restarted

theorem Dev.restart_eq (e : Env) (d : Dev) (r : Nat) :
    d.restart e r = if e.cfg.rehailLimit < ((d.restarting r).record r).rehails then
        (d.restarting r).haltWith r .flapping (d.record r).foundIn
      else (d.restarting r).enterStage e r .probing := rfl

/-- R12, R22: the record as it is restarted. -/
theorem Dev.restarting_record {d : Dev} (hrecs : Sparse.wf Rec.vacant d.recs = true) (r : Nat) :
    ∃ waiting muted pin pinWait, (d.restarting r).record r = { (d.record r).restarted with
      waiting := waiting, muted := muted, pin := pin, pinWait := pinWait, ranging := none, held := none } := by
  obtain ⟨w, m, p, pw, hdrop⟩ := Dev.drop_record hrecs r
  refine ⟨w, m, p, pw, (Dev.modRec_record_self _ r _ (Dev.Frame.drop hrecs r).recs).trans ?_⟩
  rw [hdrop]
  rfl

/-- R22: what every restarted record has, whether it is in PROBING or HALTED. -/
def Rec.isRestartOf (x y : Rec) : Prop :=
  y.addressed = false ∧ y.assignSent = false ∧ y.measured = none ∧ y.equalise = none ∧ y.label = none ∧ y.slotList = [] ∧
    y.chunksAck = 0 ∧ y.chunksTotal = 0 ∧ y.rehails = x.rehails + 1 ∧ y.freeCount = x.freeCount ∧ y.level = x.level ∧ y.hails = x.hails

theorem Dev.haltWith_record {d : Dev} (hrecs : Sparse.wf Rec.vacant d.recs = true) (r : Nat) (f : FaultCode) (st : Option RecState) :
    (d.haltWith r f st).record r = { (d.drop r).record r with state := .halted, stage := st, fault := f } := by
  rw [Dev.haltWith, Dev.latch_record, Dev.modRec_record_self _ _ _ (Dev.Frame.drop hrecs r).recs]

theorem Dev.haltWith_record_ne (d : Dev) {r q : Nat} (f : FaultCode) (st : Option RecState) (h : q ≠ r) :
    (d.haltWith r f st).record q = (d.drop r).record q := by
  rw [Dev.haltWith, Dev.latch_record, Dev.modRec_record_ne _ _ _ _ h]

theorem Dev.haltWith_ring (d : Dev) (r : Nat) (f : FaultCode) (st : Option RecState) : (d.haltWith r f st).ring = (d.drop r).ring := rfl

theorem Dev.restarting_ring (d : Dev) (r : Nat) : (d.restarting r).ring = (d.drop r).ring := rfl

/-- R13, R22: a restart past the rehail limit. -/
theorem Dev.restart_halts {d : Dev} (hrecs : Sparse.wf Rec.vacant d.recs = true) {e : Env} {r : Nat}
    (hlimit : e.cfg.rehailLimit < (d.record r).rehails + 1) :
    let d' := d.restart e r
    let y := d'.record r
    (d.record r).isRestartOf y ∧ y.state = .halted ∧ y.fault = .flapping ∧ y.stage = (d.record r).foundIn ∧
      d'.isSet .recHalted = true ∧ othersKeep d d' r ∧ d'.ring = d.ring := by
  obtain ⟨w, m, p, pw, hself⟩ := Dev.restarting_record hrecs r
  have hdrop := Dev.Frame.drop hrecs r
  have hwf : Sparse.wf Rec.vacant (d.restarting r).recs = true := Dev.modRec_recs_wf _ r _ hdrop.recs
  have hagain := Dev.Frame.drop hwf r
  obtain ⟨w', m', p', pw', hlast⟩ := Dev.drop_record hwf r
  have hrehails : ((d.restarting r).record r).rehails = (d.record r).rehails + 1 := by rw [hself]; rfl
  dsimp only
  rw [Dev.restart_eq, hrehails, if_pos hlimit]
  rw [Dev.haltWith_record hwf, hlast, hself]
  refine ⟨⟨rfl, rfl, rfl, rfl, rfl, rfl, rfl, rfl, rfl, rfl, rfl, rfl⟩, rfl, rfl, rfl, Dev.latch_isSet_self _ _, fun q hq => ?_, ?_⟩
  · have hrestarted : (d.restarting r).record q = (d.drop r).record q := Dev.modRec_record_ne (d.drop r) r q _ hq
    rw [Dev.haltWith_record_ne _ _ _ hq]
    refine (Rec.plan_of_core (hagain.keeps.recs q)).trans ?_
    rw [hrestarted]
    exact Rec.plan_of_core (hdrop.keeps.recs q)
  · rw [Dev.haltWith_ring, hagain.keeps.ring, Dev.restarting_ring, hdrop.keeps.ring]

theorem Rec.stageDirective_probing {x : Rec} (h : x.state = .probing) : x.stageDirective = some ⟨.individual x.enrol.addr, .probe⟩ := by
  unfold Rec.stageDirective
  rw [h]

theorem Dev.Frame.ring {d d' : Dev} (h : Dev.Frame d d') : d'.ring = d.ring := h.keeps.ring

/-- R22, R84: a restart into PROBING. -/
theorem Dev.restart_probes {d : Dev} (hrecs : Sparse.wf Rec.vacant d.recs = true) {e : Env} {r : Nat} {l : Fin 4}
    (hlimit : ¬ e.cfg.rehailLimit < (d.record r).rehails + 1) (hleg : (d.record r).enrol.leg = l) (hflight : (d.leg l).inFlight = none) :
    let d' := d.restart e r
    let y := d'.record r
    (d.record r).isRestartOf y ∧ y.state = .probing ∧ y.stage = none ∧ y.fault = .none ∧ othersKeep d d' r ∧ d'.ring = d.ring ∧
      (d.pinWait = [] → offered d d' l r .probe) := by
  obtain ⟨w, m, p, pw, hself⟩ := Dev.restarting_record hrecs r
  have hdrop := Dev.Frame.drop hrecs r
  have hwf : Sparse.wf Rec.vacant (d.restarting r).recs = true := Dev.modRec_recs_wf _ r _ hdrop.recs
  have hrehails : ((d.restarting r).record r).rehails = (d.record r).rehails + 1 := by rw [hself]; rfl
  have hwfIn := Dev.putRec_recs_wf (d.restarting r) r (((d.restarting r).record r).entering .probing) hwf
  have hin : ((d.restarting r).putRec r (((d.restarting r).record r).entering .probing)).record r =
      ((d.restarting r).record r).entering .probing := Dev.putRec_record_self _ r _ hwf
  obtain ⟨-, -, -, hall, hothers⟩ := Dev.offerWork_rules hwfIn r
  dsimp only
  rw [Dev.restart_eq, hrehails, if_neg hlimit, Dev.enterStage_probing]
  refine ⟨?_, ?_, ?_, ?_, fun q hq => ?_, ?_, fun hpinWait hroom hentry hwaiting => ?_⟩
  · rw [hall r, hin, hself]
    exact ⟨rfl, rfl, rfl, rfl, rfl, rfl, rfl, rfl, rfl, rfl, rfl, rfl⟩
  · rw [hall r, hin]; rfl
  · rw [hall r, hin]; rfl
  · rw [hall r, hin]; rfl
  · have hrestarted : (d.restarting r).record q = (d.drop r).record q := Dev.modRec_record_ne (d.drop r) r q _ hq
    rw [hothers q hq, Dev.putRec_record_ne _ _ _ _ hq, hrestarted]
    exact Rec.plan_of_core (hdrop.keeps.recs q)
  · rw [(Dev.Frame.offerWork hwfIn r).ring, Dev.putRec_ring, Dev.restarting_ring, hdrop.ring]
  · obtain ⟨slots, hqueue⟩ := Dev.drop_queue hleg hentry hwaiting hflight hpinWait
    have hlegEq : (d.restarting r).leg l = { d.leg l with slotMap := slots } := hqueue
    have hopen : Dev.Open d (d.restarting r) l r :=
      { recs := hwf
        others := fun q hq => (congrArg Rec.plan (Dev.modRec_record_ne (d.drop r) r q _ hq)).trans (Rec.plan_of_core (hdrop.keeps.recs q))
        flight := by rw [hlegEq]; exact hflight
        queue := by rw [hlegEq]
        waiting := by rw [hlegEq] }
    have henrol : ((d.restarting r).record r).enrol = (d.record r).enrol := by rw [hself]; rfl
    refine (hopen.enter (y := ((d.restarting r).record r).entering .probing) (b := .probe) ?_ ?_).2.2 hroom hentry hwaiting
    · exact (congrArg Enrolment.leg henrol).trans hleg
    · rw [Rec.stageDirective_probing rfl, ← henrol]
      rfl

theorem offered_congr {d d0 d' : Dev} {l : Fin 4} {r : Nat} {b : Body} (h : offered d0 d' l r b) (hqueue : (d0.leg l).queue = (d.leg l).queue)
    (hwaiting : (d0.leg l).waiting = (d.leg l).waiting) (haddr : (d0.record r).enrol = (d.record r).enrol) : offered d d' l r b := by
  unfold offered Leg.hasEntry Leg.isWaiting at h ⊢
  rw [hqueue, hwaiting, haddr] at h
  exact h

/-- R72: record r is the one whose serial the hail carries. -/
theorem Dev.dispose_matched {e : Env} {d : Dev} {l : Fin 4} {serial : BitVec 64} {r : Nat} {x : Rec}
    (hfind : d.enrolled.find? (fun p => decide (p.2.enrol.serial = serial)) = some (r, x)) (hleg : x.enrol.leg = l)
    (kind count level : Byte) (received : BitVec 16) :
    d.dispose e l serial kind count level received = d.matchedHail e r fun p q =>
      { serial := serial, leg := l, disp := p, kind := kind, count := count, cycle := received, level := level, rec_ := q } := by
  unfold Dev.dispose
  rw [hfind]
  exact if_pos hleg

/-- R20 to R23: the five things that a matched hail may call for. -/
theorem Rec.hailClass {x : Rec} (h : x.state ≠ .vacant) :
    x.state = .expected ∨ (x.state = .probing ∨ x.state = .assigning ∨ (x.state = .held ∧ x.addressed = false)) ∨
      (x.state = .ranging ∨ x.state = .equalising ∨ x.state = .loading ∨ x.state = .granting ∨ x.state = .active ∨
        (x.state = .held ∧ x.addressed = true)) ∨ x.state = .halted ∨ x.state = .withdrawing := by
  cases hstate : x.state <;> cases haddressed : x.addressed <;> simp_all

theorem satInc_255 (n : Nat) : satInc n 255 = if n < 255 then n + 1 else n := rfl

/-- Settles O40: what a matched hail does to its record, by the record's state. -/
theorem matchedHailActsByState : Obligations.MatchedHailActsByState := by
  intro s l r serial kind count level received w hrun hinv hchan hopen x cap room reported hfind hleg
  have hrecs : Sparse.wf Rec.vacant (s.dev.hailed l w).recs = true := hinv.good.recs
  have hexec := (exec_decodedHail hrun l serial kind count level received).trans
    (congrArg (fun d => Host.Outcome.next (s.askPort d)) ((Dev.hailHeard_of (e := s.env) hchan hopen serial kind count level received).trans
      (Dev.dispose_matched (d := s.dev.hailed l w) hfind hleg kind count level received)))
  have hport (d : Dev) (h : s.bus.port ≠ .free ∨ d.requests = s.dev.requests) : s.askPort d = { s with dev := d } :=
    h.elim State.askPort_of_owned State.askPort_eq
  have hvacant : x.state ≠ .vacant := ((Dev.mem_enrolled hinv.good.recs r x).1 (List.mem_of_find?_eq_some hfind)).2
  have hself : ((s.dev.hailed l w).hailCounted r).record r = { x with hails := satInc x.hails 255 } := Dev.hailCounted_record hrecs r
  have hwf : Sparse.wf Rec.vacant ((s.dev.hailed l w).hailCounted r).recs = true := Dev.modRec_recs_wf _ r _ hrecs
  have hkept : othersKeep s.dev ((s.dev.hailed l w).hailCounted r) r := fun q hq =>
    congrArg Rec.plan (Dev.modRec_record_ne (s.dev.hailed l w) r q _ hq)
  have hring : ((s.dev.hailed l w).hailCounted r).ring = s.dev.ring := rfl
  have hpinWait : ((s.dev.hailed l w).hailCounted r).pinWait = s.dev.pinWait := rfl
  have hlegEq : ((s.dev.hailed l w).hailCounted r).leg l = { s.dev.leg l with chan := .hail { w with hails := true } } := by
    rw [Dev.hailCounted, Dev.modRec_leg, Dev.hailed, Dev.modLeg_leg_self]
  obtain h | h | h | h | h := Rec.hailClass hvacant
  · rw [Dev.matchedHail_expected hrecs _ _ _ h, Dev.enterStage_probing] at hexec
    generalize (s.dev.hailed l w).hailCounted r = d1 at *
    have hstate : Dev.Open s.dev d1 l r :=
      { recs := hwf, others := hkept, flight := by rw [hlegEq]; rfl, queue := by rw [hlegEq], waiting := by rw [hlegEq] }
    have hwfIn := Dev.putRec_recs_wf d1 r ((d1.record r).entering .probing) hwf
    obtain ⟨hothers, ⟨v, hafter⟩, hoffered⟩ := hstate.enter (y := (d1.record r).entering .probing) (b := .probe)
      (by rw [hself]; exact hleg) (by rw [Rec.stageDirective_probing rfl, hself]; rfl)
    have hringAfter := (Dev.Frame.offerWork hwfIn r).ring.trans hring
    generalize (d1.putRec r ((d1.record r).entering .probing)).offerWork r = d' at *
    rw [hself] at hafter
    refine ⟨d', hexec, hothers, hport d', ?_⟩
    dsimp only
    rw [hafter]
    exact ⟨fun _ => satInc_255 _, fun _ => ⟨rfl, rfl, rfl, hringAfter, hoffered⟩, by rw [h]; nofun, by rw [h]; nofun, by rw [h]; nofun,
      by rw [h]; nofun⟩
  · rw [Dev.matchedHail_counting hrecs _ _ _ h] at hexec
    generalize (s.dev.hailed l w).hailCounted r = d1 at *
    refine ⟨d1, hexec, hkept, hport d1, ?_⟩
    dsimp only
    rw [hself]
    refine ⟨fun _ => satInc_255 _, fun h' => ?_, fun _ => ⟨rfl, hring⟩, fun h' => ?_, fun h' => ?_, fun h' => ?_⟩
    · rw [h'] at h; simp at h
    · obtain h | h | ⟨h, haddressed⟩ := h
      · rw [h] at h'; simp at h'
      · rw [h] at h'; simp at h'
      · rw [h, haddressed] at h'; simp at h'
    · rw [h'] at h; simp at h
    · rw [h'] at h; simp at h
  · rw [Dev.matchedHail_restarting hrecs _ _ _ h] at hexec
    generalize (s.dev.hailed l w).hailCounted r = d1 at *
    have hfacts : ∃ d', d' = d1.restart s.env r ∧ (d1.record r).isRestartOf (d'.record r) ∧ othersKeep d1 d' r ∧ d'.ring = d1.ring ∧
        if s.env.cfg.rehailLimit < (d1.record r).rehails + 1 then
          (d'.record r).state = .halted ∧ (d'.record r).fault = .flapping ∧ (d'.record r).stage = (d1.record r).foundIn ∧
            d'.isSet .recHalted = true
        else (d'.record r).state = .probing ∧ (d'.record r).stage = none ∧ (d'.record r).fault = .none ∧
          (d1.pinWait = [] → offered d1 d' l r .probe) := by
      refine ⟨_, rfl, ?_⟩
      split
      next hlimit =>
        obtain ⟨hrestart, hstate, hfault, hstage, hset, hothers, hkeptRing⟩ := Dev.restart_halts hwf hlimit
        exact ⟨hrestart, hothers, hkeptRing, hstate, hfault, hstage, hset⟩
      next hlimit =>
        obtain ⟨hrestart, hstate, hstage, hfault, hothers, hkeptRing, hoffered⟩ :=
          Dev.restart_probes hwf hlimit (l := l) (by rw [hself]; exact hleg) (by rw [hlegEq]; rfl)
        exact ⟨hrestart, hothers, hkeptRing, hstate, hstage, hfault, hoffered⟩
    obtain ⟨d', hd', hrestart, hothers, hkeptRing, hend⟩ := hfacts
    rw [← hd'] at hexec
    rw [hself] at hrestart hend
    obtain ⟨h1, h2, h3, h4, h5, h6, h7, h8, h9, h10, h11, h12⟩ := hrestart
    refine ⟨d', hexec, fun q hq => (hothers q hq).trans (hkept q hq), hport d', fun _ => h12.trans (satInc_255 _), fun h' => ?_, fun h' => ?_,
      fun _ => ⟨h1, h2, h3, h4, h5, h6, h7, h8, h9, h10, h11, hkeptRing.trans hring, ?_⟩, fun h' => ?_, fun h' => ?_⟩
    · rw [h'] at h; simp at h
    · obtain h' | h' | ⟨h', haddressed⟩ := h'
      · rw [h'] at h; simp at h
      · rw [h'] at h; simp at h
      · rw [h', haddressed] at h; simp at h
    · change if s.env.cfg.rehailLimit < x.rehails + 1 then _ else _
      split
      next hlimit =>
        rw [if_pos hlimit] at hend
        exact hend
      next hlimit =>
        rw [if_neg hlimit] at hend
        obtain ⟨hstate, hstage, hfault, hoffered⟩ := hend
        exact ⟨hstate, hstage, hfault, fun hnobody => offered_congr (hoffered (hpinWait.trans hnobody)) (by rw [hlegEq]) (by rw [hlegEq])
          (by rw [hself])⟩
    · rw [h'] at h; simp at h
    · rw [h'] at h; simp at h
  · rw [Dev.matchedHail_halted hrecs _ _ _ h] at hexec
    generalize (s.dev.hailed l w).hailCounted r = d1 at *
    obtain ⟨hrecsAfter, -, hjoins, hlost⟩ := Dev.offerRing_rules (e := s.env) (d := d1.modRec r fun y => { y with addressed := false })
      { serial := serial, leg := l, disp := .halted, kind := kind, count := count, cycle := received, level := level, rec_ := some r }
    have hrecord : (d1.modRec r fun y => { y with addressed := false }).record r = { x with hails := satInc x.hails 255, addressed := false } := by
      rw [Dev.modRec_record_self d1 r _ hwf, hself]
    have hothers : othersKeep s.dev (d1.modRec r fun y => { y with addressed := false }) r := fun q hq =>
      (congrArg Rec.plan (Dev.modRec_record_ne d1 r q _ hq)).trans (hkept q hq)
    rw [show (d1.modRec r fun y => { y with addressed := false }).ring = s.dev.ring from hring] at hjoins hlost
    refine ⟨_, hexec, fun q hq => ?_, hport _, ?_⟩
    · exact (congrArg (fun m => (Sparse.get Rec.vacant m q).plan) hrecsAfter).trans (hothers q hq)
    · have hafter := (congrArg (Sparse.get Rec.vacant · r) hrecsAfter).trans hrecord
      generalize (d1.modRec r fun y => { y with addressed := false }).offerRing s.env _ = d' at *
      change d'.record r = _ at hafter
      dsimp only
      rw [hafter]
      exact ⟨fun _ => satInc_255 _, by rw [h]; nofun, by rw [h]; nofun, by rw [h]; nofun,
        fun _ => ⟨rfl, fun hroom => (hjoins hroom).1, fun hroom => hlost hroom⟩, by rw [h]; nofun⟩
  · rw [Dev.matchedHail_withdrawing hrecs _ _ _ h] at hexec
    generalize (s.dev.hailed l w).hailCounted r = d1 at *
    obtain ⟨hrecsAfter, -, hjoins, hlost⟩ := Dev.offerRing_rules (e := s.env) (d := d1.vacate r)
      { serial := serial, leg := l, disp := .stray, kind := kind, count := count, cycle := received, level := level, rec_ := none }
    obtain ⟨hvacated, hothers⟩ := Dev.vacate_plan hwf r
    have hringKept : (d1.vacate r).ring = d1.ring := (Dev.Frame.drop hwf r).ring
    rw [hringKept.trans hring] at hjoins hlost
    refine ⟨_, hexec, fun q hq => ?_, hport _, ?_⟩
    · exact (congrArg (fun m => (Sparse.get Rec.vacant m q).plan) hrecsAfter).trans ((hothers q hq).trans (hkept q hq))
    · have hafter := (congrArg (Sparse.get Rec.vacant · r) hrecsAfter).trans hvacated
      generalize (d1.vacate r).offerRing s.env _ = d' at *
      change d'.record r = _ at hafter
      exact ⟨fun h' => absurd h h', by rw [h]; nofun, by rw [h]; nofun, by rw [h]; nofun, by rw [h]; nofun,
        fun _ => ⟨hafter, fun hroom => (hjoins hroom).1, fun hroom => hlost hroom⟩⟩

end Sys2Proof.Machine
end

section
/-! PROOF (O44, O45, O46). The steps of a hunt and its end, and the survey window that ends (R56, R129 to R141, R146, R189). -/

namespace Sys2Proof.Machine

/-! ## The hunt's survey request (R129) -/

/-- R129: a pending survey that the hunt asks for too. -/
def Requesters.withHunt (p : Option Requesters) : Requesters :=
  match p with
  | some q => { q with hunt := true }
  | none => ⟨false, [], true⟩

theorem Requesters.join_ofHunt (q : Requesters) : q.join .ofHunt = { q with hunt := true } := by
  simp [Requesters.join, Requesters.ofHunt, Requesters.empty]

theorem Dev.requestSurvey_ofHunt (d : Dev) (l : Fin 4) :
    d.requestSurvey l .ofHunt = d.modLeg l fun g => { g with pendSurvey := some (.withHunt g.pendSurvey) } := by
  refine Dev.modLeg_congr _ _ _ _ ?_
  cases hpend : (d.leg l).pendSurvey with
  | none => rfl
  | some q => simp only [Requesters.withHunt, Requesters.join_ofHunt]

/-! ## The end of a hunt (R141, R146, R189) -/

/-- R41, R141, R146: the leg after its hunt. -/
def Leg.huntEnded (g : Leg) (res : HuntResult) (culprit : Option Nat) : Leg :=
  { g with
    hunt := g.hunt.ended res culprit
    st := legAfterHunt g.st res
    pendHail := g.pendHail && decide (legAfterHunt g.st res = .running) }

/-- R141: the hunt ends, HUNT_END latches. -/
def Dev.huntOver (d : Dev) (l : Fin 4) (res : HuntResult) (culprit : Option Nat) : Dev :=
  (d.modLeg l fun g => g.huntEnded res culprit).latch .huntEnd

theorem Dev.huntOver_leg (d : Dev) (l : Fin 4) (res : HuntResult) (culprit : Option Nat) :
    (d.huntOver l res culprit).leg l = (d.leg l).huntEnded res culprit := by
  rw [Dev.huntOver, Dev.latch_leg, Dev.modLeg_leg_self]

theorem Dev.huntOver_leg_ne (d : Dev) {l k : Fin 4} (h : k ≠ l) (res : HuntResult) (culprit : Option Nat) :
    (d.huntOver l res culprit).leg k = d.leg k := by
  rw [Dev.huntOver, Dev.latch_leg, Dev.modLeg_leg_ne _ _ _ _ h]

theorem slotDone_congr {d d1 d2 : Dev} (hslots : d1.slots = d.slots) {n : Nat} {res : ResultCode} {x : Detail} (h : slotDone d1 d2 n res x) :
    slotDone d d2 n res x := by
  have hslot : d1.slot = d.slot := funext fun m => congrArg (Sparse.get Slot.idle · m) hslots
  unfold slotDone at h ⊢
  rw [hslot] at h
  exact h

/-- R141: the owning command's slot completes with the hunt's result. -/
def Dev.huntAnswered (d : Dev) (owner : Option Nat) (res : HuntResult) (steps : Nat) (culprit : Option Nat) : Dev :=
  match owner with
  | some n => d.complete n (huntCommandResult res) (.hunt res steps culprit)
  | none => d

theorem Dev.endHunt_none (d : Dev) (l : Fin 4) (res : HuntResult) :
    d.endHunt l res none = (d.huntOver l res none).huntAnswered (d.leg l).hunt.owner res (d.leg l).hunt.steps none := rfl

theorem Dev.endHunt_some (d : Dev) (l : Fin 4) (res : HuntResult) (c : Nat) :
    d.endHunt l res (some c) =
      ((d.huntOver l res (some c)).haltRogue c).huntAnswered (d.leg l).hunt.owner res (d.leg l).hunt.steps (some c) := rfl

/-- R141, R163: what the answer to the owner does. -/
theorem Dev.huntAnswered_rules {d : Dev} (hslots : Sparse.wf Slot.idle d.slots = true) (owner : Option Nat) (res : HuntResult) (steps : Nat)
    (culprit : Option Nat) :
    let d' := d.huntAnswered owner res steps culprit
    d'.recs = d.recs ∧ d'.legs = d.legs ∧ (∀ c, d.isSet c = true → d'.isSet c = true) ∧ (owner = none → d'.slots = d.slots) ∧
      (∀ n, owner ≠ some n → d'.slot n = d.slot n) ∧
      ∀ n, owner = some n → slotDone d d' n (huntCommandResult res) (.hunt res steps culprit) := by
  cases owner with
  | none => exact ⟨rfl, rfl, fun _ h => h, fun _ => rfl, fun _ _ => rfl, nofun⟩
  | some m =>
    obtain ⟨hself, hset, hothers⟩ := Dev.complete_slotDone hslots m (huntCommandResult res) (.hunt res steps culprit)
    refine ⟨rfl, rfl, fun c hc => ?_, nofun, fun n hn => hothers n fun h => hn (congrArg some h.symm), ?_⟩
    · show (d.complete m _ _).isSet c = true
      rw [Dev.complete, Dev.isSet_latch]
      exact Bool.or_eq_true_iff.2 (.inl hc)
    · rintro n ⟨⟩
      exact ⟨hself, hset, hothers⟩

/-- R141: what the end of a hunt without a culprit does. -/
theorem Dev.endHunt_rules {d : Dev} (hslots : Sparse.wf Slot.idle d.slots = true) (l : Fin 4) (res : HuntResult) :
    let d' := d.endHunt l res none
    let h := (d.leg l).hunt
    d'.recs = d.recs ∧ d'.leg l = (d.leg l).huntEnded res none ∧ (∀ k, k ≠ l → d'.leg k = d.leg k) ∧ d'.isSet .huntEnd = true ∧
      (∀ c, d.isSet c = true → d'.isSet c = true) ∧ (h.owner = none → d'.slots = d.slots) ∧ (∀ n, h.owner ≠ some n → d'.slot n = d.slot n) ∧
      ∀ n, h.owner = some n → slotDone d d' n (huntCommandResult res) (.hunt res h.steps none) := by
  obtain ⟨hrecs, hlegs, hset, hnone, hothers, hdone⟩ :=
    Dev.huntAnswered_rules (d := d.huntOver l res none) hslots (d.leg l).hunt.owner res (d.leg l).hunt.steps none
  rw [Dev.endHunt_none]
  refine ⟨hrecs, (congrArg (Legs.get · l) hlegs).trans (Dev.huntOver_leg d l res none),
    fun k hk => (congrArg (Legs.get · k) hlegs).trans (Dev.huntOver_leg_ne d hk res none), hset _ (Dev.latch_isSet_self _ _),
    fun c hc => hset c ?_, hnone, hothers, hdone⟩
  rw [Dev.huntOver, Dev.isSet_latch]
  exact Bool.or_eq_true_iff.2 (.inl hc)

/-! ## The next step (R138, R139) -/

theorem Hunt.nextStep_one (h : Hunt) (r : Nat) :
    h.nextStep [r] = { h with phase := .muting, cands := [r], half := [], todo := [r], newList := [], final := true } := rfl

theorem Hunt.nextStep_many (h : Hunt) {cs : List Nat} (hcs : 2 ≤ cs.length) :
    h.nextStep cs = { h with phase := .muting, cands := cs, half := cs.take ((cs.length + 1) / 2), todo := cs.take ((cs.length + 1) / 2)
                             newList := [], final := false } := by
  unfold Hunt.nextStep
  split
  next => simp at hcs
  next => rfl

theorem Dev.bisect_of_ne_nil (d : Dev) (l : Fin 4) {cs : List Nat} (h : cs ≠ []) :
    d.bisect l cs = d.modLeg l fun g => { g with hunt := g.hunt.nextStep cs } := by
  cases cs with
  | nil => exact absurd rfl h
  | cons c cs => rfl

section
variable {d : Dev} {l : Fin 4}

theorem Dev.huntProgress_of_todo (h : (d.leg l).hunt.todo ≠ [] ∨ (d.leg l).huntFlight = true) : d.huntProgress l = d := by
  refine if_neg ?_
  rintro ⟨htodo, hflight⟩
  obtain h | h := h
  · exact h htodo
  · rw [h] at hflight
    cases hflight

variable (htodo : (d.leg l).hunt.todo = []) (hflight : (d.leg l).huntFlight = false)
include htodo hflight

theorem Dev.huntProgress_muting (hphase : (d.leg l).hunt.phase = .muting) :
    d.huntProgress l =
      d.modLeg l fun g => { g with hunt := { g.hunt with phase := .surveying }, pendSurvey := some (.withHunt g.pendSurvey) } := by
  unfold Dev.huntProgress
  dsimp only
  rw [if_pos ⟨htodo, hflight⟩, hphase]
  dsimp only
  rw [Dev.requestSurvey_ofHunt, Dev.modLeg_modLeg]

theorem Dev.huntProgress_unmuting (hphase : (d.leg l).hunt.phase = .unmuting) :
    d.huntProgress l = if (d.leg l).hunt.final then d.endHunt l .strayRogue none else d.bisect l (d.leg l).hunt.newList := by
  unfold Dev.huntProgress
  dsimp only
  rw [if_pos ⟨htodo, hflight⟩, hphase]

theorem Dev.huntProgress_surveying (hphase : (d.leg l).hunt.phase = .surveying ∨ (d.leg l).hunt.phase = .confirming ∨
    (d.leg l).hunt.phase = .idle ∨ (d.leg l).hunt.phase = .starting) : d.huntProgress l = d := by
  unfold Dev.huntProgress
  dsimp only
  rw [if_pos ⟨htodo, hflight⟩]
  obtain h | h | h | h := hphase
  · rw [h]
  · rw [h]
  · rw [h]
  · rw [h]

end

/-! ## What the steps of a hunt leave (R141) -/

/-- What a step of the hunt of leg l leaves: a FREE channel, the last survey, the causes that are set, and every slot but its owner's. -/
structure Dev.HuntStep (d d' : Dev) (l : Fin 4) : Prop where
  chan : (d.leg l).chan = .free → (d'.leg l).chan = .free
  survey : (d'.leg l).lastSurvey = (d.leg l).lastSurvey ∧ (d'.leg l).lastCount = (d.leg l).lastCount
  set : ∀ c, d.isSet c = true → d'.isSet c = true
  slots : ∀ n, (d.leg l).hunt.owner ≠ some n → d'.slot n = d.slot n

theorem Dev.HuntStep.refl (d : Dev) (l : Fin 4) : Dev.HuntStep d d l := ⟨id, ⟨rfl, rfl⟩, fun _ => id, fun _ _ => rfl⟩

theorem Dev.HuntStep.of_modLeg (d : Dev) (l : Fin 4) {f : Leg → Leg} (hf : ∀ g : Leg, (f g).chan = g.chan ∧ (f g).lastSurvey = g.lastSurvey ∧
    (f g).lastCount = g.lastCount) : Dev.HuntStep d (d.modLeg l f) l := by
  obtain ⟨hchan, hsurvey, hcount⟩ := hf (d.leg l)
  have hleg := Dev.modLeg_leg_self d l f
  refine ⟨fun h => ?_, ⟨?_, ?_⟩, fun _ => id, fun _ _ => rfl⟩
  · rw [hleg, hchan]; exact h
  · rw [hleg, hsurvey]
  · rw [hleg, hcount]

theorem Dev.HuntStep.endHunt {d : Dev} (hslots : Sparse.wf Slot.idle d.slots = true) (l : Fin 4) (res : HuntResult) :
    Dev.HuntStep d (d.endHunt l res none) l ∧ (d.endHunt l res none).recs = d.recs := by
  obtain ⟨hrecs, hleg, -, -, hset, -, hothers, -⟩ := Dev.endHunt_rules hslots l res
  exact ⟨⟨fun h => by rw [hleg]; exact h, by rw [hleg]; exact ⟨rfl, rfl⟩, hset, hothers⟩, hrecs⟩

theorem Dev.HuntStep.bisect {d : Dev} (hslots : Sparse.wf Slot.idle d.slots = true) (l : Fin 4) (cs : List Nat) :
    Dev.HuntStep d (d.bisect l cs) l ∧ (d.bisect l cs).recs = d.recs := by
  cases cs with
  | nil => exact Dev.HuntStep.endHunt hslots l .strayRogue
  | cons c cs =>
    exact ⟨.of_modLeg d l (f := fun g => { g with hunt := g.hunt.nextStep (c :: cs) }) fun _ => ⟨rfl, rfl, rfl⟩, rfl⟩

theorem Dev.HuntStep.huntProgress {d : Dev} (hslots : Sparse.wf Slot.idle d.slots = true) (l : Fin 4) :
    Dev.HuntStep d (d.huntProgress l) l ∧ (d.huntProgress l).recs = d.recs := by
  unfold Dev.huntProgress
  dsimp only
  split
  next =>
    split
    next =>
      rw [Dev.requestSurvey_ofHunt, Dev.modLeg_modLeg]
      exact ⟨.of_modLeg d l fun _ => ⟨rfl, rfl, rfl⟩, rfl⟩
    next =>
      split
      next => exact Dev.HuntStep.endHunt hslots l .strayRogue
      next => exact Dev.HuntStep.bisect hslots l _
    next => exact ⟨.refl d l, rfl⟩
    next => exact ⟨.refl d l, rfl⟩
    next => exact ⟨.refl d l, rfl⟩
    next => exact ⟨.refl d l, rfl⟩
  next => exact ⟨.refl d l, rfl⟩

/-- R138, R139, R141: where the hunt of a HUNTING leg stands once its passes of MUTEs and UNMUTEs have gone on. -/
structure Dev.Progressed (d d' : Dev) (l : Fin 4) : Prop where
  waits : (d.leg l).hunt.todo ≠ [] → d'.leg l = d.leg l
  surveys : (d.leg l).hunt.todo = [] → (d.leg l).hunt.phase = .muting →
    d'.leg l = { d.leg l with
      hunt := { (d.leg l).hunt with phase := .surveying }, pendSurvey := some (.withHunt (d.leg l).pendSurvey) }
  bisects : (d.leg l).hunt.todo = [] → (d.leg l).hunt.phase = .unmuting → (d.leg l).hunt.final = false → (d.leg l).hunt.newList ≠ [] →
    d'.leg l = { d.leg l with hunt := (d.leg l).hunt.nextStep (d.leg l).hunt.newList }
  ends : (d.leg l).hunt.todo = [] → (d.leg l).hunt.phase = .unmuting → ((d.leg l).hunt.final = true ∨ (d.leg l).hunt.newList = []) →
    d' = d.endHunt l .strayRogue none

theorem Dev.huntProgress_progressed {d : Dev} {l : Fin 4} (hflight : (d.leg l).huntFlight = false) :
    Dev.Progressed d (d.huntProgress l) l where
  waits htodo := by rw [Dev.huntProgress_of_todo (.inl htodo)]
  surveys htodo hphase := by rw [Dev.huntProgress_muting htodo hflight hphase, Dev.modLeg_leg_self]
  bisects htodo hphase hfinal hlist := by
    rw [Dev.huntProgress_unmuting htodo hflight hphase, hfinal, if_neg Bool.false_ne_true, Dev.bisect_of_ne_nil d l hlist,
      Dev.modLeg_leg_self]
  ends htodo hphase hend := by
    rw [Dev.huntProgress_unmuting htodo hflight hphase]
    by_cases hfinal : (d.leg l).hunt.final = true
    · rw [if_pos hfinal]
    · rw [if_neg hfinal, hend.resolve_left hfinal]
      rfl

/-! ## A hunt starts and goes on (R129, R136, R138 to R141) -/

theorem exec_huntEntersHunting {s : State} (hrun : s.phase = .running) (l : Fin 4) :
    exec (.huntEntersHunting l) s = .next { s with dev := s.dev.enterHunting l } := congrArg Host.Outcome.next (State.running_eq hrun _)

theorem Dev.enterHunting_of {d : Dev} {l : Fin 4} (hphase : (d.leg l).hunt.phase = .starting) (hchan : (d.leg l).chan = .free)
    (hst : (d.leg l).st = .running ∨ (d.leg l).st = .suspended) :
    d.enterHunting l = d.modLeg l fun g => { g with
      st := .hunting, pendHail := false, hunt := { g.hunt with phase := .confirming }, pendSurvey := some (.withHunt g.pendSurvey) } := by
  unfold Dev.enterHunting
  dsimp only
  rw [if_pos ⟨hphase, hchan, hst⟩, Dev.requestSurvey_ofHunt, Dev.modLeg_modLeg]

theorem Dev.deliver_hunt (e : Env) (d : Dev) (l : Fin 4) {x : InFlight} {r : Nat} (h : x.origin = .hunt r) (o : Ending) :
    d.deliver e l x o = (d.unmuteEnded x).huntProgress l := by
  unfold Dev.deliver
  rw [h]

/-- R4, R140: what the end of a hunt's directive leaves of MUTED. -/
theorem Dev.unmuteEnded_hunt {d : Dev} (hrecs : Sparse.wf Rec.vacant d.recs = true) {x : InFlight} {r : Nat} (h : x.origin = .hunt r)
    (hbody : x.dir.body = .mute ∨ x.dir.body = .unmute) :
    (d.unmuteEnded x).legs = d.legs ∧ (d.unmuteEnded x).slots = d.slots ∧ Sparse.wf Rec.vacant (d.unmuteEnded x).recs = true ∧
      (∀ q, ((d.unmuteEnded x).record q).plan = (d.record q).plan) ∧
      ((d.unmuteEnded x).record r).muted = ((d.record r).muted && decide (x.dir.body = .mute)) := by
  obtain hbody | hbody := hbody
  · have hself : d.unmuteEnded x = d := by
      unfold Dev.unmuteEnded
      rw [hbody]
    rw [hself, hbody]
    exact ⟨rfl, rfl, hrecs, fun _ => rfl, (Bool.and_true _).symm⟩
  · have hclear : d.unmuteEnded x = d.clearMuted r := by
      unfold Dev.unmuteEnded
      rw [hbody, h]
    rw [hclear, hbody, Dev.clearMuted]
    refine ⟨rfl, rfl, Dev.modRec_recs_wf d r _ hrecs, fun q => ?_, ?_⟩
    · by_cases hq : q = r
      · subst hq
        rw [Dev.modRec_record_self d q _ hrecs]
        rfl
      · rw [Dev.modRec_record_ne d r q _ hq]
    · rw [Dev.modRec_record_self d r _ hrecs]
      exact (Bool.and_false _).symm

theorem Leg.huntFlight_free {g : Leg} (h : g.chan = .free) : g.huntFlight = false := by
  rw [Leg.huntFlight, Leg.inFlight_free h]

/-- Settles O46: a hunt enters HUNTING, and goes on after its MUTEs and UNMUTEs. -/
theorem startingHuntEntersHunting : Obligations.StartingHuntEntersHunting := by
  constructor
  · intro s l hrun g hphase hst
    refine ⟨fun hchan => ?_, fun hchan => ?_⟩
    · exact (exec_huntEntersHunting hrun l).trans (State.next_dev_congr (Dev.enterHunting_of hphase hchan hst))
    · exact (exec_huntEntersHunting hrun l).trans (State.next_dev_self (if_neg fun h => hchan h.2.1))
  · intro s l r x c hinv hends horigin hbody hst g h cs
    obtain ⟨d1, o, hexec, ⟨tail, hended⟩, -, -⟩ := State.endedBy_of hinv hends (by obtain hb | hb := hbody <;> rw [hb] <;> nofun)
    obtain ⟨hlegs, hslots, hwf, hplan, hmuted⟩ := Dev.unmuteEnded_hunt hended.recs horigin hbody
    rw [Dev.deliver_hunt _ _ _ horigin] at hexec
    generalize d1.unmuteEnded x = d2 at *
    have hleg2 : d2.leg l = { g with chan := .free, quietTail := g.quietTail ++ tail } := (congrArg (Legs.get · l) hlegs).trans hended.leg
    have hwfSlots : Sparse.wf Slot.idle d2.slots = true := by rw [hslots, hended.slots]; exact hinv.good.slots
    obtain ⟨hstep, hrecs⟩ := Dev.HuntStep.huntProgress hwfSlots l
    obtain ⟨hwaits, hsurveys, hnext, hover⟩ := Dev.huntProgress_progressed (d := d2) (l := l) (Leg.huntFlight_free (by rw [hleg2]))
    have hsame (q : Nat) : (d2.huntProgress l).record q = d2.record q := congrArg (Sparse.get Rec.vacant · q) hrecs
    rw [hleg2] at hwaits hsurveys hnext hover
    refine ⟨_, hexec, hstep.chan (by rw [hleg2]), fun q => ?_, ?_, fun htodo => ?_, fun htodo hphase => ?_, fun htodo hphase hfinal hmany => ?_,
      fun q htodo hphase hfinal hone => ?_, fun htodo hphase hend => ?_⟩
    · rw [hsame, hplan, hended.plan]
    · obtain ⟨v, fresh, wanted, hbefore⟩ := hended.record r
      rw [hsame, hmuted, hbefore]
    · rw [hwaits htodo]
      exact ⟨rfl, hst⟩
    · rw [hsurveys htodo hphase]
      exact ⟨rfl, rfl⟩
    · have hne : cs ≠ [] := by rintro hnil; rw [hnil] at hmany; simp at hmany
      rw [hnext htodo hphase hfinal hne]
      exact Hunt.nextStep_many h hmany
    · have hne : cs ≠ [] := by rw [hone]; exact List.cons_ne_nil _ _
      rw [hnext htodo hphase hfinal hne]
      exact (congrArg h.nextStep hone).trans (Hunt.nextStep_one h q)
    · rw [hover htodo hphase hend]
      obtain ⟨-, hleg, -, hset, -, hnone, -, hdone⟩ := Dev.endHunt_rules hwfSlots l .strayRogue
      rw [hleg2] at hleg hnone hdone
      rw [hleg]
      refine ⟨rfl, ?_, hset, fun h => (hnone h).trans (hslots.trans hended.slots), fun n hn => ?_⟩
      · exact (congrArg (legAfterHunt · .strayRogue) hst).trans rfl
      · exact slotDone_congr (hslots.trans hended.slots) (hdone n hn)

/-! ## The hunt judges its survey (R137 to R139, R141) -/

theorem Dev.HuntStep.trans {d d1 d2 : Dev} {l : Fin 4} (h : Dev.HuntStep d d1 l) (howner : (d1.leg l).hunt.owner = (d.leg l).hunt.owner)
    (h' : Dev.HuntStep d1 d2 l) : Dev.HuntStep d d2 l where
  chan hfree := h'.chan (h.chan hfree)
  survey := ⟨h'.survey.1.trans h.survey.1, h'.survey.2.trans h.survey.2⟩
  set c hc := h'.set c (h.set c hc)
  slots n hn := (h'.slots n (by rw [howner]; exact hn)).trans (h.slots n hn)

/-- R141: the stage field of a culprit. -/
def Rec.rogueStage (x : Rec) : Option RecState :=
  match x.state with
  | .held => x.stage
  | .halted => x.stage
  | _ => some x.state

theorem Rec.rogueStage_eq (x : Rec) : x.rogueStage = if x.state = .held ∨ x.state = .halted then x.stage else some x.state := by
  unfold Rec.rogueStage
  split
  next h => rw [if_pos (.inl h)]
  next h => rw [if_pos (.inr h)]
  next hheld hhalted => rw [if_neg (not_or.2 ⟨hheld, hhalted⟩)]

theorem Dev.haltRogue_eq (d : Dev) (r : Nat) : d.haltRogue r = d.haltWith r .rogue (d.record r).rogueStage := rfl

theorem Dev.keepsSlots.haltWith_slots (d : Dev) (r : Nat) (f : FaultCode) (st : Option RecState) : (d.haltWith r f st).slots = d.slots :=
  (Dev.keepsSlots.drop d r).1

theorem Dev.modRec_isSet (d : Dev) (r : Nat) (f : Rec → Rec) (c : Cause) : (d.modRec r f).isSet c = d.isSet c := rfl

theorem Dev.keepsSlots.isSet {d d' : Dev} (h : d.keepsSlots d') (c : Cause) : d'.isSet c = d.isSet c := by
  rw [Dev.isSet, h.2, Dev.isSet]

theorem Dev.haltWith_isSet (d : Dev) (r : Nat) (f : FaultCode) (st : Option RecState) (c : Cause) :
    (d.haltWith r f st).isSet c = (d.isSet c || decide (c = .recHalted)) := by
  rw [Dev.haltWith, Dev.isSet_latch, Dev.modRec_isSet, (Dev.keepsSlots.drop d r).isSet]

/-- R141: what the halt of a culprit does. -/
theorem Dev.haltRogue_rules {d : Dev} (hrecs : Sparse.wf Rec.vacant d.recs = true) (r : Nat) :
    let d' := d.haltRogue r
    let x := d.record r
    (d'.record r).plan = { x.plan with state := .halted, fault := .rogue, stage := x.rogueStage } ∧ othersKeep d d' r ∧
      (∀ k, (d'.leg k).core = (d.leg k).core) ∧ (∀ k, (d.leg k).chan = .free → (d'.leg k).chan = .free) ∧ d'.slots = d.slots ∧
      d'.isSet .recHalted = true ∧ ∀ c, d.isSet c = true → d'.isSet c = true := by
  obtain ⟨-, hself, -, hothers, hlegs, hfree⟩ := Dev.haltWith_spec hrecs r .rogue (d.record r).rogueStage
  have hslots := Dev.keepsSlots.haltWith_slots d r .rogue (d.record r).rogueStage
  have hset := Dev.haltWith_isSet d r .rogue (d.record r).rogueStage
  rw [Dev.haltRogue_eq]
  generalize d.haltWith r .rogue (d.record r).rogueStage = d1 at *
  have hplan := Rec.plan_of_core (x := d1.record r)
    (y := { d.record r with state := .halted, stage := (d.record r).rogueStage, fault := .rogue }) hself
  refine ⟨hplan, fun q hq => Rec.plan_of_core (hothers q hq), hlegs, hfree, hslots, ?_, fun c hc => ?_⟩
  · rw [hset, decide_eq_true rfl, Bool.or_true]
  · rw [hset, hc, Bool.true_or]

/-- R141: what the end of a hunt with a culprit does. -/
theorem Dev.endHunt_found {d : Dev} (hrecs : Sparse.wf Rec.vacant d.recs = true) (hslots : Sparse.wf Slot.idle d.slots = true) (l : Fin 4)
    (r : Nat) :
    let d' := d.endHunt l .found (some r)
    let h := (d.leg l).hunt
    let x := d.record r
    (d'.record r).plan = { x.plan with state := .halted, fault := .rogue, stage := x.rogueStage } ∧ othersKeep d d' r ∧
      (d'.leg l).core = ((d.leg l).huntEnded .found (some r)).core ∧ ((d.leg l).chan = .free → (d'.leg l).chan = .free) ∧
      d'.isSet .recHalted = true ∧ d'.isSet .huntEnd = true ∧
      (∀ c, d.isSet c = true → d'.isSet c = true) ∧ (h.owner = none → d'.slots = d.slots) ∧ (∀ n, h.owner ≠ some n → d'.slot n = d.slot n) ∧
      ∀ n, h.owner = some n → slotDone d d' n .ok (.hunt .found h.steps (some r)) := by
  obtain ⟨hself, hothers, hlegs, hfree, hkept, hhalted, hset⟩ := Dev.haltRogue_rules (d := d.huntOver l .found (some r)) hrecs r
  have hleg := Dev.huntOver_leg d l .found (some r)
  have hlatched : ∀ c, d.isSet c = true → (d.huntOver l .found (some r)).isSet c = true := fun c hc => by
    rw [Dev.huntOver, Dev.isSet_latch]
    exact Bool.or_eq_true_iff.2 (.inl hc)
  have hend : (d.huntOver l .found (some r)).isSet .huntEnd = true := Dev.latch_isSet_self _ _
  have hslots1 : (d.huntOver l .found (some r)).slots = d.slots := rfl
  have hrecord : (d.huntOver l .found (some r)).record = d.record := rfl
  rw [Dev.endHunt_some]
  unfold othersKeep at hothers ⊢
  rw [hrecord] at hself hothers
  rw [hslots1] at hkept
  generalize d.huntOver l .found (some r) = d1 at *
  generalize d1.haltRogue r = d2 at *
  obtain ⟨hrecs3, hlegs3, hset3, hnone, hkeep, hdone⟩ := Dev.huntAnswered_rules (d := d2) (by rw [hkept]; exact hslots) (d.leg l).hunt.owner
    .found (d.leg l).hunt.steps (some r)
  generalize d2.huntAnswered (d.leg l).hunt.owner .found (d.leg l).hunt.steps (some r) = d3 at *
  have hrecord3 : d3.record = d2.record := funext fun q => congrArg (Sparse.get Rec.vacant · q) hrecs3
  have hleg3 : d3.leg = d2.leg := funext fun k => congrArg (Legs.get · k) hlegs3
  have hslot2 : d2.slot = d.slot := funext fun m => congrArg (Sparse.get Slot.idle · m) hkept
  dsimp only
  rw [hrecord3, hleg3]
  refine ⟨hself, hothers, (hlegs l).trans (by rw [hleg]), fun hchan => hfree l (by rw [hleg]; exact hchan), hset3 _ hhalted,
    hset3 _ (hset _ hend), fun c hc => hset3 c (hset c (hlatched c hc)), fun h => (hnone h).trans hkept, fun n hn => ?_,
    fun n hn => slotDone_congr hkept (hdone n hn)⟩
  exact (hkeep n hn).trans (congrFun hslot2 n)

/-- R189: the detail and state of a hunt that ended in HUNTING. -/
def Dev.huntEnds (d d' : Dev) (l : Fin 4) (h : Hunt) (res : HuntResult) (who : Option Nat) : Prop :=
  (d'.leg l).hunt = { Hunt.idle with steps := h.steps, lastResult := res, lastCulprit := who } ∧ d'.isSet .huntEnd = true ∧
    (d'.leg l).st = (if res = .strayRogue then .suspended else .running) ∧ (h.owner = none → d'.slots = d.slots) ∧
    ∀ n, h.owner = some n → slotDone d d' n .ok
      { Detail.zero with a := res.code, b := h.steps, w14 := BitVec.ofNat 32 (who.getD 0xFFFF) }

/-- R138, R139: the hunt goes on with its next step. -/
def Dev.huntGoesOn (d d' : Dev) (l : Fin 4) (next : Hunt) : Prop :=
  (d'.leg l).hunt = next ∧ (d'.leg l).st = .hunting ∧ d'.recs = d.recs ∧ d'.slots = d.slots

/-- R131, R137: a survey step is counted. -/
def Dev.stepCounted (d : Dev) (l : Fin 4) : Dev := d.modLeg l fun g => { g with hunt := { g.hunt with steps := satInc g.hunt.steps 255 } }

theorem Dev.stepCounted_leg (d : Dev) (l : Fin 4) :
    (d.stepCounted l).leg l = { d.leg l with hunt := { (d.leg l).hunt with steps := satInc (d.leg l).hunt.steps 255 } } :=
  Dev.modLeg_leg_self d l _

/-- R139: the survey of the final step. -/
def Dev.judgeFinal (d : Dev) (l : Fin 4) (o : SurveyOut) : Dev :=
  if o = .dark then
    match (d.leg l).hunt.cands with
    | c :: _ => d.endHunt l .found (some c)
    | [] => d.endHunt l .strayRogue none
  else (d.modLeg l fun g => { g with hunt := { g.hunt with phase := .unmuting, todo := g.hunt.cands } }).huntProgress l

/-- R138: the survey of a bisection. -/
def Dev.judgeHalf (d : Dev) (l : Fin 4) (o : SurveyOut) : Dev :=
  (d.modLeg l fun g =>
    { g with hunt := { g.hunt with phase := .unmuting, todo := g.hunt.half, newList := g.hunt.judged o } }).huntProgress l

section
variable {d : Dev} {l : Fin 4}

theorem Dev.huntJudge_confirming (h : (d.leg l).hunt.phase = .confirming) (o : SurveyOut) :
    d.huntJudge l o =
      if o = .dark then (d.stepCounted l).endHunt l .noRogue none else (d.stepCounted l).bisect l (d.candidates l) := by
  have hphase : ((d.stepCounted l).leg l).hunt.phase = .confirming := by rw [Dev.stepCounted_leg]; exact h
  unfold Dev.huntJudge
  change (match ((d.stepCounted l).leg l).hunt.phase with
    | .confirming => _
    | .surveying => _
    | .idle | .starting | .muting | .unmuting => _) = _
  rw [hphase]
  rfl

theorem Dev.huntJudge_surveying (h : (d.leg l).hunt.phase = .surveying) (o : SurveyOut) :
    d.huntJudge l o = if (d.leg l).hunt.final then (d.stepCounted l).judgeFinal l o else (d.stepCounted l).judgeHalf l o := by
  have hphase : ((d.stepCounted l).leg l).hunt.phase = .surveying := by rw [Dev.stepCounted_leg]; exact h
  have hfinal : ((d.stepCounted l).leg l).hunt.final = (d.leg l).hunt.final := by rw [Dev.stepCounted_leg]
  rw [← hfinal]
  unfold Dev.huntJudge
  change (match ((d.stepCounted l).leg l).hunt.phase with
    | .confirming => _
    | .surveying => _
    | .idle | .starting | .muting | .unmuting => _) = _
  rw [hphase]
  rfl

theorem Dev.huntJudge_otherwise (hconfirming : (d.leg l).hunt.phase ≠ .confirming) (hsurveying : (d.leg l).hunt.phase ≠ .surveying)
    (o : SurveyOut) : d.huntJudge l o = d.stepCounted l := by
  have hphase : ((d.stepCounted l).leg l).hunt.phase = (d.leg l).hunt.phase := by rw [Dev.stepCounted_leg]
  unfold Dev.huntJudge
  change (match ((d.stepCounted l).leg l).hunt.phase with
    | .confirming => _
    | .surveying => _
    | .idle | .starting | .muting | .unmuting => _) = _
  rw [hphase]
  split
  next h => exact absurd h hconfirming
  next h => exact absurd h hsurveying
  all_goals rfl

end

/-! ## What the judgement leaves (R141) -/

theorem Dev.HuntStep.found {d : Dev} (hrecs : Sparse.wf Rec.vacant d.recs = true) (hslots : Sparse.wf Slot.idle d.slots = true) (l : Fin 4)
    (r : Nat) : Dev.HuntStep d (d.endHunt l .found (some r)) l := by
  obtain ⟨-, -, hcore, hchan, -, -, hset, -, hothers, -⟩ := Dev.endHunt_found hrecs hslots l r
  have hsurvey := congrArg Leg.lastSurvey hcore
  have hcount := congrArg Leg.lastCount hcore
  exact ⟨hchan, ⟨hsurvey, hcount⟩, hset, hothers⟩

/-- A change of the hunt that keeps its owner, then its progress. -/
theorem Dev.HuntStep.progressAfter {d : Dev} (hslots : Sparse.wf Slot.idle d.slots = true) (l : Fin 4) {f : Leg → Leg}
    (hf : ∀ g : Leg, (f g).chan = g.chan ∧ (f g).lastSurvey = g.lastSurvey ∧ (f g).lastCount = g.lastCount)
    (howner : ∀ g : Leg, (f g).hunt.owner = g.hunt.owner) : Dev.HuntStep d ((d.modLeg l f).huntProgress l) l :=
  (Dev.HuntStep.of_modLeg d l hf).trans (by rw [Dev.modLeg_leg_self, howner]) (Dev.HuntStep.huntProgress (d := d.modLeg l f) hslots l).1

theorem Dev.HuntStep.judgeFinal {d : Dev} (hrecs : Sparse.wf Rec.vacant d.recs = true) (hslots : Sparse.wf Slot.idle d.slots = true)
    (l : Fin 4) (o : SurveyOut) : Dev.HuntStep d (d.judgeFinal l o) l := by
  unfold Dev.judgeFinal
  split
  next =>
    split
    next => exact .found hrecs hslots l _
    next => exact (Dev.HuntStep.endHunt hslots l .strayRogue).1
  next => exact .progressAfter hslots l (fun _ => ⟨rfl, rfl, rfl⟩) fun _ => rfl

theorem Dev.HuntStep.huntJudge {d : Dev} (hrecs : Sparse.wf Rec.vacant d.recs = true) (hslots : Sparse.wf Slot.idle d.slots = true)
    (l : Fin 4) (o : SurveyOut) : Dev.HuntStep d (d.huntJudge l o) l := by
  have hcounted : Dev.HuntStep d (d.stepCounted l) l := .of_modLeg d l fun _ => ⟨rfl, rfl, rfl⟩
  have howner : ((d.stepCounted l).leg l).hunt.owner = (d.leg l).hunt.owner := by rw [Dev.stepCounted_leg]
  by_cases hconfirming : (d.leg l).hunt.phase = .confirming
  · rw [Dev.huntJudge_confirming hconfirming]
    split
    next => exact hcounted.trans howner (Dev.HuntStep.endHunt (d := d.stepCounted l) hslots l .noRogue).1
    next => exact hcounted.trans howner (Dev.HuntStep.bisect (d := d.stepCounted l) hslots l _).1
  · by_cases hsurveying : (d.leg l).hunt.phase = .surveying
    · rw [Dev.huntJudge_surveying hsurveying]
      split
      next => exact hcounted.trans howner (.judgeFinal (d := d.stepCounted l) hrecs hslots l o)
      next => exact hcounted.trans howner (.progressAfter (d := d.stepCounted l) hslots l (fun _ => ⟨rfl, rfl, rfl⟩) fun _ => rfl)
    · rw [Dev.huntJudge_otherwise hconfirming hsurveying]
      exact hcounted

/-! ## The hunt of a HUNTING leg ends or goes on (R137 to R141) -/

section
variable {d : Dev} {l : Fin 4} (hst : (d.leg l).st = .hunting)
include hst

theorem Dev.endHunt_huntEnds (hslots : Sparse.wf Slot.idle d.slots = true) {res : HuntResult} (hres : res = .noRogue ∨ res = .strayRogue) :
    d.huntEnds (d.endHunt l res none) l (d.leg l).hunt res none ∧ (d.endHunt l res none).recs = d.recs := by
  obtain ⟨hrecs, hleg, -, hset, -, hnone, -, hdone⟩ := Dev.endHunt_rules hslots l res
  refine ⟨⟨by rw [hleg]; rfl, hset, ?_, hnone, fun n hn => ?_⟩, hrecs⟩
  · rw [hleg]
    refine (congrArg (legAfterHunt · res) hst).trans ?_
    obtain rfl | rfl := hres
    · rfl
    · rfl
  · have hcode : huntCommandResult res = .ok := by
      obtain rfl | rfl := hres
      · rfl
      · rfl
    have hslot := hdone n hn
    rw [hcode] at hslot
    exact hslot

theorem Dev.endHunt_found_huntEnds (hrecs : Sparse.wf Rec.vacant d.recs = true) (hslots : Sparse.wf Slot.idle d.slots = true) (r : Nat) :
    d.huntEnds (d.endHunt l .found (some r)) l (d.leg l).hunt .found (some r) := by
  obtain ⟨-, -, hcore, -, -, hset, -, hnone, -, hdone⟩ := Dev.endHunt_found hrecs hslots l r
  have hhunt := congrArg Leg.hunt hcore
  have hstate := congrArg Leg.st hcore
  exact ⟨hhunt, hset, hstate.trans ((congrArg (legAfterHunt · .found) hst).trans rfl), hnone, hdone⟩

/-- R138, R142: the hunt ends with STRAY_ROGUE after a change that keeps its steps and its owner. -/
theorem Dev.endHunt_huntEnds_after (hslots : Sparse.wf Slot.idle d.slots = true) {f : Leg → Leg}
    (hf : ∀ g : Leg, (f g).st = g.st ∧ (f g).hunt.steps = g.hunt.steps ∧ (f g).hunt.owner = g.hunt.owner) :
    d.huntEnds ((d.modLeg l f).endHunt l .strayRogue none) l (d.leg l).hunt .strayRogue none ∧
      ((d.modLeg l f).endHunt l .strayRogue none).recs = d.recs := by
  obtain ⟨hstf, hsteps, howner⟩ := hf (d.leg l)
  have hleg := Dev.modLeg_leg_self d l f
  obtain ⟨⟨hhunt, hset, hstate, hnone, hdone⟩, hrecs⟩ :=
    Dev.endHunt_huntEnds (d := d.modLeg l f) (l := l) (by rw [hleg, hstf]; exact hst) hslots (.inr rfl)
  rw [hleg, hsteps] at hhunt hdone
  rw [hleg, howner] at hnone
  rw [howner] at hdone
  exact ⟨⟨hhunt, hset, hstate, hnone, hdone⟩, hrecs⟩

theorem Dev.modLeg_huntGoesOn {f : Leg → Leg} {next : Hunt} (hf : (f (d.leg l)).hunt = next) (hkeep : ∀ g : Leg, (f g).st = g.st) :
    d.huntGoesOn (d.modLeg l f) l next := by
  refine ⟨?_, ?_, rfl, rfl⟩
  · rw [Dev.modLeg_leg_self, hf]
  · rw [Dev.modLeg_leg_self, hkeep, hst]

theorem Dev.bisect_huntGoesOn {cs : List Nat} (hcs : cs ≠ []) : d.huntGoesOn (d.bisect l cs) l ((d.leg l).hunt.nextStep cs) := by
  rw [Dev.bisect_of_ne_nil d l hcs]
  exact Dev.modLeg_huntGoesOn hst rfl fun _ => rfl

end

section
variable {d : Dev} {l : Fin 4} (hchan : (d.leg l).chan = .free)

theorem Dev.judgeFinal_dark {c : Nat} {cs : List Nat} (hcands : (d.leg l).hunt.cands = c :: cs) :
    d.judgeFinal l .dark = d.endHunt l .found (some c) := by
  unfold Dev.judgeFinal
  rw [if_pos rfl, hcands]

theorem Dev.judgeFinal_lit {o : SurveyOut} (ho : o ≠ .dark) (hcands : (d.leg l).hunt.cands ≠ []) :
    d.judgeFinal l o = d.modLeg l fun g => { g with hunt := { g.hunt with phase := .unmuting, todo := g.hunt.cands } } := by
  rw [Dev.judgeFinal, if_neg ho]
  exact Dev.huntProgress_of_todo (.inl (by rw [Dev.modLeg_leg_self]; exact hcands))

theorem Dev.judgeHalf_unmutes (o : SurveyOut) (hhalf : (d.leg l).hunt.half ≠ []) :
    d.judgeHalf l o =
      d.modLeg l fun g => { g with hunt := { g.hunt with phase := .unmuting, todo := g.hunt.half, newList := g.hunt.judged o } } :=
  Dev.huntProgress_of_todo (.inl (by rw [Dev.modLeg_leg_self]; exact hhalf))

include hchan

/-- R139, R142: the final step's candidate was withdrawn. -/
theorem Dev.judgeFinal_nobody (hst : (d.leg l).st = .hunting) (hslots : Sparse.wf Slot.idle d.slots = true) (o : SurveyOut)
    (hfinal : (d.leg l).hunt.final = true) (hcands : (d.leg l).hunt.cands = []) :
    d.huntEnds (d.judgeFinal l o) l (d.leg l).hunt .strayRogue none ∧ (d.judgeFinal l o).recs = d.recs := by
  unfold Dev.judgeFinal
  split
  next =>
    rw [hcands]
    exact Dev.endHunt_huntEnds hst hslots (.inr rfl)
  next =>
    have hleg := Dev.modLeg_leg_self d l fun g => { g with hunt := { g.hunt with phase := .unmuting, todo := g.hunt.cands } }
    rw [Dev.huntProgress_unmuting (by rw [hleg]; exact hcands) (Leg.huntFlight_free (by rw [hleg]; exact hchan)) (by rw [hleg]),
      hleg, hfinal, if_pos rfl]
    exact Dev.endHunt_huntEnds_after hst hslots fun _ => ⟨rfl, rfl, rfl⟩

/-- R142: with the muted half withdrawn the next step follows at once. -/
theorem Dev.judgeHalf_nobody (o : SurveyOut) (hfinal : (d.leg l).hunt.final = false) (hhalf : (d.leg l).hunt.half = []) :
    d.judgeHalf l o =
      (d.modLeg l fun g =>
        { g with hunt := { g.hunt with phase := .unmuting, todo := g.hunt.half, newList := g.hunt.judged o } }).bisect l
          ((d.leg l).hunt.judged o) := by
  have hleg := Dev.modLeg_leg_self d l fun g =>
    { g with hunt := { g.hunt with phase := .unmuting, todo := g.hunt.half, newList := g.hunt.judged o } }
  rw [Dev.judgeHalf, Dev.huntProgress_unmuting (by rw [hleg]; exact hhalf) (Leg.huntFlight_free (by rw [hleg]; exact hchan)) (by rw [hleg]),
    hleg, hfinal, if_neg Bool.false_ne_true]

theorem Dev.judgeHalf_ends (hst : (d.leg l).st = .hunting) (hslots : Sparse.wf Slot.idle d.slots = true) {o : SurveyOut}
    (hfinal : (d.leg l).hunt.final = false) (hhalf : (d.leg l).hunt.half = []) (hlist : (d.leg l).hunt.judged o = []) :
    d.huntEnds (d.judgeHalf l o) l (d.leg l).hunt .strayRogue none ∧ (d.judgeHalf l o).recs = d.recs := by
  rw [Dev.judgeHalf_nobody hchan o hfinal hhalf, hlist]
  exact Dev.endHunt_huntEnds_after hst hslots fun _ => ⟨rfl, rfl, rfl⟩

theorem Dev.judgeHalf_goesOn (hst : (d.leg l).st = .hunting) {o : SurveyOut} (hfinal : (d.leg l).hunt.final = false)
    (hhalf : (d.leg l).hunt.half = []) (hlist : (d.leg l).hunt.judged o ≠ []) :
    d.huntGoesOn (d.judgeHalf l o) l
      ({ (d.leg l).hunt with phase := .unmuting, todo := [], newList := (d.leg l).hunt.judged o }.nextStep ((d.leg l).hunt.judged o)) := by
  rw [Dev.judgeHalf_nobody hchan o hfinal hhalf, Dev.bisect_of_ne_nil _ l hlist, Dev.modLeg_modLeg]
  exact Dev.modLeg_huntGoesOn hst (by rw [hhalf]) fun _ => rfl

end

theorem Hunt.judged_of_half_nil {h : Hunt} (hhalf : h.half = []) (o : SurveyOut) : h.judged o = if o = .dark then [] else h.cands := by
  have hfilter : h.cands.filter (fun r => !([] : List Nat).contains r) = h.cands := List.filter_eq_self.2 fun _ _ => rfl
  rw [Hunt.judged, hhalf, hfilter]

/-! ## The survey window that ends (R130, R131) -/

theorem exec_surveyWindowEnd {s : State} (hrun : s.phase = .running) {l : Fin 4} {lit : Nat} {w : SurveyWindow} {o : SurveyOpen}
    (hchan : (s.dev.leg l).chan = .survey w) (hopen : w.opened = some o) (hend : o.length + lag w.reach ≤ cyclesFrom o.first s.cycle)
    (hlit : w.lit + lit ≤ 256 * o.length) :
    exec (.surveyWindowEnd l lit) s = .next { s with
      dev := s.dev.surveyDone s.env l w.reqs (judgeSurvey (w.lit + lit) o.length o.threshold) (w.lit + lit) } := by
  have hover : w.over s.env.cycle = true := by
    rw [SurveyWindow.over, hopen]
    exact decide_eq_true hend
  have hcount : min (w.lit + lit) (samplesPerCycle * o.length) = w.lit + lit := Nat.min_eq_left hlit
  refine (congrArg Host.Outcome.next (State.running_eq hrun _)).trans (State.next_dev_congr ?_)
  rw [Dev.endSurvey, hchan]
  dsimp only
  rw [hopen]
  dsimp only
  rw [if_pos hover, hcount]

theorem Dev.surveyDone_hunt (e : Env) (d : Dev) (l : Fin 4) (o : SurveyOut) (c : Nat) :
    d.surveyDone e l ⟨false, [], true⟩ o c = (d.modLeg l fun g => g.recordSurvey o c).huntJudge l o := rfl

theorem satInc_255_eq_min {n : Nat} (h : n ≤ 255) : satInc n 255 = min (n + 1) 255 := by
  unfold satInc
  split
  next hlt => omega
  next hge => omega

theorem Dev.huntEnds_congr {d d1 d' : Dev} (hslots : d1.slots = d.slots) {l : Fin 4} {h : Hunt} {res : HuntResult} {who : Option Nat}
    (hends : d1.huntEnds d' l h res who) : d.huntEnds d' l h res who := by
  obtain ⟨hhunt, hset, hstate, hnone, hdone⟩ := hends
  exact ⟨hhunt, hset, hstate, fun hn => (hnone hn).trans hslots, fun n hn => slotDone_congr hslots (hdone n hn)⟩

theorem Dev.huntGoesOn_congr {d d1 d' : Dev} (hslots : d1.slots = d.slots) (hrecs : d1.recs = d.recs) {l : Fin 4} {next : Hunt}
    (hgoes : d1.huntGoesOn d' l next) : d.huntGoesOn d' l next := by
  obtain ⟨hhunt, hstate, hr, hs⟩ := hgoes
  exact ⟨hhunt, hstate, hr.trans hrecs, hs.trans hslots⟩

/-- R137: the candidates of a leg. -/
theorem Dev.mem_candidates {d : Dev} (hrecs : Sparse.wf Rec.vacant d.recs = true) (l : Fin 4) (r : Nat) :
    r ∈ d.candidates l ↔
      (d.record r).state ≠ .vacant ∧ (d.record r).enrol.leg = l ∧ (d.record r).addressed = true ∧
      (d.record r).state ≠ .withdrawing ∧ ¬ ((d.record r).state = .halted ∧ (d.record r).fault = .rogue) := by
  simp only [Dev.candidates, List.mem_map, List.mem_filter, Prod.exists, Dev.mem_recordsOn hrecs, Bool.and_eq_true, decide_eq_true_eq,
    Bool.not_eq_true', Bool.and_eq_false_iff, decide_eq_false_iff_not]
  constructor
  · rintro ⟨q, x, ⟨⟨rfl, hstate, hleg⟩, ⟨haddressed, hwithdrawing⟩, hrogue⟩, rfl⟩
    exact ⟨hstate, hleg, haddressed, hwithdrawing, not_and_or.2 hrogue⟩
  · rintro ⟨hstate, hleg, haddressed, hwithdrawing, hrogue⟩
    exact ⟨r, d.record r, ⟨⟨rfl, hstate, hleg⟩, ⟨haddressed, hwithdrawing⟩, not_and_or.1 hrogue⟩, rfl⟩

theorem Sparse.pairwise_keys {β : Type} [DecidableEq β] {v : β} (m : List (Nat × β)) (lo : Nat) (h : Sparse.wfFrom v lo m = true) :
    (m.map (·.1)).Pairwise (· < ·) ∧ ∀ k ∈ m.map (·.1), lo ≤ k := by
  induction m generalizing lo with
  | nil => exact ⟨.nil, nofun⟩
  | cons p m ih =>
    obtain ⟨k, w⟩ := p
    simp only [Sparse.wfFrom, Bool.and_eq_true, decide_eq_true_eq] at h
    obtain ⟨⟨hlo, -⟩, hm⟩ := h
    obtain ⟨hsorted, hfrom⟩ := ih (k + 1) hm
    refine ⟨List.Pairwise.cons hfrom hsorted, fun q hq => ?_⟩
    obtain rfl | hq := List.mem_cons.1 hq
    · exact hlo
    · have := hfrom q hq
      omega

theorem Dev.candidates_sorted {d : Dev} (hrecs : Sparse.wf Rec.vacant d.recs = true) (l : Fin 4) : (d.candidates l).Pairwise (· < ·) := by
  have hkeys := (Sparse.pairwise_keys d.recs 0 hrecs).1
  refine hkeys.sublist (List.Sublist.map _ ?_)
  exact List.filter_sublist.trans (List.filter_sublist.trans List.filter_sublist)

/-- R137: the device of a HUNTING leg once its survey is recorded and counted. -/
theorem Dev.surveyCounted_leg (d : Dev) (l : Fin 4) (o : SurveyOut) (c : Nat) (hsteps : (d.leg l).hunt.steps ≤ 255) :
    ((d.modLeg l fun g => g.recordSurvey o c).stepCounted l).leg l =
      { (d.leg l).recordSurvey o c with hunt := { (d.leg l).hunt with steps := min ((d.leg l).hunt.steps + 1) 255 } } := by
  rw [Dev.stepCounted_leg, Dev.modLeg_leg_self]
  exact congrArg (fun n => { (d.leg l).recordSurvey o c with hunt := { (d.leg l).hunt with steps := n } }) (satInc_255_eq_min hsteps)

/-- Settles O45: a hunt's survey ends, and the hunt acts on it. -/
theorem huntSurveyMovesTheHunt : Obligations.HuntSurveyMovesTheHunt := by
  refine ⟨?_, fun d l r hmaps => ⟨Dev.mem_candidates hmaps.1 l r, Dev.candidates_sorted hmaps.1 l⟩⟩
  intro s l lit w o hrun hinv hchan hopen hreqs hend hlit g c out cs h hst hsteps
  have hexec := exec_surveyWindowEnd hrun hchan hopen hend hlit
  rw [hreqs, Dev.surveyDone_hunt] at hexec
  change exec (.surveyWindowEnd l lit) s = .next { s with dev := (s.dev.modLeg l fun g => g.recordSurvey out c).huntJudge l out } at hexec
  clear_value out c
  have hstep := Dev.HuntStep.huntJudge (d := s.dev.modLeg l fun g => g.recordSurvey out c) hinv.good.recs hinv.good.slots l out
  have hleg1 := Dev.modLeg_leg_self s.dev l fun g => g.recordSurvey out c
  have hleg2 := Dev.surveyCounted_leg s.dev l out c hsteps
  have hslots1 : (s.dev.modLeg l fun g => g.recordSurvey out c).slots = s.dev.slots := rfl
  have hrecs1 : (s.dev.modLeg l fun g => g.recordSurvey out c).recs = s.dev.recs := rfl
  have hcands1 : (s.dev.modLeg l fun g => g.recordSurvey out c).candidates l = cs := rfl
  generalize s.dev.modLeg l (fun g => g.recordSurvey out c) = d1 at *
  have hslots2 : (d1.stepCounted l).slots = s.dev.slots := hslots1
  have hrecs2 : (d1.stepCounted l).recs = s.dev.recs := hrecs1
  have hconfirming (hphase : h.phase = .confirming) := Dev.huntJudge_confirming (d := d1) (l := l) (by rw [hleg1]; exact hphase) out
  have hsurveying (hphase : h.phase = .surveying) := Dev.huntJudge_surveying (d := d1) (l := l) (by rw [hleg1]; exact hphase) out
  have hfinal1 : (d1.leg l).hunt.final = h.final := by rw [hleg1]; rfl
  rw [hcands1] at hconfirming
  rw [hfinal1] at hsurveying
  generalize d1.stepCounted l = d2 at *
  have hst2 : (d2.leg l).st = .hunting := by rw [hleg2]; exact hst
  have hchan2 : (d2.leg l).chan = .free := by rw [hleg2]; rfl
  have hhunt2 : (d2.leg l).hunt = h := by rw [hleg2]
  have hwfSlots : Sparse.wf Slot.idle d2.slots = true := by rw [hslots2]; exact hinv.good.slots
  have hwfRecs : Sparse.wf Rec.vacant d2.recs = true := by rw [hrecs2]; exact hinv.good.recs
  refine ⟨_, hexec, ?_⟩
  intro k ended goesOn
  have hended {d' : Dev} {res who} (hd : d1.huntJudge l out = d') (hends : d2.huntEnds d' l h res who) : ended res who := by
    rw [← hd] at hends
    exact Dev.huntEnds_congr hslots2 hends
  have hgoes {d' : Dev} {next} (hd : d1.huntJudge l out = d') (hgoes : d2.huntGoesOn d' l next) : goesOn next := by
    rw [← hd] at hgoes
    exact Dev.huntGoesOn_congr hslots2 hrecs2 hgoes
  refine ⟨hstep.chan (by rw [hleg1]; rfl), hstep.survey.1.trans (by rw [hleg1]; rfl), hstep.survey.2.trans (by rw [hleg1]; rfl),
    ?_, ?_, ?_, ?_, ?_, ?_, ?_, ?_, ?_, ?_, ?_⟩
  · intro hphase hdark
    have hd := (hconfirming hphase).trans (if_pos hdark)
    obtain ⟨hends, hrecs⟩ := Dev.endHunt_huntEnds hst2 hwfSlots (.inl rfl)
    rw [hhunt2] at hends
    exact ⟨hended hd hends, by rw [hd]; exact hrecs.trans hrecs2⟩
  · intro hphase hlight hcs
    have hd := (hconfirming hphase).trans (if_neg hlight)
    rw [hcs] at hd
    obtain ⟨hends, hrecs⟩ := Dev.endHunt_huntEnds hst2 hwfSlots (.inr rfl)
    rw [hhunt2] at hends
    exact ⟨hended hd hends, by rw [hd]; exact hrecs.trans hrecs2⟩
  · intro r hphase hlight hcs
    have hgo := Dev.bisect_huntGoesOn hst2 (cs := cs) (by rw [hcs]; exact List.cons_ne_nil _ _)
    rw [hhunt2, hcs] at hgo
    have hd := (hconfirming hphase).trans (if_neg hlight)
    rw [hcs] at hd
    exact hgoes hd hgo
  · intro hphase hlight hcs
    have hgo := Dev.bisect_huntGoesOn hst2 (cs := cs) (by rintro hnil; rw [hnil] at hcs; simp at hcs)
    rw [hhunt2, Hunt.nextStep_many h hcs] at hgo
    exact hgoes ((hconfirming hphase).trans (if_neg hlight)) hgo
  · intro hphase hfinal hhalf
    have hd := (hsurveying hphase).trans (if_neg (by rw [hfinal]; exact Bool.false_ne_true))
    rw [Dev.judgeHalf_unmutes out (by rw [hhunt2]; exact hhalf)] at hd
    exact hgoes hd (Dev.modLeg_huntGoesOn hst2 (by rw [hhunt2]; rfl) fun _ => rfl)
  · intro hphase hfinal hhalf hlist
    have hd := (hsurveying hphase).trans (if_neg (by rw [hfinal]; exact Bool.false_ne_true))
    have hnone : (d2.leg l).hunt.judged out = [] := by
      rw [hhunt2, Hunt.judged_of_half_nil hhalf]
      split
      next => rfl
      next hlight => exact hlist.resolve_left hlight
    obtain ⟨hends, hrecs⟩ := Dev.judgeHalf_ends hchan2 hst2 hwfSlots (by rw [hhunt2]; exact hfinal) (by rw [hhunt2]; exact hhalf) hnone
    rw [hhunt2] at hends
    exact ⟨hended hd hends, by rw [hd]; exact hrecs.trans hrecs2⟩
  · intro r hphase hfinal hhalf hlight hcands
    have hd := (hsurveying hphase).trans (if_neg (by rw [hfinal]; exact Bool.false_ne_true))
    have hlist : (d2.leg l).hunt.judged out = [r] := by rw [hhunt2, Hunt.judged_of_half_nil hhalf, if_neg hlight, hcands]
    have hgo := Dev.judgeHalf_goesOn hchan2 hst2 (by rw [hhunt2]; exact hfinal) (by rw [hhunt2]; exact hhalf)
      (by rw [hlist]; exact List.cons_ne_nil _ _)
    rw [hlist, hhunt2] at hgo
    exact hgoes hd hgo
  · intro hphase hfinal hhalf hlight hcands
    have hd := (hsurveying hphase).trans (if_neg (by rw [hfinal]; exact Bool.false_ne_true))
    have hlist : (d2.leg l).hunt.judged out = h.cands := by rw [hhunt2, Hunt.judged_of_half_nil hhalf, if_neg hlight]
    have hgo := Dev.judgeHalf_goesOn hchan2 hst2 (by rw [hhunt2]; exact hfinal) (by rw [hhunt2]; exact hhalf)
      (by rw [hlist]; rintro hnil; rw [hnil] at hcands; simp at hcands)
    rw [hlist, hhunt2, Hunt.nextStep_many _ hcands] at hgo
    exact hgoes hd hgo
  · intro hphase hfinal hcands
    have hd := (hsurveying hphase).trans (if_pos hfinal)
    obtain ⟨hends, hrecs⟩ := Dev.judgeFinal_nobody hchan2 hst2 hwfSlots out (by rw [hhunt2]; exact hfinal) (by rw [hhunt2]; exact hcands)
    rw [hhunt2] at hends
    exact ⟨hended hd hends, by rw [hd]; exact hrecs.trans hrecs2⟩
  · intro hphase hfinal hlight hcands
    have hd := (hsurveying hphase).trans (if_pos hfinal)
    rw [Dev.judgeFinal_lit hlight (by rw [hhunt2]; exact hcands)] at hd
    exact hgoes hd (Dev.modLeg_huntGoesOn hst2 (by rw [hhunt2]) fun _ => rfl)
  · intro r hphase hfinal hdark hcands
    have hd := (hsurveying hphase).trans (if_pos hfinal)
    rw [hdark, Dev.judgeFinal_dark (by rw [hhunt2]; exact hcands)] at hd
    have hends := Dev.endHunt_found_huntEnds hst2 hwfRecs hwfSlots r
    obtain ⟨hself, hothers, -, -, hhalted, -⟩ := Dev.endHunt_found hwfRecs hwfSlots l r
    rw [hhunt2] at hends
    have hrecord : d2.record = s.dev.record := funext fun q => congrArg (Sparse.get Rec.vacant · q) hrecs2
    unfold othersKeep at hothers ⊢
    rw [hrecord] at hself hothers
    rw [Rec.rogueStage_eq] at hself
    rw [hdark] at hended hexec ⊢
    refine ⟨hended hd hends, ?_, ?_, ?_⟩
    · rw [hd]; exact hhalted
    · rw [hd]; exact hothers
    · rw [hd]; exact hself

/-! ## The requesters of a survey window are answered (R131, R134, R135) -/

/-- R134, R135: the slot of a requester after the end of its window on leg l. -/
def Slot.surveyed (y : Slot) (l : Fin 4) (o : SurveyOut) (c : Nat) : Slot :=
  let ps := y.parts.set l.val (some (o, c))
  if y.parts = [] then { y with st := .done, result := .ok, detail := .survey l.val o c, parts := [] }
  else if ps.all Option.isSome then { y with st := .done, result := .ok, detail := .allLegs ps, parts := [] }
  else { y with parts := ps }

/-- R135: the window was the last its command waited for. -/
def Slot.surveyCompletes (y : Slot) (l : Fin 4) (o : SurveyOut) (c : Nat) : Prop :=
  y.parts = [] ∨ (y.parts.set l.val (some (o, c))).all Option.isSome = true

/-- What answering the slots `ns` leaves and gives. -/
structure Dev.Surveyed (d d' : Dev) (l : Fin 4) (o : SurveyOut) (c : Nat) (ns : List Nat) : Prop where
  recs : d'.recs = d.recs
  legs : d'.legs = d.legs
  wf : Sparse.wf Slot.idle d'.slots = true
  set : ∀ f, d.isSet f = true → d'.isSet f = true
  others : ∀ n, n ∉ ns → d'.slot n = d.slot n
  answered : ∀ n ∈ ns, d'.slot n = (d.slot n).surveyed l o c
  done : ∀ n ∈ ns, (d.slot n).surveyCompletes l o c → d'.isSet .cmdDone = true

theorem Dev.modSlot_slots_wf {d : Dev} (hslots : Sparse.wf Slot.idle d.slots = true) (n : Nat) (f : Slot → Slot) :
    Sparse.wf Slot.idle (d.modSlot n f).slots = true := Sparse.set_wf d.slots n _ hslots

theorem Dev.latch_isSet_mono (d : Dev) (c : Cause) {f : Cause} (h : d.isSet f = true) : (d.latch c).isSet f = true := by
  rw [Dev.isSet_latch, h, Bool.true_or]

theorem Dev.complete_surveyed {d : Dev} (hslots : Sparse.wf Slot.idle d.slots = true) {l : Fin 4} {o : SurveyOut} {c n : Nat} {x : Detail}
    (hx : (d.slot n).surveyed l o c = { d.slot n with st := .done, result := .ok, detail := x, parts := [] }) :
    Dev.Surveyed d (d.complete n .ok x) l o c [n] := by
  obtain ⟨hself, hset, hothers⟩ := Dev.complete_slotDone hslots n .ok x
  refine ⟨rfl, rfl, Sparse.set_wf d.slots n _ hslots, fun f hf => Dev.latch_isSet_mono _ _ hf, fun m hm => hothers m (List.ne_of_not_mem_cons hm),
    fun m hm => ?_, fun _ _ _ => hset⟩
  rw [List.mem_singleton.1 hm, hself, hx]

theorem Dev.answerEnd_surveyed {d : Dev} (hslots : Sparse.wf Slot.idle d.slots = true) (l : Fin 4) (o : SurveyOut) (c n : Nat) :
    Dev.Surveyed d (d.answerEnd l o c n) l o c [n] := by
  unfold Dev.answerEnd Dev.answerSlot
  dsimp only
  split
  next hempty => exact Dev.complete_surveyed hslots (if_pos (List.isEmpty_iff.1 hempty))
  next hparts =>
    have hne : (d.slot n).parts ≠ [] := fun h => hparts (List.isEmpty_iff.2 h)
    unfold Dev.settleParts
    split
    next hall => exact Dev.complete_surveyed hslots ((if_neg hne).trans (if_pos hall))
    next hall =>
      refine ⟨rfl, rfl, Dev.modSlot_slots_wf hslots n _, fun _ => id, fun m hm => Dev.modSlot_slot_ne d n m _ (List.ne_of_not_mem_cons hm),
        fun m hm => ?_, fun m hm hdone => ?_⟩
      · rw [List.mem_singleton.1 hm, Dev.modSlot_slot_self d n _ hslots]
        exact ((if_neg hne).trans (if_neg hall)).symm
      · rw [List.mem_singleton.1 hm] at hdone
        exact (hdone.elim hne hall).elim

theorem Dev.answerEnd_foldl_surveyed {d : Dev} (hslots : Sparse.wf Slot.idle d.slots = true) (l : Fin 4) (o : SurveyOut) (c : Nat)
    {ns : List Nat} (hns : ns.Nodup) : Dev.Surveyed d (ns.foldl (fun y n => y.answerEnd l o c n) d) l o c ns := by
  induction ns generalizing d with
  | nil => exact ⟨rfl, rfl, hslots, fun _ => id, fun _ _ => rfl, nofun, nofun⟩
  | cons m ns ih =>
    obtain ⟨hm, hns⟩ := List.nodup_cons.1 hns
    have hone := Dev.answerEnd_surveyed hslots l o c m
    have hrest := ih hone.wf hns
    rw [List.foldl_cons]
    have hself := List.mem_singleton.2 (rfl : m = m)
    have hbefore (n : Nat) (hn : n ∈ ns) : (d.answerEnd l o c m).slot n = d.slot n :=
      hone.others n fun h => hm (List.mem_singleton.1 h ▸ hn)
    refine ⟨hrest.recs.trans hone.recs, hrest.legs.trans hone.legs, hrest.wf, fun f hf => hrest.set f (hone.set f hf), fun n hn => ?_,
      fun n hn => ?_, fun n hn hdone => ?_⟩
    · exact (hrest.others n (List.not_mem_of_not_mem_cons hn)).trans (hone.others n fun h => List.ne_of_not_mem_cons hn (List.mem_singleton.1 h))
    · obtain rfl | hn := List.mem_cons.1 hn
      · exact (hrest.others n hm).trans (hone.answered n hself)
      · rw [hrest.answered n hn, hbefore n hn]
    · obtain rfl | hn := List.mem_cons.1 hn
      · exact hrest.set _ (hone.done n hself hdone)
      · exact hrest.done n hn (by rw [hbefore n hn]; exact hdone)

/-- R131, R133: what a judged window does after its requesters are answered. -/
def Dev.afterSurvey (e : Env) (d : Dev) (l : Fin 4) (q : Requesters) (o : SurveyOut) : Dev :=
  if q.hunt then d.huntJudge l o
  else
    let g := d.leg l
    if q.auto ∧ o ≠ .dark ∧ (e.cfg.leg l).autoHunt ∧ (g.st = .running ∨ g.st = .suspended) ∧ g.hunt.phase = .idle then d.startHunt l none
    else d

theorem Dev.surveyDone_eq (e : Env) (d : Dev) (l : Fin 4) (q : Requesters) (o : SurveyOut) (c : Nat) :
    d.surveyDone e l q o c =
      (q.slots.foldl (fun y n => y.answerEnd l o c n) (d.modLeg l fun g => g.recordSurvey o c)).afterSurvey e l q o := rfl

theorem Dev.HuntStep.afterSurvey {d : Dev} (hrecs : Sparse.wf Rec.vacant d.recs = true) (hslots : Sparse.wf Slot.idle d.slots = true)
    (e : Env) (l : Fin 4) (q : Requesters) (o : SurveyOut) :
    Dev.HuntStep d (d.afterSurvey e l q o) l ∧
      (q.hunt = false → (d.afterSurvey e l q o).recs = d.recs ∧ (d.afterSurvey e l q o).slots = d.slots) := by
  unfold Dev.afterSurvey
  dsimp only
  split
  next hhunt => exact ⟨.huntJudge hrecs hslots l o, fun h => by rw [hhunt] at h; cases h⟩
  next =>
    split
    next => exact ⟨.of_modLeg d l fun _ => ⟨rfl, rfl, rfl⟩, fun _ => ⟨rfl, rfl⟩⟩
    next => exact ⟨.refl d l, fun _ => ⟨rfl, rfl⟩⟩

/-- Settles O44: a survey window ends and is judged. -/
theorem surveyWindowEndsAndJudges : Obligations.SurveyWindowEndsAndJudges := by
  refine ⟨?_, ?_, ?_⟩
  · intro s l lit w o hrun hchan hopen hhunt hslots hend hlit c out g starts
    refine (exec_surveyWindowEnd hrun hchan hopen hend hlit).trans (State.next_dev_congr ?_)
    rw [Dev.surveyDone_eq, hslots]
    change (s.dev.modLeg l fun g => g.recordSurvey out c).afterSurvey s.env l w.reqs out = _
    have hleg := Dev.modLeg_leg_self s.dev l fun g => g.recordSurvey out c
    unfold Dev.afterSurvey
    rw [hhunt, if_neg Bool.false_ne_true]
    dsimp only
    rw [hleg]
    by_cases hstarts : starts
    · refine (if_pos hstarts).trans ?_
      unfold Dev.startHunt
      rw [Dev.modLeg_modLeg]
      refine Dev.modLeg_congr _ _ _ _ ?_
      rw [if_pos hstarts]
      rfl
    · refine (if_neg hstarts).trans ?_
      refine Dev.modLeg_congr _ _ _ _ ?_
      rw [if_neg hstarts]
      rfl
  · intro s l lit n w o hrun hinv hchan hopen hreqs hparts hend hlit c out
    have hempty : ((s.dev.modLeg l fun g => g.recordSurvey out c).slot n).parts.isEmpty = true := List.isEmpty_iff.2 hparts
    have hanswer : s.dev.surveyDone s.env l w.reqs out c =
        (s.dev.modLeg l fun g => g.recordSurvey out c).complete n .ok (.survey l.val out c) := by
      rw [hreqs, Dev.surveyDone_eq]
      exact if_pos hempty
    have hexec : exec (.surveyWindowEnd l lit) s = .next { s with dev := s.dev.surveyDone s.env l w.reqs out c } :=
      exec_surveyWindowEnd hrun hchan hopen hend hlit
    rw [hanswer] at hexec
    refine ⟨_, hexec, ?_, Dev.slotDone_of_slots rfl hinv.good.slots n .ok _, rfl⟩
    rw [Dev.complete_leg, Dev.modLeg_leg_self]
    rfl
  · intro s l lit w o hrun hinv hchan hopen hnodup hend hlit c out owns
    have hexec : exec (.surveyWindowEnd l lit) s = .next { s with dev := s.dev.surveyDone s.env l w.reqs out c } :=
      exec_surveyWindowEnd hrun hchan hopen hend hlit
    rw [Dev.surveyDone_eq] at hexec
    clear_value out c
    have hleg1 := Dev.modLeg_leg_self s.dev l fun g => g.recordSurvey out c
    have hanswered := Dev.answerEnd_foldl_surveyed (d := s.dev.modLeg l fun g => g.recordSurvey out c) hinv.good.slots l out c hnodup
    have hrecs1 : (s.dev.modLeg l fun g => g.recordSurvey out c).recs = s.dev.recs := rfl
    have hslot1 : (s.dev.modLeg l fun g => g.recordSurvey out c).slot = s.dev.slot := rfl
    generalize s.dev.modLeg l (fun g => g.recordSurvey out c) = d1 at *
    generalize w.reqs.slots.foldl (fun y n => y.answerEnd l out c n) d1 = d2 at *
    have hleg2 : d2.leg l = (s.dev.leg l).recordSurvey out c := (congrArg (Legs.get · l) hanswered.legs).trans hleg1
    have hrecs2 : d2.recs = s.dev.recs := hanswered.recs.trans hrecs1
    obtain ⟨hstep, hquiet⟩ := Dev.HuntStep.afterSurvey (d := d2) (by rw [hrecs2]; exact hinv.good.recs) hanswered.wf s.env l w.reqs out
    have hslot3 (n : Nat) (hn : ¬ owns n) : (d2.afterSurvey s.env l w.reqs out).slot n = d2.slot n := by
      cases hhunt : w.reqs.hunt with
      | false => exact congrArg (Sparse.get Slot.idle · n) (hquiet hhunt).2
      | true =>
        refine hstep.slots n fun howner => hn ⟨hhunt, ?_⟩
        rw [hleg2] at howner
        exact howner
    refine ⟨_, hexec, hstep.chan (by rw [hleg2]; rfl), hstep.survey.1.trans (by rw [hleg2]; rfl), hstep.survey.2.trans (by rw [hleg2]; rfl),
      fun hhunt => (hquiet hhunt).1.trans hrecs2, fun n hn => ?_⟩
    intro y ps done
    have hanswer (hmem : n ∈ w.reqs.slots) : (d2.afterSurvey s.env l w.reqs out).slot n = y.surveyed l out c := by
      rw [hslot3 n hn, hanswered.answered n hmem, hslot1]
    have hdone (hmem : n ∈ w.reqs.slots) (h : y.surveyCompletes l out c) : (d2.afterSurvey s.env l w.reqs out).isSet .cmdDone = true :=
      hstep.set _ (hanswered.done n hmem (by rw [hslot1]; exact h))
    refine ⟨fun hmem => ?_, fun hmem hparts => ⟨(hanswer hmem).trans (if_pos hparts), hdone hmem (.inl hparts)⟩,
      fun hmem hparts hall => ⟨(hanswer hmem).trans ((if_neg hparts).trans (if_pos hall)), hdone hmem (.inr hall)⟩,
      fun hmem hparts hall => (hanswer hmem).trans ((if_neg hparts).trans (if_neg (by rw [hall]; exact Bool.false_ne_true)))⟩
    rw [hslot3 n hn, hanswered.others n hmem, hslot1]

end Sys2Proof.Machine
end

section
/-! PROOF (O54). A CONTINUE that is not refused (R13 to R15). -/

namespace Sys2Proof.Machine

/-! ## A record that enters a stage (R9) -/

/-- R9: record r of `d` is in stage `st` in `d'`, with its counts; every other record keeps its plan and the slots stand. -/
structure Dev.Entered (d d' : Dev) (r : Nat) (st : RecState) : Prop where
  others : othersKeep d d' r
  slots : d'.slots = d.slots
  state : (d'.record r).state = st
  stage : (d'.record r).stage = none
  fault : (d'.record r).fault = .none
  attempts : (d'.record r).attempts = 0
  rehails : (d'.record r).rehails = (d.record r).rehails
  assignSent : (d'.record r).assignSent = (d.record r).assignSent

/-- R120: record r is HALTED with NO_SLOTS. -/
structure Dev.NoSlots (d d' : Dev) (r : Nat) (free : Nat) : Prop where
  others : othersKeep d d' r
  slots : d'.slots = d.slots
  state : (d'.record r).state = .halted
  fault : (d'.record r).fault = .noSlots
  stage : (d'.record r).stage = some .granting
  count : (d'.record r).freeCount = free
  set : d'.isSet .recHalted = true
  attempts : (d'.record r).attempts = 0
  rehails : (d'.record r).rehails = (d.record r).rehails
  assignSent : (d'.record r).assignSent = (d.record r).assignSent

section
variable {d d1 : Dev} {r : Nat}

/-- R46: the offer of the stage's directive leaves a record that entered its stage there. -/
theorem Dev.offerWork_entered (hrecs : Sparse.wf Rec.vacant d1.recs = true) (hothers : othersKeep d d1 r) (hslots : d1.slots = d.slots)
    {y : Rec} (hself : d1.record r = y) {st : RecState} (hstate : y.state = st) (hstage : y.stage = none) (hfault : y.fault = .none)
    (hattempts : y.attempts = 0) (hrehails : y.rehails = (d.record r).rehails) (hsent : y.assignSent = (d.record r).assignSent) :
    Dev.Entered d (d1.offerWork r) r st := by
  obtain ⟨-, -, -, hall, hkept⟩ := Dev.offerWork_rules hrecs r
  have hoffer := hall r
  rw [hself] at hoffer
  refine ⟨fun q hq => (congrArg Rec.plan (hkept q hq)).trans (hothers q hq), (Dev.keepsSlots.offerWork d1 r).1.trans hslots, ?_, ?_, ?_, ?_, ?_, ?_⟩
  all_goals rw [hoffer]
  · exact hstate
  · exact hstage
  · exact hfault
  · exact hattempts
  · exact hrehails
  · exact hsent

theorem Dev.putRec_othersKeep (d : Dev) (r : Nat) (y : Rec) : othersKeep d (d.putRec r y) r :=
  fun q hq => congrArg Rec.plan (Dev.putRec_record_ne d r q y hq)

theorem Dev.pinRequest_slots (d : Dev) (r : Nat) : (d.pinRequest r).slots = d.slots := by
  unfold Dev.pinRequest
  dsimp only
  split
  next => rfl
  next => split <;> rfl

variable (hrecs : Sparse.wf Rec.vacant d.recs = true)
include hrecs

theorem Dev.enterStage_entered (hpins : Sparse.wf Pin.free d.pins = true) (e : Env) {st : RecState}
    (hst : st = .probing ∨ st = .assigning ∨ st = .ranging ∨ st = .equalising ∨ st = .loading) :
    Dev.Entered d (d.enterStage e r st) r st := by
  have hput (y : Rec) (hstate : y.state = st) (hstage : y.stage = none) (hfault : y.fault = .none) (hattempts : y.attempts = 0)
      (hrehails : y.rehails = (d.record r).rehails) (hsent : y.assignSent = (d.record r).assignSent) :
      Dev.Entered d ((d.putRec r y).offerWork r) r st :=
    Dev.offerWork_entered (Dev.putRec_recs_wf d r y hrecs) (Dev.putRec_othersKeep d r y) rfl (Dev.putRec_record_self d r y hrecs) hstate hstage
      hfault hattempts hrehails hsent
  obtain rfl | rfl | rfl | rfl | rfl := hst
  · exact hput _ rfl rfl rfl rfl rfl rfl
  · exact hput _ rfl rfl rfl rfl rfl rfl
  · exact hput _ rfl rfl rfl rfl rfl rfl
  · exact hput _ rfl rfl rfl rfl rfl rfl
  · rw [Dev.enterStage_loading]
    obtain ⟨hwf, -, hothers, hpin⟩ := Dev.pinRequest_rules (d := d.putRec r (d.record r).enteringLoading)
      (Dev.putRec_recs_wf d r _ hrecs) hpins r
    have hslots := Dev.pinRequest_slots (d.putRec r (d.record r).enteringLoading) r
    rw [Dev.putRec_record_self d r _ hrecs] at hpin
    have hkept : othersKeep d ((d.putRec r (d.record r).enteringLoading).pinRequest r) r := fun q hq =>
      (congrArg Rec.plan (hothers q hq)).trans (Dev.putRec_othersKeep d r _ q hq)
    obtain hwait | ⟨k, hjoined, -, -⟩ := hpin
    · exact Dev.offerWork_entered hwf hkept hslots hwait rfl rfl rfl rfl rfl rfl
    · exact Dev.offerWork_entered hwf hkept hslots hjoined rfl rfl rfl rfl rfl rfl

/-- R118 to R120: GRANTING with the slots it needs, or HALTED with NO_SLOTS. -/
theorem Dev.enterStage_granting_rules (e : Env) {l : Fin 4} (hleg : (d.record r).enrol.leg = l) :
    let free := (d.leg l).freeSlots
    let d' := d.enterStage e r .granting
    ((d.record r).enrol.demand ≤ free.length → Dev.Entered d d' r .granting) ∧
      (free.length < (d.record r).enrol.demand → Dev.NoSlots d d' r free.length) := by
  have hwf := Dev.putRec_recs_wf d r ((d.record r).entering .granting) hrecs
  have hself : (d.putRec r ((d.record r).entering .granting)).record r = (d.record r).entering .granting := Dev.putRec_record_self d r _ hrecs
  have hkept := Dev.putRec_othersKeep d r ((d.record r).entering .granting)
  have hslots : (d.putRec r ((d.record r).entering .granting)).slots = d.slots := rfl
  have hlegs : (d.putRec r ((d.record r).entering .granting)).leg l = d.leg l := rfl
  have hallocate : d.enterStage e r .granting = (d.putRec r ((d.record r).entering .granting)).allocate r := rfl
  rw [hallocate]
  generalize d.putRec r ((d.record r).entering .granting) = d1 at *
  rw [Dev.allocate_eq d1 r (l := l) (n := (d.record r).enrol.demand) (free := (d.leg l).freeSlots) (by rw [hself]; exact hleg)
    (by rw [hself]; rfl) (by rw [hlegs])]
  generalize (d.leg l).freeSlots = free
  generalize (d.record r).enrol.demand = n
  refine ⟨fun henough => ?_, fun hshort => ?_⟩
  · rw [if_pos henough]
    exact Dev.offerWork_entered (d1 := (d1.modLeg l fun g => g.takeSlots (free.take n)).modRec r fun y => y.granted (free.take n) (free.length - n))
      (Dev.modRec_recs_wf (d1.modLeg l _) r _ hwf)
      (fun q hq => (congrArg Rec.plan (Dev.modRec_record_ne (d1.modLeg l _) r q _ hq)).trans (hkept q hq)) hslots
      (Dev.modRec_record_self (d1.modLeg l _) r _ hwf) (by rw [Dev.modLeg_record, hself]; rfl) (by rw [Dev.modLeg_record, hself]; rfl)
      (by rw [Dev.modLeg_record, hself]; rfl) (by rw [Dev.modLeg_record, hself]; rfl) (by rw [Dev.modLeg_record, hself]; rfl)
      (by rw [Dev.modLeg_record, hself]; rfl)
  · rw [if_neg (Nat.not_le.2 hshort)]
    have hrecord : (d1.modRec r fun y => { y with freeCount := free.length }).record r =
        { (d.record r).entering .granting with freeCount := free.length } := by rw [Dev.modRec_record_self d1 r _ hwf, hself]
    have hwf2 := Dev.modRec_recs_wf d1 r (fun y => { y with freeCount := free.length }) hwf
    have hkept2 : othersKeep d (d1.modRec r fun y => { y with freeCount := free.length }) r := fun q hq =>
      (congrArg Rec.plan (Dev.modRec_record_ne d1 r q _ hq)).trans (hkept q hq)
    have hslots2 : (d1.modRec r fun y => { y with freeCount := free.length }).slots = d.slots := hslots
    generalize d1.modRec r (fun y => { y with freeCount := free.length }) = d2 at *
    obtain ⟨⟨hplan, hset⟩, -, hothers, -, -⟩ := Dev.halt_spec hwf2 r .noSlots .granting (by rw [hrecord]; rfl)
    have hsame := Dev.keepsSlots.haltWith_slots d2 r .noSlots (some (d2.record r).state)
    rw [← Dev.halt] at hsame
    generalize d2.halt r .noSlots = d3 at *
    rw [hrecord] at hplan
    have hstate := congrArg Rec.state hplan
    have hfault := congrArg Rec.fault hplan
    have hstage := congrArg Rec.stage hplan
    have hcount := congrArg Rec.freeCount hplan
    have hattempts := congrArg Rec.attempts hplan
    have hrehails := congrArg Rec.rehails hplan
    have hsent := congrArg Rec.assignSent hplan
    exact ⟨fun q hq => (hothers q hq).trans (hkept2 q hq), hsame.trans hslots2, hstate, hfault, hstage, hcount, hset, hattempts, hrehails, hsent⟩

end

/-! ## CONTINUE goes on (R13 to R15) -/

/-- R7, R120: record r is in state `st`, or GRANTING has halted it with NO_SLOTS. -/
def Dev.goneOn (d d' : Dev) (r : Nat) (st : RecState) : Prop :=
  let x := d.record r
  let free := (d.leg x.enrol.leg).freeSlots
  if st = .granting ∧ free.length < x.enrol.demand then
    (d'.record r).state = .halted ∧ (d'.record r).fault = .noSlots ∧ (d'.record r).stage = some .granting ∧
      (d'.record r).freeCount = free.length ∧ d'.isSet .recHalted = true
  else (d'.record r).state = st ∧ (d'.record r).stage = none ∧ (d'.record r).fault = .none

/-- R9: what entering a stage does to the record, the other records and the slots. -/
theorem Dev.enterStage_goneOn {d : Dev} {r : Nat} (hrecs : Sparse.wf Rec.vacant d.recs = true) (hpins : Sparse.wf Pin.free d.pins = true)
    (e : Env) {st : RecState} (hst : st = .probing ∨ st = .assigning ∨ st = .ranging ∨ st = .equalising ∨ st = .loading ∨ st = .granting) :
    let d' := d.enterStage e r st
    d.goneOn d' r st ∧ othersKeep d d' r ∧ d'.slots = d.slots ∧ (d'.record r).attempts = 0 ∧
      (d'.record r).rehails = (d.record r).rehails ∧ (d'.record r).assignSent = (d.record r).assignSent := by
  have hentered (hnot : ¬ (st = .granting ∧ (d.leg (d.record r).enrol.leg).freeSlots.length < (d.record r).enrol.demand))
      (h : Dev.Entered d (d.enterStage e r st) r st) : d.goneOn (d.enterStage e r st) r st ∧ othersKeep d (d.enterStage e r st) r ∧
        (d.enterStage e r st).slots = d.slots ∧ ((d.enterStage e r st).record r).attempts = 0 ∧
        ((d.enterStage e r st).record r).rehails = (d.record r).rehails ∧
        ((d.enterStage e r st).record r).assignSent = (d.record r).assignSent := by
    refine ⟨?_, h.others, h.slots, h.attempts, h.rehails, h.assignSent⟩
    unfold Dev.goneOn
    dsimp only
    rw [if_neg hnot]
    exact ⟨h.state, h.stage, h.fault⟩
  by_cases hgranting : st = .granting
  · subst hgranting
    obtain ⟨henough, hshort⟩ := Dev.enterStage_granting_rules hrecs e (r := r) rfl
    by_cases hfree : (d.leg (d.record r).enrol.leg).freeSlots.length < (d.record r).enrol.demand
    · have h := hshort hfree
      refine ⟨?_, h.others, h.slots, h.attempts, h.rehails, h.assignSent⟩
      unfold Dev.goneOn
      dsimp only
      rw [if_pos ⟨rfl, hfree⟩]
      exact ⟨h.state, h.fault, h.stage, h.count, h.set⟩
    · exact hentered (fun h => hfree h.2) (henough (Nat.not_lt.1 hfree))
  · refine hentered (fun h => hgranting h.1) (Dev.enterStage_entered hrecs hpins e ?_)
    tauto

/-- R7, R15: what a record's move does to it, the other records and the slots. -/
theorem Dev.moveTo_goneOn {d : Dev} {r : Nat} (hrecs : Sparse.wf Rec.vacant d.recs = true) (hpins : Sparse.wf Pin.free d.pins = true)
    (e : Env) {st : RecState} (hst : st = .ranging ∨ st = .loading ∨ st = .active ∨ st = .granting) :
    let d' := d.moveTo e r st
    d.goneOn d' r st ∧ othersKeep d d' r ∧ d'.slots = d.slots := by
  by_cases hactive : st = .active
  · subst hactive
    obtain ⟨hself, hothers, -, -⟩ := Dev.enterActive_rules hrecs r
    have hmove : d.moveTo e r .active = d.enterActive r := rfl
    rw [hmove]
    refine ⟨?_, fun q hq => congrArg Rec.plan (hothers q hq), rfl⟩
    unfold Dev.goneOn
    dsimp only
    rw [if_neg (by nofun), hself]
    exact ⟨rfl, rfl, rfl⟩
  · rw [Dev.moveTo, if_neg hactive]
    obtain ⟨hgone, hothers, hslots, -⟩ := Dev.enterStage_goneOn (r := r) hrecs hpins e (st := st) (by tauto)
    exact ⟨hgone, hothers, hslots⟩

/-- R13, R14: the rehail count is zeroed after FLAPPING. -/
def Dev.afterFlapping (d : Dev) (r : Nat) (f : FaultCode) : Dev :=
  d.modRec r fun y => { y with rehails := if f = .flapping then 0 else y.rehails }

theorem Dev.continueOn_halted {d : Dev} {e : Env} {r : Nat} (h : (d.record r).state = .halted) :
    d.continueOn e r = (d.afterFlapping r (d.record r).fault).enterStage e r (d.record r).continueTarget := if_pos h

theorem Dev.continueOn_held {d : Dev} {e : Env} {r : Nat} (h : (d.record r).state = .held) :
    d.continueOn e r = d.moveTo e r (d.record r).heldTarget := if_neg (by rw [h]; nofun)

/-- R15: the state a HELD record goes on to. -/
theorem Rec.heldTarget_eq {x : Rec} {st : RecState}
    (h : (x.stage = some .assigning ∧ st = .ranging) ∨
     (x.stage = some .equalising ∧ st = (if x.enrol.noProfile = false then .loading else if x.enrol.demand = 0 then .active else .granting)) ∨
     (x.stage = some .loading ∧ st = (if x.enrol.demand = 0 then .active else .granting))) :
    x.heldTarget = st ∧ (st = .ranging ∨ st = .loading ∨ st = .active ∨ st = .granting) := by
  obtain ⟨hstage, rfl⟩ | ⟨hstage, rfl⟩ | ⟨hstage, rfl⟩ := h
  · rw [Rec.heldTarget, hstage]
    exact ⟨rfl, .inl rfl⟩
  · rw [Rec.heldTarget, hstage]
    dsimp only [Enrolment.afterEqualising]
    cases x.enrol.noProfile with
    | false => exact ⟨rfl, .inr (.inl rfl)⟩
    | true =>
      by_cases hdemand : x.enrol.demand = 0 <;> simp [hdemand]
  · rw [Rec.heldTarget, hstage]
    dsimp only [Enrolment.afterLoading]
    refine ⟨rfl, ?_⟩
    by_cases hdemand : x.enrol.demand = 0 <;> simp [hdemand]

/-- R13, R14: the stage a HALTED record enters. -/
theorem Rec.continueTarget_eq {x : Rec} {st : RecState}
    (h : (x.fault = .flapping ∧ st = .probing) ∨
     (x.fault ≠ .flapping ∧ (x.stage = some .probing ∨ x.stage = some .assigning) ∧ x.stage = some st) ∨
     (x.fault ≠ .flapping ∧ (x.stage = some .ranging ∨ x.stage = some .equalising ∨ x.stage = some .loading ∨ x.stage = some .granting) ∧
        (if x.addressed then x.stage = some st else st = .probing))) :
    x.continueTarget = st ∧ (st = .probing ∨ st = .assigning ∨ st = .ranging ∨ st = .equalising ∨ st = .loading ∨ st = .granting) := by
  unfold Rec.continueTarget
  obtain ⟨hfault, rfl⟩ | ⟨hfault, hstage, hsame⟩ | ⟨hfault, hstage, htarget⟩ := h
  · exact ⟨if_pos hfault, .inl rfl⟩
  · rw [if_neg hfault]
    obtain h | h := hstage
    · rw [h] at hsame ⊢
      cases hsame
      exact ⟨rfl, .inl rfl⟩
    · rw [h] at hsame ⊢
      cases hsame
      exact ⟨rfl, .inr (.inl rfl)⟩
  · rw [if_neg hfault]
    cases haddressed : x.addressed with
    | false =>
      rw [haddressed, if_neg Bool.false_ne_true] at htarget
      subst htarget
      obtain h | h | h | h := hstage <;> rw [h] <;> exact ⟨rfl, .inl rfl⟩
    | true =>
      rw [haddressed, if_pos rfl] at htarget
      rw [htarget] at hstage ⊢
      obtain ⟨⟨⟩⟩ | ⟨⟨⟩⟩ | ⟨⟨⟩⟩ | ⟨⟨⟩⟩ := hstage
      · exact ⟨rfl, by simp⟩
      · exact ⟨rfl, by simp⟩
      · exact ⟨rfl, by simp⟩
      · exact ⟨rfl, by simp⟩

/-- R14, R15: a CONTINUE that is not refused. -/
theorem exec_continue_goesOn {s : State} {n r : Nat} {rest : List Nat} {ps : List Word} (h : s.examines .continueRecord n rest ps)
    (hr : paramNat ps 1 = r) (hlt : r < 256) (hstate : (s.dev.record r).state = .held ∨ (s.dev.record r).state = .halted)
    (hrogue : ¬ ((s.dev.record r).state = .halted ∧ (s.dev.record r).fault = .rogue))
    (hfault : (s.dev.leg (s.dev.record r).enrol.leg).st ≠ .faulted) :
    exec .continueRecord s = .next { s with
      dev := ((s.dev.takeFront rest).continueOn s.env r).complete n .ok (((s.dev.takeFront rest).continueOn s.env r).recordDetail r) } := by
  have hright : ¬ (((s.dev.record r).state ≠ .held ∧ (s.dev.record r).state ≠ .halted) ∨
      ((s.dev.record r).state = .halted ∧ (s.dev.record r).fault = .rogue)) :=
    not_or.2 ⟨fun hnot => hstate.elim hnot.1 hnot.2, hrogue⟩
  have hrefusal : (s.dev.takeFront rest).continueRefusal r = none :=
    (Dev.continueRefusal_right (d := s.dev.takeFront rest) hright).trans (if_neg hfault)
  rw [exec_continue_examines h hr hlt, Dev.continueRecord, hrefusal]

/-- R120: the halt of GRANTING stands once the command completes. -/
theorem Dev.goneOn.complete {d d' : Dev} {r : Nat} {st : RecState} (h : d.goneOn d' r st) (n : Nat) (x : Detail) :
    d.goneOn (d'.complete n .ok x) r st := by
  unfold Dev.goneOn at h ⊢
  dsimp only at h ⊢
  split
  next hshort =>
    rw [if_pos hshort] at h
    obtain ⟨hstate, hfault, hstage, hcount, hset⟩ := h
    exact ⟨hstate, hfault, hstage, hcount, Dev.latch_isSet_mono (d'.modSlot n _) .cmdDone hset⟩
  next hnot =>
    rw [if_neg hnot] at h
    exact h

/-- R15: the detail names the state the record is in. -/
theorem Dev.goneOn.detail {d d' : Dev} {r : Nat} {st : RecState} (h : d.goneOn d' r st) :
    if st = .granting ∧ (d.leg (d.record r).enrol.leg).freeSlots.length < (d.record r).enrol.demand then
      (d'.recordDetail r).b = RecState.halted.code else (d'.recordDetail r).b = st.code := by
  unfold Dev.goneOn at h
  dsimp only at h
  split
  next hshort =>
    rw [if_pos hshort] at h
    exact congrArg RecState.code h.1
  next hnot =>
    rw [if_neg hnot] at h
    exact congrArg RecState.code h.1

theorem ite_and_iff {p : Prop} [Decidable p] {a b a' b' : Prop} (h : if p then a else b) (h' : if p then a' else b') :
    if p then a ∧ a' else b ∧ b' := by
  split at h
  next hp => rw [if_pos hp] at h' ⊢; exact ⟨h, h'⟩
  next hp => rw [if_neg hp] at h' ⊢; exact ⟨h, h'⟩

theorem ite_mono {p : Prop} [Decidable p] {a b a' b' : Prop} (h : if p then a else b) (ha : a → a') (hb : b → b') :
    if p then a' else b' := by
  split at h
  next hp => rw [if_pos hp]; exact ha h
  next hp => rw [if_neg hp]; exact hb h

/-- Settles O54: a record that is HELD or HALTED goes on. -/
theorem continueEntersTheNextState : Obligations.ContinueEntersTheNextState := by
  unfold Obligations.ContinueEntersTheNextState
  intro noSlots
  refine ⟨?_, ?_⟩
  · intro s n r rest ps st h hinv hr hlt x hheld hfault hst
    obtain ⟨htarget, hstates⟩ := Rec.heldTarget_eq hst
    have hexec := exec_continue_goesOn h hr hlt (.inl hheld) (fun hhalted => by rw [hheld] at hhalted; cases hhalted.1) hfault
    rw [Dev.continueOn_held (d := s.dev.takeFront rest) hheld, Dev.takeFront_record, htarget] at hexec
    obtain ⟨hgone, hothers, hslots⟩ := Dev.moveTo_goneOn (d := s.dev.takeFront rest) (r := r) hinv.good.recs hinv.good.pins s.env hstates
    generalize (s.dev.takeFront rest).moveTo s.env r st = d1 at *
    obtain ⟨hdone, -, -⟩ := Dev.complete_slotDone (d := d1) (by rw [hslots]; exact hinv.good.slots) n .ok (d1.recordDetail r)
    refine ⟨_, _, hexec, hothers, ?_, congrArg Slot.st hdone, congrArg Slot.result hdone, congrArg Slot.detail hdone, rfl⟩
    exact ite_mono (ite_and_iff (hgone.complete n (d1.recordDetail r)) hgone.detail) (fun hh => hh)
      fun ⟨⟨hstate, hstage, hfault⟩, hdetail⟩ => ⟨hstate, hstage, hfault, hdetail⟩
  · intro s n r rest ps st h hinv hr hlt x hhalted hrogue hfault hst
    obtain ⟨htarget, hstates⟩ := Rec.continueTarget_eq hst
    have hexec := exec_continue_goesOn h hr hlt (.inr hhalted) (fun hh => hrogue hh.2) hfault
    rw [Dev.continueOn_halted (d := s.dev.takeFront rest) hhalted, Dev.takeFront_record, htarget] at hexec
    have hself : ((s.dev.takeFront rest).afterFlapping r x.fault).record r =
        { x with rehails := if x.fault = .flapping then 0 else x.rehails } := Dev.modRec_record_self (s.dev.takeFront rest) r _ hinv.good.recs
    have hkept : othersKeep s.dev ((s.dev.takeFront rest).afterFlapping r x.fault) r :=
      fun q hq => congrArg Rec.plan (Dev.modRec_record_ne (s.dev.takeFront rest) r q _ hq)
    have hrecs : Sparse.wf Rec.vacant ((s.dev.takeFront rest).afterFlapping r x.fault).recs = true :=
      Dev.modRec_recs_wf (s.dev.takeFront rest) r _ hinv.good.recs
    have hpins : Sparse.wf Pin.free ((s.dev.takeFront rest).afterFlapping r x.fault).pins = true := hinv.good.pins
    have hslots : ((s.dev.takeFront rest).afterFlapping r x.fault).slots = s.dev.slots := rfl
    have hlegs : ((s.dev.takeFront rest).afterFlapping r x.fault).leg = s.dev.leg := rfl
    change exec .continueRecord s = .next { s with
      dev := (((s.dev.takeFront rest).afterFlapping r x.fault).enterStage s.env r st).complete n .ok _ } at hexec
    generalize (s.dev.takeFront rest).afterFlapping r x.fault = d1 at *
    obtain ⟨hgone, hothers, hslots2, hattempts, hrehails, hsent⟩ := Dev.enterStage_goneOn (r := r) hrecs hpins s.env hstates
    obtain ⟨hdone, -, -⟩ := Dev.complete_slotDone (d := d1.enterStage s.env r st) (by rw [hslots2, hslots]; exact hinv.good.slots) n .ok
      ((d1.enterStage s.env r st).recordDetail r)
    have hgone2 := hgone.complete n ((d1.enterStage s.env r st).recordDetail r)
    unfold Dev.goneOn at hgone2
    rw [hself, hlegs] at hgone2
    rw [hself] at hrehails hsent
    exact ⟨_, hexec, hgone2, hattempts, hrehails, hsent, fun q hq => (hothers q hq).trans (hkept q hq), congrArg Slot.st hdone,
      congrArg Slot.result hdone⟩

end Sys2Proof.Machine
end

section
/-! PROOF (O52). WITHDRAW (R17, R142): the record's resources are dropped, its DISMISS is queued, and a candidate leaves its hunt. -/

namespace Sys2Proof.Machine

/-! ## The channels (R42) -/

/-- Every channel stands as it was. -/
def Dev.keepsChans (d d' : Dev) : Prop := ∀ k, (d'.leg k).chan = (d.leg k).chan

namespace Dev.keepsChans

theorem refl (d : Dev) : d.keepsChans d := fun _ => rfl

theorem trans {d d' d'' : Dev} (h : d.keepsChans d') (h' : d'.keepsChans d'') : d.keepsChans d'' := fun k => (h' k).trans (h k)

theorem of_legs {d d' : Dev} (h : d'.legs = d.legs) : d.keepsChans d' := fun k => congrArg (fun y : Legs => (y.get k).chan) h

theorem modLeg (d : Dev) (l : Fin 4) {f : Leg → Leg} (hf : ∀ g : Leg, (f g).chan = g.chan) : d.keepsChans (d.modLeg l f) := fun k => by
  rw [Dev.modLeg_leg]
  split
  next hk => rw [hf, hk]
  next => rfl

/-- A change of one leg that keeps its channel, and then `h`. -/
theorem of_modLeg {d d' : Dev} {l : Fin 4} {f : Leg → Leg} (h : (d.modLeg l f).keepsChans d') (hf : ∀ g : Leg, (f g).chan = g.chan) :
    d.keepsChans d' := (modLeg d l hf).trans h

theorem modLeg_modRec (d : Dev) (l : Fin 4) (r : Nat) {f : Leg → Leg} {f' : Rec → Rec} (hf : ∀ g : Leg, (f g).chan = g.chan) :
    d.keepsChans ((d.modLeg l f).modRec r f') := modLeg d l hf

theorem foldl {α : Type} {f : Dev → α → Dev} (hf : ∀ (d : Dev) (x : α), d.keepsChans (f d x)) (xs : List α) (d : Dev) :
    d.keepsChans (xs.foldl f d) := by
  induction xs generalizing d with
  | nil => exact refl d
  | cons x xs ih => exact (hf d x).trans (ih (f d x))

theorem fillQueue (d : Dev) (l : Fin 4) : d.keepsChans (d.fillQueue l) := by
  rw [Dev.fillQueue_eq]
  exact of_modLeg (foldl (f := Dev.clearWaiting) (fun _ _ => of_legs rfl) _ _) fun _ => rfl

theorem waitBack (d : Dev) (l : Fin 4) (r : Nat) (dir : Directive) : d.keepsChans (d.waitBack l r dir) :=
  modLeg_modRec d l _ fun _ => rfl

theorem offerStage (d : Dev) (l : Fin 4) (r : Nat) (dir : Directive) : d.keepsChans (d.offerStage l r dir) := by
  unfold Dev.offerStage
  split
  next => exact modLeg d l fun _ => rfl
  next => exact waitBack d l r dir

theorem offerWork (d : Dev) (r : Nat) : d.keepsChans (d.offerWork r) := by
  unfold Dev.offerWork
  dsimp only
  split
  next =>
    split
    next => exact refl d
    next => exact offerStage d _ r _
  next => exact refl d

theorem servePin (d : Dev) (i r : Nat) (rest : List Nat) : d.keepsChans (d.servePin i r rest) := by
  rw [Dev.servePin_eq]
  have hopen : d.keepsChans (({ d with pinWait := rest.filter fun q => !d.sameRange r q } : Dev).openFree i (d.record r).enrol) := of_legs rfl
  exact (hopen.trans (foldl (f := fun y q => y.joinPin i q) (fun _ _ => of_legs rfl) _ _)).trans (foldl offerWork _ _)

theorem servePins (d : Dev) (n : Nat) : d.keepsChans (d.servePins n) := by
  induction n generalizing d with
  | zero => exact refl d
  | succ n ih =>
    unfold Dev.servePins
    split
    next => exact (servePin d _ _ _).trans (ih _)
    next => exact refl d
    next => exact refl d

theorem pinRelease (d : Dev) (r : Nat) : d.keepsChans (d.pinRelease r) := by
  unfold Dev.pinRelease Dev.dropPinUse
  dsimp only
  split
  next => exact of_legs rfl
  next =>
    split
    next =>
      split
      next => exact trans (d' := (d.modRec r _).putPin _ .free) (of_legs rfl) (servePins _ _)
      next => exact of_legs rfl
    next => exact refl d

theorem slotRelease (d : Dev) (r : Nat) : d.keepsChans (d.slotRelease r) := by
  unfold Dev.slotRelease
  dsimp only
  split
  next => exact modLeg_modRec d _ r fun _ => rfl
  next => exact refl d

theorem unqueue (d : Dev) (l : Fin 4) (r : Nat) : d.keepsChans (d.unqueue l r) := by
  unfold Dev.unqueue
  split
  next => exact of_modLeg (fillQueue _ l) fun _ => rfl
  next =>
    split
    next => exact modLeg_modRec d l _ fun _ => rfl
    next => exact refl d

theorem evicted (d : Dev) (l : Fin 4) (e : Entry) : d.keepsChans (d.evicted l e) := by
  unfold Dev.evicted
  split
  next => exact of_legs rfl
  next => exact refl d
  next => exact modLeg_modRec d l _ fun _ => rfl
  next => exact refl d

theorem offerUrgentRecord (d : Dev) (l : Fin 4) (r : Nat) (dir : Directive) : d.keepsChans (d.offerUrgentRecord l r dir) := by
  have hurgent : d.keepsChans (d.offerUrgent l dir (.record r)).1 := by
    unfold Dev.offerUrgent
    split
    next => exact modLeg d l fun _ => rfl
    next =>
      split
      next e q _ => exact of_modLeg (evicted _ l e) fun _ => rfl
      next => exact refl d
  unfold Dev.offerUrgentRecord
  dsimp only
  split
  next => exact hurgent
  next => exact waitBack d l r dir

end Dev.keepsChans

/-! ## A directive that is abandoned (R52) -/

/-- R114: the end of a fetch touches the burst and the request list. -/
theorem Dev.endFetch_eq (d : Dev) (l : Fin 4) : ∃ b q, d.endFetch l = { d with burst := b, requests := q } := by
  unfold Dev.endFetch Dev.withdrawLoad
  split
  next => split <;> exact ⟨_, _, rfl⟩
  next => exact ⟨_, _, rfl⟩
  next =>
    split
    next => split <;> exact ⟨_, _, rfl⟩
    next => exact ⟨_, _, rfl⟩
  next =>
    split
    next => split <;> exact ⟨_, _, rfl⟩
    next => exact ⟨_, _, rfl⟩

theorem Dev.cancelFetch_rest (d : Dev) (l : Fin 4) : (d.cancelFetch l).legs = d.legs ∧ (d.cancelFetch l).pinWait = d.pinWait := by
  obtain ⟨b, q, hend⟩ := d.endFetch_eq l
  unfold Dev.cancelFetch
  rw [hend]
  exact ⟨rfl, rfl⟩

theorem Dev.unmuteEnded_rest (d : Dev) (x : InFlight) : (d.unmuteEnded x).legs = d.legs ∧ (d.unmuteEnded x).pinWait = d.pinWait := by
  unfold Dev.unmuteEnded
  split
  next => exact ⟨rfl, rfl⟩
  next => exact ⟨rfl, rfl⟩
  next => exact ⟨rfl, rfl⟩

theorem Dev.abandon_eq {d : Dev} {l : Fin 4} {x : InFlight} (h : (d.leg l).inFlight = some x) :
    d.abandon l = ((d.modLeg l fun g => { g with chan := .free }).cancelFetch l).unmuteEnded x := by
  unfold Dev.abandon
  rw [h]

/-- R52: an abandoned directive frees its channel, and no leg changes otherwise. -/
theorem Dev.abandon_legs {d : Dev} {l : Fin 4} {x : InFlight} (h : (d.leg l).inFlight = some x) :
    (d.abandon l).legs = (d.modLeg l fun g => { g with chan := .free }).legs := by
  rw [Dev.abandon_eq h, (Dev.unmuteEnded_rest _ x).1, (Dev.cancelFetch_rest _ l).1]

theorem Dev.abandon_pinWait {d : Dev} {l : Fin 4} {x : InFlight} (h : (d.leg l).inFlight = some x) : (d.abandon l).pinWait = d.pinWait := by
  rw [Dev.abandon_eq h, (Dev.unmuteEnded_rest _ x).2, (Dev.cancelFetch_rest _ l).2, Dev.modLeg_pinWait]

/-- R4: the MUTED flag of a record once a directive `x` has ended. -/
theorem Dev.unmuteEnded_muted {d : Dev} (hrecs : Sparse.wf Rec.vacant d.recs = true) (x : InFlight) (r : Nat) :
    ((d.unmuteEnded x).record r).muted =
      ((d.record r).muted && !(decide (x.dir.body = .unmute) && (decide (x.origin = .record r) || decide (x.origin = .hunt r)))) := by
  have hclear (q : Nat) : ((d.clearMuted q).record r).muted = ((d.record r).muted && !decide (q = r)) := by
    rw [Dev.clearMuted]
    by_cases hq : r = q
    · subst hq
      rw [Dev.modRec_record_self d r _ hrecs]
      simp
    · rw [Dev.modRec_record_ne d q r _ hq]
      simp [Ne.symm hq]
  unfold Dev.unmuteEnded
  split
  next q hbody horigin => rw [hclear, hbody, horigin]; simp
  next q hbody horigin => rw [hclear, hbody, horigin]; simp
  next hrecord hhunt =>
    by_cases hbody : x.dir.body = .unmute
    · have h1 : x.origin ≠ .record r := hrecord r hbody
      have h2 : x.origin ≠ .hunt r := hhunt r hbody
      simp [h1, h2]
    · simp [hbody]

theorem Dev.abandon_muted {d : Dev} (hrecs : Sparse.wf Rec.vacant d.recs = true) {l : Fin 4} {x : InFlight} (h : (d.leg l).inFlight = some x)
    (r : Nat) : ((d.abandon l).record r).muted =
      ((d.record r).muted && !(decide (x.dir.body = .unmute) && (decide (x.origin = .record r) || decide (x.origin = .hunt r)))) := by
  have hsame : ((d.modLeg l fun g => { g with chan := .free }).cancelFetch l).record r = d.record r := Dev.cancelFetch_record (d.modLeg l _) l r
  rw [Dev.abandon_eq h, Dev.unmuteEnded_muted (Dev.Frame.cancelFetch (d := d.modLeg l _) hrecs l).recs, hsame]

/-! ## The resources of a record are dropped (R12) -/

theorem Leg.hasFlight_congr {g g' : Leg} (h : g'.chan = g.chan) (r : Nat) : g'.hasFlight r = g.hasFlight r := by
  unfold Leg.hasFlight Leg.inFlight
  rw [h]

theorem Leg.inFlight_eq_some_iff {g : Leg} {x : InFlight} : g.inFlight = some x ↔ g.chan = .directive x := by
  unfold Leg.inFlight
  cases g.chan <;> simp

theorem Dev.clearWaiting_record {d : Dev} (hrecs : Sparse.wf Rec.vacant d.recs = true) (r q : Nat) :
    ∃ w, (d.clearWaiting r).record q = { d.record q with waiting := w } := by
  have h := Dev.foldl_clearWaiting_record [r] hrecs q
  exact ⟨_, h⟩

/-- R48, R49: as a record leaves the queue, WAITING flags are all that changes of the records. -/
theorem Dev.unqueue_record {d : Dev} (hrecs : Sparse.wf Rec.vacant d.recs = true) (l : Fin 4) (r q : Nat) :
    ∃ w, (d.unqueue l r).record q = { d.record q with waiting := w } := by
  unfold Dev.unqueue
  split
  next =>
    rw [Dev.fillQueue_eq, Dev.foldl_clearWaiting_record _ (d := (d.modLeg l _).modLeg l _) hrecs]
    exact ⟨_, rfl⟩
  next =>
    split
    next => exact Dev.clearWaiting_record (d := d.modLeg l _) hrecs r q
    next => exact ⟨_, rfl⟩

/-- R12: the device after the first two steps of a drop. -/
def Dev.unplaced (d : Dev) (r : Nat) : Dev :=
  (d.unqueue (d.record r).enrol.leg r).abandonOf (d.record r).enrol.leg r

theorem Dev.drop_eq (d : Dev) (r : Nat) :
    d.drop r = (((d.unplaced r).pinRelease r).slotRelease r).modRec r fun x => { x with ranging := none, held := none } := rfl

theorem Dev.unplaced_recs_wf {d : Dev} (hrecs : Sparse.wf Rec.vacant d.recs = true) (r : Nat) :
    Sparse.wf Rec.vacant (d.unplaced r).recs = true := by
  have hunqueue := (Dev.Frame.unqueue hrecs (d.record r).enrol.leg r).recs
  unfold Dev.unplaced Dev.abandonOf
  split
  next => exact (Dev.Frame.abandon hunqueue _).recs
  next => exact hunqueue

theorem Dev.drop_keepsChans (d : Dev) (r : Nat) : (d.unplaced r).keepsChans (d.drop r) := by
  have hrelease := (Dev.keepsChans.pinRelease (d.unplaced r) r).trans (Dev.keepsChans.slotRelease _ r)
  exact hrelease

/-- R12: a channel stands when the record has no directive in flight. -/
theorem Dev.drop_chan {d : Dev} {r : Nat} {l : Fin 4} (hl : (d.record r).enrol.leg = l) (hflight : (d.leg l).hasFlight r = false) :
    d.keepsChans (d.drop r) := by
  subst hl
  refine Dev.keepsChans.trans ?_ (Dev.drop_keepsChans d r)
  have hunqueue := Dev.keepsChans.unqueue d (d.record r).enrol.leg r
  unfold Dev.unplaced Dev.abandonOf
  rw [Leg.hasFlight_congr (hunqueue _), hflight]
  exact hunqueue

theorem Dev.abandon_chan {d : Dev} {l : Fin 4} {x : InFlight} (h : (d.leg l).inFlight = some x) : ((d.abandon l).leg l).chan = .free := by
  have hlegs := congrArg (fun y : Legs => (y.get l).chan) (Dev.abandon_legs h)
  have hfree := congrArg Leg.chan (Dev.modLeg_leg_self d l fun g => { g with chan := .free })
  exact hlegs.trans hfree

theorem Leg.hasFlight_eq_true {g : Leg} {r : Nat} (h : g.hasFlight r = true) : ∃ x, g.inFlight = some x ∧ x.origin.ofRecord r = true := by
  unfold Leg.hasFlight at h
  split at h
  next x hx => exact ⟨x, hx, h⟩
  next => cases h

/-- R12: the record's directive in flight frees the channel. -/
theorem Dev.drop_frees {d : Dev} {r : Nat} {l : Fin 4} (hl : (d.record r).enrol.leg = l) (hflight : (d.leg l).hasFlight r = true) :
    ((d.drop r).leg l).chan = .free := by
  subst hl
  refine (Dev.drop_keepsChans d r _).trans ?_
  have hunqueue := Dev.keepsChans.unqueue d (d.record r).enrol.leg r (d.record r).enrol.leg
  unfold Dev.unplaced Dev.abandonOf
  rw [Leg.hasFlight_congr hunqueue, if_pos hflight]
  rw [← Leg.hasFlight_congr hunqueue] at hflight
  obtain ⟨x, hx, -⟩ := Leg.hasFlight_eq_true hflight
  exact Dev.abandon_chan hx

/-- R4, R12: MUTED stands, unless an UNMUTE of the record is abandoned. -/
theorem Dev.drop_muted {d : Dev} (hrecs : Sparse.wf Rec.vacant d.recs = true) {r : Nat} {l : Fin 4} (hl : (d.record r).enrol.leg = l)
    (hflight : ∀ y, (d.leg l).chan = .directive y → y.origin ≠ .record r) : ((d.drop r).record r).muted = (d.record r).muted := by
  subst hl
  have hwf := Dev.unplaced_recs_wf hrecs r
  have hplaced : ((d.unplaced r).record r).muted = (d.record r).muted := by
    have hunqueue := (Dev.Frame.unqueue hrecs (d.record r).enrol.leg r).recs
    have hchan := Dev.keepsChans.unqueue d (d.record r).enrol.leg r (d.record r).enrol.leg
    obtain ⟨w, hrecord⟩ := Dev.unqueue_record hrecs (d.record r).enrol.leg r r
    unfold Dev.unplaced Dev.abandonOf
    split
    next hhas =>
      obtain ⟨x, hx, hof⟩ := Leg.hasFlight_eq_true hhas
      have hdirective := Leg.inFlight_eq_some_iff.1 hx
      rw [hchan] at hdirective
      have hnot := hflight x hdirective
      have hhunt : x.origin ≠ .hunt r := by
        intro h
        rw [Origin.ofRecord, h] at hof
        simp at hof
      rw [Dev.abandon_muted hunqueue hx, hrecord]
      simp [hnot, hhunt]
    next => rw [hrecord]
  obtain ⟨p, pw, w, hpin⟩ := Dev.pinRelease_sameButPin hwf r r
  have hrelease := (Dev.Frame.pinRelease hwf r).recs
  rw [Dev.drop_eq, Dev.modRec_record_self _ r _ (Dev.Frame.slotRelease hrelease r).recs, Dev.slotRelease_record hrelease, hpin]
  exact hplaced

/-- R12: with nobody waiting, a record leaves the queue and nobody takes its place. -/
theorem Dev.unqueue_of_nobody {d : Dev} {l : Fin 4} (hwaiting : (d.leg l).waiting = []) (r : Nat) :
    ∃ q : List Entry, q.length ≤ (d.leg l).queue.length ∧ d.unqueue l r = d.modLeg l fun g => { g with queue := q } := by
  unfold Dev.unqueue
  split
  next e q hfirst =>
    have hlength := takeFirst_length _ _ _ _ hfirst
    refine ⟨q, by omega, ?_⟩
    have hleg := Dev.modLeg_leg_self d l fun g => { g with queue := q }
    rw [Dev.fillQueue_eq, hleg]
    dsimp only
    rw [hwaiting, List.take_nil, List.map_nil, List.map_nil, List.foldl_nil, Dev.modLeg_modLeg]
    refine Dev.modLeg_congr _ _ _ _ ?_
    rw [List.append_nil, List.drop_nil, ← hwaiting]
  next =>
    refine ⟨(d.leg l).queue, le_rfl, ?_⟩
    rw [Leg.isWaiting, hwaiting]
    exact (Dev.modLeg_eq_self d l _ rfl).symm

theorem Dev.slotRelease_queue (d : Dev) (r : Nat) (k : Fin 4) : ((d.slotRelease r).leg k).queue = (d.leg k).queue := by
  unfold Dev.slotRelease
  dsimp only
  split
  next =>
    rw [Dev.modRec_leg, Dev.modLeg_leg]
    split
    next hk => rw [hk]
    next => rfl
  next => rfl

/-- R12, R48: a queue with a place and nobody waiting keeps a place. -/
theorem Dev.drop_room {d : Dev} {r : Nat} {l : Fin 4} (hl : (d.record r).enrol.leg = l) (hroom : (d.leg l).queue.length < 12)
    (hwaiting : (d.leg l).waiting = []) (hpinWait : d.pinWait = []) : ((d.drop r).leg l).queue.length < 12 := by
  subst hl
  obtain ⟨q, hlength, hunqueue⟩ := Dev.unqueue_of_nobody hwaiting r
  have hplaced : ((d.unplaced r).leg (d.record r).enrol.leg).queue = q ∧ (d.unplaced r).pinWait = [] := by
    unfold Dev.unplaced Dev.abandonOf
    rw [hunqueue]
    split
    next hhas =>
      obtain ⟨x, hx, -⟩ := Leg.hasFlight_eq_true hhas
      have hlegs := congrArg (fun y : Legs => (y.get (d.record r).enrol.leg).queue) (Dev.abandon_legs hx)
      refine ⟨hlegs.trans ?_, (Dev.abandon_pinWait hx).trans hpinWait⟩
      exact congrArg Leg.queue ((Dev.modLeg_leg_self _ _ _).trans (congrArg (fun g : Leg => { g with chan := .free }) (Dev.modLeg_leg_self d _ _)))
    next => exact ⟨by rw [Dev.modLeg_leg_self], hpinWait⟩
  have hlegs := congrArg (fun y : Legs => (y.get (d.record r).enrol.leg).queue) (Dev.pinRelease_legs hplaced.2 r)
  have hqueue : ((d.drop r).leg (d.record r).enrol.leg).queue = q := by
    rw [Dev.drop_eq, Dev.modRec_leg, Dev.slotRelease_queue]
    exact hlegs.trans hplaced.1
  rw [hqueue]
  omega

/-! ## The DISMISS is offered (R17, R46, R47) -/

theorem Dev.modRec_waiting {d : Dev} (hrecs : Sparse.wf Rec.vacant d.recs = true) (r : Nat) (b : Bool) (q : Nat) :
    ∃ w, (d.modRec r fun x => { x with waiting := b }).record q = { d.record q with waiting := w } := by
  by_cases hq : q = r
  · subst hq
    exact ⟨_, Dev.modRec_record_self d q _ hrecs⟩
  · exact ⟨_, Dev.modRec_record_ne d r q _ hq⟩

theorem Dev.evicted_record {d : Dev} (hrecs : Sparse.wf Rec.vacant d.recs = true) (l : Fin 4) (e : Entry) (q : Nat) :
    ∃ w, (d.evicted l e).record q = { d.record q with waiting := w } := by
  unfold Dev.evicted
  split
  next => exact ⟨_, rfl⟩
  next => exact ⟨_, rfl⟩
  next r _ => exact Dev.modRec_waiting (d := d.modLeg l _) hrecs r true q
  next => exact ⟨_, rfl⟩

/-- R46, R47: an URGENT directive of a record changes WAITING flags of the records, and nothing else of them. -/
theorem Dev.offerUrgentRecord_record {d : Dev} (hrecs : Sparse.wf Rec.vacant d.recs = true) (l : Fin 4) (r : Nat) (dir : Directive) (q : Nat) :
    ∃ w, (d.offerUrgentRecord l r dir).record q = { d.record q with waiting := w } := by
  have hurgent : ∃ w, (d.offerUrgent l dir (.record r)).1.record q = { d.record q with waiting := w } := by
    unfold Dev.offerUrgent
    split
    next => exact ⟨_, rfl⟩
    next =>
      split
      next e rest _ => exact Dev.evicted_record (d := d.modLeg l _) hrecs l e q
      next => exact ⟨_, rfl⟩
  unfold Dev.offerUrgentRecord
  dsimp only
  split
  next => exact hurgent
  next => exact Dev.modRec_waiting (d := d.modLeg l _) hrecs r true q

theorem Dev.complete_params {d : Dev} (hslots : Sparse.wf Slot.idle d.slots = true) (n : Nat) (res : ResultCode) (x : Detail) (m : Nat) :
    ((d.complete n res x).slot m).params = (d.slot m).params := by
  obtain ⟨hself, -, hothers⟩ := Dev.complete_slotDone hslots n res x
  by_cases hm : m = n
  · subst hm
    rw [hself]
  · rw [hothers m hm]

/-- R47, R163: a command whose entry is evicted keeps its parameters. -/
theorem Dev.offerUrgentRecord_params {d : Dev} (hslots : Sparse.wf Slot.idle d.slots = true) (l : Fin 4) (r : Nat) (dir : Directive) (m : Nat) :
    ((d.offerUrgentRecord l r dir).slot m).params = (d.slot m).params := by
  have hurgent : ((d.offerUrgent l dir (.record r)).1.slot m).params = (d.slot m).params := by
    unfold Dev.offerUrgent Dev.evicted
    split
    next => rfl
    next =>
      split
      next =>
        dsimp only
        split
        next n _ => exact Dev.complete_params (d := d.modLeg l _) hslots n _ _ m
        next => rfl
        next => rfl
        next => rfl
      next => rfl
  unfold Dev.offerUrgentRecord
  dsimp only
  split
  next => exact hurgent
  next => rfl

theorem Dev.offerUrgentRecord_of_room {d : Dev} {l : Fin 4} (h : (d.leg l).queue.length < 12) (r : Nat) (dir : Directive) :
    d.offerUrgentRecord l r dir = d.enqueue l dir (.record r) := by
  unfold Dev.offerUrgentRecord
  rw [Dev.offerUrgent_of_room h]
  exact if_pos rfl

/-! ## A candidate leaves its hunt (R142) -/

/-- R142: the hunt's lists without record r. -/
def Hunt.less (h : Hunt) (r : Nat) : Hunt :=
  { h with cands := without h.cands r, half := without h.half r, todo := without h.todo r, newList := without h.newList r }

/-- R142: the hunt of leg l without record r, its directive to the record abandoned. -/
def Dev.forgotten (d : Dev) (l : Fin 4) (r : Nat) : Dev :=
  let d1 := d.modLeg l fun g => { g with hunt := g.hunt.less r }
  match (d1.leg l).inFlight with
  | some x => if x.origin = Origin.hunt r then d1.abandon l else d1
  | none => d1

theorem Dev.leaveHunt_eq (d : Dev) (l : Fin 4) (r : Nat) :
    d.leaveHunt l r = if (d.leg l).hunt.cands.contains r then (d.forgotten l r).huntProgress l else d := rfl

/-- R142: the hunt of leg l with record r off its lists. -/
def Dev.unlisted (d : Dev) (l : Fin 4) (r : Nat) : Dev := d.modLeg l fun g => { g with hunt := g.hunt.less r }

theorem Dev.unlisted_leg (d : Dev) (l : Fin 4) (r : Nat) : (d.unlisted l r).leg l = { d.leg l with hunt := (d.leg l).hunt.less r } :=
  Dev.modLeg_leg_self d l _

theorem Dev.forgotten_abandons {d : Dev} {l : Fin 4} {r : Nat} {y : InFlight} (h : (d.leg l).chan = .directive y) (horigin : y.origin = .hunt r) :
    d.forgotten l r = (d.unlisted l r).abandon l := by
  have hflight : ((d.unlisted l r).leg l).inFlight = some y := Leg.inFlight_eq_some_iff.2 (by rw [Dev.unlisted_leg]; exact h)
  unfold Dev.forgotten
  change (match ((d.unlisted l r).leg l).inFlight with
    | some x => if x.origin = Origin.hunt r then (d.unlisted l r).abandon l else d.unlisted l r
    | none => d.unlisted l r) = _
  rw [hflight]
  exact if_pos horigin

theorem Dev.forgotten_stays {d : Dev} {l : Fin 4} {r : Nat} (h : ∀ y, (d.leg l).chan = .directive y → y.origin ≠ .hunt r) :
    d.forgotten l r = d.unlisted l r := by
  unfold Dev.forgotten
  change (match ((d.unlisted l r).leg l).inFlight with
    | some x => if x.origin = Origin.hunt r then (d.unlisted l r).abandon l else d.unlisted l r
    | none => d.unlisted l r) = _
  split
  next x hx =>
    have hchan := Leg.inFlight_eq_some_iff.1 hx
    rw [Dev.unlisted_leg] at hchan
    exact if_neg (h x hchan)
  next => rfl

/-- R142: what the withdrawal of record r from the hunt of leg l leaves before the hunt goes on. -/
structure Dev.Forgotten (d d' : Dev) (l : Fin 4) (r : Nat) : Prop where
  recs : Sparse.wf Rec.vacant d'.recs = true
  slots : d.keepsSlots d'
  record : ∀ q, (d.record q).sameButFlags (d'.record q)
  leg : ∃ c, d'.leg l = { d.leg l with chan := c, hunt := (d.leg l).hunt.less r }
  frees : ∀ y, (d.leg l).chan = .directive y → y.origin = .hunt r →
    (d'.leg l).chan = .free ∧ (d'.record r).muted = ((d.record r).muted && decide (y.dir.body ≠ .unmute))
  keeps : (∀ y, (d.leg l).chan = .directive y → y.origin ≠ .hunt r) →
    (d'.leg l).chan = (d.leg l).chan ∧ (d'.record r).muted = (d.record r).muted

theorem Dev.forgotten_spec {d : Dev} (hrecs : Sparse.wf Rec.vacant d.recs = true) (l : Fin 4) (r : Nat) :
    Dev.Forgotten d (d.forgotten l r) l r := by
  have hleg := d.unlisted_leg l r
  have hrecs1 : Sparse.wf Rec.vacant (d.unlisted l r).recs = true := hrecs
  have hrecord : (d.unlisted l r).record = d.record := rfl
  have hslots : d.keepsSlots (d.unlisted l r) := ⟨rfl, rfl⟩
  by_cases hflight : ∃ y, (d.leg l).chan = .directive y ∧ y.origin = .hunt r
  · obtain ⟨y, hchan, horigin⟩ := hflight
    rw [Dev.forgotten_abandons hchan horigin]
    generalize d.unlisted l r = d1 at *
    have hin : (d1.leg l).inFlight = some y := Leg.inFlight_eq_some_iff.2 (by rw [hleg]; exact hchan)
    have habandoned : (d1.abandon l).leg l = { d1.leg l with chan := .free } :=
      (congrArg (Legs.get · l) (Dev.abandon_legs hin)).trans (Dev.modLeg_leg_self d1 l _)
    refine ⟨(Dev.Frame.abandon hrecs1 l).recs, hslots.trans (.abandon d1 l), fun q => ?_, ⟨.free, by rw [habandoned, hleg]⟩,
      fun z hz _ => ⟨by rw [habandoned], ?_⟩, fun h => absurd horigin (h y hchan)⟩
    · rw [← hrecord]
      exact Dev.abandon_sameButFlags hrecs1 l q
    · obtain rfl : y = z := Chan.directive.inj (hchan.symm.trans hz)
      rw [Dev.abandon_muted hrecs1 hin, hrecord, horigin]
      simp
  · have hstays : ∀ y, (d.leg l).chan = .directive y → y.origin ≠ .hunt r := fun y hy ho => hflight ⟨y, hy, ho⟩
    rw [Dev.forgotten_stays hstays]
    exact ⟨hrecs1, hslots, fun q => Rec.sameButFlags_refl _, ⟨_, hleg⟩, fun y hy ho => absurd ho (hstays y hy),
      fun _ => ⟨by rw [hleg], by rw [hrecord]⟩⟩

/-! ## A hunt's progress leaves the queue -/

theorem Dev.endHunt_queue {d : Dev} (hslots : Sparse.wf Slot.idle d.slots = true) (l : Fin 4) (res : HuntResult) :
    ((d.endHunt l res none).leg l).queue = (d.leg l).queue := by
  obtain ⟨-, hleg, -⟩ := Dev.endHunt_rules hslots l res
  rw [hleg]
  rfl

theorem Dev.huntProgress_queue {d : Dev} (hslots : Sparse.wf Slot.idle d.slots = true) (l : Fin 4) :
    ((d.huntProgress l).leg l).queue = (d.leg l).queue := by
  unfold Dev.huntProgress
  dsimp only
  split
  next =>
    split
    next => rw [Dev.requestSurvey_ofHunt, Dev.modLeg_modLeg, Dev.modLeg_leg_self]
    next =>
      split
      next => exact Dev.endHunt_queue hslots l .strayRogue
      next =>
        cases (d.leg l).hunt.newList with
        | nil => exact Dev.endHunt_queue hslots l .strayRogue
        | cons c cs => rw [Dev.bisect_of_ne_nil d l (List.cons_ne_nil _ _), Dev.modLeg_leg_self]
    all_goals rfl
  next => rfl

/-! ## The withdrawal begins (R17) -/

/-- R17: record r is WITHDRAWING, its resources dropped, its DISMISS offered. -/
def Dev.dismissed (d : Dev) (r : Nat) : Dev :=
  ((d.drop r).modRec r fun y => { y with state := .withdrawing, stage := none, fault := .none }).offerUrgentRecord (d.record r).enrol.leg r
    ⟨.individual (d.record r).enrol.addr, .dismiss⟩

theorem Dev.beginWithdrawal_eq (d : Dev) (r : Nat) : d.beginWithdrawal r = (d.dismissed r).leaveHunt (d.record r).enrol.leg r := rfl

/-- R12, R17: what the drop and the DISMISS make of the part. -/
structure Dev.Dismissed (d d' : Dev) (l : Fin 4) (r : Nat) : Prop where
  recs : Sparse.wf Rec.vacant d'.recs = true
  others : othersKeep d d' r
  core : (d'.leg l).core = (d.leg l).core
  record : ∃ waiting muted pin pinWait, d'.record r = { (d.record r).unlabelled with
    waiting := waiting, muted := muted, pin := pin, pinWait := pinWait, ranging := none, held := none
    state := .withdrawing, stage := none, fault := .none }
  muted : (∀ y, (d.leg l).chan = .directive y → y.origin ≠ .record r) → (d'.record r).muted = (d.record r).muted
  chan : (d.leg l).hasFlight r = false → (d'.leg l).chan = (d.leg l).chan
  frees : (d.leg l).hasFlight r = true → (d'.leg l).chan = .free
  params : ∀ m, (d'.slot m).params = (d.slot m).params
  queue : (d.leg l).queue.length < 12 → (d.leg l).waiting = [] → d.pinWait = [] →
    ⟨⟨.individual (d.record r).enrol.addr, .dismiss⟩, .record r⟩ ∈ (d'.leg l).queue

theorem Dev.dismissed_spec {d : Dev} (hrecs : Sparse.wf Rec.vacant d.recs = true) (hslots : Sparse.wf Slot.idle d.slots = true) {r : Nat}
    {l : Fin 4} (hl : (d.record r).enrol.leg = l) : Dev.Dismissed d (d.dismissed r) l r := by
  obtain ⟨hwf, hself, hothers, hlegs, -⟩ := Dev.afterDrop_spec hrecs r fun y => { y with state := .withdrawing, stage := none, fault := .none }
  obtain ⟨w, m, p, pw, hdropped⟩ := Dev.drop_record hrecs r
  have hmuted := Dev.drop_muted hrecs hl
  have hchan := Dev.drop_chan hl
  have hfrees := Dev.drop_frees hl
  have hroom := Dev.drop_room hl
  have hkept := Dev.keepsSlots.drop d r
  unfold Dev.dismissed
  rw [hl]
  generalize ha : (d.record r).enrol.addr = a
  generalize d.drop r = d1 at *
  have hslots2 : Sparse.wf Slot.idle (d1.modRec r fun y => { y with state := .withdrawing, stage := none, fault := .none }).slots = true := by
    rw [Dev.modRec_slots, hkept.1]
    exact hslots
  have hmuted2 : ((d1.modRec r fun y => { y with state := .withdrawing, stage := none, fault := .none }).record r).muted = (d1.record r).muted := by
    rw [hself]
  rw [hdropped] at hself
  have hleg2 : (d1.modRec r fun y => { y with state := .withdrawing, stage := none, fault := .none }).leg = d1.leg := rfl
  have hslot2 : (d1.modRec r fun y => { y with state := .withdrawing, stage := none, fault := .none }).slot = d.slot :=
    funext fun m => congrArg (Sparse.get Slot.idle · m) hkept.1
  generalize d1.modRec r (fun y => { y with state := .withdrawing, stage := none, fault := .none }) = d2 at *
  have hframe := Dev.Frame.offerUrgentRecord hwf l r ⟨.individual a, .dismiss⟩
  have hchans := Dev.keepsChans.offerUrgentRecord d2 l r ⟨.individual a, .dismiss⟩
  obtain ⟨w2, hrecord⟩ := Dev.offerUrgentRecord_record hwf l r ⟨.individual a, .dismiss⟩ r
  refine ⟨hframe.recs, fun q hq => ?_, (hframe.keeps.legs l).trans (hlegs l), ⟨w2, m, p, pw, by rw [hrecord, hself]⟩, fun h => ?_, fun h => ?_,
    fun h => ?_, fun m => ?_, fun hlen hwait hpin => ?_⟩
  · exact Rec.plan_of_core ((hframe.keeps.recs q).trans (hothers q hq))
  · rw [hrecord]
    exact hmuted2.trans (hmuted h)
  · rw [hchans, hleg2]
    exact hchan h l
  · rw [hchans, hleg2]
    exact hfrees h
  · rw [Dev.offerUrgentRecord_params hslots2, hslot2]
  · have hplace : (d2.leg l).queue.length < 12 := by
      rw [hleg2]
      exact hroom hlen hwait hpin
    rw [Dev.offerUrgentRecord_of_room hplace, Dev.enqueue, Dev.modLeg_leg_self, ha]
    exact List.mem_append_right _ (List.mem_singleton.2 rfl)

/-- R142: a directive of the hunt to another record is in flight. -/
def Leg.elsewhere (g : Leg) (r : Nat) : Prop := ∃ y q, g.chan = .directive y ∧ y.origin = .hunt q ∧ q ≠ r

theorem Leg.huntFlight_iff (g : Leg) : g.huntFlight = true ↔ ∃ y q, g.chan = .directive y ∧ y.origin = .hunt q := by
  unfold Leg.huntFlight
  constructor
  · intro h
    split at h
    next x hx =>
      split at h
      next q hq => exact ⟨x, q, Leg.inFlight_eq_some_iff.1 hx, hq⟩
      all_goals cases h
    next => cases h
  · rintro ⟨y, q, hchan, horigin⟩
    rw [Leg.inFlight_eq_some_iff.2 hchan]
    dsimp only
    rw [horigin]

theorem Leg.hasFlight_of_directive {g : Leg} {y : InFlight} (h : g.chan = .directive y) (r : Nat) : g.hasFlight r = y.origin.ofRecord r := by
  unfold Leg.hasFlight
  rw [Leg.inFlight_eq_some_iff.2 h]

/-- R17, R142: the leg and the record once the withdrawn candidate is off its hunt's lists. -/
structure Dev.Left (d d' : Dev) (l : Fin 4) (r : Nat) : Prop where
  hunt : (d'.leg l).hunt = (d.leg l).hunt.less r
  st : (d'.leg l).st = (d.leg l).st
  pending : (d'.leg l).pendSurvey = (d.leg l).pendSurvey
  flight : (d'.leg l).huntFlight = true ↔ (d.leg l).elsewhere r
  frees : ∀ y, (d.leg l).chan = .directive y → y.origin = .hunt r →
    (d'.leg l).chan = .free ∧ (d'.record r).muted = ((d.record r).muted && decide (y.dir.body ≠ .unmute))
  muted : (∀ y, (d.leg l).chan = .directive y → y.origin ≠ .hunt r ∧ y.origin ≠ .record r) → (d'.record r).muted = (d.record r).muted
  params : ∀ m, (d'.slot m).params = (d.slot m).params

theorem Dev.left_of {d d1 d2 : Dev} {l : Fin 4} {r : Nat} (h : Dev.Dismissed d d1 l r) (h' : Dev.Forgotten d1 d2 l r) : Dev.Left d d2 l r := by
  obtain ⟨c, hleg⟩ := h'.leg
  have hhunt := congrArg Leg.hunt h.core
  have hst := congrArg Leg.st h.core
  have hpend := congrArg Leg.pendSurvey h.core
  have hofHunt {y : InFlight} {q : Nat} (hchan : (d.leg l).chan = .directive y) (horigin : y.origin = .hunt q) :
      (d1.leg l).chan = .directive y ∧ ((d1.record r).muted = (d.record r).muted) := by
    have hno : (d.leg l).hasFlight r = false := by
      rw [Leg.hasFlight_of_directive hchan, Origin.ofRecord, horigin]
      simp
    refine ⟨(h.chan hno).trans hchan, h.muted fun z hz ho => ?_⟩
    obtain rfl : y = z := Chan.directive.inj (hchan.symm.trans hz)
    rw [horigin] at ho
    cases ho
  have hnow {y : InFlight} (hchan : (d1.leg l).chan = .directive y) : (d.leg l).chan = .directive y := by
    cases hflight : (d.leg l).hasFlight r with
    | false => exact (h.chan hflight).symm.trans hchan
    | true => rw [h.frees hflight] at hchan; cases hchan
  refine ⟨by rw [hleg]; exact congrArg (Hunt.less · r) hhunt, by rw [hleg]; exact hst, by rw [hleg]; exact hpend, ?_, fun y hchan horigin => ?_,
    fun hnot => ?_, fun m => ?_⟩
  · rw [Leg.huntFlight_iff]
    constructor
    · rintro ⟨y, q, hchan, horigin⟩
      by_cases hr : ∃ z, (d1.leg l).chan = .directive z ∧ z.origin = .hunt r
      · obtain ⟨z, hz, ho⟩ := hr
        rw [(h'.frees z hz ho).1] at hchan
        cases hchan
      · rw [(h'.keeps fun z hz ho => hr ⟨z, hz, ho⟩).1] at hchan
        refine ⟨y, q, hnow hchan, horigin, ?_⟩
        rintro rfl
        exact hr ⟨y, hchan, horigin⟩
    · rintro ⟨y, q, hchan, horigin, hq⟩
      have hchan1 := (hofHunt hchan horigin).1
      refine ⟨y, q, ?_, horigin⟩
      rw [(h'.keeps fun z hz ho => ?_).1, hchan1]
      obtain rfl : y = z := Chan.directive.inj (hchan1.symm.trans hz)
      rw [horigin] at ho
      exact hq (Origin.hunt.inj ho)
  · obtain ⟨hchan1, hmuted⟩ := hofHunt hchan horigin
    rw [← hmuted]
    exact h'.frees y hchan1 horigin
  · rw [(h'.keeps fun y hy => (hnot y (hnow hy)).1).2]
    exact h.muted fun y hy => (hnot y hy).2
  · rw [Dev.slot, h'.slots.1]
    exact h.params m

theorem exec_withdraw_examines {s : State} {n r : Nat} {rest : List Nat} {ps : List Word} (h : s.examines .withdraw n rest ps)
    (hr : paramNat ps 1 = r) (hlt : r < 256) : exec .withdraw s = .next { s with dev := (s.dev.takeFront rest).withdrawRecord n r } := by
  have hexec : exec .withdraw s = .next (s.running fun _ d => d.examine .withdraw Dev.examineWithdraw) := rfl
  subst hr
  rw [hexec, h.run fun _ => Dev.examineWithdraw, Dev.examineWithdraw, Dev.onRecord_of_lt hlt]

/-- R17: a record that can be withdrawn: VACANT at once, or its withdrawal begins. -/
def Dev.withdrawn (d : Dev) (r : Nat) : Dev :=
  if (d.leg (d.record r).enrol.leg).st ≠ .faulted ∧ ((d.record r).addressed ∨ (d.record r).assignSent) then d.beginWithdrawal r else d.vacate r

theorem Dev.withdrawRecord_eq {d : Dev} {r : Nat} (hvacant : (d.record r).state ≠ .vacant) (hstate : (d.record r).state ≠ .withdrawing) (n : Nat) :
    d.withdrawRecord n r = (d.withdrawn r).complete n .ok ((d.withdrawn r).recordDetail r) :=
  if_neg (not_or.2 ⟨hvacant, hstate⟩)

/-- R142: of the records a withdrawn candidate's hunt changes flags, and its leg's queue stands. -/
theorem Dev.leaveHunt_keeps {d : Dev} (hrecs : Sparse.wf Rec.vacant d.recs = true) (hslots : Sparse.wf Slot.idle d.slots = true) (l : Fin 4)
    (r : Nat) : (∀ q, (d.record q).sameButFlags ((d.leaveHunt l r).record q)) ∧ ((d.leaveHunt l r).leg l).queue = (d.leg l).queue := by
  have hforgotten := Dev.forgotten_spec hrecs l r
  have hslots2 : Sparse.wf Slot.idle (d.forgotten l r).slots = true := by rw [hforgotten.slots.1]; exact hslots
  rw [Dev.leaveHunt_eq]
  split
  next =>
    obtain ⟨c, hleg⟩ := hforgotten.leg
    have hsame (q : Nat) : ((d.forgotten l r).huntProgress l).record q = (d.forgotten l r).record q :=
      congrArg (Sparse.get Rec.vacant · q) (Dev.HuntStep.huntProgress hslots2 l).2
    refine ⟨fun q => ?_, (Dev.huntProgress_queue hslots2 l).trans (by rw [hleg])⟩
    rw [hsame]
    exact hforgotten.record q
  next => exact ⟨fun q => Rec.sameButFlags_refl _, rfl⟩

section
variable {cap : Nat} {b : Bool} {d : Dev} (hgood : Dev.Good cap b none d) {r : Nat} {l : Fin 4} (hl : (d.record r).enrol.leg = l)
include hgood

theorem Dev.Good.dismissed : Dev.Good cap b none (d.dismissed r) :=
  Dev.Good.offerUrgentRecord
    ((hgood.drop r).modRec r _ fun _ => ⟨fun e => absurd rfl e, ⟨fun e => absurd rfl e, fun e => by cases e⟩⟩) _ _ _

include hl

/-- R17: what beginning a withdrawal leaves of the records, and its DISMISS. -/
theorem Dev.beginWithdrawal_rules :
    let d' := d.beginWithdrawal r
    let x := d.record r
    othersKeep d d' r ∧ (d'.record r).plan = { x.plan with state := .withdrawing, stage := none, fault := .none } ∧
      (d'.record r).label = none ∧ (d'.record r).ranging = none ∧
      ((d.leg l).queue.length < 12 → (d.leg l).waiting = [] → d.pinWait = [] →
        ⟨⟨.individual x.enrol.addr, .dismiss⟩, .record r⟩ ∈ (d'.leg l).queue) := by
  have hdismissed := Dev.dismissed_spec hgood.recs hgood.slots hl
  have hgood1 := Dev.Good.dismissed hgood (r := r)
  obtain ⟨w, m, p, pw, hrecord⟩ := hdismissed.record
  obtain ⟨hflags, hqueue⟩ := Dev.leaveHunt_keeps hgood1.recs hgood1.slots l r
  rw [Dev.beginWithdrawal_eq, hl]
  obtain ⟨w2, m2, hself⟩ := hflags r
  rw [hrecord] at hself
  dsimp only
  refine ⟨fun q hq => ?_, ?_, ?_, ?_, fun hlen hwait hpin => ?_⟩
  · obtain ⟨_, _, hother⟩ := hflags q
    rw [← hdismissed.others q hq, hother]
    rfl
  · rw [hself]
    rfl
  · rw [hself]
    rfl
  · rw [hself]
  · rw [hqueue]
    exact hdismissed.queue hlen hwait hpin

/-- R142: the withdrawal of a candidate, up to the progress of its hunt. -/
theorem Dev.beginWithdrawal_candidate (hcand : r ∈ (d.leg l).hunt.cands) :
    ∃ d2 : Dev, d.beginWithdrawal r = d2.huntProgress l ∧ Dev.Left d d2 l r ∧ Sparse.wf Slot.idle d2.slots = true := by
  have hdismissed := Dev.dismissed_spec hgood.recs hgood.slots hl
  have hgood1 := Dev.Good.dismissed hgood (r := r)
  have hforgotten := Dev.forgotten_spec hgood1.recs l r
  have hhunt := congrArg Leg.hunt hdismissed.core
  have hcands : ((d.dismissed r).leg l).hunt.cands = (d.leg l).hunt.cands := congrArg Hunt.cands hhunt
  refine ⟨(d.dismissed r).forgotten l r, ?_, Dev.left_of hdismissed hforgotten, ?_⟩
  · rw [Dev.beginWithdrawal_eq, hl, Dev.leaveHunt_eq, hcands, if_pos (List.contains_iff_mem.2 hcand)]
  · rw [hforgotten.slots.1]
    exact hgood1.slots

end

theorem Dev.Good.withdrawn {cap : Nat} {b : Bool} {d : Dev} (hgood : Dev.Good cap b none d) (r : Nat) : Dev.Good cap b none (d.withdrawn r) := by
  unfold Dev.withdrawn
  split
  next => exact hgood.beginWithdrawal r
  next => exact hgood.vacate r

theorem Dev.withdrawn_vacates {d : Dev} {r : Nat}
    (h : (d.leg (d.record r).enrol.leg).st = .faulted ∨ ((d.record r).addressed = false ∧ (d.record r).assignSent = false)) :
    d.withdrawn r = d.vacate r := by
  refine if_neg ?_
  rintro ⟨hst, hplaced⟩
  obtain h | ⟨ha, hs⟩ := h
  · exact hst h
  · rw [ha, hs] at hplaced
    simp at hplaced

theorem Dev.withdrawn_begins {d : Dev} {r : Nat}
    (h : ¬ ((d.leg (d.record r).enrol.leg).st = .faulted ∨ ((d.record r).addressed = false ∧ (d.record r).assignSent = false))) :
    d.withdrawn r = d.beginWithdrawal r := by
  obtain ⟨hst, hplaced⟩ := not_or.1 h
  refine if_pos ⟨hst, ?_⟩
  cases ha : (d.record r).addressed with
  | true => exact .inl rfl
  | false => exact .inr (by simpa [ha] using hplaced)

theorem slotDone_params {d d1 d2 : Dev} {m : Nat} {res : ResultCode} {x : Detail} (h : slotDone d1 d2 m res x)
    (hparams : (d1.slot m).params = (d.slot m).params) :
    d2.slot m = { d.slot m with st := .done, result := res, detail := x, parts := [] } := by
  rw [h.1, Slot.mk.injEq]
  exact ⟨rfl, hparams, rfl, rfl, rfl⟩

/-- R142: the hunt stands while a step is left, or while its survey is awaited. -/
theorem Dev.Left.stands {d d2 : Dev} {l : Fin 4} {r : Nat} (h : Dev.Left d d2 l r)
    (hwait : ¬ (((d.leg l).hunt.less r).todo = [] ∧ ¬ (d.leg l).elsewhere r) ∨ ((d.leg l).hunt.less r).phase = .confirming ∨
      ((d.leg l).hunt.less r).phase = .surveying) : d2.huntProgress l = d2 := by
  rw [← h.hunt, ← h.flight] at hwait
  by_cases hdone : (d2.leg l).hunt.todo = [] ∧ (d2.leg l).huntFlight = false
  · refine Dev.huntProgress_surveying hdone.1 hdone.2 ?_
    obtain hnot | hphase | hphase := hwait
    · exact absurd ⟨hdone.1, by rw [hdone.2]; exact Bool.false_ne_true⟩ hnot
    · exact .inr (.inl hphase)
    · exact .inl hphase
  · refine Dev.huntProgress_of_todo ?_
    by_cases htodo : (d2.leg l).hunt.todo = []
    · exact .inr (Bool.eq_true_of_not_eq_false fun hflight => hdone ⟨htodo, hflight⟩)
    · exact .inl htodo

/-- Settles O52: WITHDRAW, and the hunt its candidate leaves. -/
theorem withdrawEndsThePlan : Obligations.WithdrawEndsThePlan := by
  constructor
  · intro s n r rest ps h hinv hr hlt x g
    have hexec := exec_withdraw_examines h hr hlt
    have hgood : Dev.Good s.applied.ringCap s.dev.burst.isSome none (s.dev.takeFront rest) := hinv.good.setIntake rest
    have hslots := hinv.good.slots
    by_cases hrefused : x.state = .vacant ∨ x.state = .withdrawing
    · have hrefuse : (s.dev.takeFront rest).withdrawRecord n r =
          (s.dev.takeFront rest).refuse n .wrongState ((s.dev.takeFront rest).recordDetail r) := if_pos hrefused
      rw [hrefuse] at hexec
      exact ⟨_, _, hexec, fun _ => ⟨Dev.complete_slotDone (d := s.dev.takeFront rest) hslots n _ _, rfl, rfl⟩,
        fun hvacant hstate => absurd hrefused (not_or.2 ⟨hvacant, hstate⟩), fun _ _ _ hvacant hstate => absurd hrefused (not_or.2 ⟨hvacant, hstate⟩)⟩
    · obtain ⟨hvacant, hstate⟩ := not_or.1 hrefused
      rw [Dev.withdrawRecord_eq (d := s.dev.takeFront rest) hvacant hstate] at hexec
      have hgood1 : Dev.Good _ _ none ((s.dev.takeFront rest).withdrawn r) := Dev.Good.withdrawn hgood r
      have hvacates := Dev.withdrawn_vacates (d := s.dev.takeFront rest) (r := r)
      have hbegins := Dev.withdrawn_begins (d := s.dev.takeFront rest) (r := r)
      generalize (s.dev.takeFront rest).withdrawn r = d1 at *
      obtain ⟨hdone, hset, hkept⟩ := Dev.complete_slotDone (d := d1) hgood1.slots n .ok (d1.recordDetail r)
      refine ⟨_, d1.recordDetail r, hexec, fun hno => absurd hno hrefused, fun _ _ => ?_, ?_⟩
      · refine ⟨congrArg Slot.st hdone, congrArg Slot.result hdone, congrArg Slot.detail hdone, hset, rfl, rfl, ?_⟩
        by_cases hvacate : g.st = .faulted ∨ (x.addressed = false ∧ x.assignSent = false)
        · rw [if_pos hvacate]
          obtain ⟨hself, hothers⟩ := Dev.vacate_plan (d := s.dev.takeFront rest) hinv.good.recs r
          rw [← hvacates hvacate] at hself hothers
          exact ⟨hothers, hself⟩
        · rw [if_neg hvacate]
          obtain ⟨hothers, hplan, hlabel, hranging, hqueue⟩ := Dev.beginWithdrawal_rules hgood (r := r) rfl
          rw [← hbegins hvacate] at hothers hplan hlabel hranging hqueue
          refine ⟨hothers, hplan, hlabel, hranging, fun hlen hpinWait => hqueue hlen ?_ hpinWait⟩
          have hlen' : g.queue.length ≠ 12 := Nat.ne_of_lt hlen
          exact Decidable.byContradiction fun hwaiting => hlen' ((hinv.1.2.1 x.enrol.leg).1.2 hwaiting)
      · intro hcand hst haddressed _ _ less h cs elsewhere done k
        have hstays : ¬ (g.st = .faulted ∨ (x.addressed = false ∧ x.assignSent = false)) := by
          rw [hst, haddressed]
          simp
        obtain ⟨d2, hprogress, hleft, hslots2⟩ := Dev.beginWithdrawal_candidate hgood (r := r) rfl hcand
        obtain rfl : d1 = d2.huntProgress x.enrol.leg := (hbegins hstays).trans hprogress
        obtain ⟨hstep, hrecs2⟩ := Dev.HuntStep.huntProgress hslots2 x.enrol.leg
        have hrecord : (d2.huntProgress x.enrol.leg).record r = d2.record r := congrArg (Sparse.get Rec.vacant · r) hrecs2
        have hhunt : (d2.leg x.enrol.leg).hunt = h := hleft.hunt
        have hst2 : (d2.leg x.enrol.leg).st = .hunting := hleft.st.trans hst
        have hprogressed (hd : done) : Dev.Progressed d2 (d2.huntProgress x.enrol.leg) x.enrol.leg :=
          Dev.huntProgress_progressed (Bool.eq_false_of_not_eq_true fun hflight => hd.2 (hleft.flight.1 hflight))
        have htodo (hd : done) : (d2.leg x.enrol.leg).hunt.todo = [] := by rw [hhunt]; exact hd.1
        refine ⟨fun y hchan horigin => ?_, fun hnot => ?_, fun hwait => ?_, fun hd hphase => ?_, fun hd hphase hfinal hmany => ?_,
          fun q hd hphase hfinal hone => ?_, fun hd hphase hend => ?_⟩
        · obtain ⟨hfree, hmuted⟩ := hleft.frees y hchan horigin
          exact ⟨hstep.chan hfree, (congrArg Rec.muted hrecord).trans hmuted⟩
        · exact (congrArg Rec.muted hrecord).trans (hleft.muted hnot)
        · have hstands : d2.huntProgress x.enrol.leg = d2 := hleft.stands hwait
          have hsame : (d2.huntProgress x.enrol.leg).leg x.enrol.leg = d2.leg x.enrol.leg := by rw [hstands]
          have hk : k = _ := hsame
          rw [hk]
          exact ⟨hhunt, hst2⟩
        · have hleg := (hprogressed hd).surveys (htodo hd) (by rw [hhunt]; exact hphase)
          have hk : k = _ := hleg
          have hpending : (d2.leg x.enrol.leg).pendSurvey = g.pendSurvey := hleft.pending
          rw [hk, hhunt, hpending]
          exact ⟨rfl, hst2, rfl⟩
        · have hne : cs ≠ [] := by rintro hnil; rw [hnil] at hmany; simp at hmany
          have hk : k = _ := (hprogressed hd).bisects (htodo hd) (by rw [hhunt]; exact hphase) (by rw [hhunt]; exact hfinal) (by rw [hhunt]; exact hne)
          rw [hk, hhunt]
          exact Hunt.nextStep_many h hmany
        · have hne : cs ≠ [] := by rw [hone]; exact List.cons_ne_nil _ _
          have hk : k = _ := (hprogressed hd).bisects (htodo hd) (by rw [hhunt]; exact hphase) (by rw [hhunt]; exact hfinal) (by rw [hhunt]; exact hne)
          rw [hk, hhunt]
          exact (congrArg h.nextStep hone).trans (Hunt.nextStep_one h q)
        · have hended := (hprogressed hd).ends (htodo hd) (by rw [hhunt]; exact hphase) (by rw [hhunt]; exact hend)
          obtain ⟨-, hleg, -, hlatched, -, -, -, hslot⟩ := Dev.endHunt_rules hslots2 x.enrol.leg .strayRogue
          rw [← hended] at hleg hlatched hslot
          rw [hhunt] at hslot
          have hk : k = _ := hleg
          rw [hk]
          refine ⟨?_, (congrArg (legAfterHunt · .strayRogue) hst2).trans rfl, Dev.latch_isSet_mono (Dev.modSlot _ n _) .cmdDone hlatched,
            fun m hm howner => (hkept m hm).trans (slotDone_params (hslot m howner) (hleft.params m))⟩
          exact congrArg (Hunt.ended · .strayRogue none) hhunt
  · intro s n rest ps h hinv hbad
    exact h.badRecord hinv (fun _ y n _ r => y.withdrawRecord n r) rfl hbad

end Sys2Proof.Machine
end

section
/-! PROOF (O25). FLT is deasserted, and FLT where it changes its level only (R58, R60, R61). -/

namespace Sys2Proof.Machine

/-! ## The UNMUTEs owed (R47, R60) -/

/-- R60: the queue entry and the waiting place of an owed UNMUTE. -/
def Dev.owedEntry (d : Dev) (r : Nat) : Entry := ⟨(d.record r).unmute, .record r⟩
def Dev.owedWaiter (d : Dev) (r : Nat) : Waiter := ⟨r, (d.record r).unmute⟩

theorem Dev.offerUnmute_of_room {d : Dev} {l : Fin 4} (h : (d.leg l).queue.length < 12) (r : Nat) :
    d.offerUnmute l r = d.modLeg l fun g => { g with queue := g.queue ++ [d.owedEntry r] } :=
  Dev.offerUrgentRecord_of_room h r _

theorem Dev.offerUnmute_of_urgent {d : Dev} {l : Fin 4} (hfull : (d.leg l).queue.length = 12) (hurgent : ∀ e ∈ (d.leg l).queue, e.cls = .urgent)
    (r : Nat) : d.offerUnmute l r =
      (d.modLeg l fun g => { g with waiting := g.waiting ++ [d.owedWaiter r] }).modRec r fun x => { x with waiting := true } := by
  unfold Dev.offerUnmute Dev.offerUrgentRecord
  rw [Dev.offerUrgent_of_urgent hfull hurgent]
  rfl

theorem Dev.owedWaiter_congr {d d1 : Dev} (h : ∀ q, (d1.record q).enrol = (d.record q).enrol) : d1.owedWaiter = d.owedWaiter := by
  funext q
  unfold Dev.owedWaiter Rec.unmute
  rw [h]

/-- R47, R60: the UNMUTEs of `rs` fill a queue of URGENT entries, and the others wait. -/
theorem Dev.foldl_offerUnmute (rs : List Nat) {d : Dev} (hrecs : Sparse.wf Rec.vacant d.recs = true) {l : Fin 4}
    (hlen : (d.leg l).queue.length ≤ 12) (hurgent : ∀ e ∈ (d.leg l).queue, e.cls = .urgent) :
    let n := 12 - (d.leg l).queue.length
    let d' := rs.foldl (fun y r => y.offerUnmute l r) d
    d'.leg l = { d.leg l with
        queue := (d.leg l).queue ++ (rs.take n).map d.owedEntry, waiting := (d.leg l).waiting ++ (rs.drop n).map d.owedWaiter } ∧
      (∀ k, k ≠ l → d'.leg k = d.leg k) ∧
      ∀ r, d'.record r = { d.record r with waiting := (d.record r).waiting || (rs.drop n).contains r } := by
  induction rs generalizing d with
  | nil => simp
  | cons r rs ih =>
    dsimp only at ih ⊢
    rw [List.foldl_cons]
    by_cases hroom : (d.leg l).queue.length < 12
    · have hself := Dev.modLeg_leg_self d l fun g => { g with queue := g.queue ++ [d.owedEntry r] }
      rw [Dev.offerUnmute_of_room hroom]
      obtain ⟨hleg, hlegs, hrecords⟩ := ih (d := d.modLeg l fun g => { g with queue := g.queue ++ [d.owedEntry r] }) hrecs
        (by rw [hself, List.length_append]; exact hroom)
        (by
          rw [hself]
          intro e he
          obtain he | he := List.mem_append.1 he
          · exact hurgent e he
          · rw [List.mem_singleton.1 he]; rfl)
      obtain ⟨n, hn⟩ : ∃ n, 12 - (d.leg l).queue.length = n + 1 := ⟨11 - (d.leg l).queue.length, by omega⟩
      have hn' : 12 - ((d.leg l).queue ++ [d.owedEntry r]).length = n := by simp only [List.length_append, List.length_singleton]; omega
      rw [hself] at hleg hrecords
      dsimp only at hleg hrecords
      rw [hn'] at hleg hrecords
      rw [hn, List.take_succ_cons, List.drop_succ_cons]
      refine ⟨hleg.trans ?_, fun k hk => (hlegs k hk).trans (Dev.modLeg_leg_ne d l k _ hk), hrecords⟩
      rw [List.append_assoc]
      rfl
    · have hfull : (d.leg l).queue.length = 12 := by omega
      have hwaiting (q : Nat) : ((d.modLeg l fun g => { g with waiting := g.waiting ++ [d.owedWaiter r] }).modRec r
          fun x => { x with waiting := true }).record q = { d.record q with waiting := (d.record q).waiting || decide (q = r) } := by
        by_cases hq : q = r
        · subst hq
          rw [Dev.modRec_record_self (d.modLeg l _) q _ hrecs]
          simp
        · rw [Dev.modRec_record_ne _ r q _ hq]
          simp [hq]
      have hself := Dev.modLeg_leg_self d l fun g => { g with waiting := g.waiting ++ [d.owedWaiter r] }
      rw [Dev.offerUnmute_of_urgent hfull hurgent]
      have hothers (k : Fin 4) (hk : k ≠ l) : ((d.modLeg l fun g => { g with waiting := g.waiting ++ [d.owedWaiter r] }).modRec r
          fun x => { x with waiting := true }).leg k = d.leg k := by rw [Dev.modRec_leg, Dev.modLeg_leg_ne _ _ _ _ hk]
      have hwf : Sparse.wf Rec.vacant ((d.modLeg l fun g => { g with waiting := g.waiting ++ [d.owedWaiter r] }).modRec r
          fun x => { x with waiting := true }).recs = true := Dev.modRec_recs_wf (d.modLeg l _) r _ hrecs
      rw [← Dev.modRec_leg _ r (fun x => { x with waiting := true })] at hself
      generalize (d.modLeg l fun g => { g with waiting := g.waiting ++ [d.owedWaiter r] }).modRec r (fun x => { x with waiting := true }) = d1
        at *
      obtain ⟨hleg, hlegs, hrecords⟩ := ih hwf (by rw [hself]; exact hlen) (by rw [hself]; exact hurgent)
      have howed : d1.owedWaiter = d.owedWaiter := Dev.owedWaiter_congr fun q => by rw [hwaiting]
      rw [hself] at hleg hrecords
      dsimp only at hleg hrecords
      rw [hfull, howed] at hleg
      rw [hfull] at hrecords ⊢
      refine ⟨hleg.trans ?_, fun k hk => (hlegs k hk).trans (hothers k hk), fun q => ?_⟩
      · simp
      · rw [hrecords, hwaiting]
        simp [Bool.or_assoc]

/-! ## FLT deasserted (R41, R60) -/

theorem exec_fltDeasserted {s : State} (hrun : s.phase = .running) (l : Fin 4) :
    exec (.fltDeasserted l) s = .next { s with dev := s.dev.fltRelease l } := State.next_dev_congr (if_pos hrun)

theorem exec_fltAsserted {s : State} (hrun : s.phase = .running) (l : Fin 4) :
    exec (.fltAsserted l) s = .next { s with dev := s.dev.fltAssert l } := State.next_dev_congr (if_pos hrun)

/-- R41, R60: the leg recovers, and the owed UNMUTEs are offered. -/
theorem Dev.fltRelease_of_faulted {d : Dev} {l : Fin 4} (h : (d.leg l).st = .faulted) :
    d.fltRelease l = (d.mutedOn l).foldl (fun y r => y.offerUnmute l r) (d.modLeg l fun g => { g.recover with flt := false }) := by
  unfold Dev.fltRelease Dev.setFlt
  dsimp only
  rw [if_pos h, Dev.modLeg_modLeg]
  rfl

/-- Settles O25: FLT deasserted on a FAULTED leg, and FLT where it changes its level only. -/
theorem fltDeassertedRecoversTheLeg : Obligations.FltDeassertedRecoversTheLeg := by
  constructor
  · intro s l hrun hinv g hst hqueue hwaiting
    refine ⟨_, exec_fltDeasserted hrun l, ?_⟩
    rw [Dev.fltRelease_of_faulted hst]
    have hself := Dev.modLeg_leg_self s.dev l fun g => { g.recover with flt := false }
    have hqueue1 : ((s.dev.modLeg l fun g => { g.recover with flt := false }).leg l).queue = [] := by rw [hself]; exact hqueue
    obtain ⟨hleg, hlegs, hrecords⟩ := Dev.foldl_offerUnmute (s.dev.mutedOn l) (d := s.dev.modLeg l fun g => { g.recover with flt := false })
      hinv.good.recs (l := l) (by rw [hqueue1]; decide) (by rw [hqueue1]; nofun)
    rw [hqueue1] at hleg hrecords
    refine ⟨hleg.trans ?_, fun k hk => (hlegs k hk).trans (Dev.modLeg_leg_ne s.dev l k _ hk), hrecords⟩
    rw [hself]
    have hnobody : g.waiting ++ ((s.dev.mutedOn l).drop 12).map s.dev.owedWaiter =
        ((s.dev.mutedOn l).drop 12).map s.dev.owedWaiter := by rw [hwaiting, List.nil_append]
    exact congrArg (fun ws : List Waiter => { g.recover with
      flt := false, queue := ((s.dev.mutedOn l).take 12).map s.dev.owedEntry, waiting := ws }) hnobody
  · intro s l c hrun hcase
    have hlevel (b : Bool) (hb : decide (c = .fltAsserted l) = b) :
        s.dev.setFlt l b = s.dev.modLeg l fun g => { g with flt := decide (c = .fltAsserted l) } := by rw [hb]; rfl
    have hrises (hcannot : (s.dev.leg l).canFault = false) : s.dev.fltAssert l = s.dev.setFlt l true := if_neg (by rw [hcannot]; exact Bool.false_ne_true)
    obtain ⟨hdark, rfl | rfl⟩ | ⟨hfaulted, rfl⟩ := hcase
    · refine (exec_fltAsserted hrun l).trans (State.next_dev_congr ?_)
      rw [hrises (by rw [Leg.canFault, hdark]; rfl), hlevel true (decide_eq_true rfl)]
    · refine (exec_fltDeasserted hrun l).trans (State.next_dev_congr ?_)
      have hfalls : s.dev.fltRelease l = s.dev.setFlt l false := if_neg (by rw [hdark]; nofun)
      rw [hfalls, hlevel false (decide_eq_false nofun)]
    · refine (exec_fltAsserted hrun l).trans (State.next_dev_congr ?_)
      rw [hrises (by rw [Leg.canFault, hfaulted]; rfl), hlevel true (decide_eq_true rfl)]

end Sys2Proof.Machine
end

section
/-! PROOF (O19). ABORT of a RUNNING command (R52, R132, R143, R157, R164). -/

namespace Sys2Proof.Machine

/-! ## A service command (R149, R164) -/

/-- An act that does nothing on the legs other than l, before and after it acts on l. -/
theorem foldl_allLegs_one {f : Dev → Fin 4 → Dev} {d : Dev} {l : Fin 4} (hbefore : ∀ k, k ≠ l → f d k = d)
    (hafter : ∀ k, k ≠ l → f (f d l) k = f d l) : allLegs.foldl f d = f d l := by
  fin_cases l <;> simp_all [allLegs]

theorem Leg.fliesCmd_eq_true {g : Leg} {x : InFlight} {n : Nat} (h : g.chan = .directive x) (ho : x.origin = .cmd n) : g.fliesCmd n = true := by
  unfold Leg.fliesCmd
  rw [Leg.inFlight_eq_some_iff.2 h]
  exact decide_eq_true ho

theorem Dev.abortServiceOn_idle {d : Dev} {k : Fin 4} {n : Nat} (hflies : (d.leg k).fliesCmd n = false) (hqueues : (d.leg k).queuesCmd n = false) :
    d.abortServiceOn n k = d := by
  unfold Dev.abortServiceOn
  dsimp only
  rw [hflies, hqueues, if_neg Bool.false_ne_true, if_neg Bool.false_ne_true]

theorem find?_allLegs {p : Fin 4 → Bool} {l : Fin 4} (hl : p l = true) (hothers : ∀ k, k ≠ l → p k = false) : allLegs.find? p = some l := by
  fin_cases l <;> simp_all [allLegs]

theorem Leg.fliesCmd_eq_any (g : Leg) (n : Nat) : g.inFlight.any (fun x => decide (x.origin = .cmd n)) = g.fliesCmd n := by
  unfold Leg.fliesCmd
  cases g.inFlight <;> rfl

/-- R149, R164: the flight whose counts an aborted command's detail holds. -/
theorem Dev.abortedDetail_eq (d : Dev) (n : Nat) :
    d.abortedDetail n =
      ((allLegs.find? fun k => (d.leg k).fliesCmd n).bind fun k => (d.leg k).inFlight).elim .zero InFlight.cutDetail := by
  unfold Dev.abortedDetail
  rw [List.find?_filterMap]
  simp only [Leg.fliesCmd_eq_any]
  cases (allLegs.find? fun k => (d.leg k).fliesCmd n).bind fun k => (d.leg k).inFlight with
  | none => rfl
  | some x => rfl

theorem Dev.abortedDetail_of_flight {d : Dev} {l : Fin 4} {x : InFlight} {n : Nat} (h : (d.leg l).chan = .directive x) (ho : x.origin = .cmd n)
    (hothers : ∀ k, k ≠ l → (d.leg k).fliesCmd n = false) : d.abortedDetail n = x.cutDetail := by
  rw [Dev.abortedDetail_eq, find?_allLegs (Leg.fliesCmd_eq_true h ho) hothers, Option.bind_some, Leg.inFlight_eq_some_iff.2 h]
  rfl

theorem Dev.abortedDetail_of_none {d : Dev} {n : Nat} (h : ∀ k, (d.leg k).fliesCmd n = false) : d.abortedDetail n = .zero := by
  have hnone : (allLegs.find? fun k => (d.leg k).fliesCmd n) = none := List.find?_eq_none.2 fun k _ => by
    rw [h k]
    exact Bool.false_ne_true
  rw [Dev.abortedDetail_eq, hnone]
  rfl

theorem Dev.unmuteEnded_cmd {d : Dev} {x : InFlight} (h : (∀ r, x.origin ≠ .record r) ∧ ∀ r, x.origin ≠ .hunt r) : d.unmuteEnded x = d := by
  unfold Dev.unmuteEnded
  split
  next ho => exact absurd ho (h.1 _)
  next ho => exact absurd ho (h.2 _)
  next => rfl

theorem Dev.cancelFetch_recs (d : Dev) (l : Fin 4) : (d.cancelFetch l).recs = d.recs := by
  obtain ⟨b, q, hend⟩ := d.endFetch_eq l
  unfold Dev.cancelFetch
  rw [hend]
  rfl

/-- R52: a directive of a command or a LEVEL is abandoned: its leg's channel is FREE, and records, slots and the other legs stand. -/
theorem Dev.abandon_rules {d : Dev} {l : Fin 4} {x : InFlight} (h : (d.leg l).chan = .directive x)
    (ho : (∀ r, x.origin ≠ .record r) ∧ ∀ r, x.origin ≠ .hunt r) :
    (d.abandon l).recs = d.recs ∧ (d.abandon l).leg l = { d.leg l with chan := .free } ∧
      (∀ k, k ≠ l → (d.abandon l).leg k = d.leg k) ∧ d.keepsSlots (d.abandon l) := by
  have hin := Leg.inFlight_eq_some_iff.2 h
  have hlegs := Dev.abandon_legs hin
  refine ⟨?_, (congrArg (Legs.get · l) hlegs).trans (Dev.modLeg_leg_self d l _),
    fun k hk => (congrArg (Legs.get · k) hlegs).trans (Dev.modLeg_leg_ne d l k _ hk), .abandon d l⟩
  rw [Dev.abandon_eq hin, Dev.unmuteEnded_cmd ho, Dev.cancelFetch_recs]
  rfl

/-- R52, R164: the command's directive in flight is abandoned. -/
theorem Dev.abortService_flight {d : Dev} (hslots : Sparse.wf Slot.idle d.slots = true) {l : Fin 4} {x : InFlight} {n : Nat}
    (h : (d.leg l).chan = .directive x) (ho : x.origin = .cmd n)
    (hothers : ∀ k, k ≠ l → (d.leg k).fliesCmd n = false ∧ (d.leg k).queuesCmd n = false) :
    let d' := (allLegs.foldl (Dev.abortServiceOn n) d).complete n .aborted (d.abortedDetail n)
    (d'.leg l).chan = .free ∧ slotDone d d' n .aborted x.cutDetail ∧ d'.recs = d.recs ∧ ∀ k, k ≠ l → d'.leg k = d.leg k := by
  obtain ⟨hrecs, hleg, hlegs, hkept⟩ := Dev.abandon_rules h (by rw [ho]; exact ⟨nofun, nofun⟩)
  have hon : d.abortServiceOn n l = d.abandon l := if_pos (Leg.fliesCmd_eq_true h ho)
  have hfold : allLegs.foldl (Dev.abortServiceOn n) d = d.abandon l :=
    (foldl_allLegs_one (f := Dev.abortServiceOn n) (l := l) (fun k hk => Dev.abortServiceOn_idle (hothers k hk).1 (hothers k hk).2)
      fun k hk => Dev.abortServiceOn_idle (by rw [hon, hlegs k hk]; exact (hothers k hk).1) (by rw [hon, hlegs k hk]; exact (hothers k hk).2)).trans hon
  rw [hfold, Dev.abortedDetail_of_flight h ho fun k hk => (hothers k hk).1]
  exact ⟨congrArg Leg.chan hleg, Dev.slotDone_of_slots hkept.1 hslots n _ _, hrecs, hlegs⟩

/-- R149, R164: the command's entry leaves its queue. -/
theorem Dev.abortService_queued {d : Dev} (hslots : Sparse.wf Slot.idle d.slots = true) {l : Fin 4} {n : Nat} {before after : List Entry} {e : Entry}
    (hqueue : (d.leg l).queue = before ++ e :: after) (ho : e.origin = .cmd n) (hrest : ∀ y ∈ before ++ after, y.origin ≠ .cmd n)
    (hwaiting : (d.leg l).waiting = []) (hflies : ∀ k, (d.leg k).fliesCmd n = false) (hothers : ∀ k, k ≠ l → (d.leg k).queuesCmd n = false) :
    let d' := (allLegs.foldl (Dev.abortServiceOn n) d).complete n .aborted (d.abortedDetail n)
    d'.leg l = { d.leg l with queue := before ++ after } ∧ (∀ k, k ≠ l → d'.leg k = d.leg k) ∧ d'.recs = d.recs ∧
      slotDone d d' n .aborted .zero := by
  have hfirst : takeFirst (fun e => decide (e.origin = .cmd n)) (d.leg l).queue = some (e, before ++ after) := by
    rw [hqueue]
    exact takeFirst_append_cons (fun y hy => decide_eq_false (hrest y (List.mem_append_left _ hy))) (decide_eq_true ho)
  have hqueues : (d.leg l).queuesCmd n = true := by
    rw [Leg.queuesCmd, hqueue, List.any_eq_true]
    exact ⟨e, List.mem_append_right _ (List.mem_cons_self ..), decide_eq_true ho⟩
  have hon : d.abortServiceOn n l = d.modLeg l fun g => { g with queue := before ++ after } := by
    unfold Dev.abortServiceOn Dev.unqueueCmd
    dsimp only
    rw [hflies, if_neg Bool.false_ne_true, hqueues, if_pos rfl, hfirst]
    dsimp only
    rw [Dev.fillQueue_eq, Dev.modLeg_leg_self]
    dsimp only
    rw [hwaiting, List.take_nil, List.map_nil, List.map_nil, List.foldl_nil, List.append_nil, List.drop_nil, Dev.modLeg_modLeg]
    refine Dev.modLeg_congr _ _ _ _ ?_
    rw [← hwaiting]
  have hlegs (k : Fin 4) (hk : k ≠ l) : (d.modLeg l fun g => { g with queue := before ++ after }).leg k = d.leg k := Dev.modLeg_leg_ne d l k _ hk
  have hfold : allLegs.foldl (Dev.abortServiceOn n) d = d.modLeg l fun g => { g with queue := before ++ after } :=
    (foldl_allLegs_one (f := Dev.abortServiceOn n) (l := l) (fun k hk => Dev.abortServiceOn_idle (hflies k) (hothers k hk))
      fun k hk => Dev.abortServiceOn_idle (by rw [hon, hlegs k hk]; exact hflies k) (by rw [hon, hlegs k hk]; exact hothers k hk)).trans hon
  rw [hfold, Dev.abortedDetail_of_none hflies]
  exact ⟨by rw [Dev.complete_leg, Dev.modLeg_leg_self], hlegs, rfl, Dev.slotDone_of_slots rfl hslots n _ _⟩

/-! ## A SURVEY (R132, R134, R135, R164) -/

theorem foldl_allLegs_modLeg (f : Leg → Leg) (d : Dev) :
    let d' := allLegs.foldl (fun y k => y.modLeg k f) d
    (∀ l, d'.leg l = f (d.leg l)) ∧ d'.recs = d.recs ∧ d'.slots = d.slots := by
  refine ⟨fun l => ?_, rfl, rfl⟩
  fin_cases l <;> rfl

/-- R132: nobody but slot n, if anybody, has requested the survey. -/
theorem Requesters.leave_isEmpty (q : Requesters) (n : Nat) :
    (q.leave n).isEmpty = true ↔ q.auto = false ∧ q.hunt = false ∧ ∀ m ∈ q.slots, m = n := by
  simp only [Requesters.isEmpty, Requesters.leave, without, Bool.and_eq_true, Bool.not_eq_true', List.isEmpty_iff, List.filter_eq_nil_iff,
    decide_eq_true_eq, not_not]
  tauto

/-- R132, R134: a leg once slot n has left its surveys. -/
def Leg.withoutSlot (n : Nat) (g : Leg) : Leg := (g.leavePending n).leaveWindow n

theorem Leg.leaveWindow_pendSurvey (g : Leg) (n : Nat) : (g.leaveWindow n).pendSurvey = g.pendSurvey := by
  unfold Leg.leaveWindow
  split
  next => split <;> rfl
  all_goals rfl

theorem Leg.leavePending_chan (g : Leg) (n : Nat) : (g.leavePending n).chan = g.chan := by
  unfold Leg.leavePending
  split
  next => rfl
  next => rfl

theorem Leg.withoutSlot_pendSurvey {g : Leg} {q : Requesters} (h : g.pendSurvey = some q) (n : Nat) :
    (g.withoutSlot n).pendSurvey = if (q.leave n).isEmpty then none else some (q.leave n) := by
  rw [Leg.withoutSlot, Leg.leaveWindow_pendSurvey, Leg.leavePending, h]

theorem Leg.withoutSlot_chan {g : Leg} {w : SurveyWindow} (h : g.chan = .survey w) {n : Nat} (hn : n ∈ w.reqs.slots) :
    (g.withoutSlot n).chan = if (w.reqs.leave n).isEmpty then .free else .survey { w with reqs := w.reqs.leave n } := by
  unfold Leg.withoutSlot Leg.leaveWindow
  rw [Leg.leavePending_chan, h]
  dsimp only
  rw [if_pos (List.contains_iff_mem.2 hn)]

/-- R132, R164: slot n leaves the surveys of every leg and completes. -/
theorem Dev.leaveSurveys_complete {d : Dev} (hslots : Sparse.wf Slot.idle d.slots = true) (n : Nat) (det : Detail) :
    let d' := (allLegs.foldl (Dev.leaveSurvey n) d).complete n .aborted det
    slotDone d d' n .aborted det ∧ d'.recs = d.recs ∧ ∀ l, d'.leg l = (d.leg l).withoutSlot n := by
  obtain ⟨hlegs, hrecs, hkept⟩ := foldl_allLegs_modLeg (Leg.withoutSlot n) d
  exact ⟨Dev.slotDone_of_slots hkept hslots n _ _, hrecs, hlegs⟩

/-! ## A HUNT (R132, R141, R143, R157) -/

theorem Dev.answerSlot_params {d : Dev} (hslots : Sparse.wf Slot.idle d.slots = true) (l : Fin 4) (n : Nat) (res : ResultCode) (det : Detail)
    (part : SurveyOut × Nat) (m : Nat) : ((d.answerSlot l n res det part).slot m).params = (d.slot m).params := by
  unfold Dev.answerSlot Dev.settleParts
  dsimp only
  split
  next => exact Dev.complete_params hslots n _ _ m
  next =>
    split
    next => exact Dev.complete_params hslots n _ _ m
    next =>
      by_cases hm : m = n
      · subst hm
        rw [Dev.modSlot_slot_self d m _ hslots]
      · rw [Dev.modSlot_slot_ne d n m _ hm]

/-- What answering the requesters of a closed survey leaves: the records, the legs, and every slot's parameters. -/
structure Dev.Shared (d d' : Dev) : Prop where
  recs : d'.recs = d.recs
  legs : d'.legs = d.legs
  wf : Sparse.wf Slot.idle d'.slots = true
  params : ∀ m, (d'.slot m).params = (d.slot m).params

theorem Dev.answerShared_shared {d : Dev} (hslots : Sparse.wf Slot.idle d.slots = true) (l : Fin 4) (n : Nat) :
    Dev.Shared d (d.answerShared l n) := by
  have hparams := Dev.answerSlot_params hslots l n (surveyEndCode (Config.sharedSurveyResult d.seed)) (.survey l.val .none 0)
    (partEndOut (Config.sharedSurveyPart d.seed), 0)
  refine ⟨?_, ?_, ?_, hparams⟩
  all_goals
    unfold Dev.answerShared Dev.answerSlot Dev.settleParts
    dsimp only
    split
  · rfl
  · split <;> rfl
  · rfl
  · split <;> rfl
  · exact Sparse.set_wf d.slots n _ hslots
  · split
    · exact Sparse.set_wf d.slots n _ hslots
    · exact Sparse.set_wf d.slots n _ hslots

theorem Dev.Shared.trans {d d1 d2 : Dev} (h : Dev.Shared d d1) (h' : Dev.Shared d1 d2) : Dev.Shared d d2 :=
  ⟨h'.recs.trans h.recs, h'.legs.trans h.legs, h'.wf, fun m => (h'.params m).trans (h.params m)⟩

theorem Dev.foldl_answerShared {d : Dev} (hslots : Sparse.wf Slot.idle d.slots = true) (l : Fin 4) (ns : List Nat) :
    Dev.Shared d (ns.foldl (fun y n => y.answerShared l n) d) := by
  induction ns generalizing d with
  | nil => exact ⟨rfl, rfl, hslots, fun _ => rfl⟩
  | cons n ns ih =>
    have hone := Dev.answerShared_shared hslots l n
    exact hone.trans (ih hone.wf)

/-- R132, R143: the hunt's pending survey is dropped. -/
def Dev.dropHuntPending (d : Dev) (l : Fin 4) : Dev :=
  match (d.leg l).pendSurvey with
  | some q => if q.hunt then
      q.slots.foldl (fun y n => y.answerShared l n) (d.modLeg l fun g => { g with pendSurvey := none }) else d
  | none => d

/-- R132, R143: the hunt's open window `c` is closed. -/
def Dev.closeHuntWindow (d : Dev) (l : Fin 4) (c : Chan) : Dev :=
  match c with
  | .survey w => if w.reqs.hunt then
      w.reqs.slots.foldl (fun y n => y.answerShared l n) (d.modLeg l fun g => { g with chan := .free }) else d
  | .free => d
  | .directive _ => d
  | .hail _ => d

theorem Dev.dropHuntSurvey_eq (d : Dev) (l : Fin 4) : d.dropHuntSurvey l = (d.dropHuntPending l).closeHuntWindow l (d.leg l).chan := rfl

/-- R132, R143: what dropping the hunt's survey leaves; the leg changes by `f`. -/
structure Dev.SurveyDropped (d d' : Dev) (l : Fin 4) (f : Leg → Leg) : Prop where
  recs : d'.recs = d.recs
  leg : d'.leg l = f (d.leg l)
  wf : Sparse.wf Slot.idle d'.slots = true
  params : ∀ m, (d'.slot m).params = (d.slot m).params

theorem Dev.Shared.dropped {d d' : Dev} {l : Fin 4} {f : Leg → Leg} (h : Dev.Shared (d.modLeg l f) d') : Dev.SurveyDropped d d' l f :=
  ⟨h.recs, (congrArg (Legs.get · l) h.legs).trans (Dev.modLeg_leg_self d l f), h.wf, h.params⟩

theorem Dev.dropHuntPending_dropped {d : Dev} (hslots : Sparse.wf Slot.idle d.slots = true) (l : Fin 4) :
    ∃ p, Dev.SurveyDropped d (d.dropHuntPending l) l fun g => { g with pendSurvey := p } := by
  unfold Dev.dropHuntPending
  split
  next q hq =>
    split
    next => exact ⟨none, (Dev.foldl_answerShared (d := d.modLeg l _) hslots l q.slots).dropped⟩
    next => exact ⟨(d.leg l).pendSurvey, rfl, rfl, hslots, fun _ => rfl⟩
  next => exact ⟨(d.leg l).pendSurvey, rfl, rfl, hslots, fun _ => rfl⟩

theorem Dev.closeHuntWindow_dropped {d : Dev} (hslots : Sparse.wf Slot.idle d.slots = true) (l : Fin 4) {c : Chan} (hc : (d.leg l).chan = c) :
    ∃ c', Dev.SurveyDropped d (d.closeHuntWindow l c) l (fun g => { g with chan := c' }) ∧
      ((∃ w, c = .survey w ∧ w.reqs.hunt = true) → c' = .free) ∧ ((∀ w, c ≠ .survey w) → c' = c) := by
  have hsame : Dev.SurveyDropped d d l fun g => { g with chan := c } := ⟨rfl, by rw [← hc], hslots, fun _ => rfl⟩
  unfold Dev.closeHuntWindow
  cases c with
  | survey w =>
    dsimp only
    split
    next => exact ⟨.free, (Dev.foldl_answerShared (d := d.modLeg l _) hslots l w.reqs.slots).dropped, fun _ => rfl, fun h => absurd rfl (h w)⟩
    next hnot =>
      refine ⟨_, hsame, ?_, fun _ => rfl⟩
      rintro ⟨w', ⟨rfl⟩, hhunt⟩
      exact absurd hhunt hnot
  | free => exact ⟨_, hsame, fun _ => rfl, fun _ => rfl⟩
  | directive x => exact ⟨_, hsame, (by rintro ⟨w, h, -⟩; cases h), fun _ => rfl⟩
  | hail w => exact ⟨_, hsame, (by rintro ⟨w, h, -⟩; cases h), fun _ => rfl⟩

/-- R132, R143: the hunt's survey is dropped: its pending request, or its open window. -/
theorem Dev.dropHuntSurvey_dropped {d : Dev} (hslots : Sparse.wf Slot.idle d.slots = true) (l : Fin 4) :
    ∃ p c, Dev.SurveyDropped d (d.dropHuntSurvey l) l (fun g => { g with pendSurvey := p, chan := c }) ∧
      ((∃ w, (d.leg l).chan = .survey w ∧ w.reqs.hunt = true) → c = .free) ∧ ((∀ w, (d.leg l).chan ≠ .survey w) → c = (d.leg l).chan) := by
  rw [Dev.dropHuntSurvey_eq]
  obtain ⟨p, hpending⟩ := Dev.dropHuntPending_dropped hslots l
  have hchan : ((d.dropHuntPending l).leg l).chan = (d.leg l).chan := by rw [hpending.leg]
  obtain ⟨c, hclosed, hhunt, hother⟩ := Dev.closeHuntWindow_dropped hpending.wf l hchan
  refine ⟨p, c, ⟨hclosed.recs.trans hpending.recs, ?_, hclosed.wf, fun m => (hclosed.params m).trans (hpending.params m)⟩, hhunt, hother⟩
  rw [hclosed.leg, hpending.leg]

/-! ## The UNMUTEs of an aborted hunt (R143, R157) -/

theorem mem_of_takeFirst {α : Type} {p : α → Bool} {xs ys : List α} {y : α} (h : takeFirst p xs = some (y, ys)) :
    y ∈ xs ∧ ∀ x ∈ ys, x ∈ xs := by
  obtain ⟨before, after, rfl, rfl, -, -⟩ := takeFirst_eq_some_split h
  refine ⟨List.mem_append_right _ (List.mem_cons_self ..), fun x hx => ?_⟩
  obtain hx | hx := List.mem_append.1 hx
  · exact List.mem_append_left _ hx
  · exact List.mem_append_right _ (List.mem_cons_of_mem _ hx)

theorem mem_of_takeLast {α : Type} {p : α → Bool} {xs ys : List α} {y : α} (h : takeLast p xs = some (y, ys)) :
    y ∈ xs ∧ ∀ x ∈ ys, x ∈ xs := by
  simp only [takeLast, Option.map_eq_some_iff, Prod.exists, Prod.mk.injEq] at h
  obtain ⟨y, zs, hfirst, rfl, rfl⟩ := h
  obtain ⟨hy, hzs⟩ := mem_of_takeFirst hfirst
  exact ⟨List.mem_reverse.1 hy, fun x hx => List.mem_reverse.1 (hzs x (List.mem_reverse.1 hx))⟩

theorem mem_of_takeVictim {q rest : List Entry} {e : Entry} (h : takeVictim q = some (e, rest)) : e ∈ q ∧ ∀ x ∈ rest, x ∈ q := by
  unfold takeVictim at h
  split at h
  next y hy =>
    cases h
    exact mem_of_takeLast hy
  next => exact mem_of_takeLast h

/-- What the offers at the end of a hunt leave of leg l and of slot n, which has no entry in the leg's queue. -/
structure Dev.OffersKeep (d d' : Dev) (l : Fin 4) (n : Nat) : Prop where
  hunt : (d'.leg l).hunt = (d.leg l).hunt
  st : (d'.leg l).st = (d.leg l).st
  chan : (d.leg l).chan = .free → (d'.leg l).chan = .free
  set : ∀ c, d.isSet c = true → d'.isSet c = true
  queue : (∀ e ∈ (d.leg l).queue, e.origin ≠ .cmd n) → ∀ e ∈ (d'.leg l).queue, e.origin ≠ .cmd n
  slot : (∀ e ∈ (d.leg l).queue, e.origin ≠ .cmd n) → d'.slot n = d.slot n

namespace Dev.OffersKeep

variable {l : Fin 4} {n : Nat}

theorem refl (d : Dev) : Dev.OffersKeep d d l n := ⟨rfl, rfl, id, fun _ => id, id, fun _ => rfl⟩

theorem trans {d d1 d2 : Dev} (h : Dev.OffersKeep d d1 l n) (h' : Dev.OffersKeep d1 d2 l n) : Dev.OffersKeep d d2 l n :=
  ⟨h'.hunt.trans h.hunt, h'.st.trans h.st, fun c => h'.chan (h.chan c), fun c hc => h'.set c (h.set c hc), fun q => h'.queue (h.queue q),
    fun q => (h'.slot (h.queue q)).trans (h.slot q)⟩

theorem foldl {α : Type} {f : Dev → α → Dev} (hf : ∀ (d : Dev) (x : α), Dev.OffersKeep d (f d x) l n) (xs : List α) (d : Dev) :
    Dev.OffersKeep d (xs.foldl f d) l n := by
  induction xs generalizing d with
  | nil => exact refl d
  | cons x xs ih => exact (hf d x).trans (ih (f d x))

theorem modRec (d : Dev) (r : Nat) (f : Rec → Rec) : Dev.OffersKeep d (d.modRec r f) l n :=
  ⟨rfl, rfl, id, fun _ => id, id, fun _ => rfl⟩

theorem modLeg (d : Dev) {f : Leg → Leg} (hf : (f (d.leg l)).hunt = (d.leg l).hunt ∧ (f (d.leg l)).st = (d.leg l).st ∧
    (f (d.leg l)).chan = (d.leg l).chan) (hqueue : ∀ e ∈ (f (d.leg l)).queue, e ∈ (d.leg l).queue ∨ e.origin ≠ .cmd n) :
    Dev.OffersKeep d (d.modLeg l f) l n := by
  obtain ⟨hhunt, hst, hchan⟩ := hf
  refine ⟨by rw [Dev.modLeg_leg_self, hhunt], by rw [Dev.modLeg_leg_self, hst], fun h => by rw [Dev.modLeg_leg_self, hchan, h],
    fun _ => id, fun h e he => ?_, fun _ => rfl⟩
  rw [Dev.modLeg_leg_self] at he
  exact (hqueue e he).elim (h e) id

theorem mem_append_singleton {xs ys : List Entry} {y e : Entry} (hxs : ∀ x ∈ xs, x ∈ ys) (hy : y.origin ≠ .cmd n)
    (he : e ∈ xs ++ [y]) : e ∈ ys ∨ e.origin ≠ .cmd n := by
  obtain he | he := List.mem_append.1 he
  · exact .inl (hxs e he)
  · rw [List.mem_singleton.1 he]
    exact .inr hy

theorem abandon (d : Dev) : Dev.OffersKeep d (d.abandon l) l n := by
  cases hx : (d.leg l).inFlight with
  | none =>
    have hsame : d.abandon l = d := by
      unfold Dev.abandon
      rw [hx]
    rw [hsame]
    exact refl d
  | some x =>
    have hleg : (d.abandon l).leg l = { d.leg l with chan := .free } :=
      (congrArg (Legs.get · l) (Dev.abandon_legs hx)).trans (Dev.modLeg_leg_self d l _)
    have hkept := Dev.keepsSlots.abandon d l
    exact ⟨by rw [hleg], by rw [hleg], fun _ => by rw [hleg], fun c hc => by rw [hkept.isSet]; exact hc,
      fun h => by rw [hleg]; exact h, fun _ => congrArg (Sparse.get Slot.idle · n) hkept.1⟩

/-- R47: an entry that is evicted is not slot n's. -/
theorem evicted (d : Dev) {e : Entry} (he : e.origin ≠ .cmd n) : Dev.OffersKeep d (d.evicted l e) l n := by
  unfold Dev.evicted
  split
  next m hm =>
    refine ⟨rfl, rfl, id, fun c hc => Dev.latch_isSet_mono (d.modSlot m _) .cmdDone hc, id, fun _ => ?_⟩
    rw [Dev.complete, Dev.latch_slot]
    exact Dev.modSlot_slot_ne d m n _ fun h => he (by rw [hm, h])
  next => exact refl d
  next r _ => exact (modLeg d (f := fun g => { g with waiting := ⟨r, e.dir⟩ :: g.waiting }) ⟨rfl, rfl, rfl⟩ fun _ h => .inl h).trans (modRec _ r _)
  next => exact refl d

/-- R47: an URGENT entry in a victim's place. -/
theorem offerVictim (d : Dev) {e y : Entry} {q : List Entry} (h : takeVictim (d.leg l).queue = some (e, q)) (hy : y.origin ≠ .cmd n) :
    Dev.OffersKeep d ((d.modLeg l fun g => { g with queue := q ++ [y] }).evicted l e) l n := by
  obtain ⟨hmem, hrest⟩ := mem_of_takeVictim h
  have hplaced : Dev.OffersKeep d (d.modLeg l fun g => { g with queue := q ++ [y] }) l n :=
    modLeg d ⟨rfl, rfl, rfl⟩ fun _ he => mem_append_singleton hrest hy he
  by_cases he : e.origin = .cmd n
  · have hevicted : (d.modLeg l fun g => { g with queue := q ++ [y] }).evicted l e =
        (d.modLeg l fun g => { g with queue := q ++ [y] }).complete n .legBusy .zero := by
      unfold Dev.evicted
      rw [he]
    rw [hevicted]
    exact ⟨hplaced.hunt, hplaced.st, hplaced.chan, fun c hc => Dev.latch_isSet_mono ((d.modLeg l _).modSlot n _) .cmdDone hc, hplaced.queue,
      fun hno => absurd he (hno e hmem)⟩
  · exact hplaced.trans (evicted _ he)

theorem offerUnmute (d : Dev) (r : Nat) : Dev.OffersKeep d (d.offerUnmute l r) l n := by
  have hurgent : Dev.OffersKeep d (d.offerUrgent l (d.record r).unmute (.record r)).1 l n := by
    unfold Dev.offerUrgent
    split
    next =>
      exact modLeg d (f := fun g => { g with queue := g.queue ++ [d.owedEntry r] }) ⟨rfl, rfl, rfl⟩ fun _ he =>
        mem_append_singleton (y := d.owedEntry r) (fun _ h => h) nofun he
    next =>
      split
      next hvictim => exact offerVictim d hvictim nofun
      next => exact refl d
  unfold Dev.offerUnmute Dev.offerUrgentRecord
  dsimp only
  split
  next => exact hurgent
  next =>
    exact (modLeg d (f := fun g => { g with waiting := g.waiting ++ [d.owedWaiter r] }) ⟨rfl, rfl, rfl⟩ fun _ h => .inl h).trans (modRec _ r _)

theorem unmuteInPlace (d : Dev) (r : Nat) : Dev.OffersKeep d (d.unmuteInPlace l r) l n := by
  unfold Dev.unmuteInPlace
  dsimp only
  split
  next e q hfirst =>
    have hplaced : Dev.OffersKeep d (d.modLeg l fun g => { g with queue := q ++ [⟨(d.record r).unmute, .record r⟩] }) l n :=
      modLeg d ⟨rfl, rfl, rfl⟩ fun _ he => mem_append_singleton (y := d.owedEntry r) (mem_of_takeFirst hfirst).2 nofun he
    split
    next => exact hplaced.trans (modRec _ r _)
    next => exact hplaced
  next =>
    split
    next w _ =>
      have hleft : Dev.OffersKeep d ((d.modLeg l fun g => { g with waiting := g.waiting.filter fun v => decide (v.r ≠ r) }).clearWaiting r) l n :=
        (modLeg d ⟨rfl, rfl, rfl⟩ fun _ h => .inl h).trans (modRec _ r _)
      split
      next => exact (hleft.trans (modRec _ r _)).trans (offerUnmute _ r)
      next => exact hleft.trans (offerUnmute _ r)
    next => exact offerUnmute d r

theorem unmuteAfterAbort (d : Dev) (r : Nat) : Dev.OffersKeep d (d.unmuteAfterAbort l r) l n := by
  have hdrop : Dev.OffersKeep d (d.dropLevelFlight l r) l n := by
    unfold Dev.dropLevelFlight
    split
    next =>
      split
      next => exact abandon d
      next => exact refl d
    next => exact refl d
  unfold Dev.unmuteAfterAbort
  split
  next => exact refl d
  next => exact hdrop.trans (unmuteInPlace _ r)

end Dev.OffersKeep

/-! ## With room for every UNMUTE (R143, R157) -/

theorem Dev.mutedOn_sorted {d : Dev} (hrecs : Sparse.wf Rec.vacant d.recs = true) (l : Fin 4) : (d.mutedOn l).Pairwise (· < ·) := by
  have hkeys := (Sparse.pairwise_keys d.recs 0 hrecs).1
  refine hkeys.sublist (List.Sublist.map _ ?_)
  exact List.filter_sublist.trans (List.filter_sublist.trans List.filter_sublist)

/-- R143: the UNMUTEs of `ps` are all that leg l has queued, and a LEVEL of a record of `rs` is all that may be in flight. -/
structure Dev.Owed (d d' : Dev) (l : Fin 4) (ps rs : List Nat) : Prop where
  recs : d'.recs = d.recs
  queue : (d'.leg l).queue = ps.map d.owedEntry
  waiting : (d'.leg l).waiting = []
  chan : (d'.leg l).chan = .free ∨ ∃ x r, (d'.leg l).chan = .directive x ∧ x.origin = .level r ∧ r ∈ rs

theorem Dev.Owed.hasUnmute {d d' : Dev} {l : Fin 4} {ps rs : List Nat} (h : Dev.Owed d d' l ps rs) {r : Nat} (hr : r ∉ ps) :
    (d'.leg l).hasUnmute r = false := by
  have hqueue : (d'.leg l).queue.any (fun e => decide (e.origin = .record r) && decide (e.dir.body = .unmute)) = false := by
    rw [h.queue, List.any_eq_false]
    intro e he
    obtain ⟨p, hp, rfl⟩ := List.mem_map.1 he
    have hne : p ≠ r := fun h => hr (h ▸ hp)
    simp [Dev.owedEntry, hne]
  unfold Leg.hasUnmute
  rw [hqueue, h.waiting]
  obtain hchan | ⟨x, q, hchan, horigin, -⟩ := h.chan
  · rw [Leg.inFlight_free hchan]
    rfl
  · rw [Leg.inFlight_eq_some_iff.2 hchan]
    dsimp only
    rw [horigin]
    rfl

/-- R157: a LEVEL of the next record is dropped. -/
theorem Dev.Owed.dropLevel {d d' : Dev} {l : Fin 4} {ps rs : List Nat} {r : Nat} (h : Dev.Owed d d' l ps (r :: rs)) :
    Dev.Owed d (d'.dropLevelFlight l r) l ps rs := by
  unfold Dev.dropLevelFlight
  obtain hchan | ⟨x, q, hchan, horigin, hq⟩ := h.chan
  · rw [Leg.inFlight_free hchan]
    exact ⟨h.recs, h.queue, h.waiting, .inl hchan⟩
  · rw [Leg.inFlight_eq_some_iff.2 hchan]
    dsimp only
    by_cases hr : q = r
    · subst hr
      rw [if_pos horigin]
      obtain ⟨hrecs, hleg, -, -⟩ := Dev.abandon_rules hchan (by rw [horigin]; exact ⟨nofun, nofun⟩)
      exact ⟨hrecs.trans h.recs, by rw [hleg]; exact h.queue, by rw [hleg]; exact h.waiting, .inl (by rw [hleg])⟩
    · rw [if_neg (by rw [horigin]; exact fun ho => hr (Origin.level.inj ho))]
      exact ⟨h.recs, h.queue, h.waiting, .inr ⟨x, q, hchan, horigin, (List.mem_cons.1 hq).resolve_left hr⟩⟩

theorem Dev.Owed.offer {d d' : Dev} {l : Fin 4} {ps rs : List Nat} {r : Nat} (h : Dev.Owed d d' l ps rs) (hr : r ∉ ps) (hroom : ps.length < 12) :
    Dev.Owed d (d'.unmuteInPlace l r) l (ps ++ [r]) rs := by
  have hfirst : takeFirst (fun e => e.origin.ofRecord r) (d'.leg l).queue = none := by
    rw [h.queue, takeFirst_eq_none_iff]
    intro e he
    obtain ⟨p, hp, rfl⟩ := List.mem_map.1 he
    have hne : p ≠ r := fun h => hr (h ▸ hp)
    simp [Dev.owedEntry, Origin.ofRecord, hne]
  have hplace : d'.unmuteInPlace l r = d'.offerUnmute l r := by
    unfold Dev.unmuteInPlace
    dsimp only
    rw [hfirst, h.waiting]
    rfl
  have hentry : d'.owedEntry r = d.owedEntry r := by
    rw [Dev.owedEntry, Dev.owedEntry, Dev.record, h.recs]
    rfl
  have hlength : (d'.leg l).queue.length < 12 := by rw [h.queue, List.length_map]; exact hroom
  have hleg := Dev.modLeg_leg_self d' l fun g => { g with queue := g.queue ++ [d'.owedEntry r] }
  rw [hplace, Dev.offerUnmute_of_room hlength]
  refine ⟨h.recs, ?_, by rw [hleg]; exact h.waiting, by rw [hleg]; exact h.chan⟩
  rw [hleg]
  dsimp only
  rw [h.queue, hentry, List.map_append]
  rfl

/-- R143: with room for all of them the owed UNMUTEs join the queue in order. -/
theorem Dev.Owed.foldl {d : Dev} {l : Fin 4} (rs : List Nat) {ps : List Nat} {d' : Dev} (h : Dev.Owed d d' l ps rs) (hnodup : (ps ++ rs).Nodup)
    (hlength : (ps ++ rs).length ≤ 12) (hstate : ∀ r ∈ rs, (d.record r).state ≠ .withdrawing) :
    Dev.Owed d (rs.foldl (Dev.unmuteAfterAbort l) d') l (ps ++ rs) [] := by
  induction rs generalizing ps d' with
  | nil => rw [List.append_nil]; exact h
  | cons r rs ih =>
    have hr : r ∉ ps := fun hp => (List.nodup_append.1 hnodup).2.2 r hp r (List.mem_cons_self ..) rfl
    have hroom : ps.length < 12 := by rw [List.length_append, List.length_cons] at hlength; omega
    have hrecord : (d'.record r).state ≠ .withdrawing := by
      rw [Dev.record, h.recs]
      exact hstate r (List.mem_cons_self ..)
    have hon : d'.unmuteAfterAbort l r = (d'.dropLevelFlight l r).unmuteInPlace l r :=
      if_neg (not_or.2 ⟨hrecord, by rw [h.hasUnmute hr]; exact Bool.false_ne_true⟩)
    have hsplit : ps ++ r :: rs = (ps ++ [r]) ++ rs := by rw [List.append_assoc]; rfl
    rw [hsplit] at hnodup hlength ⊢
    rw [List.foldl_cons, hon]
    exact ih (h.dropLevel.offer hr hroom) hnodup hlength fun q hq => hstate q (List.mem_cons_of_mem _ hq)

/-! ## The abort of a hunt (R143, R164) -/

/-- R143: leg l once its hunt directive is abandoned and its survey dropped. -/
def Dev.huntDropped (d : Dev) (l : Fin 4) : Dev := (if (d.leg l).huntFlight then d.abandon l else d).dropHuntSurvey l

theorem Dev.abortHunt_eq (d : Dev) (l : Fin 4) :
    d.abortHunt l = (((d.huntDropped l).endHunt l .aborted none).mutedOn l).foldl (Dev.unmuteAfterAbort l) ((d.huntDropped l).endHunt l .aborted none) := rfl

theorem Dev.abortHuntOf_eq {d : Dev} {l : Fin 4} {n : Nat} (howner : (d.leg l).hunt.owner = some n)
    (hothers : ∀ k, k ≠ l → (d.leg k).hunt.owner ≠ some n) : d.abortHuntOf n = d.abortHunt l := by
  unfold Dev.abortHuntOf
  rw [find?_allLegs (p := fun k => decide ((d.leg k).hunt.owner = some n)) (decide_eq_true howner) fun k hk => decide_eq_false (hothers k hk)]

/-- R132, R143: what stands on the leg before its hunt ends. -/
theorem Dev.huntDropped_rules {d : Dev} (hslots : Sparse.wf Slot.idle d.slots = true) (l : Fin 4) :
    let d' := d.huntDropped l
    let g := d.leg l
    (∃ p c, d'.leg l = { g with pendSurvey := p, chan := c } ∧
      (g.huntFlight = true ∨ (∃ w, g.chan = .survey w ∧ w.reqs.hunt = true) → c = .free) ∧
      (g.huntFlight = false → (∀ w, g.chan ≠ .survey w) → c = g.chan)) ∧
    (g.huntFlight = false → d'.recs = d.recs) ∧ Sparse.wf Slot.idle d'.slots = true ∧ ∀ m, (d'.slot m).params = (d.slot m).params := by
  unfold Dev.huntDropped
  dsimp only
  cases hflight : (d.leg l).huntFlight with
  | true =>
    rw [if_pos rfl]
    obtain ⟨y, q, hchan, -⟩ := (Leg.huntFlight_iff _).1 hflight
    have hin := Leg.inFlight_eq_some_iff.2 hchan
    have hleg : (d.abandon l).leg l = { d.leg l with chan := .free } :=
      (congrArg (Legs.get · l) (Dev.abandon_legs hin)).trans (Dev.modLeg_leg_self d l _)
    have hkept := (Dev.keepsSlots.abandon d l).1
    obtain ⟨p, c, hdropped, -, hstays⟩ := Dev.dropHuntSurvey_dropped (d := d.abandon l) (by rw [hkept]; exact hslots) l
    have hfree : c = .free := by
      rw [hleg] at hstays
      exact hstays nofun
    refine ⟨⟨p, c, by rw [hdropped.leg, hleg], fun _ => hfree, nofun⟩, nofun, hdropped.wf, fun m => (hdropped.params m).trans ?_⟩
    rw [Dev.slot, hkept]
    rfl
  | false =>
    rw [if_neg Bool.false_ne_true]
    obtain ⟨p, c, hdropped, hcloses, hstays⟩ := Dev.dropHuntSurvey_dropped hslots l
    exact ⟨⟨p, c, hdropped.leg, fun h => hcloses (h.resolve_left nofun), fun _ => hstays⟩, fun _ => hdropped.recs, hdropped.wf, hdropped.params⟩

/-- R141, R143: what the abort of a hunt that slot n owns leaves of its leg and its slot. -/
theorem Dev.abortHunt_rules {d : Dev} (hslots : Sparse.wf Slot.idle d.slots = true) {l : Fin 4} {n : Nat}
    (howner : (d.leg l).hunt.owner = some n) (hqueues : ∀ e ∈ (d.leg l).queue, e.origin ≠ .cmd n) :
    let d' := d.abortHunt l
    let g := d.leg l
    (d'.leg l).hunt = { Hunt.idle with steps := g.hunt.steps, lastResult := .aborted } ∧
      (d'.leg l).st = (if g.st = .hunting then .running else g.st) ∧ d'.isSet .huntEnd = true ∧
      (g.huntFlight = true ∨ (∃ w, g.chan = .survey w ∧ w.reqs.hunt = true) → (d'.leg l).chan = .free) ∧
      d'.slot n = { d.slot n with st := .done, result := .aborted, detail := .hunt .aborted g.hunt.steps none, parts := [] } := by
  obtain ⟨⟨p, c, hleg1, hcloses, -⟩, -, hwf, hparams⟩ := Dev.huntDropped_rules hslots l
  dsimp only
  rw [Dev.abortHunt_eq]
  generalize d.huntDropped l = d1 at *
  obtain ⟨-, hleg2, -, hset, -, -, -, hdone⟩ := Dev.endHunt_rules hwf l .aborted
  rw [hleg1] at hdone
  generalize d1.endHunt l .aborted none = d2 at *
  have hkeep := Dev.OffersKeep.foldl (f := Dev.unmuteAfterAbort l) (l := l) (n := n) (fun y r => Dev.OffersKeep.unmuteAfterAbort y r) (d2.mutedOn l) d2
  have hslot : d2.slot n = { d.slot n with st := .done, result := .aborted, detail := .hunt .aborted (d.leg l).hunt.steps none, parts := [] } :=
    slotDone_params (hdone n howner) (hparams n)
  rw [hleg1] at hleg2
  refine ⟨hkeep.hunt.trans (by rw [hleg2]; rfl), hkeep.st.trans ?_, hkeep.set _ hset, fun h => hkeep.chan (by rw [hleg2]; exact hcloses h),
    (hkeep.slot ?_).trans hslot⟩
  · rw [hleg2]
    rfl
  · rw [hleg2]
    exact hqueues

/-- R143, R157: with a FREE channel, or a LEVEL of one of them in flight, and room for all, the UNMUTEs are queued. -/
theorem Dev.abortHunt_queues {d : Dev} (hrecs : Sparse.wf Rec.vacant d.recs = true) (hslots : Sparse.wf Slot.idle d.slots = true) {l : Fin 4}
    (hchan : (d.leg l).chan = .free ∨ ∃ x r, (d.leg l).chan = .directive x ∧ x.origin = .level r ∧ r ∈ d.mutedOn l)
    (hqueue : (d.leg l).queue = []) (hwaiting : (d.leg l).waiting = []) (hlength : (d.mutedOn l).length ≤ 12)
    (hstate : ∀ r ∈ d.mutedOn l, (d.record r).state ≠ .withdrawing) :
    let d' := d.abortHunt l
    (d'.leg l).chan = .free ∧ d'.recs = d.recs ∧ (d'.leg l).queue = (d.mutedOn l).map d.owedEntry := by
  have hflight : (d.leg l).huntFlight = false := by
    refine Bool.eq_false_of_not_eq_true fun hflight => ?_
    obtain ⟨y, q, hdirective, horigin⟩ := (Leg.huntFlight_iff _).1 hflight
    obtain hfree | ⟨x, r, hx, ho, -⟩ := hchan
    · rw [hfree] at hdirective
      cases hdirective
    · obtain rfl : y = x := Chan.directive.inj (hdirective.symm.trans hx)
      rw [horigin] at ho
      cases ho
  have hno : ∀ w, (d.leg l).chan ≠ .survey w := by
    intro w hw
    obtain hfree | ⟨x, r, hx, -⟩ := hchan
    · rw [hfree] at hw
      cases hw
    · rw [hx] at hw
      cases hw
  obtain ⟨⟨p, c, hleg1, -, hstays⟩, hrecs1, hwf, -⟩ := Dev.huntDropped_rules hslots l
  have hc := hstays hflight hno
  have hrecs1 := hrecs1 hflight
  dsimp only
  rw [Dev.abortHunt_eq]
  generalize d.huntDropped l = d1 at *
  obtain ⟨hrecs2, hleg2, -⟩ := Dev.endHunt_rules hwf l .aborted
  generalize d1.endHunt l .aborted none = d2 at *
  have hrecs3 := hrecs2.trans hrecs1
  have hmuted : d2.mutedOn l = d.mutedOn l := by
    unfold Dev.mutedOn Dev.recordsOn Dev.enrolled
    rw [hrecs3]
  rw [hleg1] at hleg2
  have howed : Dev.Owed d d2 l [] (d.mutedOn l) := ⟨hrecs3, by rw [hleg2]; exact hqueue, by rw [hleg2]; exact hwaiting, by
    rw [hleg2]
    dsimp only [Leg.huntEnded]
    rw [hc]
    exact hchan⟩
  have hall := howed.foldl (d.mutedOn l) ((Dev.mutedOn_sorted hrecs l).imp Nat.ne_of_lt) hlength hstate
  rw [hmuted]
  exact ⟨hall.chan.resolve_right (by rintro ⟨_, _, _, _, h⟩; cases h), hall.recs, hall.queue⟩

theorem Dev.abortRunning_service {d : Dev} {n : Nat} (h : examRow (d.slot n).params ∈ [.peek, .poke, .call, .groupCall, .evict]) :
    d.abortRunning n = (allLegs.foldl (Dev.abortServiceOn n) d).complete n .aborted (d.abortedDetail n) := by
  unfold Dev.abortRunning
  simp only [List.mem_cons, List.not_mem_nil, or_false] at h
  obtain h | h | h | h | h := h <;> rw [h]

theorem Dev.abortRunning_survey {d : Dev} {n : Nat} (h : examRow (d.slot n).params = .survey) : d.abortRunning n = d.abortSurvey n := by
  unfold Dev.abortRunning
  rw [h]

theorem Dev.abortRunning_allSurvey {d : Dev} {n : Nat} (h : examRow (d.slot n).params = .allSurvey) : d.abortRunning n = d.abortAllSurvey n := by
  unfold Dev.abortRunning
  rw [h]

theorem Dev.abortRunning_hunt {d : Dev} {n : Nat} (h : examRow (d.slot n).params = .hunt) : d.abortRunning n = d.abortHuntOf n := by
  unfold Dev.abortRunning
  rw [h]

theorem State.abortsRunning.exec {s : State} {n : Fin 16} {data : Word} {be : BitVec 4} (h : s.abortsRunning n data be) :
    ∃ t, exec (.abort n data be) s = .next t ∧ s.writePassed t (s.writeAccess (offIssue n) data be) ∧ t.dev = s.dev.abortRunning n := by
  obtain ⟨haccepts, ⟨hmem, -⟩, -, hbe, hact, hrunning⟩ := h
  refine ⟨s.pass (s.writeAccess (offIssue n) data be), exec_issue haccepts (by simp), State.pass_writePassed hmem rfl, ?_⟩
  rw [s.pass_issue n data hbe]
  dsimp only
  rw [hact, Dev.issue_abort, Dev.issueAbort_running hrunning]

/-- Settles O19: ABORT of a RUNNING slot, by the kind of its command. -/
theorem abortAbandonsTheDirective : Obligations.AbortAbandonsTheDirective := by
  constructor
  · intro s n data be l x h hrow hchan horigin hmany hothers
    obtain ⟨t, hexec, hwrite, hdev⟩ := h.exec
    obtain ⟨-, -, hinv, -⟩ := h
    obtain ⟨hfree, hdone, hrecs, hlegs⟩ := Dev.abortService_flight hinv.good.slots hchan horigin hothers
    have hcut : x.cutDetail = { Detail.zero with a := x.sends } := by
      rw [InFlight.cutDetail, hmany]
      rfl
    have hservice : examRow (s.dev.slot n).params ∈ [.peek, .poke, .call, .groupCall, .evict] := by
      simp only [List.mem_cons, List.not_mem_nil, or_false] at hrow ⊢
      tauto
    rw [hcut] at hdone
    refine ⟨t, hexec, hwrite, ?_⟩
    rw [hdev, Dev.abortRunning_service hservice]
    exact ⟨hfree, hdone, hrecs, hlegs⟩
  · intro s n data be l h g row
    obtain ⟨t, hexec, hwrite, hdev⟩ := h.exec
    obtain ⟨-, -, hinv, -⟩ := h
    have hslots := hinv.good.slots
    refine ⟨t, hexec, hwrite, ?_⟩
    rw [hdev]
    refine ⟨fun x hrow hchan horigin hmany hothers => ?_, fun before e after hrow hqueue horigin hrest hwaiting hflies hothers => ?_,
      fun hrow hparam => ?_, fun hrow => ?_, fun hrow howner hothers hqueues => ?_⟩
    · obtain ⟨hfree, hdone, hrecs, -⟩ := Dev.abortService_flight hslots hchan horigin hothers
      have hcut : x.cutDetail = .groupCall x.sends x.call := by
        rw [InFlight.cutDetail, hmany]
        rfl
      rw [Dev.abortRunning_service (by rw [show examRow (s.dev.slot n).params = .groupCall from hrow]; simp)]
      rw [hcut] at hdone
      exact ⟨hfree, hrecs, hdone⟩
    · rw [Dev.abortRunning_service hrow]
      exact Dev.abortService_queued hslots hqueue horigin hrest hwaiting hflies hothers
    · obtain ⟨hdone, hrecs, hlegs⟩ := Dev.leaveSurveys_complete hslots n (.survey l.val .none 0)
      have habort : s.dev.abortRunning n = (allLegs.foldl (Dev.leaveSurvey n) s.dev).complete n .aborted (.survey l.val .none 0) := by
        rw [Dev.abortRunning_survey hrow, Dev.abortSurvey, hparam]
      intro alone less
      rw [habort]
      refine ⟨hdone, hrecs, fun q hq => ?_, fun w hw hn => ?_⟩
      · rw [hlegs, Leg.withoutSlot_pendSurvey hq]
        exact if_congr (Requesters.leave_isEmpty q n) rfl rfl
      · rw [hlegs, Leg.withoutSlot_chan hw hn]
        exact if_congr (Requesters.leave_isEmpty w.reqs n) rfl rfl
    · obtain ⟨hdone, hrecs, -⟩ := Dev.leaveSurveys_complete hslots n (.allLegs (s.dev.slot n).parts)
      rw [Dev.abortRunning_allSurvey hrow]
      exact ⟨hdone, hrecs⟩
    · have hnone : ∀ e ∈ g.queue, e.origin ≠ .cmd n := by
        have hany := List.any_eq_false.1 hqueues
        exact fun e he ho => hany e he (decide_eq_true ho)
      obtain ⟨hhunt, hst, hset, hfree, hslot⟩ := Dev.abortHunt_rules hslots howner hnone
      rw [Dev.abortRunning_hunt hrow, Dev.abortHuntOf_eq howner hothers]
      exact ⟨hhunt, hst, hset, hfree, hslot, fun hchan hqueue hwaiting hlength hstate =>
        Dev.abortHunt_queues hinv.good.recs hslots hchan hqueue hwaiting hlength hstate⟩

end Sys2Proof.Machine
end

section
/-! PROOFS. FLT asserted: what a record that stops does when the leg's channel is FREE and its queue and waiting list are empty (R12, R58,
R109, R110). -/

namespace Sys2Proof.Machine

/-! ## Serving the pin-wait list beside a leg without work -/

/-- The record is of leg l and in a stage: it has work there. -/
def Rec.works (x : Rec) (l : Fin 4) : Prop := x.enrol.leg = l ∧ x.state.isStage = true

/-- Nobody who waits for a pin-table entry has work on leg l. -/
def Dev.unserved (d : Dev) (l : Fin 4) : Prop := ∀ q ∈ d.pinWait, ¬ (d.record q).works l

/-- What joins a leg's queue and waiting list joins at their backs. -/
def Leg.grows (g g' : Leg) : Prop := ∃ q w, g' = { g with queue := g.queue ++ q, waiting := g.waiting ++ w }

theorem Leg.grows_refl (g : Leg) : g.grows g := ⟨[], [], by rw [List.append_nil, List.append_nil]⟩

theorem Leg.grows_trans {g g' g'' : Leg} (h : g.grows g') (h' : g'.grows g'') : g.grows g'' := by
  obtain ⟨q, w, rfl⟩ := h
  obtain ⟨q', w', rfl⟩ := h'
  exact ⟨q ++ q', w ++ w', by rw [List.append_assoc, List.append_assoc]⟩

theorem Leg.grows_queue (g : Leg) (q : List Entry) : g.grows { g with queue := g.queue ++ q } := ⟨q, [], by rw [List.append_nil]⟩

theorem Leg.grows_waiting (g : Leg) (w : List Waiter) : g.grows { g with waiting := g.waiting ++ w } := ⟨[], w, by rw [List.append_nil]⟩

/-- What serving waiting records does to the legs, where leg l has no work for them. -/
structure Dev.Served (d d' : Dev) (l : Fin 4) : Prop where
  frame : Dev.Frame d d'
  legs : ∀ k, (d.leg k).grows (d'.leg k)
  leg : d'.leg l = d.leg l
  fetches : d'.fetches = d.fetches
  pinWait : ∀ q ∈ d'.pinWait, q ∈ d.pinWait

theorem Dev.Frame.works {d d' : Dev} (h : Dev.Frame d d') (q : Nat) (l : Fin 4) : (d'.record q).works l ↔ (d.record q).works l := by
  rw [Rec.works, Rec.works, h.enrol, h.state]

theorem Dev.Frame.unserved {d d' : Dev} (h : Dev.Frame d d') {l : Fin 4} (hwait : ∀ q ∈ d'.pinWait, q ∈ d.pinWait) (hnone : d.unserved l) :
    d'.unserved l := fun q hq hworks => hnone q (hwait q hq) ((h.works q l).1 hworks)

namespace Dev.Served

variable {d d' d'' : Dev} {l : Fin 4}

theorem refl (hrecs : Sparse.wf Rec.vacant d.recs = true) : Dev.Served d d l :=
  ⟨.refl hrecs, fun k => (d.leg k).grows_refl, rfl, rfl, fun _ => id⟩

theorem trans (h : Dev.Served d d' l) (h' : Dev.Served d' d'' l) : Dev.Served d d'' l :=
  ⟨h.frame.trans h'.frame, fun k => Leg.grows_trans (h.legs k) (h'.legs k), h'.leg.trans h.leg, h'.fetches.trans h.fetches,
    fun q hq => h.pinWait q (h'.pinWait q hq)⟩

theorem unserved (h : Dev.Served d d' l) (hnone : d.unserved l) : d'.unserved l := h.frame.unserved h.pinWait hnone

/-- A step that touches no leg and no fetch. -/
theorem of_frame (h : Dev.Frame d d') (hlegs : d'.legs = d.legs) (hfetches : d'.fetches = d.fetches) (hwait : ∀ q ∈ d'.pinWait, q ∈ d.pinWait) :
    Dev.Served d d' l := by
  have hleg (k : Fin 4) : d'.leg k = d.leg k := congrArg (Legs.get · k) hlegs
  exact ⟨h, fun k => by rw [hleg]; exact (d.leg k).grows_refl, hleg l, hfetches, hwait⟩

/-- R46: a record's work joins its own leg. -/
theorem offerStage (hrecs : Sparse.wf Rec.vacant d.recs = true) {k : Fin 4} (hk : k ≠ l) (r : Nat) (dir : Directive) :
    Dev.Served d (d.offerStage k r dir) l := by
  have hframe := Dev.Frame.offerStage hrecs k r dir
  have hgrows (f : Leg → Leg) (hf : (d.leg k).grows (f (d.leg k))) (j : Fin 4) : (d.leg j).grows ((d.modLeg k f).leg j) := by
    rw [Dev.modLeg_leg]
    split
    next hj => subst hj; exact hf
    next => exact (d.leg j).grows_refl
  revert hframe
  unfold Dev.offerStage
  split
  next =>
    exact fun hframe => ⟨hframe, hgrows _ (Leg.grows_queue _ _), Dev.modLeg_leg_ne _ _ _ _ hk.symm, rfl, fun _ => id⟩
  next =>
    let waits (g : Leg) : Leg := { g with waiting := g.waiting ++ [⟨r, dir⟩] }
    exact fun hframe => ⟨hframe, hgrows waits (Leg.grows_waiting _ _), Dev.modLeg_leg_ne d k l waits hk.symm, rfl, fun _ => id⟩

theorem offerWork (hrecs : Sparse.wf Rec.vacant d.recs = true) {r : Nat} (hr : ¬ (d.record r).works l) : Dev.Served d (d.offerWork r) l := by
  cases hdir : (d.record r).stageDirective with
  | none =>
    rw [Dev.offerWork_of_none hdir]
    exact refl hrecs
  | some dir =>
    have hstage : (d.record r).state.isStage = true := by
      by_contra hnot
      rw [Rec.stageDirective_of_not_stage (Bool.eq_false_of_not_eq_true hnot)] at hdir
      cases hdir
    unfold Dev.offerWork
    dsimp only
    rw [hdir]
    dsimp only
    split
    next => exact refl hrecs
    next => exact offerStage hrecs (fun hleg => hr ⟨hleg, hstage⟩) r dir

theorem foldl_offerWork (rs : List Nat) (hrecs : Sparse.wf Rec.vacant d.recs = true) (hnone : ∀ r ∈ rs, ¬ (d.record r).works l) :
    Dev.Served d (rs.foldl Dev.offerWork d) l := by
  induction rs generalizing d with
  | nil => exact refl hrecs
  | cons r rs ih =>
    have hstep := offerWork hrecs (hnone r List.mem_cons_self)
    exact hstep.trans (ih hstep.frame.recs fun q hq hworks => hnone q (List.mem_cons_of_mem _ hq) ((hstep.frame.works q l).1 hworks))

theorem foldl_joinPin (i : Nat) (rs : List Nat) (hrecs : Sparse.wf Rec.vacant d.recs = true) :
    Dev.Served d (rs.foldl (fun y q => y.joinPin i q) d) l := by
  induction rs generalizing d with
  | nil => exact refl hrecs
  | cons r rs ih =>
    have hstep := Dev.Frame.joinPin hrecs i r
    exact (of_frame hstep rfl rfl fun _ => id).trans (ih hstep.recs)

theorem servePin (hrecs : Sparse.wf Rec.vacant d.recs = true) (i : Nat) {r : Nat} {rest : List Nat} (hwait : d.pinWait = r :: rest)
    (hnone : d.unserved l) : Dev.Served d (d.servePin i r rest) l := by
  rw [Dev.servePin_eq]
  have hopen : Dev.Served d (({ d with pinWait := rest.filter fun q => !d.sameRange r q } : Dev).openFree i (d.record r).enrol) l := by
    refine of_frame (.other hrecs rfl rfl rfl rfl) rfl rfl fun q hq => ?_
    rw [hwait]
    exact List.mem_cons_of_mem _ (List.mem_of_mem_filter hq)
  have hjoined := hopen.trans (foldl_joinPin i (r :: rest.filter (d.sameRange r)) hopen.frame.recs)
  refine hjoined.trans (foldl_offerWork _ hjoined.frame.recs fun q hq hworks => hnone q ?_ ((hjoined.frame.works q l).1 hworks))
  rw [hwait]
  rcases List.mem_cons.1 hq with rfl | hq
  · exact List.mem_cons_self
  · exact List.mem_cons_of_mem _ (List.mem_of_mem_filter hq)

theorem servePins (n : Nat) (hrecs : Sparse.wf Rec.vacant d.recs = true) (hnone : d.unserved l) : Dev.Served d (d.servePins n) l := by
  induction n generalizing d with
  | zero => exact refl hrecs
  | succ n ih =>
    unfold Dev.servePins
    split
    next r rest i hwait hfree =>
      have hstep := servePin hrecs i hwait hnone
      exact hstep.trans (ih hstep.frame.recs (hstep.unserved hnone))
    next => exact refl hrecs
    next => exact refl hrecs

/-- R110: the release of a record's entry, or of its place in the pin-wait list. -/
theorem pinRelease (hrecs : Sparse.wf Rec.vacant d.recs = true) (hnone : d.unserved l) (r : Nat) : Dev.Served d (d.pinRelease r) l := by
  unfold Dev.pinRelease
  dsimp only
  split
  next =>
    have hleft : Dev.Frame d { d with pinWait := without d.pinWait r } := .other hrecs rfl rfl rfl rfl
    have hcleared : Dev.Frame { d with pinWait := without d.pinWait r }
        (({ d with pinWait := without d.pinWait r } : Dev).modRec r fun y => { y with pinWait := false }) := .modRec hleft.recs r _ rfl
    exact of_frame (hleft.trans hcleared) rfl rfl fun q hq => List.mem_of_mem_filter hq
  next =>
    split
    next i _ =>
      have hcleared : Dev.Served d (d.modRec r fun y => { y with pin := none }) l :=
        of_frame (.modRec hrecs r _ rfl) rfl rfl fun _ => id
      refine hcleared.trans ?_
      unfold Dev.dropPinUse
      dsimp only
      split
      next =>
        have hfreed : Dev.Served (d.modRec r fun y => { y with pin := none }) ((d.modRec r fun y => { y with pin := none }).putPin i .free) l :=
          of_frame (.other hcleared.frame.recs rfl rfl rfl rfl) rfl rfl fun _ => id
        exact hfreed.trans (servePins _ hfreed.frame.recs ((hcleared.trans hfreed).unserved hnone))
      next => exact of_frame (.other hcleared.frame.recs rfl rfl rfl rfl) rfl rfl fun _ => id
    next => exact refl hrecs

end Dev.Served

/-! ## A record's place and its directive in flight (R12) -/

/-- Nothing of the leg's work is left: the channel is FREE, nothing is queued and nobody waits. -/
def Leg.emptied (g : Leg) : Prop := g.chan = .free ∧ g.queue = [] ∧ g.waiting = []

/-- R48: WAITING clears, or the record stands. -/
def Rec.mayUnwait (x y : Rec) : Prop := ∃ b : Bool, y = { x with waiting := x.waiting && b }

theorem Rec.mayUnwait_refl (x : Rec) : x.mayUnwait x := ⟨true, by rw [Bool.and_true]⟩

theorem Rec.mayUnwait_trans {x y z : Rec} (h : x.mayUnwait y) (h' : y.mayUnwait z) : x.mayUnwait z := by
  obtain ⟨b, rfl⟩ := h
  obtain ⟨b', rfl⟩ := h'
  exact ⟨b && b', by rw [Bool.and_assoc]⟩

theorem Rec.mayUnwait.sameButPin {x y : Rec} (h : x.mayUnwait y) : x.sameButPin y := by
  obtain ⟨b, rfl⟩ := h
  exact ⟨_, _, _, rfl⟩

theorem Dev.clearWaiting_mayUnwait {d : Dev} (hrecs : Sparse.wf Rec.vacant d.recs = true) (r q : Nat) :
    (d.record q).mayUnwait ((d.clearWaiting r).record q) := by
  by_cases hq : q = r
  · subst hq
    exact ⟨false, by rw [Dev.clearWaiting, Dev.modRec_record_self d q _ hrecs, Bool.and_false]⟩
  · rw [Dev.clearWaiting, Dev.modRec_record_ne d r q _ hq]
    exact Rec.mayUnwait_refl _

theorem Dev.unqueue_mayUnwait {d : Dev} (hrecs : Sparse.wf Rec.vacant d.recs = true) (k : Fin 4) (r q : Nat) :
    (d.record q).mayUnwait ((d.unqueue k r).record q) := by
  unfold Dev.unqueue
  split
  next =>
    rw [Dev.fillQueue_eq, Dev.foldl_clearWaiting_record _ (d := (d.modLeg k _).modLeg k _) hrecs]
    exact ⟨_, rfl⟩
  next =>
    split
    next => exact Dev.clearWaiting_mayUnwait (d := d.modLeg k _) hrecs r q
    next => exact Rec.mayUnwait_refl _

theorem Dev.unqueue_leg_ne (d : Dev) {k l : Fin 4} (hl : l ≠ k) (r : Nat) : (d.unqueue k r).leg l = d.leg l := by
  unfold Dev.unqueue
  split
  next => rw [Dev.fillQueue_leg, Dev.modLeg_leg_ne _ _ _ _ hl, Dev.modLeg_leg_ne _ _ _ _ hl]
  next =>
    split
    next => rw [Dev.clearWaiting, Dev.modRec_leg, Dev.modLeg_leg_ne _ _ _ _ hl]
    next => rfl

theorem Dev.foldl_clearWaiting_pinWait (rs : List Nat) (d : Dev) : (rs.foldl Dev.clearWaiting d).pinWait = d.pinWait := by
  induction rs generalizing d with
  | nil => rfl
  | cons r rs ih => exact ih _

theorem Dev.unqueue_pinWait (d : Dev) (k : Fin 4) (r : Nat) : (d.unqueue k r).pinWait = d.pinWait := by
  unfold Dev.unqueue
  split
  next =>
    rw [Dev.fillQueue_eq]
    exact Dev.foldl_clearWaiting_pinWait _ _
  next =>
    split
    next => rfl
    next => rfl

/-- R4, R52: of the records, an UNMUTE in flight concerns its own. -/
theorem Dev.unmuteEnded_record_ne {d : Dev} {x : InFlight} {q : Nat} (h : x.dir.body = .unmute → x.origin ≠ .record q ∧ x.origin ≠ .hunt q) :
    (d.unmuteEnded x).record q = d.record q := by
  unfold Dev.unmuteEnded
  split
  next r hbody horigin =>
    refine Dev.modRec_record_ne d r q _ fun hq => ?_
    rw [hq] at h
    exact (h hbody).1 horigin
  next r hbody horigin =>
    refine Dev.modRec_record_ne d r q _ fun hq => ?_
    rw [hq] at h
    exact (h hbody).2 horigin
  next => rfl

section
variable {d : Dev} {l : Fin 4}

theorem Leg.emptied.hasNobody {g : Leg} (h : g.emptied) (r : Nat) : g.hasEntry r = false ∧ g.isWaiting r = false ∧ g.inFlight = none := by
  obtain ⟨hchan, hqueue, hwaiting⟩ := h
  exact ⟨by rw [Leg.hasEntry, hqueue]; rfl, by rw [Leg.isWaiting, hwaiting]; rfl, Leg.inFlight_free hchan⟩

/-- A record of the leg has nothing there to be taken away. -/
theorem Dev.unplaced_self (hempty : (d.leg l).emptied) {r : Nat} (hr : (d.record r).enrol.leg = l) : d.unplaced r = d := by
  subst hr
  obtain ⟨hentry, hwaiting, hflight⟩ := hempty.hasNobody r
  rw [Dev.unplaced, Dev.unqueue_eq_self hentry hwaiting, Dev.abandonOf_eq_self hflight]

theorem Dev.unplaced_leg (hempty : (d.leg l).emptied) (r : Nat) : (d.unplaced r).leg l = d.leg l := by
  by_cases hr : (d.record r).enrol.leg = l
  · rw [Dev.unplaced_self hempty hr]
  · have hunqueue := Dev.unqueue_leg_ne d (Ne.symm hr) r
    unfold Dev.unplaced Dev.abandonOf
    split
    next hhas =>
      obtain ⟨x, hx, -⟩ := Leg.hasFlight_eq_true hhas
      have hlegs := congrArg (Legs.get · l) (Dev.abandon_legs hx)
      exact hlegs.trans ((Dev.modLeg_leg_ne _ _ _ _ (Ne.symm hr)).trans hunqueue)
    next => exact hunqueue

theorem Dev.unplaced_pinWait (d : Dev) (r : Nat) : (d.unplaced r).pinWait = d.pinWait := by
  unfold Dev.unplaced Dev.abandonOf
  split
  next hhas =>
    obtain ⟨x, hx, -⟩ := Leg.hasFlight_eq_true hhas
    exact (Dev.abandon_pinWait hx).trans (Dev.unqueue_pinWait d _ r)
  next => exact Dev.unqueue_pinWait d _ r

theorem Dev.unplaced_frame (hrecs : Sparse.wf Rec.vacant d.recs = true) (r : Nat) : Dev.Frame d (d.unplaced r) := by
  have hunqueue := Dev.Frame.unqueue hrecs (d.record r).enrol.leg r
  unfold Dev.unplaced Dev.abandonOf
  split
  next => exact hunqueue.trans (.abandon hunqueue.recs _)
  next => exact hunqueue

/-- R48: to the other records, it can only give a place in the queue. -/
theorem Dev.unplaced_mayUnwait (hrecs : Sparse.wf Rec.vacant d.recs = true) {r q : Nat} (hq : q ≠ r) :
    (d.record q).mayUnwait ((d.unplaced r).record q) := by
  have hunqueue := Dev.unqueue_mayUnwait hrecs (d.record r).enrol.leg r q
  unfold Dev.unplaced Dev.abandonOf
  split
  next hhas =>
    obtain ⟨x, hx, hof⟩ := Leg.hasFlight_eq_true hhas
    have hnot : x.origin ≠ .record q ∧ x.origin ≠ .hunt q := by
      constructor
      · intro horigin
        rw [Origin.ofRecord, horigin] at hof
        simp [hq] at hof
      · intro horigin
        rw [Origin.ofRecord, horigin] at hof
        simp at hof
    rw [Dev.abandon_eq hx, Dev.unmuteEnded_record_ne fun _ => hnot, Dev.cancelFetch_record]
    exact hunqueue
  next => exact hunqueue

end

/-! ## Stopping a record beside a leg without work (R12, R13, R19) -/

/-- Leg l is without work, and nobody who waits for a pin-table entry has any for it. -/
structure Dev.Ready (d : Dev) (l : Fin 4) : Prop where
  recs : Sparse.wf Rec.vacant d.recs = true
  slotMap : Sparse.wf 0 (d.leg l).slotMap = true
  emptied : (d.leg l).emptied
  unserved : d.unserved l

/-- What the end of the work of a FAULTED leg l does, `p` being the records that stop: of leg l only the slot map changes, by the slots of
the stopped records; the other records keep all but what the pin table gives, those that do not wait for an entry all but WAITING. -/
structure Dev.Flushes (d d' : Dev) (l : Fin 4) (p : Nat → Prop) : Prop where
  recs : Sparse.wf Rec.vacant d'.recs = true
  leg : ∃ m, Sparse.wf 0 m = true ∧ d'.leg l = { d.leg l with slotMap := m }
  bytes : ∀ b k, (∀ q, p q → (d.record q).enrol.leg = l → (d.record q).label ≠ some b) → (d.leg l).slotByte k = b → (d'.leg l).slotByte k = b
  record : ∀ q, (d.record q).sameButPin (d'.record q) ∨ (p q ∧ (d'.record q).label = none ∧ (d'.record q).state.isStage = false)
  unwaited : ∀ q, ¬ p q → q ∉ d.pinWait → (d.record q).mayUnwait (d'.record q)
  pinWait : ∀ q ∈ d'.pinWait, q ∈ d.pinWait
  ring : d'.ring = d.ring
  intake : d'.intake = d.intake

theorem Rec.sameButPin.works {x y : Rec} (h : x.sameButPin y) (l : Fin 4) : y.works l ↔ x.works l := by
  obtain ⟨_, _, _, rfl⟩ := h
  exact Iff.rfl

theorem Rec.sameButPin.label {x y : Rec} (h : x.sameButPin y) : y.label = x.label := by
  obtain ⟨_, _, _, rfl⟩ := h
  rfl

theorem Rec.sameButPin.leg {x y : Rec} (h : x.sameButPin y) : y.enrol.leg = x.enrol.leg := by
  obtain ⟨_, _, _, rfl⟩ := h
  rfl

namespace Dev.Flushes

variable {d d' d'' : Dev} {l : Fin 4} {p p' : Nat → Prop}

theorem emptied (h : Dev.Flushes d d' l p) (hempty : (d.leg l).emptied) : (d'.leg l).emptied := by
  obtain ⟨m, -, hleg⟩ := h.leg
  rw [hleg]
  exact hempty

theorem ready (h : Dev.Flushes d d' l p) (hready : Dev.Ready d l) : Dev.Ready d' l where
  recs := h.recs
  slotMap := by
    obtain ⟨m, hm, hleg⟩ := h.leg
    rw [hleg]
    exact hm
  emptied := h.emptied hready.emptied
  unserved q hq hworks := by
    rcases h.record q with hsame | ⟨-, -, hstate⟩
    · exact hready.unserved q (h.pinWait q hq) ((hsame.works l).1 hworks)
    · exact Bool.false_ne_true (hstate.symm.trans hworks.2)

/-- A record that does not stop. -/
theorem others (h : Dev.Flushes d d' l p) {q : Nat} (hq : ¬ p q) : (d.record q).sameButPin (d'.record q) :=
  (h.record q).resolve_right fun hstop => hq hstop.1

theorem refl (h : Dev.Ready d l) : Dev.Flushes d d l p :=
  ⟨h.recs, ⟨_, h.slotMap, rfl⟩, fun _ _ _ => id, fun _ => .inl (Rec.sameButPin_refl _), fun _ _ _ => Rec.mayUnwait_refl _, fun _ => id, rfl, rfl⟩

theorem mono (h : Dev.Flushes d d' l p) (hp : ∀ q, p q → p' q) : Dev.Flushes d d' l p' :=
  ⟨h.recs, h.leg, fun b k hlabel => h.bytes b k fun q hq => hlabel q (hp q hq), fun q => (h.record q).imp_right (And.imp_left (hp q)),
    fun q hq => h.unwaited q fun hp' => hq (hp q hp'), h.pinWait, h.ring, h.intake⟩

theorem trans (h : Dev.Flushes d d' l p) (h' : Dev.Flushes d' d'' l p') : Dev.Flushes d d'' l fun q => p q ∨ p' q where
  recs := h'.recs
  leg := by
    obtain ⟨m, -, hleg⟩ := h.leg
    obtain ⟨m', hm', hleg'⟩ := h'.leg
    exact ⟨m', hm', by rw [hleg', hleg]⟩
  bytes b k hlabel hbyte := by
    refine h'.bytes b k (fun q hq hleg => ?_) (h.bytes b k (fun q hq => hlabel q (.inl hq)) hbyte)
    rcases h.record q with hsame | ⟨-, hnone, -⟩
    · rw [hsame.label]
      exact hlabel q (.inr hq) (hsame.leg.symm.trans hleg)
    · rw [hnone]
      exact nofun
  record q := by
    rcases h'.record q with hsame' | ⟨hp', hend⟩
    · rcases h.record q with hsame | ⟨hp, hlabel, hstate⟩
      · exact .inl (Rec.sameButPin_trans hsame hsame')
      · obtain ⟨_, _, _, hrecord⟩ := hsame'
        rw [hrecord]
        exact .inr ⟨.inl hp, hlabel, hstate⟩
    · exact .inr ⟨.inr hp', hend⟩
  unwaited q hq hwait := Rec.mayUnwait_trans (h.unwaited q (fun hp => hq (.inl hp)) hwait)
    (h'.unwaited q (fun hp => hq (.inr hp)) fun hmem => hwait (h.pinWait q hmem))
  pinWait q hq := h.pinWait q (h'.pinWait q hq)
  ring := h'.ring.trans h.ring
  intake := h'.intake.trans h.intake

/-- A step that touches neither the roster, the legs nor the pin-wait list. -/
theorem of_rest (h : Dev.Flushes d d' l p) (hrecs : d''.recs = d'.recs) (hlegs : d''.legs = d'.legs) (hwait : d''.pinWait = d'.pinWait)
    (hring : d''.ring = d'.ring) (hintake : d''.intake = d'.intake) : Dev.Flushes d d'' l p := by
  have hleg (k : Fin 4) : d''.leg k = d'.leg k := congrArg (Legs.get · k) hlegs
  have hrecord (q : Nat) : d''.record q = d'.record q := congrArg (Sparse.get Rec.vacant · q) hrecs
  obtain ⟨h1, h2, h3, h4, h5, h6, h7, h8⟩ := h
  refine ⟨by rw [hrecs]; exact h1, by rw [hleg]; exact h2, by rw [hleg]; exact h3, fun q => by rw [hrecord]; exact h4 q,
    fun q => by rw [hrecord]; exact h5 q, by rw [hwait]; exact h6, hring.trans h7, hintake.trans h8⟩

/-- The steps of a list of jobs. -/
theorem foldl {α : Type} {f : Dev → α → Dev} {stops : α → Nat → Prop} (hf : ∀ y x, Dev.Ready y l → Dev.Flushes y (f y x) l (stops x))
    (xs : List α) (h : Dev.Ready d l) : Dev.Flushes d (xs.foldl f d) l fun q => ∃ x ∈ xs, stops x q := by
  induction xs generalizing d with
  | nil => exact refl h
  | cons x xs ih =>
    have hstep := hf d x h
    refine (hstep.trans (ih (hstep.ready h))).mono fun q hq => ?_
    rcases hq with hq | ⟨y, hy, hq⟩
    · exact ⟨x, List.mem_cons_self, hq⟩
    · exact ⟨y, List.mem_cons_of_mem _ hy, hq⟩

end Dev.Flushes

/-- Record r drops its resources and is then as `f` says. -/
def Dev.stopped (d : Dev) (r : Nat) (f : Rec → Rec) : Dev := (d.drop r).modRec r f

theorem Dev.vacate_eq_stopped (d : Dev) (r : Nat) : d.vacate r = d.stopped r fun _ => Rec.vacant := rfl

theorem Dev.haltWith_eq_stopped (d : Dev) (r : Nat) (f : FaultCode) (st : Option RecState) :
    d.haltWith r f st = (d.stopped r fun x => { x with state := .halted, stage := st, fault := f }).latch .recHalted := rfl

theorem Dev.slotRelease_record_ne (d : Dev) {r q : Nat} (h : q ≠ r) : (d.slotRelease r).record q = d.record q := by
  unfold Dev.slotRelease
  dsimp only
  split
  next => exact Dev.modRec_record_ne (d.modLeg _ _) r q _ h
  next => rfl

/-- R124: the slots that hold the record's label are freed, on its own leg. -/
theorem Dev.slotRelease_slots {d : Dev} {l : Fin 4} (hm : Sparse.wf 0 (d.leg l).slotMap = true) (r : Nat) :
    (∃ m, Sparse.wf 0 m = true ∧ (d.slotRelease r).leg l = { d.leg l with slotMap := m }) ∧
      ∀ b k, ((d.record r).enrol.leg = l → (d.record r).label ≠ some b) → (d.leg l).slotByte k = b → ((d.slotRelease r).leg l).slotByte k = b := by
  unfold Dev.slotRelease
  dsimp only
  split
  next b' hlabel =>
    rw [Dev.modRec_leg, Dev.modLeg_leg]
    split
    next hleg =>
      rw [← hleg]
      refine ⟨⟨_, Sparse.filter_wf _ _ hm, rfl⟩, fun b k hnot hbyte => ?_⟩
      have hb : b ≠ b' := fun h => hnot rfl (hlabel.trans (congrArg some h.symm))
      have hget := Sparse.get_filter_ne hm b' k
      have hbyte' : Sparse.get 0 (d.leg l).slotMap k = b := hbyte
      rw [hbyte', if_neg hb] at hget
      exact hget
    next => exact ⟨⟨_, hm, rfl⟩, fun _ _ _ => id⟩
  next => exact ⟨⟨_, hm, rfl⟩, fun _ _ _ => id⟩

theorem Dev.slotRelease_rest (d : Dev) (r : Nat) :
    (d.slotRelease r).pinWait = d.pinWait ∧ (d.slotRelease r).fetches = d.fetches ∧ (d.slotRelease r).pins = d.pins := by
  unfold Dev.slotRelease
  dsimp only
  split
  next => exact ⟨rfl, rfl, rfl⟩
  next => exact ⟨rfl, rfl, rfl⟩

theorem Dev.pinRelease_kept {d : Dev} (hrecs : Sparse.wf Rec.vacant d.recs = true) {r q : Nat} (hq : q ≠ r) (hwait : q ∉ d.pinWait) :
    (d.pinRelease r).record q = d.record q := by
  unfold Dev.pinRelease
  dsimp only
  split
  next => exact Dev.modRec_record_ne { d with pinWait := without d.pinWait r } r q _ hq
  next =>
    split
    next i _ =>
      refine (Dev.dropPinUse_kept (d := d.modRec r _) (Dev.modRec_recs_wf d r _ hrecs) i hwait).trans ?_
      exact Dev.modRec_record_ne d r q _ hq
    next => rfl

/-- R12, R13, R19: a record that stops gives back its slots; of leg l's work nothing comes back. -/
theorem Dev.Ready.stopped {d : Dev} {l : Fin 4} (h : Dev.Ready d l) (r : Nat) {f : Rec → Rec}
    (hlabel : ∀ x : Rec, x.label = none → (f x).label = none) (hstate : ∀ x : Rec, (f x).state.isStage = false) :
    Dev.Flushes d (d.stopped r f) l (· = r) := by
  have hplaced := Dev.unplaced_frame h.recs r
  have hserved := Dev.Served.pinRelease (l := l) hplaced.recs
    (hplaced.unserved (fun q hq => by rw [Dev.unplaced_pinWait] at hq; exact hq) h.unserved) r
  have hleg := hserved.leg.trans (Dev.unplaced_leg h.emptied r)
  obtain ⟨hmap, hbytes⟩ := Dev.slotRelease_slots (d := (d.unplaced r).pinRelease r) (l := l) (by rw [hleg]; exact h.slotMap) r
  obtain ⟨hwait, -, -⟩ := Dev.slotRelease_rest ((d.unplaced r).pinRelease r) r
  have hreleased := Dev.Frame.slotRelease hserved.frame.recs r
  have hdrop := Dev.Frame.drop h.recs r
  have hself := Dev.modRec_record_self (d.drop r) r f hdrop.recs
  have hother {q : Nat} (hq : q ≠ r) : (d.stopped r f).record q = ((d.unplaced r).pinRelease r).record q :=
    (Dev.modRec_record_ne (d.drop r) r q f hq).trans
      ((Dev.modRec_record_ne _ r q _ hq).trans (Dev.slotRelease_record_ne _ hq))
  have hown : (((d.unplaced r).pinRelease r).record r).label = (d.record r).label := by
    obtain ⟨w, m, hflags⟩ : (d.record r).sameButFlags ((d.unplaced r).record r) :=
      Rec.sameButFlags_trans (Dev.unqueue_sameButFlags h.recs _ r r)
        (Dev.abandonOf_sameButFlags (Dev.Frame.unqueue h.recs _ r).recs _ r r)
    rw [(Dev.pinRelease_sameButPin hplaced.recs r r).label, hflags]
  exact {
    recs := Dev.modRec_recs_wf _ _ _ hdrop.recs
    leg := by
      obtain ⟨m, hm, hmap⟩ := hmap
      exact ⟨m, hm, hmap.trans (by rw [hleg])⟩
    bytes := fun b k hnot hbyte => by
      refine hbytes b k (fun henrol => ?_) (by rw [hleg]; exact hbyte)
      rw [hown]
      refine hnot r rfl ?_
      rw [← hplaced.enrol, ← hserved.frame.enrol]
      exact henrol
    record := fun q => by
      by_cases hq : q = r
      · subst hq
        have hrecord : (d.stopped q f).record q = f ((d.drop q).record q) := hself
        rw [hrecord]
        exact .inr ⟨rfl, hlabel _ (Dev.drop_label h.recs q), hstate _⟩
      · rw [hother hq]
        exact .inl (Rec.sameButPin_trans (Dev.unplaced_mayUnwait h.recs hq).sameButPin (Dev.pinRelease_sameButPin hplaced.recs r q))
    unwaited := fun q hq hnone => by
      rw [hother hq, Dev.pinRelease_kept hplaced.recs hq (by rw [Dev.unplaced_pinWait]; exact hnone)]
      exact Dev.unplaced_mayUnwait h.recs hq
    pinWait := fun q hq => by
      have hq' : q ∈ (((d.unplaced r).pinRelease r).slotRelease r).pinWait := hq
      rw [hwait] at hq'
      have hmem := hserved.pinWait q hq'
      rw [Dev.unplaced_pinWait] at hmem
      exact hmem
    ring := hdrop.ring
    intake := hdrop.keeps.intake }

end Sys2Proof.Machine
end

section
/-! PROOFS. FLT asserted: the directives that the leg holds, in flight, queued and waiting, dealt with one after another (R52, R58, R59). -/

namespace Sys2Proof.Machine

/-! ## What the leg holds -/

/-- A directive that a leg holds. -/
inductive Held
  | flight (x : InFlight)
  | entry (e : Entry)
  | waiter (w : Waiter)

def Held.dir : Held → Directive
  | .flight x => x.dir
  | .entry e => e.dir
  | .waiter w => w.dir

def Held.origin : Held → Origin
  | .flight x => x.origin
  | .entry e => e.origin
  | .waiter w => .record w.r

/-- R149, R154: the detail with which its command completes. -/
def Held.detail : Held → Detail
  | .flight x => x.cutDetail
  | .entry _ => .zero
  | .waiter _ => .zero

/-- What the leg holds, in the order in which FLT deals with it. -/
def Leg.holds (g : Leg) : List Held := g.inFlight.toList.map .flight ++ (g.queue.map .entry ++ g.waiting.map .waiter)

/-- R59: a record of the waiting list leaves it first. -/
def Dev.readied (d : Dev) : Held → Dev
  | .flight _ => d
  | .entry _ => d
  | .waiter w => d.clearWaiting w.r

def Dev.flushHeld (d : Dev) (i : Held) : Dev := (d.readied i).flush i.dir i.origin i.detail

/-- The record that stops when the directive is flushed. -/
def Held.stops (i : Held) (r : Nat) : Prop := i.origin = .record r ∧ (i.dir.body.cls = .stage ∨ i.dir.body = .dismiss)

/-- The directive is one of the record's own. -/
def Held.owns (i : Held) (r : Nat) : Prop := i.origin = .record r

theorem Leg.directivesOf_eq (g : Leg) (r : Nat) : g.directivesOf r = (g.holds.filter fun i => decide (i.origin = .record r)).map Held.dir := by
  have hflight : ((g.inFlight.toList.map Held.flight).filter fun i => decide (i.origin = .record r)).map Held.dir =
      g.inFlight.elim [] fun x => if x.origin = .record r then [x.dir] else [] := by
    cases g.inFlight with
    | none => rfl
    | some x =>
      by_cases hx : x.origin = .record r
      · simp [Held.origin, Held.dir, hx]
      · simp [Held.origin, hx]
  have hqueue : ((g.queue.map Held.entry).filter fun i => decide (i.origin = .record r)).map Held.dir =
      (g.queue.filter fun e => decide (e.origin = .record r)).map Entry.dir := by
    rw [List.filter_map, List.map_map]
    rfl
  have hwaiting : ((g.waiting.map Held.waiter).filter fun i => decide (i.origin = .record r)).map Held.dir =
      (g.waiting.filter fun w => decide (w.r = r)).map Waiter.dir := by
    rw [List.filter_map, List.map_map]
    have hsame : ((fun i : Held => decide (i.origin = .record r)) ∘ Held.waiter) = fun w => decide (w.r = r) := by
      funext w
      simp [Held.origin]
    rw [hsame]
    rfl
  rw [Leg.holds, List.filter_append, List.filter_append, List.map_append, List.map_append, hflight, hqueue, hwaiting, Leg.directivesOf,
    List.append_assoc]
  cases g.inFlight with
  | none => rfl
  | some x => rfl

theorem Leg.mem_directivesOf {g : Leg} {r : Nat} {dir : Directive} : dir ∈ g.directivesOf r ↔ ∃ i ∈ g.holds, i.owns r ∧ i.dir = dir := by
  rw [Leg.directivesOf_eq, List.mem_map]
  constructor
  · rintro ⟨i, hi, hdir⟩
    obtain ⟨hmem, horigin⟩ := List.mem_filter.1 hi
    have hown : i.origin = .record r := decide_eq_true_iff.1 horigin
    exact ⟨i, hmem, hown, hdir⟩
  · rintro ⟨i, hmem, horigin, hdir⟩
    exact ⟨i, List.mem_filter.2 ⟨hmem, decide_eq_true_iff.2 horigin⟩, hdir⟩

theorem Leg.mem_holds {g : Leg} {i : Held} :
    i ∈ g.holds ↔ (∃ x, g.chan = .directive x ∧ i = .flight x) ∨ (∃ e ∈ g.queue, i = .entry e) ∨ ∃ w ∈ g.waiting, i = .waiter w := by
  simp only [Leg.holds, List.mem_append, List.mem_map, Option.mem_toList, Leg.inFlight_eq_some_iff, @eq_comm Held _ i]

/-- Where at most one directive of the list meets each of the conditions, two of them meet none together. -/
theorem pairwise_of_filter_length {α : Type} {q : Nat → α → Bool} {xs : List α} (h : ∀ r, (xs.filter (q r)).length ≤ 1) :
    xs.Pairwise fun x y => ∀ r, q r x = true → ¬ q r y = true := by
  induction xs with
  | nil => exact .nil
  | cons x xs ih =>
    refine List.pairwise_cons.2 ⟨fun y hy r hx hqy => ?_, ih fun r => (List.Sublist.length_le ?_).trans (h r)⟩
    · have hlen := h r
      rw [List.filter_cons_of_pos hx, List.length_cons] at hlen
      have hmem : y ∈ xs.filter (q r) := List.mem_filter.2 ⟨hy, hqy⟩
      have := List.length_pos_of_mem hmem
      omega
    · exact (List.sublist_cons_self x xs).filter _

theorem Leg.holds_pairwise {g : Leg} (h : ∀ r, (g.directivesOf r).length ≤ 1) :
    g.holds.Pairwise fun i j => ∀ r, i.owns r → ¬ j.owns r := by
  refine (pairwise_of_filter_length (q := fun r i => decide (i.origin = .record r)) fun r => ?_).imp
    fun hij r hi hj => hij r (decide_eq_true hi) (decide_eq_true hj)
  have hlen := h r
  rw [Leg.directivesOf_eq, List.length_map] at hlen
  exact hlen

theorem Dev.foldl_flushHeld (g : Leg) (d : Dev) :
    g.waiting.foldl Dev.flushWaiter (g.queue.foldl Dev.flushEntry ((g.inFlight.toList.map Held.flight).foldl Dev.flushHeld d)) =
      g.holds.foldl Dev.flushHeld d := by
  rw [Leg.holds, List.foldl_append, List.foldl_append, List.foldl_map (g := Dev.flushHeld) (f := Held.entry),
    List.foldl_map (g := Dev.flushHeld) (f := Held.waiter)]
  rfl

/-! ## One directive flushed -/

theorem Dev.flushRecord_stage (d : Dev) (r : Nat) {b : Body} (h : b.cls = .stage) : d.flushRecord r b = d.halt r .legFault := by
  unfold Dev.flushRecord
  rw [h]

theorem Dev.flushRecord_dismiss (d : Dev) (r : Nat) : d.flushRecord r .dismiss = d.vacate r := rfl

theorem Dev.flushRecord_other (d : Dev) (r : Nat) {b : Body} (h : b.cls ≠ .stage) (h' : b ≠ .dismiss) : d.flushRecord r b = d := by
  unfold Dev.flushRecord
  split
  next hb => exact absurd hb h
  next => exact absurd rfl h'
  next => rfl

theorem Dev.flushHeld_cmd (d : Dev) {i : Held} {n : Nat} (h : i.origin = .cmd n) : d.flushHeld i = d.complete n .legFault i.detail := by
  cases i with
  | flight x => rw [Dev.flushHeld, h]; rfl
  | entry e => rw [Dev.flushHeld, h]; rfl
  | waiter w => cases h

theorem Dev.flushHeld_record (d : Dev) {i : Held} {r : Nat} (h : i.origin = .record r) : d.flushHeld i = (d.readied i).flushRecord r i.dir.body := by
  rw [Dev.flushHeld, h]
  rfl

theorem Dev.flushHeld_other (d : Dev) {i : Held} (hcmd : ∀ n, i.origin ≠ .cmd n) (hrecord : ∀ r, i.origin ≠ .record r) : d.flushHeld i = d := by
  cases i with
  | flight x =>
    cases h : x.origin with
    | record r => exact absurd h (hrecord r)
    | cmd n => exact absurd h (hcmd n)
    | level r => rw [Dev.flushHeld, Held.origin, h]; rfl
    | hunt r => rw [Dev.flushHeld, Held.origin, h]; rfl
  | entry e =>
    cases h : e.origin with
    | record r => exact absurd h (hrecord r)
    | cmd n => exact absurd h (hcmd n)
    | level r => rw [Dev.flushHeld, Held.origin, h]; rfl
    | hunt r => rw [Dev.flushHeld, Held.origin, h]; rfl
  | waiter w => exact absurd rfl (hrecord w.r)

/-- R59: leaving the waiting list stops nobody. -/
theorem Dev.Ready.clearWaiting {d : Dev} {l : Fin 4} (h : Dev.Ready d l) (r : Nat) (p : Nat → Prop) : Dev.Flushes d (d.clearWaiting r) l p :=
  { Dev.Flushes.refl (p := p) h with
    recs := Dev.modRec_recs_wf d r _ h.recs
    record := fun q => .inl (Dev.clearWaiting_mayUnwait h.recs r q).sameButPin
    unwaited := fun q _ _ => Dev.clearWaiting_mayUnwait h.recs r q }

theorem Dev.Ready.readied {d : Dev} {l : Fin 4} (h : Dev.Ready d l) (i : Held) (p : Nat → Prop) : Dev.Flushes d (d.readied i) l p := by
  cases i with
  | flight x => exact .refl h
  | entry e => exact .refl h
  | waiter w => exact h.clearWaiting w.r p

theorem Dev.Ready.halt {d : Dev} {l : Fin 4} (h : Dev.Ready d l) (r : Nat) (f : FaultCode) : Dev.Flushes d (d.halt r f) l (· = r) := by
  rw [Dev.halt, Dev.haltWith_eq_stopped]
  have hstopped := h.stopped r (f := fun x => { x with state := .halted, stage := some (d.record r).state, fault := f }) (fun _ => id)
    fun _ => rfl
  exact hstopped.of_rest rfl rfl rfl rfl rfl

theorem Dev.Ready.vacate {d : Dev} {l : Fin 4} (h : Dev.Ready d l) (r : Nat) : Dev.Flushes d (d.vacate r) l (· = r) :=
  h.stopped r (f := fun _ => Rec.vacant) (fun _ _ => rfl) fun _ => rfl

/-- R52, R58, R59: a directive flushed stops the record whose stage or whose end it is. -/
theorem Dev.Ready.flushHeld {d : Dev} {l : Fin 4} (h : Dev.Ready d l) (i : Held) : Dev.Flushes d (d.flushHeld i) l i.stops := by
  cases ho : i.origin with
  | record r =>
    rw [Dev.flushHeld_record d ho]
    have hready := h.readied i fun _ => False
    have hor {p : Nat → Prop} (hp : p = (· = r)) (hstop : i.stops r) (q : Nat) (hq : False ∨ p q) : i.stops q := by
      subst hp
      rw [hq.resolve_left id]
      exact hstop
    by_cases hstage : i.dir.body.cls = .stage
    · rw [Dev.flushRecord_stage _ _ hstage]
      exact (hready.trans ((hready.ready h).halt r .legFault)).mono (hor rfl ⟨ho, .inl hstage⟩)
    · by_cases hdismiss : i.dir.body = .dismiss
      · rw [hdismiss, Dev.flushRecord_dismiss]
        exact (hready.trans ((hready.ready h).vacate r)).mono (hor rfl ⟨ho, .inr hdismiss⟩)
      · rw [Dev.flushRecord_other _ _ hstage hdismiss]
        exact hready.mono fun _ => False.elim
  | cmd n =>
    rw [Dev.flushHeld_cmd d ho]
    exact (Dev.Flushes.refl h).of_rest rfl rfl rfl rfl rfl
  | level r =>
    rw [Dev.flushHeld_other d (fun n hn => by rw [ho] at hn; cases hn) fun q hq => by rw [ho] at hq; cases hq]
    exact .refl h
  | hunt r =>
    rw [Dev.flushHeld_other d (fun n hn => by rw [ho] at hn; cases hn) fun q hq => by rw [ho] at hq; cases hq]
    exact .refl h

/-! ## What the other legs see of it (R44, R109, R110) -/

/-- With nobody in the pin-wait list, only the records `p` of leg l change, and only the pin-table entries they use. -/
structure Dev.Alone (d d' : Dev) (l : Fin 4) (p : Nat → Prop) : Prop where
  legs : ∀ k, k ≠ l → d'.leg k = d.leg k
  record : ∀ q, ¬ p q → d'.record q = d.record q
  pin : ∀ i, (∀ q, p q → (d.record q).pin ≠ some i) → d'.pin i = d.pin i
  uses : ∀ q i, (d'.record q).pin = some i → (d.record q).pin = some i

/-- What dealing with the records `p` of leg l does to the other legs. -/
structure Dev.Bare (d d' : Dev) (l : Fin 4) (p : Nat → Prop) : Prop where
  flushes : Dev.Flushes d d' l p
  fetches : d'.fetches = d.fetches
  legs : ∀ k, k ≠ l → (d.leg k).grows (d'.leg k)
  alone : d.pinWait = [] → Dev.Alone d d' l p

namespace Dev.Alone

variable {d d' d'' : Dev} {l : Fin 4} {p p' : Nat → Prop}

theorem refl (d : Dev) (l : Fin 4) (p : Nat → Prop) : Dev.Alone d d l p := ⟨fun _ _ => rfl, fun _ _ => rfl, fun _ _ => rfl, fun _ _ => id⟩

theorem trans (h : Dev.Alone d d' l p) (h' : Dev.Alone d' d'' l p') :
    Dev.Alone d d'' l fun q => p q ∨ p' q where
  legs k hk := (h'.legs k hk).trans (h.legs k hk)
  record q hq := (h'.record q fun hp => hq (.inr hp)).trans (h.record q fun hp => hq (.inl hp))
  pin i hi := (h'.pin i fun q hq huse => hi q (.inr hq) (h.uses q i huse)).trans (h.pin i fun q hq => hi q (.inl hq))
  uses q i huse := h.uses q i (h'.uses q i huse)

theorem mono (h : Dev.Alone d d' l p) (hp : ∀ q, p q → p' q) : Dev.Alone d d' l p' :=
  ⟨h.legs, fun q hq => h.record q fun h => hq (hp q h), fun i hi => h.pin i fun q hq => hi q (hp q hq), h.uses⟩

end Dev.Alone

namespace Dev.Bare

variable {d d' d'' : Dev} {l : Fin 4} {p p' : Nat → Prop}

theorem refl (h : Dev.Ready d l) : Dev.Bare d d l p := ⟨.refl h, rfl, fun k _ => (d.leg k).grows_refl, fun _ => .refl d l p⟩

theorem mono (h : Dev.Bare d d' l p) (hp : ∀ q, p q → p' q) : Dev.Bare d d' l p' :=
  ⟨h.flushes.mono hp, h.fetches, h.legs, fun hnone => (h.alone hnone).mono hp⟩

theorem nobody (h : Dev.Bare d d' l p) (hnone : d.pinWait = []) : d'.pinWait = [] :=
  List.eq_nil_iff_forall_not_mem.2 fun q hq => by
    have hmem := h.flushes.pinWait q hq
    rw [hnone] at hmem
    exact List.not_mem_nil hmem

theorem trans (h : Dev.Bare d d' l p) (h' : Dev.Bare d' d'' l p') : Dev.Bare d d'' l fun q => p q ∨ p' q :=
  ⟨h.flushes.trans h'.flushes, h'.fetches.trans h.fetches, fun k hk => Leg.grows_trans (h.legs k hk) (h'.legs k hk),
    fun hnone => (h.alone hnone).trans (h'.alone (h.nobody hnone))⟩

/-- Where no two jobs of a list concern the same record, and all concern records of leg l. -/
theorem foldl {α : Type} {f : Dev → α → Dev} {own : α → Nat → Prop}
    (hf : ∀ y x, Dev.Ready y l → (∀ q, own x q → (y.record q).enrol.leg = l) → Dev.Bare y (f y x) l (own x)) (xs : List α)
    (h : Dev.Ready d l) (hleg : ∀ x ∈ xs, ∀ q, own x q → (d.record q).enrol.leg = l) (hpair : xs.Pairwise fun x y => ∀ q, own x q → ¬ own y q) :
    Dev.Bare d (xs.foldl f d) l fun q => ∃ x ∈ xs, own x q := by
  induction xs generalizing d with
  | nil => exact refl h
  | cons x xs ih =>
    obtain ⟨hhead, htail⟩ := List.pairwise_cons.1 hpair
    have hstep := hf d x h (hleg x List.mem_cons_self)
    have hrest := ih (hstep.flushes.ready h) (fun y hy q hq => by
      rw [(hstep.flushes.others fun hx => hhead y hy q hx hq).leg]
      exact hleg y (List.mem_cons_of_mem _ hy) q hq) htail
    refine (hstep.trans hrest).mono fun q hq => ?_
    rcases hq with hq | ⟨y, hy, hq⟩
    · exact ⟨x, List.mem_cons_self, hq⟩
    · exact ⟨y, List.mem_cons_of_mem _ hy, hq⟩

end Dev.Bare

/-- R110: with nobody waiting, the release concerns the entry that the record uses. -/
theorem Dev.pinRelease_pin {d : Dev} (hnone : d.pinWait = []) {r i : Nat} (h : (d.record r).pin ≠ some i) : (d.pinRelease r).pin i = d.pin i := by
  unfold Dev.pinRelease
  dsimp only
  split
  next => rfl
  next =>
    split
    next j hj =>
      have hi : i ≠ j := fun hij => h (hj.trans (congrArg some hij.symm))
      unfold Dev.dropPinUse Dev.servePinWait
      dsimp only
      split
      next =>
        rw [Dev.servePins_of_nobody (d := (d.modRec r _).putPin j .free) hnone]
        exact Dev.putPin_pin_ne (d.modRec r _) j i _ hi
      next => exact Dev.putPin_pin_ne (d.modRec r _) j i _ hi
    next => rfl

/-- R109, R110: with nobody waiting, nobody gains the use of an entry. -/
theorem Dev.pinRelease_uses {d : Dev} (hrecs : Sparse.wf Rec.vacant d.recs = true) (hnone : d.pinWait = []) {r q i : Nat}
    (h : ((d.pinRelease r).record q).pin = some i) : (d.record q).pin = some i := by
  by_cases hq : q = r
  · subst hq
    by_cases hflag : (d.record q).pinWait = true
    · have hrelease : d.pinRelease q = ({ d with pinWait := without d.pinWait q } : Dev).modRec q fun y => { y with pinWait := false } := by
        unfold Dev.pinRelease
        exact if_pos hflag
      rw [hrelease, Dev.modRec_record_self { d with pinWait := without d.pinWait q } q _ hrecs] at h
      exact h
    · rw [Dev.pinRelease_record hrecs (Bool.eq_false_of_not_eq_true hflag) (by rw [hnone]; exact List.not_mem_nil)] at h
      cases h
  · rw [Dev.pinRelease_kept hrecs hq (by rw [hnone]; exact List.not_mem_nil)] at h
    exact h

theorem Dev.slotRelease_leg_ne (d : Dev) {r : Nat} {k : Fin 4} (h : k ≠ (d.record r).enrol.leg) : (d.slotRelease r).leg k = d.leg k := by
  unfold Dev.slotRelease
  dsimp only
  split
  next => rw [Dev.modRec_leg, Dev.modLeg_leg_ne _ _ _ _ h]
  next => rfl

theorem Dev.Ready.stopped_bare {d : Dev} {l : Fin 4} (h : Dev.Ready d l) {r : Nat} (hr : (d.record r).enrol.leg = l) {f : Rec → Rec}
    (hlabel : ∀ x : Rec, x.label = none → (f x).label = none) (hstate : ∀ x : Rec, (f x).state.isStage = false)
    (hpinOf : ∀ (x : Rec) (i : Nat), (f x).pin = some i → x.pin = some i) : Dev.Bare d (d.stopped r f) l (· = r) := by
  have hserved := Dev.Served.pinRelease h.recs h.unserved r
  have hdrop : d.drop r = ((d.pinRelease r).slotRelease r).modRec r fun x => { x with ranging := none, held := none } := by
    rw [Dev.drop_eq, Dev.unplaced_self h.emptied hr]
  obtain ⟨-, hfetches, hpins⟩ := Dev.slotRelease_rest (d.pinRelease r) r
  have hleg {k : Fin 4} (hk : k ≠ l) : (d.stopped r f).leg k = (d.pinRelease r).leg k := by
    rw [Dev.stopped, Dev.modRec_leg, hdrop, Dev.modRec_leg]
    exact Dev.slotRelease_leg_ne _ (by rw [hserved.frame.enrol, hr]; exact hk)
  have hpin (i : Nat) : (d.stopped r f).pin i = (d.pinRelease r).pin i := by
    rw [Dev.stopped, hdrop]
    exact congrArg (Sparse.get Pin.free · i) hpins
  refine ⟨h.stopped r hlabel hstate, ?_, fun k hk => ?_, fun hnone => ⟨fun k hk => ?_, fun q hq => ?_, fun i hi => ?_,
    fun q i huse => ?_⟩⟩
  · rw [Dev.stopped, hdrop]
    exact hfetches.trans hserved.fetches
  · rw [hleg hk]
    exact hserved.legs k
  · exact (hleg hk).trans (congrArg (Legs.get · k) (Dev.pinRelease_legs hnone r))
  · rw [Dev.stopped, Dev.modRec_record_ne _ _ _ _ hq, hdrop, Dev.modRec_record_ne _ _ _ _ hq, Dev.slotRelease_record_ne _ hq]
    exact Dev.pinRelease_kept h.recs hq (by rw [hnone]; exact List.not_mem_nil)
  · rw [hpin]
    exact Dev.pinRelease_pin hnone (hi r rfl)
  · refine Dev.pinRelease_uses (r := r) h.recs hnone ?_
    have hreleased := Dev.Frame.slotRelease hserved.frame.recs r
    by_cases hq : q = r
    · subst hq
      rw [Dev.stopped, Dev.modRec_record_self _ _ _ (Dev.Frame.drop h.recs q).recs] at huse
      have hpinOwn := hpinOf _ i huse
      rw [hdrop, Dev.modRec_record_self _ _ _ hreleased.recs, Dev.slotRelease_record hserved.frame.recs] at hpinOwn
      exact hpinOwn
    · rw [Dev.stopped, Dev.modRec_record_ne _ _ _ _ hq, hdrop, Dev.modRec_record_ne _ _ _ _ hq, Dev.slotRelease_record_ne _ hq] at huse
      exact huse

theorem Dev.Bare.latch {d d' : Dev} {l : Fin 4} {p : Nat → Prop} (h : Dev.Bare d d' l p) (c : Cause) : Dev.Bare d (d'.latch c) l p :=
  ⟨h.flushes.of_rest rfl rfl rfl rfl rfl, h.fetches, h.legs,
    fun hnone => ⟨(h.alone hnone).legs, (h.alone hnone).record, (h.alone hnone).pin, (h.alone hnone).uses⟩⟩

theorem Dev.Ready.halt_bare {d : Dev} {l : Fin 4} (h : Dev.Ready d l) {r : Nat} (hr : (d.record r).enrol.leg = l) (f : FaultCode) :
    Dev.Bare d (d.halt r f) l (· = r) := by
  rw [Dev.halt, Dev.haltWith_eq_stopped]
  exact (h.stopped_bare hr (f := fun x => { x with state := .halted, stage := some (d.record r).state, fault := f }) (fun _ => id)
    (fun _ => rfl) fun _ _ => id).latch .recHalted

theorem Dev.Ready.vacate_bare {d : Dev} {l : Fin 4} (h : Dev.Ready d l) {r : Nat} (hr : (d.record r).enrol.leg = l) :
    Dev.Bare d (d.vacate r) l (· = r) := by
  have hnone (i : Nat) (h : Rec.vacant.pin = some i) : False := by cases h
  rw [Dev.vacate_eq_stopped]
  exact h.stopped_bare hr (fun _ _ => rfl) (fun _ => rfl) fun _ i hi => (hnone i hi).elim

theorem Dev.Ready.clearWaiting_bare {d : Dev} {l : Fin 4} (h : Dev.Ready d l) (r : Nat) : Dev.Bare d (d.clearWaiting r) l (· = r) :=
  ⟨h.clearWaiting r _, rfl, fun k _ => (d.leg k).grows_refl,
    fun _ => ⟨fun _ _ => rfl, fun q hq => Dev.modRec_record_ne d r q _ hq, fun _ _ => rfl, fun q i huse => by
      obtain ⟨w, hw⟩ := Dev.clearWaiting_record h.recs r q
      rw [hw] at huse
      exact huse⟩⟩

/-- R52, R58, R59: a directive of a record of the leg is flushed. -/
theorem Dev.Ready.flushHeld_bare {d : Dev} {l : Fin 4} (h : Dev.Ready d l) (i : Held) (hleg : ∀ q, i.owns q → (d.record q).enrol.leg = l) :
    Dev.Bare d (d.flushHeld i) l i.owns := by
  cases ho : i.origin with
  | record r =>
    have howns : i.owns = (· = r) := by
      funext q
      rw [Held.owns, ho, Origin.record.injEq]
      exact propext eq_comm
    have hr : (d.record r).enrol.leg = l := hleg r ho
    rw [Dev.flushHeld_record d ho, howns]
    have hready : Dev.Bare d (d.readied i) l (· = r) ∧ ∃ w, (d.readied i).record r = { d.record r with waiting := w } := by
      cases i with
      | flight x => exact ⟨.refl h, _, rfl⟩
      | entry e => exact ⟨.refl h, _, rfl⟩
      | waiter w =>
        have hw : w.r = r := Origin.record.inj ho
        subst hw
        exact ⟨h.clearWaiting_bare w.r, Dev.clearWaiting_record h.recs w.r w.r⟩
    obtain ⟨hbare, hrecord⟩ := hready
    have hleg' : ((d.readied i).record r).enrol.leg = l := by
      obtain ⟨w, hw⟩ := hrecord
      rw [hw]
      exact hr
    have hnext := hbare.flushes.ready h
    suffices hthen : Dev.Bare (d.readied i) ((d.readied i).flushRecord r i.dir.body) l (· = r) from
      (hbare.trans hthen).mono fun q hq => hq.elim id id
    by_cases hstage : i.dir.body.cls = .stage
    · rw [Dev.flushRecord_stage _ _ hstage]
      exact hnext.halt_bare hleg' .legFault
    · by_cases hdismiss : i.dir.body = .dismiss
      · rw [hdismiss, Dev.flushRecord_dismiss]
        exact hnext.vacate_bare hleg'
      · rw [Dev.flushRecord_other _ _ hstage hdismiss]
        exact .refl hnext
  | cmd n =>
    rw [Dev.flushHeld_cmd d ho]
    exact ⟨(Dev.Flushes.refl h).of_rest rfl rfl rfl rfl rfl, rfl, fun k _ => (d.leg k).grows_refl,
      fun _ => ⟨fun _ _ => rfl, fun _ _ => rfl, fun _ _ => rfl, fun _ _ => id⟩⟩
  | level r =>
    rw [Dev.flushHeld_other d (fun n hn => by rw [ho] at hn; cases hn) fun q hq => by rw [ho] at hq; cases hq]
    exact .refl h
  | hunt r =>
    rw [Dev.flushHeld_other d (fun n hn => by rw [ho] at hn; cases hn) fun q hq => by rw [ho] at hq; cases hq]
    exact .refl h

end Sys2Proof.Machine
end

section
/-! PROOFS. FLT asserted: the command slots and the interrupt causes (R52, R132, R135, R163, R166). -/

namespace Sys2Proof.Machine

/-! ## What the flush does to slots and causes -/

/-- The causes that FLT may latch. -/
def fltLatches (c : Cause) : Prop := c = .legFault ∨ c = .recHalted ∨ c = .cmdDone ∨ c = .huntEnd

/-- Slots keep their parameters, an ended part stays ended, and only causes that FLT may latch are latched. -/
structure Dev.Settles (d d' : Dev) : Prop where
  wf : Sparse.wf Slot.idle d'.slots = true
  params : ∀ n, (d'.slot n).params = (d.slot n).params
  parts : ∀ n, (d.slot n).parts = [] → (d'.slot n).parts = []
  set : ∀ c, d.isSet c = true → d'.isSet c = true
  only : ∀ c, d'.isSet c = true → d.isSet c = true ∨ fltLatches c

/-- R162, R163: a slot is DONE with a result and a detail. -/
def Dev.slotEnds (d d' : Dev) (n : Nat) (res : ResultCode) (x : Detail) : Prop :=
  d'.slot n = { d.slot n with st := .done, result := res, detail := x, parts := [] } ∧ d'.isSet .cmdDone = true

namespace Dev.Settles

variable {d d' d'' : Dev}

theorem refl (h : Sparse.wf Slot.idle d.slots = true) : Dev.Settles d d := ⟨h, fun _ => rfl, fun _ => id, fun _ => id, fun _ => .inl⟩

theorem trans (h : Dev.Settles d d') (h' : Dev.Settles d' d'') : Dev.Settles d d'' :=
  ⟨h'.wf, fun n => (h'.params n).trans (h.params n), fun n hn => h'.parts n (h.parts n hn), fun c hc => h'.set c (h.set c hc),
    fun c hc => (h'.only c hc).elim (h.only c) .inr⟩

theorem foldl {α : Type} {f : Dev → α → Dev} (hf : ∀ y x, Sparse.wf Slot.idle y.slots = true → Dev.Settles y (f y x)) (xs : List α)
    (h : Sparse.wf Slot.idle d.slots = true) : Dev.Settles d (xs.foldl f d) := by
  induction xs generalizing d with
  | nil => exact refl h
  | cons x xs ih => exact (hf d x h).trans (ih (hf d x h).wf)

/-- A step that latches one of the causes and touches no slot. -/
theorem of_slots (h : Sparse.wf Slot.idle d.slots = true) (hslots : d'.slots = d.slots) {f : Cause} (hf : fltLatches f)
    (hset : ∀ c, d'.isSet c = (d.isSet c || decide (c = f))) : Dev.Settles d d' := by
  have hslot (n : Nat) : d'.slot n = d.slot n := congrArg (Sparse.get Slot.idle · n) hslots
  refine ⟨by rw [hslots]; exact h, fun n => by rw [hslot], fun n => by rw [hslot]; exact id, fun c hc => ?_, fun c hc => ?_⟩
  · rw [hset, hc, Bool.true_or]
  · rw [hset, Bool.or_eq_true, decide_eq_true_eq] at hc
    exact hc.imp_right fun (hcf : c = f) => hcf ▸ hf

theorem of_keepsSlots (h : Sparse.wf Slot.idle d.slots = true) (hkeep : d.keepsSlots d') : Dev.Settles d d' := by
  have hslot (n : Nat) : d'.slot n = d.slot n := congrArg (Sparse.get Slot.idle · n) hkeep.1
  exact ⟨by rw [hkeep.1]; exact h, fun n => by rw [hslot], fun n => by rw [hslot]; exact id, fun c hc => (hkeep.isSet c).trans hc,
    fun c hc => .inl ((hkeep.isSet c).symm.trans hc)⟩

theorem complete (h : Sparse.wf Slot.idle d.slots = true) (n : Nat) (res : ResultCode) (x : Detail) : Dev.Settles d (d.complete n res x) where
  wf := Dev.modSlot_slots_wf h n fun s => { s with st := .done, result := res, detail := x, parts := [] }
  params := Dev.complete_params h n res x
  parts m hm := by
    obtain ⟨hself, -, hothers⟩ := Dev.complete_slotDone h n res x
    by_cases hmn : m = n
    · rw [hmn, hself]
    · rw [hothers m hmn]
      exact hm
  set c hc := Dev.latch_isSet_mono (d.modSlot n _) .cmdDone hc
  only c hc := by
    rw [Dev.complete, Dev.isSet_latch, Bool.or_eq_true, decide_eq_true_eq] at hc
    exact hc.imp_right fun h => .inr (.inr (.inl h))

theorem halt (h : Sparse.wf Slot.idle d.slots = true) (r : Nat) (f : FaultCode) : Dev.Settles d (d.halt r f) :=
  of_slots h (Dev.keepsSlots.haltWith_slots d r f _) (.inr (.inl rfl)) (Dev.haltWith_isSet d r f _)

theorem clearWaiting (h : Sparse.wf Slot.idle d.slots = true) (r : Nat) : Dev.Settles d (d.clearWaiting r) := of_keepsSlots h ⟨rfl, rfl⟩

end Dev.Settles

/-- A slot that another step ends, or that stands until then. -/
theorem Dev.slotEnds_of_params {d d' d'' : Dev} {n : Nat} {res : ResultCode} {x : Detail} (h : Dev.slotEnds d' d'' n res x)
    (hparams : (d'.slot n).params = (d.slot n).params) : Dev.slotEnds d d'' n res x := by
  refine ⟨h.1.trans ?_, h.2⟩
  rw [Slot.mk.injEq]
  exact ⟨rfl, hparams, rfl, rfl, rfl⟩

theorem Dev.slotEnds_of_slot {d d' d'' : Dev} {n : Nat} {res : ResultCode} {x : Detail} (h : Dev.slotEnds d d' n res x)
    (hslot : d''.slot n = d'.slot n) (hset : d'.isSet .cmdDone = true → d''.isSet .cmdDone = true) : Dev.slotEnds d d'' n res x :=
  ⟨hslot.trans h.1, hset h.2⟩

/-! ## The commands whose directives are flushed (R52, R58) -/

theorem Dev.flushHeld_record_slots (d : Dev) {i : Held} {r : Nat} (h : i.origin = .record r) : (d.flushHeld i).slots = d.slots := by
  have hready : (d.readied i).slots = d.slots := by
    cases i with
    | flight x => rfl
    | entry e => rfl
    | waiter w => rfl
  rw [Dev.flushHeld_record d h]
  refine Eq.trans ?_ hready
  by_cases hstage : i.dir.body.cls = .stage
  · rw [Dev.flushRecord_stage _ _ hstage]
    exact Dev.keepsSlots.haltWith_slots _ r .legFault _
  · by_cases hdismiss : i.dir.body = .dismiss
    · rw [hdismiss, Dev.flushRecord_dismiss]
      exact (Dev.keepsSlots.vacate _ r).1
    · rw [Dev.flushRecord_other _ _ hstage hdismiss]

theorem Dev.Settles.flushHeld {d : Dev} (h : Sparse.wf Slot.idle d.slots = true) (i : Held) : Dev.Settles d (d.flushHeld i) := by
  cases ho : i.origin with
  | record r =>
    have hready : Dev.Settles d (d.readied i) := by
      cases i with
      | flight x => exact .refl h
      | entry e => exact .refl h
      | waiter w => exact .clearWaiting h w.r
    rw [Dev.flushHeld_record d ho]
    refine hready.trans ?_
    by_cases hstage : i.dir.body.cls = .stage
    · rw [Dev.flushRecord_stage _ _ hstage]
      exact .halt hready.wf r .legFault
    · by_cases hdismiss : i.dir.body = .dismiss
      · rw [hdismiss, Dev.flushRecord_dismiss]
        exact .of_keepsSlots hready.wf (Dev.keepsSlots.vacate _ r)
      · rw [Dev.flushRecord_other _ _ hstage hdismiss]
        exact .refl hready.wf
  | cmd n =>
    rw [Dev.flushHeld_cmd d ho]
    exact .complete h n .legFault i.detail
  | level r =>
    rw [Dev.flushHeld_other d (fun n hn => by rw [ho] at hn; cases hn) fun q hq => by rw [ho] at hq; cases hq]
    exact .refl h
  | hunt r =>
    rw [Dev.flushHeld_other d (fun n hn => by rw [ho] at hn; cases hn) fun q hq => by rw [ho] at hq; cases hq]
    exact .refl h

/-- R52: a directive of somebody else leaves the slot. -/
theorem Dev.flushHeld_slot {d : Dev} (h : Sparse.wf Slot.idle d.slots = true) {i : Held} {n : Nat} (hi : i.origin ≠ .cmd n) :
    (d.flushHeld i).slot n = d.slot n := by
  cases ho : i.origin with
  | record r => exact congrArg (Sparse.get Slot.idle · n) (Dev.flushHeld_record_slots d ho)
  | cmd m =>
    rw [Dev.flushHeld_cmd d ho]
    refine (Dev.complete_slotDone h m .legFault i.detail).2.2 n fun hmn => hi ?_
    rw [ho, hmn]
  | level r => rw [Dev.flushHeld_other d (fun n hn => by rw [ho] at hn; cases hn) fun q hq => by rw [ho] at hq; cases hq]
  | hunt r => rw [Dev.flushHeld_other d (fun n hn => by rw [ho] at hn; cases hn) fun q hq => by rw [ho] at hq; cases hq]

theorem Dev.foldl_flushHeld_slot {d : Dev} (h : Sparse.wf Slot.idle d.slots = true) {xs : List Held} {n : Nat}
    (hxs : ∀ i ∈ xs, i.origin ≠ .cmd n) : (xs.foldl Dev.flushHeld d).slot n = d.slot n := by
  induction xs generalizing d with
  | nil => rfl
  | cons i xs ih =>
    exact (ih (Dev.Settles.flushHeld h i).wf fun j hj => hxs j (List.mem_cons_of_mem _ hj)).trans
      (Dev.flushHeld_slot h (hxs i List.mem_cons_self))

/-- R52, R58: a command with directives of one detail among them is DONE with LEG_FAULT and that detail. -/
theorem Dev.foldl_flushHeld_ends {d : Dev} (h : Sparse.wf Slot.idle d.slots = true) {xs : List Held} {n : Nat} {x : Detail}
    (hsome : ∃ i ∈ xs, i.origin = .cmd n) (hdetail : ∀ i ∈ xs, i.origin = .cmd n → i.detail = x) :
    Dev.slotEnds d (xs.foldl Dev.flushHeld d) n .legFault x := by
  induction xs generalizing d with
  | nil =>
    obtain ⟨i, hi, -⟩ := hsome
    exact absurd hi List.not_mem_nil
  | cons i xs ih =>
    have hstep := Dev.Settles.flushHeld h i
    have hrest : ∀ j ∈ xs, j.origin = .cmd n → j.detail = x := fun j hj => hdetail j (List.mem_cons_of_mem _ hj)
    rw [List.foldl_cons]
    by_cases hlater : ∃ j ∈ xs, j.origin = .cmd n
    · exact Dev.slotEnds_of_params (ih hstep.wf hlater hrest) (hstep.params n)
    · have hnone : ∀ j ∈ xs, j.origin ≠ .cmd n := fun j hj ho => hlater ⟨j, hj, ho⟩
      have hi : i.origin = .cmd n := by
        obtain ⟨j, hj, ho⟩ := hsome
        rcases List.mem_cons.1 hj with rfl | hj
        · exact ho
        · exact absurd ho (hnone j hj)
      obtain ⟨hself, hset, -⟩ := Dev.complete_slotDone h n .legFault i.detail
      rw [hdetail i List.mem_cons_self hi] at hself hset
      have hend : Dev.slotEnds d (d.flushHeld i) n .legFault x := by
        rw [Dev.flushHeld_cmd d hi, hdetail i List.mem_cons_self hi]
        exact ⟨hself, hset⟩
      exact Dev.slotEnds_of_slot hend (Dev.foldl_flushHeld_slot hstep.wf hnone)
        ((Dev.Settles.foldl (fun y j hy => Dev.Settles.flushHeld hy j) xs hstep.wf).set _)

/-! ## The surveys of the leg (R132, R135) -/

/-- Answering a survey's requesters touches slots and causes only. -/
theorem Dev.answerSlot_rest (d : Dev) (l : Fin 4) (n : Nat) (res : ResultCode) (det : Detail) (part : SurveyOut × Nat) :
    ∃ sl ca, d.answerSlot l n res det part = { d with slots := sl, causes := ca } := by
  unfold Dev.answerSlot Dev.settleParts
  dsimp only
  split
  next => exact ⟨_, _, rfl⟩
  next =>
    split
    next => exact ⟨_, _, rfl⟩
    next => exact ⟨_, _, rfl⟩

theorem Dev.foldl_answerFault_rest (l : Fin 4) (ns : List Nat) (d : Dev) :
    ∃ sl ca, ns.foldl (fun y n => y.answerFault l n) d = { d with slots := sl, causes := ca } := by
  induction ns generalizing d with
  | nil => exact ⟨_, _, rfl⟩
  | cons n ns ih =>
    obtain ⟨_, _, hstep⟩ := Dev.answerSlot_rest d l n .legFault (.survey l.val .none 0) (.legFault, 0)
    obtain ⟨sl, ca, hrest⟩ := ih (d.answerFault l n)
    refine ⟨sl, ca, hrest.trans ?_⟩
    rw [Dev.answerFault, hstep]

/-- R135: leg l's part of an all-legs SURVEY. -/
def Slot.faultedParts (y : Slot) (l : Fin 4) : List (Option (SurveyOut × Nat)) := y.parts.set l.val (some (.legFault, 0))

theorem Dev.answerFault_single {d : Dev} (l : Fin 4) {n : Nat} (h : (d.slot n).parts = []) :
    d.answerFault l n = d.complete n .legFault (.survey l.val .none 0) := by
  unfold Dev.answerFault Dev.answerSlot
  dsimp only
  rw [h]
  exact if_pos rfl

theorem Dev.answerFault_part {d : Dev} (l : Fin 4) {n : Nat} (h : (d.slot n).parts ≠ []) :
    d.answerFault l n = if ((d.slot n).faultedParts l).all Option.isSome then d.complete n .ok (.allLegs ((d.slot n).faultedParts l))
      else d.modSlot n fun s => { s with parts := (d.slot n).faultedParts l } := by
  unfold Dev.answerFault Dev.answerSlot
  dsimp only
  rw [if_neg fun hempty => h (List.isEmpty_iff.1 hempty)]
  rfl

theorem Dev.Settles.answerFault {d : Dev} (h : Sparse.wf Slot.idle d.slots = true) (l : Fin 4) (n : Nat) : Dev.Settles d (d.answerFault l n) := by
  by_cases hparts : (d.slot n).parts = []
  · rw [Dev.answerFault_single l hparts]
    exact .complete h n .legFault _
  · rw [Dev.answerFault_part l hparts]
    split
    next => exact .complete h n .ok _
    next =>
      refine ⟨Dev.modSlot_slots_wf h n _, fun m => ?_, fun m hm => ?_, fun _ => id, fun _ => .inl⟩
      · by_cases hmn : m = n
        · rw [hmn, Dev.modSlot_slot_self d n _ h]
        · rw [Dev.modSlot_slot_ne d n m _ hmn]
      · by_cases hmn : m = n
        · exact absurd (hmn ▸ hm) hparts
        · rw [Dev.modSlot_slot_ne d n m _ hmn]
          exact hm

theorem Dev.answerFault_slot_ne {d : Dev} (h : Sparse.wf Slot.idle d.slots = true) (l : Fin 4) {n m : Nat} (hm : m ≠ n) :
    (d.answerFault l n).slot m = d.slot m := by
  by_cases hparts : (d.slot n).parts = []
  · rw [Dev.answerFault_single l hparts]
    exact (Dev.complete_slotDone h n .legFault _).2.2 m hm
  · rw [Dev.answerFault_part l hparts]
    split
    next => exact (Dev.complete_slotDone h n .ok _).2.2 m hm
    next => exact Dev.modSlot_slot_ne d n m _ hm

theorem Dev.foldl_answerFault_settles {d : Dev} (h : Sparse.wf Slot.idle d.slots = true) (l : Fin 4) (ns : List Nat) :
    Dev.Settles d (ns.foldl (fun y n => y.answerFault l n) d) := .foldl (fun _ n hy => .answerFault hy l n) ns h

theorem Dev.foldl_answerFault_slot {d : Dev} (h : Sparse.wf Slot.idle d.slots = true) (l : Fin 4) {ns : List Nat} {n : Nat} (hn : n ∉ ns) :
    (ns.foldl (fun y n => y.answerFault l n) d).slot n = d.slot n := by
  induction ns generalizing d with
  | nil => rfl
  | cons m ns ih =>
    exact (ih (Dev.Settles.answerFault h l m).wf (List.not_mem_of_not_mem_cons hn)).trans
      (Dev.answerFault_slot_ne h l (List.ne_of_not_mem_cons hn))

/-- R132: a SURVEY command of the leg. -/
theorem Dev.foldl_answerFault_single {d : Dev} (h : Sparse.wf Slot.idle d.slots = true) (l : Fin 4) {ns : List Nat} {n : Nat} (hn : n ∈ ns)
    (hparts : (d.slot n).parts = []) :
    Dev.slotEnds d (ns.foldl (fun y n => y.answerFault l n) d) n .legFault (.survey l.val .none 0) := by
  induction ns generalizing d with
  | nil => exact absurd hn List.not_mem_nil
  | cons m ns ih =>
    have hstep := Dev.Settles.answerFault h l m
    rw [List.foldl_cons]
    by_cases hlater : n ∈ ns
    · exact Dev.slotEnds_of_params (ih hstep.wf hlater (hstep.parts n hparts)) (hstep.params n)
    · have hnm : n = m := (List.mem_cons.1 hn).resolve_right hlater
      subst hnm
      have hend : Dev.slotEnds d (d.answerFault l n) n .legFault (.survey l.val .none 0) := by
        rw [Dev.answerFault_single l hparts]
        obtain ⟨hself, hset, -⟩ := Dev.complete_slotDone h n .legFault (.survey l.val .none 0)
        exact ⟨hself, hset⟩
      exact Dev.slotEnds_of_slot hend (Dev.foldl_answerFault_slot hstep.wf l hlater) ((Dev.foldl_answerFault_settles hstep.wf l ns).set _)

/-- R135: an all-legs SURVEY. -/
theorem Dev.foldl_answerFault_part {d : Dev} (h : Sparse.wf Slot.idle d.slots = true) (l : Fin 4) {ns : List Nat} (hns : ns.Nodup) {n : Nat}
    (hn : n ∈ ns) (hparts : (d.slot n).parts ≠ []) :
    let d' := ns.foldl (fun y n => y.answerFault l n) d
    if ((d.slot n).faultedParts l).all Option.isSome then Dev.slotEnds d d' n .ok (.allLegs ((d.slot n).faultedParts l))
    else d'.slot n = { d.slot n with parts := (d.slot n).faultedParts l } := by
  induction ns generalizing d with
  | nil => exact absurd hn List.not_mem_nil
  | cons m ns ih =>
    obtain ⟨hm, hns⟩ := List.nodup_cons.1 hns
    have hstep := Dev.Settles.answerFault h l m
    rw [List.foldl_cons]
    rcases List.mem_cons.1 hn with rfl | hlater
    · have hstands := Dev.foldl_answerFault_slot hstep.wf l hm
      have hset := (Dev.foldl_answerFault_settles hstep.wf l ns).set .cmdDone
      have hanswer := Dev.answerFault_part l hparts
      dsimp only
      split
      next hall =>
        rw [if_pos hall] at hanswer
        obtain ⟨hself, hdone, -⟩ := Dev.complete_slotDone h n .ok (.allLegs ((d.slot n).faultedParts l))
        rw [← hanswer] at hself hdone
        exact Dev.slotEnds_of_slot ⟨hself, hdone⟩ hstands hset
      next hall =>
        rw [if_neg hall] at hanswer
        rw [hstands, hanswer, Dev.modSlot_slot_self d n _ h]
    · have hne : n ≠ m := fun h => hm (h ▸ hlater)
      have hsame := Dev.answerFault_slot_ne h l hne
      have hrest := ih hstep.wf hns hlater (by rw [hsame]; exact hparts)
      unfold Dev.slotEnds at hrest ⊢
      rw [hsame] at hrest
      exact hrest

end Sys2Proof.Machine
end

section
/-! PROOFS. FLT asserted: the leg enters FAULTED (R58, R59, R114). -/

namespace Sys2Proof.Machine

/-! ## The steps before anything is flushed -/

/-- R59: the records of a list leave the pin-wait list. -/
theorem Dev.foldl_unpinWait (rs : List Nat) {d : Dev} (hrecs : Sparse.wf Rec.vacant d.recs = true) :
    let d' := rs.foldl (fun y r => y.modRec r fun x => { x with pinWait := false }) d
    (∃ rc, Sparse.wf Rec.vacant rc = true ∧ d' = { d with recs := rc }) ∧ (∀ q, ∃ b, d'.record q = { d.record q with pinWait := b }) ∧
      ∀ q, q ∉ rs → d'.record q = d.record q := by
  induction rs generalizing d with
  | nil => exact ⟨⟨_, hrecs, rfl⟩, fun _ => ⟨_, rfl⟩, fun _ _ => rfl⟩
  | cons r rs ih =>
    obtain ⟨⟨rc, hwf, hrest⟩, hrecord, hsame⟩ :=
      ih (d := d.modRec r fun x => { x with pinWait := false }) (Dev.modRec_recs_wf d r _ hrecs)
    refine ⟨⟨rc, hwf, hrest⟩, fun q => ?_, fun q hq => ?_⟩
    · obtain ⟨b, hb⟩ := hrecord q
      by_cases hqr : q = r
      · subst hqr
        rw [Dev.modRec_record_self d q _ hrecs] at hb
        exact ⟨b, hb⟩
      · rw [Dev.modRec_record_ne d r q _ hqr] at hb
        exact ⟨b, hb⟩
    · exact (hsame q (List.not_mem_of_not_mem_cons hq)).trans (Dev.modRec_record_ne d r q _ (List.ne_of_not_mem_cons hq))

theorem Dev.clearPinWait_rules {d : Dev} (hrecs : Sparse.wf Rec.vacant d.recs = true) (l : Fin 4) :
    let d' := d.clearPinWait l
    (∃ rc, Sparse.wf Rec.vacant rc = true ∧
      d' = { d with recs := rc, pinWait := d.pinWait.filter fun r => !decide ((d.record r).enrol.leg = l) }) ∧
      (∀ q, ∃ b, d'.record q = { d.record q with pinWait := b }) ∧ ∀ q, (d.record q).enrol.leg ≠ l → d'.record q = d.record q := by
  obtain ⟨hrest, hrecord, hsame⟩ := Dev.foldl_unpinWait (d.pinWait.filter fun r => decide ((d.record r).enrol.leg = l))
    (d := { d with pinWait := d.pinWait.filter fun r => !decide ((d.record r).enrol.leg = l) }) hrecs
  refine ⟨hrest, hrecord, fun q hq => hsame q fun hmem => hq ?_⟩
  exact of_decide_eq_true (List.mem_filter.1 hmem).2

theorem Dev.cancelFetch_eq (d : Dev) (l : Fin 4) :
    ∃ b q, d.cancelFetch l = { d with burst := b, requests := q, fetches := d.fetches.filter fun f => decide (f.leg ≠ l) } := by
  obtain ⟨b, q, hend⟩ := Dev.endFetch_eq d l
  refine ⟨b, ((d.endFetch l).forgetFetch l).syncRequests.requests, ?_⟩
  rw [Dev.cancelFetch, hend]
  rfl

/-- R58, R59: the leg has entered FAULTED, and nothing of what it held is dealt with yet. -/
def Dev.faultStart (d : Dev) (l : Fin 4) : Dev := (((d.clearPinWait l).modLeg l Leg.enterFaulted).latch .legFault).cancelFetch l

/-- R4, R52: what the end of the directive in flight does to MUTED. -/
def Dev.unmuting (d : Dev) (f : Option InFlight) : Dev := f.elim d d.unmuteEnded

/-- An UNMUTE of record r is in flight: its own or a hunt's. -/
def Leg.unmutes (g : Leg) (r : Nat) : Prop := ∃ y, g.chan = .directive y ∧ y.dir.body = .unmute ∧ (y.origin = .record r ∨ y.origin = .hunt r)

theorem Dev.faultLeg_eq (d : Dev) (l : Fin 4) :
    d.faultLeg l =
      ((d.leg l).surveySlots.foldl (fun y n => y.answerFault l n)
        (((((d.leg l).holds.foldl Dev.flushHeld ((d.faultStart l).unmuting (d.leg l).inFlight)).stageRecordsOn l).foldl
          (fun y r => y.halt r .legFault)
          ((d.leg l).holds.foldl Dev.flushHeld ((d.faultStart l).unmuting (d.leg l).inFlight))))).faultHunt l := by
  have hflight : (d.faultStart l).flushFlight (d.leg l).inFlight =
      ((d.leg l).inFlight.toList.map Held.flight).foldl Dev.flushHeld ((d.faultStart l).unmuting (d.leg l).inFlight) := by
    cases (d.leg l).inFlight with
    | none => rfl
    | some x => rfl
  rw [← Dev.foldl_flushHeld, ← hflight]
  rfl

theorem Dev.unmuteEnded_rules {d : Dev} (hrecs : Sparse.wf Rec.vacant d.recs = true) (x : InFlight) :
    (∃ rc, Sparse.wf Rec.vacant rc = true ∧ d.unmuteEnded x = { d with recs := rc }) ∧
      ∀ q, ∃ m, (d.unmuteEnded x).record q = { d.record q with muted := m } := by
  have hclear (r : Nat) : (∃ rc, Sparse.wf Rec.vacant rc = true ∧ d.clearMuted r = { d with recs := rc }) ∧
      ∀ q, ∃ m, (d.clearMuted r).record q = { d.record q with muted := m } := by
    refine ⟨⟨_, Dev.modRec_recs_wf d r (fun x => { x with muted := false }) hrecs, rfl⟩, fun q => ?_⟩
    by_cases hq : q = r
    · subst hq
      exact ⟨false, Dev.modRec_record_self d q _ hrecs⟩
    · exact ⟨_, Dev.modRec_record_ne d r q _ hq⟩
  unfold Dev.unmuteEnded
  split
  next r _ _ => exact hclear r
  next r _ _ => exact hclear r
  next => exact ⟨⟨_, hrecs, rfl⟩, fun q => ⟨_, rfl⟩⟩

/-- R58, R59, R114: how things stand when leg l has entered FAULTED and the directive in flight has ended. -/
structure Dev.Started (d d' : Dev) (l : Fin 4) : Prop where
  recs : Sparse.wf Rec.vacant d'.recs = true
  leg : d'.leg l = { (d.leg l).enterFaulted with flt := true }
  legs : ∀ k, k ≠ l → d'.leg k = d.leg k
  record : ∀ q, ∃ b m, d'.record q = { d.record q with pinWait := b, muted := m }
  unmuted : ∀ q, (d.leg l).unmutes q → (d'.record q).muted = false
  muted : ∀ q, ¬ (d.leg l).unmutes q → (d'.record q).muted = (d.record q).muted
  stands : ∀ q, (d.record q).enrol.leg ≠ l → ¬ (d.leg l).unmutes q → d'.record q = d.record q
  pinWait : d'.pinWait = d.pinWait.filter fun r => !decide ((d.record r).enrol.leg = l)
  fetches : d'.fetches = d.fetches.filter fun f => decide (f.leg ≠ l)
  slots : d'.slots = d.slots
  pins : d'.pins = d.pins
  ring : d'.ring = d.ring
  intake : d'.intake = d.intake
  set : ∀ c, d'.isSet c = (d.isSet c || decide (c = .legFault))

/-- The directive in flight is not an UNMUTE of the record. -/
theorem Leg.not_unmutes {g : Leg} {q : Nat} {x : InFlight} (hx : g.inFlight = some x) (h : ¬ g.unmutes q) (hbody : x.dir.body = .unmute) :
    x.origin ≠ .record q ∧ x.origin ≠ .hunt q := by
  have hchan := Leg.inFlight_eq_some_iff.1 hx
  exact ⟨fun ho => h ⟨x, hchan, hbody, .inl ho⟩, fun ho => h ⟨x, hchan, hbody, .inr ho⟩⟩

theorem Dev.faultStart_eq {d : Dev} {l : Fin 4} {rc : List (Nat × Rec)} {w : List Nat} (h : d.clearPinWait l = { d with recs := rc, pinWait := w }) :
    ∃ b q, d.faultStart l = { d with
      recs := rc, pinWait := w, legs := (d.modLeg l Leg.enterFaulted).legs, causes := (d.latch .legFault).causes, burst := b, requests := q,
      fetches := d.fetches.filter fun f => decide (f.leg ≠ l) } := by
  obtain ⟨b, q, hcancel⟩ := Dev.cancelFetch_eq (((d.clearPinWait l).modLeg l Leg.enterFaulted).latch .legFault) l
  refine ⟨b, q, ?_⟩
  rw [Dev.faultStart, hcancel, h]
  rfl

theorem Dev.fltAssert_started {d : Dev} (hrecs : Sparse.wf Rec.vacant d.recs = true) (l : Fin 4) :
    Dev.Started d (((d.setFlt l true).faultStart l).unmuting (d.leg l).inFlight) l := by
  obtain ⟨⟨rc, hrc, hclear⟩, hrecord, hsame⟩ := Dev.clearPinWait_rules (d := d.setFlt l true) hrecs l
  obtain ⟨b, rq, hstart⟩ := Dev.faultStart_eq hclear
  have hstartRecord (q : Nat) : ((d.setFlt l true).faultStart l).record q = ((d.setFlt l true).clearPinWait l).record q := by
    rw [hstart, hclear]
    rfl
  have hwf : Sparse.wf Rec.vacant ((d.setFlt l true).faultStart l).recs = true := by rw [hstart]; exact hrc
  have hlegs : ((d.setFlt l true).faultStart l).legs = (d.modLeg l fun g => { g.enterFaulted with flt := true }).legs := by
    have hentered : (d.setFlt l true).modLeg l Leg.enterFaulted = d.modLeg l fun g => { g.enterFaulted with flt := true } :=
      Dev.modLeg_modLeg d l (fun g => { g with flt := true }) Leg.enterFaulted
    have hlegs := congrArg Dev.legs hentered
    rw [hstart]
    exact hlegs
  have hset (c : Cause) : ((d.setFlt l true).faultStart l).isSet c = (d.isSet c || decide (c = .legFault)) := by
    rw [hstart]
    exact Dev.isSet_latch d .legFault c
  have hrest : ((d.setFlt l true).faultStart l).pinWait = d.pinWait.filter (fun r => !decide ((d.record r).enrol.leg = l)) ∧
      ((d.setFlt l true).faultStart l).fetches = d.fetches.filter (fun f => decide (f.leg ≠ l)) ∧
      ((d.setFlt l true).faultStart l).slots = d.slots ∧ ((d.setFlt l true).faultStart l).pins = d.pins ∧
      ((d.setFlt l true).faultStart l).ring = d.ring ∧ ((d.setFlt l true).faultStart l).intake = d.intake := by
    rw [hstart]
    exact ⟨rfl, rfl, rfl, rfl, rfl, rfl⟩
  have hpin (q : Nat) : ∃ b, ((d.setFlt l true).faultStart l).record q = { d.record q with pinWait := b } := by
    rw [hstartRecord]
    exact hrecord q
  have hstands (q : Nat) (hq : (d.record q).enrol.leg ≠ l) : ((d.setFlt l true).faultStart l).record q = d.record q := by
    rw [hstartRecord]
    exact hsame q hq
  clear hclear hstart hstartRecord
  generalize (d.setFlt l true).faultStart l = d1 at *
  obtain ⟨hwait, hfetches, hslots, hpins, hring, hintake⟩ := hrest
  have hleg : d1.leg l = { (d.leg l).enterFaulted with flt := true } :=
    (congrArg (Legs.get · l) hlegs).trans (Dev.modLeg_leg_self d l fun g => { g.enterFaulted with flt := true })
  have hlegNe (k : Fin 4) (hk : k ≠ l) : d1.leg k = d.leg k :=
    (congrArg (Legs.get · k) hlegs).trans (Dev.modLeg_leg_ne d l k (fun g => { g.enterFaulted with flt := true }) hk)
  have hmuted (q : Nat) : (d1.record q).muted = (d.record q).muted := by
    obtain ⟨b, hb⟩ := hpin q
    rw [hb]
  cases hflight : (d.leg l).inFlight with
  | none =>
    have hnot (q : Nat) : ¬ (d.leg l).unmutes q := by
      rintro ⟨y, hchan, -⟩
      rw [Leg.inFlight_eq_some_iff.2 hchan] at hflight
      cases hflight
    exact ⟨hwf, hleg, hlegNe, fun q => (hpin q).imp fun b hb => ⟨_, hb⟩, fun q hq => absurd hq (hnot q), fun q _ => hmuted q,
      fun q hq _ => hstands q hq, hwait, hfetches, hslots, hpins, hring, hintake, hset⟩
  | some x =>
    obtain ⟨⟨rc', hrc', heq⟩, hrecord'⟩ := Dev.unmuteEnded_rules hwf x
    have hmuted' := Dev.unmuteEnded_muted hwf x
    have hne {q : Nat} (hq : ¬ (d.leg l).unmutes q) : (d1.unmuteEnded x).record q = d1.record q :=
      Dev.unmuteEnded_record_ne (Leg.not_unmutes hflight hq)
    show Dev.Started d (d1.unmuteEnded x) l
    refine ⟨?_, ?_, ?_, fun q => ?_, fun q hq => ?_, fun q hq => ?_, fun q hq hunmutes => ?_, ?_, ?_, ?_, ?_, ?_, ?_, ?_⟩
    · rw [heq]; exact hrc'
    · rw [heq]; exact hleg
    · rw [heq]; exact hlegNe
    · obtain ⟨b, hb⟩ := hpin q
      obtain ⟨m, hm⟩ := hrecord' q
      exact ⟨b, m, by rw [hm, hb]⟩
    · obtain ⟨y, hchan, hbody, horigin⟩ := hq
      rw [Leg.inFlight_eq_some_iff.2 hchan, Option.some.injEq] at hflight
      subst hflight
      rw [hmuted', decide_eq_true hbody]
      rcases horigin with ho | ho
      · rw [decide_eq_true ho, Bool.true_or, Bool.and_true, Bool.not_true, Bool.and_false]
      · rw [decide_eq_true ho, Bool.or_true, Bool.and_true, Bool.not_true, Bool.and_false]
    · rw [hne hq]
      exact hmuted q
    · rw [hne hunmutes]
      exact hstands q hq
    · rw [heq]; exact hwait
    · rw [heq]; exact hfetches
    · rw [heq]; exact hslots
    · rw [heq]; exact hpins
    · rw [heq]; exact hring
    · rw [heq]; exact hintake
    · rw [heq]; exact hset

/-- The leg is ready: without work, and its records gone from the pin-wait list. -/
theorem Dev.Started.ready {d d' : Dev} {l : Fin 4} (h : Dev.Started d d' l) (hm : Sparse.wf 0 (d.leg l).slotMap = true) : Dev.Ready d' l where
  recs := h.recs
  slotMap := by rw [h.leg]; exact hm
  emptied := by rw [h.leg]; exact ⟨rfl, rfl, rfl⟩
  unserved q hq hworks := by
    rw [h.pinWait, List.mem_filter] at hq
    obtain ⟨b, m, hrecord⟩ := h.record q
    rw [hrecord] at hworks
    have hleg : (d.record q).enrol.leg = l := hworks.1
    rw [hleg, decide_eq_true rfl] at hq
    exact Bool.false_ne_true hq.2

end Sys2Proof.Machine
end

section
/-! PROOFS. FLT asserted: what becomes of one record (R13, R19, R52, R58, R124). -/

namespace Sys2Proof.Machine

/-! ## The records in a stage -/

theorem Dev.mem_stageRecordsOn {d : Dev} (hrecs : Sparse.wf Rec.vacant d.recs = true) (l : Fin 4) (r : Nat) :
    r ∈ d.stageRecordsOn l ↔ (d.record r).works l := by
  simp only [Dev.stageRecordsOn, List.mem_map, List.mem_filter, Prod.exists, Dev.mem_recordsOn hrecs, exists_and_right, exists_eq_right]
  constructor
  · rintro ⟨x, ⟨rfl, -, hleg⟩, hstage⟩
    exact ⟨hleg, hstage⟩
  · rintro ⟨hleg, hstage⟩
    refine ⟨_, ⟨rfl, fun hvacant => ?_, hleg⟩, hstage⟩
    rw [hvacant] at hstage
    cases hstage

theorem Dev.stageRecordsOn_nodup {d : Dev} (hrecs : Sparse.wf Rec.vacant d.recs = true) (l : Fin 4) : (d.stageRecordsOn l).Nodup := by
  have hkeys := (Sparse.pairwise_keys d.recs 0 hrecs).1
  have hsub : (d.stageRecordsOn l).Sublist (d.recs.map (·.1)) := by
    unfold Dev.stageRecordsOn Dev.recordsOn Dev.enrolled
    exact ((List.filter_sublist.trans List.filter_sublist).trans List.filter_sublist).map _
  exact (hkeys.sublist hsub).imp fun hlt => Nat.ne_of_lt hlt

/-! ## A record and the jobs of others -/

theorem Rec.sameButPin.plan {x y : Rec} (h : x.sameButPin y) : y.plan = x.plan := by
  obtain ⟨_, _, _, rfl⟩ := h
  rfl

theorem Rec.sameButPin.state {x y : Rec} (h : x.sameButPin y) : y.state = x.state := by
  obtain ⟨_, _, _, rfl⟩ := h
  rfl

/-- R59: the flush of leg l, the directives first and the records still in a stage after them. -/
def Dev.flushed (d : Dev) (g : Leg) (l : Fin 4) : Dev :=
  ((g.holds.foldl Dev.flushHeld d).stageRecordsOn l).foldl (fun y r => y.halt r .legFault) (g.holds.foldl Dev.flushHeld d)

/-- R13: the one job that halts a record, among jobs that do not concern it. -/
theorem Dev.Flushes.halts_between {d d1 d2 d3 : Dev} {l : Fin 4} {r : Nat} {p p' : Nat → Prop} (hbefore : Dev.Flushes d d1 l p) (hp : ¬ p r)
    (hhalt : haltedWith d1 d2 r .legFault (d1.record r).state) (hafter : Dev.Flushes d2 d3 l p') (hp' : ¬ p' r)
    (hset : d2.isSet .recHalted = true → d3.isSet .recHalted = true) : haltedWith d d3 r .legFault (d.record r).state := by
  obtain ⟨hplan, hhalted⟩ := hhalt
  refine ⟨?_, hset hhalted⟩
  rw [(hafter.others hp').plan, hplan, (hbefore.others hp).plan, (hbefore.others hp).state]

/-- A VACANT record that does not wait for an entry stays as it is. -/
theorem Dev.Flushes.vacant {d1 d2 : Dev} {l : Fin 4} {p : Nat → Prop} (h : Dev.Flushes d1 d2 l p) {r : Nat} (hr : ¬ p r) (hwait : r ∉ d1.pinWait)
    (hvacant : d1.record r = Rec.vacant) : d2.record r = Rec.vacant := by
  obtain ⟨b, hb⟩ := h.unwaited r hr hwait
  rw [hb, hvacant]
  rfl

section
variable {d : Dev} {l : Fin 4} (hready : Dev.Ready d l)
include hready

theorem Dev.Ready.foldl_flushHeld (xs : List Held) : Dev.Flushes d (xs.foldl Dev.flushHeld d) l fun q => ∃ i ∈ xs, i.stops q :=
  .foldl (fun _ i hy => hy.flushHeld i) xs hready

theorem Dev.Ready.foldl_halt (rs : List Nat) (f : FaultCode) :
    Dev.Flushes d (rs.foldl (fun y r => y.halt r f) d) l (· ∈ rs) :=
  (Dev.Flushes.foldl (stops := fun r q => q = r) (fun _ r hy => hy.halt r f) rs hready).mono fun _ ⟨_, hr, hq⟩ => hq ▸ hr

/-- R59: a record in a stage that no directive stops. -/
theorem Dev.Ready.foldl_halt_halts {rs : List Nat} (hrs : rs.Nodup) {r : Nat} (hr : r ∈ rs) (hslots : Sparse.wf Slot.idle d.slots = true) :
    haltedWith d (rs.foldl (fun y r => y.halt r .legFault) d) r .legFault (d.record r).state := by
  obtain ⟨before, after, rfl⟩ := List.append_of_mem hr
  obtain ⟨-, hsnd, hdisjoint⟩ := List.nodup_append.1 hrs
  have hafter : r ∉ after := (List.nodup_cons.1 hsnd).1
  have hbefore : r ∉ before := fun h => hdisjoint r h r List.mem_cons_self rfl
  rw [List.foldl_append, List.foldl_cons]
  have hfirst := hready.foldl_halt before .legFault
  have hmid := (hfirst.ready hready).halt r .legFault
  have hset := (Dev.Settles.foldl (fun y r hy => Dev.Settles.halt hy r .legFault) before hslots).trans
    (.halt (Dev.Settles.foldl (fun y r hy => Dev.Settles.halt hy r .legFault) before hslots).wf r .legFault)
  exact hfirst.halts_between hbefore (Dev.halt_spec (hfirst.ready hready).recs r .legFault _ rfl).1
    ((hmid.ready (hfirst.ready hready)).foldl_halt after .legFault) hafter
    ((Dev.Settles.foldl (fun y r hy => Dev.Settles.halt hy r .legFault) after hset.wf).set _)

theorem Dev.Ready.readied_record (i : Held) (r : Nat) : (d.record r).sameButPin ((d.readied i).record r) :=
  (hready.readied i fun _ => False).others (q := r) id

/-- R58: a record whose one directive is of its stage. -/
theorem Dev.Ready.flushHeld_halts {before after : List Held} {i : Held} {r : Nat} (hi : i.owns r) (hstage : i.dir.body.cls = .stage)
    (hbefore : ∀ j ∈ before, ¬ j.owns r) (hafter : ∀ j ∈ after, ¬ j.owns r) (hslots : Sparse.wf Slot.idle d.slots = true) :
    haltedWith d ((before ++ i :: after).foldl Dev.flushHeld d) r .legFault (d.record r).state := by
  rw [List.foldl_append, List.foldl_cons]
  have hfirst := hready.foldl_flushHeld before
  have hready1 := hfirst.ready hready
  have hslots1 := (Dev.Settles.foldl (fun y j hy => Dev.Settles.flushHeld hy j) before hslots).wf
  generalize before.foldl Dev.flushHeld d = d1 at *
  have hclear := hready1.readied i fun _ => False
  have hready2 := hclear.ready hready1
  have hmid := hready1.flushHeld i
  have hhalt := (Dev.halt_spec hready2.recs r .legFault _ rfl).1
  rw [← Dev.flushRecord_stage _ r hstage, ← Dev.flushHeld_record d1 hi] at hhalt
  refine (hfirst.trans hclear).halts_between ?_ hhalt ((hmid.ready hready1).foldl_flushHeld after) ?_
    ((Dev.Settles.foldl (fun y j hy => Dev.Settles.flushHeld hy j) after (Dev.Settles.flushHeld hslots1 i).wf).set _)
  · rintro (⟨j, hj, hstop⟩ | hfalse)
    · exact hbefore j hj hstop.1
    · exact hfalse
  · rintro ⟨j, hj, hstop⟩
    exact hafter j hj hstop.1

/-- R19, R58: a record whose one directive is a DISMISS. -/
theorem Dev.Ready.flushHeld_vacates {before after : List Held} {i : Held} {r : Nat} (hi : i.owns r) (hdismiss : i.dir.body = .dismiss)
    (hafter : ∀ j ∈ after, ¬ j.owns r) (hwait : r ∉ d.pinWait) :
    ((before ++ i :: after).foldl Dev.flushHeld d).record r = Rec.vacant := by
  rw [List.foldl_append, List.foldl_cons]
  have hfirst := hready.foldl_flushHeld before
  have hready1 := hfirst.ready hready
  have hmid := hready1.flushHeld i
  have hvacant : ((before.foldl Dev.flushHeld d).flushHeld i).record r = Rec.vacant := by
    rw [Dev.flushHeld_record _ hi, hdismiss, Dev.flushRecord_dismiss]
    exact (Dev.vacate_spec ((hready1.readied i fun _ => False).ready hready1).recs r).2.1
  refine ((hmid.ready hready1).foldl_flushHeld after).vacant ?_ (fun hmem => ?_) hvacant
  · rintro ⟨j, hj, hstop⟩
    exact hafter j hj hstop.1
  · exact hwait (hfirst.pinWait r (hmid.pinWait r hmem))

end

/-! ## MUTED (R4) -/

/-- The record keeps its leg and MUTED. -/
def Rec.keepsMuted (x y : Rec) : Prop := y.enrol.leg = x.enrol.leg ∧ y.muted = x.muted

theorem Rec.sameButPin.keepsMuted {x y : Rec} (h : x.sameButPin y) : x.keepsMuted y := by
  obtain ⟨_, _, _, rfl⟩ := h
  exact ⟨rfl, rfl⟩

theorem Rec.keepsMuted_trans {x y z : Rec} (h : x.keepsMuted y) (h' : y.keepsMuted z) : x.keepsMuted z :=
  ⟨h'.1.trans h.1, h'.2.trans h.2⟩

section
variable {d : Dev} {l : Fin 4} (hready : Dev.Ready d l)
include hready

/-- R12: a record of the leg that halts has no UNMUTE in flight that could clear it. -/
theorem Dev.Ready.halt_keepsMuted {r : Nat} (hr : (d.record r).enrol.leg = l) (q : Nat) (f : FaultCode) :
    (d.record r).keepsMuted ((d.halt q f).record r) := by
  by_cases hq : r = q
  · subst hq
    have hfree := hready.emptied.1
    have hmuted := Dev.drop_muted hready.recs hr fun y hy => by rw [hfree] at hy; cases hy
    have henrol := congrArg Enrolment.leg ((Dev.Frame.drop hready.recs r).enrol r)
    rw [Dev.halt, Dev.haltWith_record hready.recs]
    exact ⟨henrol, hmuted⟩
  · exact ((hready.halt q f).others hq).keepsMuted

theorem Dev.Ready.flushHeld_keepsMuted {r : Nat} (hr : (d.record r).enrol.leg = l) {i : Held} (hi : i.owns r → i.dir.body ≠ .dismiss) :
    (d.record r).keepsMuted ((d.flushHeld i).record r) := by
  by_cases hstop : i.stops r
  · obtain ⟨hown, hstage⟩ := hstop
    have hclear := hready.readied_record i r
    rw [Dev.flushHeld_record d hown, Dev.flushRecord_stage _ _ (hstage.resolve_right (hi hown))]
    exact Rec.keepsMuted_trans hclear.keepsMuted
      (((hready.readied i fun _ => False).ready hready).halt_keepsMuted (hclear.leg.trans hr) r .legFault)
  · exact ((hready.flushHeld i).others hstop).keepsMuted

theorem Dev.Ready.foldl_keepsMuted {α : Type} {f : Dev → α → Dev} {r : Nat} (xs : List α) (hr : (d.record r).enrol.leg = l)
    (hnext : ∀ y x, Dev.Ready y l → Dev.Ready (f y x) l)
    (hf : ∀ y, ∀ x ∈ xs, Dev.Ready y l → (y.record r).enrol.leg = l → (y.record r).keepsMuted ((f y x).record r)) :
    (d.record r).keepsMuted ((xs.foldl f d).record r) := by
  induction xs generalizing d with
  | nil => exact ⟨rfl, rfl⟩
  | cons x xs ih =>
    have hstep := hf d x List.mem_cons_self hready hr
    exact Rec.keepsMuted_trans hstep
      (ih (hnext d x hready) (hstep.1.trans hr) fun y z hz => hf y z (List.mem_cons_of_mem _ hz))

end

/-! ## The flush of the leg -/

/-- The one directive of a record among those the leg holds. -/
theorem Leg.holds_split {g : Leg} {r : Nat} {dir : Directive} (h : g.directivesOf r = [dir]) :
    ∃ before i after, g.holds = before ++ i :: after ∧ i.owns r ∧ i.dir = dir ∧ (∀ j ∈ before, ¬ j.owns r) ∧ ∀ j ∈ after, ¬ j.owns r := by
  rw [Leg.directivesOf_eq, List.map_eq_singleton_iff] at h
  obtain ⟨i, hi, hdir⟩ := h
  obtain ⟨before, after, hholds, hbefore, hown, hafter⟩ := List.filter_eq_cons_iff.1 hi
  have howns : i.origin = .record r := of_decide_eq_true hown
  refine ⟨before, i, after, hholds, howns, hdir, fun j hj ho => hbefore j hj ?_, fun j hj ho => ?_⟩
  · have horigin : j.origin = .record r := ho
    exact decide_eq_true horigin
  · have horigin : j.origin = .record r := ho
    exact (List.filter_eq_nil_iff.1 hafter) j hj (decide_eq_true horigin)

theorem Leg.holds_spares {g : Leg} {r : Nat} (h : ∀ dir ∈ g.directivesOf r, dir.body = .unmute) : ¬ ∃ i ∈ g.holds, i.stops r := by
  rintro ⟨i, hi, hown, hstop⟩
  have hbody := h i.dir (Leg.mem_directivesOf.2 ⟨i, hi, hown, rfl⟩)
  rw [hbody] at hstop
  rcases hstop with hstop | hstop <;> cases hstop

section
variable {d : Dev} {l : Fin 4} (hready : Dev.Ready d l) (g : Leg)
include hready

/-- R59: a record that stops is flushed with a directive, or is in a stage of the leg when all are flushed. -/
theorem Dev.Ready.flushed : Dev.Flushes d (d.flushed g l) l fun q =>
    (∃ i ∈ g.holds, i.stops q) ∨ q ∈ (g.holds.foldl Dev.flushHeld d).stageRecordsOn l := by
  have hheld := hready.foldl_flushHeld g.holds
  exact hheld.trans ((hheld.ready hready).foldl_halt _ .legFault)

theorem Dev.Ready.flushed_halts (hslots : Sparse.wf Slot.idle d.slots = true) {r : Nat} (hworks : (d.record r).works l)
    (hdirs : g.directivesOf r = [] ∨ ∃ dir, g.directivesOf r = [dir] ∧ (dir.body.cls = .stage ∨ dir.body = .unmute)) :
    haltedWith d (d.flushed g l) r .legFault (d.record r).state := by
  have hheld := hready.foldl_flushHeld g.holds
  have hready3 := hheld.ready hready
  have hslots3 := (Dev.Settles.foldl (fun y j hy => Dev.Settles.flushHeld hy j) g.holds hslots).wf
  have hspared (hunmute : ∀ dir ∈ g.directivesOf r, dir.body = .unmute) : haltedWith d (d.flushed g l) r .legFault (d.record r).state := by
    have hsame := hheld.others (Leg.holds_spares hunmute)
    have hmem := (Dev.mem_stageRecordsOn hready3.recs l r).2 ((hsame.works l).2 hworks)
    obtain ⟨hplan, hset⟩ := hready3.foldl_halt_halts (Dev.stageRecordsOn_nodup hready3.recs l) hmem hslots3
    refine ⟨hplan.trans ?_, hset⟩
    rw [hsame.plan, hsame.state]
  rcases hdirs with hnone | ⟨dir, hone, hstage | hunmute⟩
  · exact hspared fun dir hdir => by rw [hnone] at hdir; exact absurd hdir List.not_mem_nil
  · obtain ⟨before, i, after, hholds, hown, rfl, hbefore, hafter⟩ := Leg.holds_split hone
    obtain ⟨hplan, hset⟩ := hready.flushHeld_halts hown hstage hbefore hafter hslots
    rw [← hholds] at hplan hset
    have hstate := congrArg Rec.state hplan
    have hnot : r ∉ (g.holds.foldl Dev.flushHeld d).stageRecordsOn l := fun hmem => by
      have hstays := ((Dev.mem_stageRecordsOn hready3.recs l r).1 hmem).2
      have hhalted : ((g.holds.foldl Dev.flushHeld d).record r).state = .halted := hstate
      rw [hhalted] at hstays
      cases hstays
    refine ⟨?_, (Dev.Settles.foldl (fun y r hy => Dev.Settles.halt hy r .legFault) _ hslots3).set _ hset⟩
    exact ((hready3.foldl_halt _ .legFault).others hnot).plan.trans hplan
  · refine hspared fun dir' hdir => ?_
    rw [hone, List.mem_singleton] at hdir
    rw [hdir]
    exact hunmute

theorem Dev.Ready.flushed_vacates {r : Nat} {dir : Directive} (hone : g.directivesOf r = [dir]) (hdismiss : dir.body = .dismiss)
    (hwait : r ∉ d.pinWait) : (d.flushed g l).record r = Rec.vacant := by
  have hheld := hready.foldl_flushHeld g.holds
  have hready3 := hheld.ready hready
  obtain ⟨before, i, after, hholds, hown, rfl, -, hafter⟩ := Leg.holds_split hone
  have hvacant := hready.flushHeld_vacates (before := before) hown hdismiss hafter hwait
  rw [← hholds] at hvacant
  refine (hready3.foldl_halt _ .legFault).vacant (fun hmem => ?_) (fun hmem => hwait (hheld.pinWait r hmem)) hvacant
  have hworks := ((Dev.mem_stageRecordsOn hready3.recs l r).1 hmem).2
  rw [hvacant] at hworks
  cases hworks

/-- R52, R58: an UNMUTE leaves a record that is in no stage of the leg, and nobody else has its slots. -/
theorem Dev.Ready.flushed_stands {r : Nat} (hunmute : ∀ dir ∈ g.directivesOf r, dir.body = .unmute) (hworks : ¬ (d.record r).works l) :
    (d.record r).sameButPin ((d.flushed g l).record r) ∧
      ∀ b k, (∀ q, q ≠ r → (d.record q).enrol.leg = l → (d.record q).label ≠ some b) → (d.leg l).slotByte k = b →
        ((d.flushed g l).leg l).slotByte k = b := by
  have hheld := hready.foldl_flushHeld g.holds
  have hspared := Leg.holds_spares hunmute
  have hnot : ¬ ((∃ i ∈ g.holds, i.stops r) ∨ r ∈ (g.holds.foldl Dev.flushHeld d).stageRecordsOn l) := by
    rintro (hstop | hmem)
    · exact hspared hstop
    · exact hworks (((hheld.others hspared).works l).1 ((Dev.mem_stageRecordsOn hheld.recs l r).1 hmem))
  refine ⟨(hready.flushed g).others hnot, fun b k hlabel => (hready.flushed g).bytes b k fun q hq => hlabel q fun hqr => hnot ?_⟩
  rw [← hqr]
  exact hq

theorem Dev.Ready.flushed_keepsMuted {r : Nat} (hr : (d.record r).enrol.leg = l) (hdirs : ∀ dir ∈ g.directivesOf r, dir.body ≠ .dismiss) :
    (d.record r).keepsMuted ((d.flushed g l).record r) := by
  have hheld := hready.foldl_keepsMuted g.holds hr (fun y i hy => (hy.flushHeld i).ready hy) fun y i hi hy hyr =>
    hy.flushHeld_keepsMuted hyr fun hown => hdirs i.dir (Leg.mem_directivesOf.2 ⟨i, hi, hown, rfl⟩)
  have hready3 := (hready.foldl_flushHeld g.holds).ready hready
  exact Rec.keepsMuted_trans hheld (hready3.foldl_keepsMuted _ (hheld.1.trans hr) (fun y q hy => (hy.halt q .legFault).ready hy)
    fun y q _ hy hyr => hy.halt_keepsMuted hyr q .legFault)

/-- R44, R109, R110: where the leg holds directives of its own records only, one of each at most. -/
theorem Dev.Ready.flushed_bare (hdirs : ∀ r, (g.directivesOf r).length ≤ 1 ∧ ((d.record r).enrol.leg ≠ l → g.directivesOf r = [])) :
    Dev.Bare d (d.flushed g l) l fun q => (d.record q).enrol.leg = l := by
  have hown (i : Held) (hi : i ∈ g.holds) (q : Nat) (hq : i.owns q) : (d.record q).enrol.leg = l := by
    by_contra hne
    have hmem := Leg.mem_directivesOf.2 ⟨i, hi, hq, rfl⟩
    rw [(hdirs q).2 hne] at hmem
    exact List.not_mem_nil hmem
  have hheld := Dev.Bare.foldl (fun _ i hy hyq => hy.flushHeld_bare i hyq) g.holds hready hown (Leg.holds_pairwise fun r => (hdirs r).1)
  have hready3 := hheld.flushes.ready hready
  have hstage := Dev.Bare.foldl (f := fun y r => y.halt r .legFault) (own := fun r q => q = r)
    (fun _ r hy hyr => hy.halt_bare (hyr r rfl) .legFault) ((g.holds.foldl Dev.flushHeld d).stageRecordsOn l) hready3
    (fun r hr q hq => hq ▸ ((Dev.mem_stageRecordsOn hready3.recs l r).1 hr).1)
    ((Dev.stageRecordsOn_nodup hready3.recs l).imp fun hne q hq hq' => hne (hq.symm.trans hq'))
  refine (hheld.trans hstage).mono fun q hq => ?_
  rcases hq with ⟨i, hi, hq⟩ | ⟨r, hr, rfl⟩
  · exact hown i hi q hq
  · have hworks := (Dev.mem_stageRecordsOn hready3.recs l q).1 hr
    rcases (hready.foldl_flushHeld g.holds).record q with hsame | ⟨-, -, hstate⟩
    · exact ((hsame.works l).1 hworks).1
    · exact absurd (hstate.symm.trans hworks.2) Bool.false_ne_true

end

end Sys2Proof.Machine
end

section
/-! PROOFS. FLT asserted: the whole of it, and what the obligation says of it (R58, R59, R132, R135, R141, R144). -/

namespace Sys2Proof.Machine

/-! ## The end of the hunt (R141, R144) -/

theorem Dev.huntAnswered_rest (d : Dev) (owner : Option Nat) (res : HuntResult) (steps : Nat) (culprit : Option Nat) :
    ∃ sl ca, d.huntAnswered owner res steps culprit = { d with slots := sl, causes := ca } := by
  cases owner with
  | none => exact ⟨_, _, rfl⟩
  | some n => exact ⟨_, _, rfl⟩

theorem Dev.faultHunt_idle {d : Dev} {l : Fin 4} (h : (d.leg l).hunt.phase = .idle) : d.faultHunt l = d := if_pos h

theorem Dev.faultHunt_ends {d : Dev} {l : Fin 4} (h : (d.leg l).hunt.phase ≠ .idle) : d.faultHunt l = d.endHunt l .legFault none := if_neg h

/-- The end of the hunt touches the leg's hunt, slots and causes only. -/
theorem Dev.faultHunt_rest (d : Dev) (l : Fin 4) : ∃ lg sl ca, d.faultHunt l = { d with legs := lg, slots := sl, causes := ca } := by
  by_cases h : (d.leg l).hunt.phase = .idle
  · rw [Dev.faultHunt_idle h]
    exact ⟨_, _, _, rfl⟩
  · rw [Dev.faultHunt_ends h, Dev.endHunt_none]
    obtain ⟨sl, ca, hrest⟩ := Dev.huntAnswered_rest (d.huntOver l .legFault none) (d.leg l).hunt.owner .legFault (d.leg l).hunt.steps none
    exact ⟨_, sl, ca, hrest⟩

theorem Dev.faultHunt_leg {d : Dev} (hslots : Sparse.wf Slot.idle d.slots = true) (l : Fin 4) :
    (d.faultHunt l).leg l = if (d.leg l).hunt.phase = .idle then d.leg l else (d.leg l).huntEnded .legFault none := by
  split
  next h => rw [Dev.faultHunt_idle h]
  next h =>
    obtain ⟨-, hleg, -⟩ := Dev.endHunt_rules hslots l .legFault
    rw [Dev.faultHunt_ends h, hleg]

theorem Dev.faultHunt_leg_ne {d : Dev} (hslots : Sparse.wf Slot.idle d.slots = true) {l k : Fin 4} (hk : k ≠ l) :
    (d.faultHunt l).leg k = d.leg k := by
  by_cases h : (d.leg l).hunt.phase = .idle
  · rw [Dev.faultHunt_idle h]
  · obtain ⟨-, -, hothers, -⟩ := Dev.endHunt_rules hslots l .legFault
    rw [Dev.faultHunt_ends h, hothers k hk]

theorem Dev.Settles.faultHunt {d : Dev} (hslots : Sparse.wf Slot.idle d.slots = true) (l : Fin 4) : Dev.Settles d (d.faultHunt l) := by
  by_cases h : (d.leg l).hunt.phase = .idle
  · rw [Dev.faultHunt_idle h]
    exact .refl hslots
  · rw [Dev.faultHunt_ends h, Dev.endHunt_none]
    have hover : Dev.Settles d (d.huntOver l .legFault none) :=
      .of_slots hslots rfl (.inr (.inr (.inr rfl))) (Dev.isSet_latch (d.modLeg l _) .huntEnd)
    cases (d.leg l).hunt.owner with
    | none => exact hover
    | some n => exact hover.trans (.complete hover.wf n (huntCommandResult .legFault) (.hunt .legFault (d.leg l).hunt.steps none))

/-! ## FLT asserted -/

/-- Leg l has entered FAULTED and the directive in flight has ended. -/
def Dev.fltStarted (d : Dev) (l : Fin 4) : Dev := ((d.setFlt l true).faultStart l).unmuting (d.leg l).inFlight

/-- What leg l held, and the records still in a stage, are dealt with. -/
def Dev.fltFlushed (d : Dev) (l : Fin 4) : Dev := (d.fltStarted l).flushed (d.leg l) l

/-- The leg's surveys are answered. -/
def Dev.fltAnswered (d : Dev) (l : Fin 4) : Dev := (d.leg l).surveySlots.foldl (fun y n => y.answerFault l n) (d.fltFlushed l)

theorem Dev.fltAssert_eq {d : Dev} {l : Fin 4} (h : (d.leg l).st = .running ∨ (d.leg l).st = .suspended ∨ (d.leg l).st = .hunting) :
    d.fltAssert l = (d.fltAnswered l).faultHunt l := by
  have hcan : (d.leg l).canFault = true := by
    unfold Leg.canFault
    rcases h with h | h | h <;> rw [h] <;> rfl
  have hleg : (d.setFlt l true).leg l = { d.leg l with flt := true } := Dev.modLeg_leg_self d l _
  refine (if_pos hcan).trans ?_
  rw [Dev.faultLeg_eq, hleg]
  rfl

/-- What the obligation supposes of the maps. -/
structure Dev.Mapped (d : Dev) (l : Fin 4) : Prop where
  recs : Sparse.wf Rec.vacant d.recs = true
  slots : Sparse.wf Slot.idle d.slots = true
  slotMap : Sparse.wf 0 (d.leg l).slotMap = true

/-- R58: the leg itself, `m` being its slot map. -/
def Leg.faulted (g : Leg) (m : List (Nat × Nat)) : Leg := { g.enterFaulted with flt := true, slotMap := m }

theorem Dev.foldl_halt_slots (rs : List Nat) (f : FaultCode) (d : Dev) : (rs.foldl (fun y r => y.halt r f) d).slots = d.slots := by
  induction rs generalizing d with
  | nil => rfl
  | cons r rs ih => exact (ih _).trans (Dev.keepsSlots.haltWith_slots d r f _)

theorem Dev.fltAnswered_leg (d : Dev) (l k : Fin 4) : (d.fltAnswered l).leg k = (d.fltFlushed l).leg k := by
  obtain ⟨sl, ca, hrest⟩ := Dev.foldl_answerFault_rest l (d.leg l).surveySlots (d.fltFlushed l)
  rw [Dev.fltAnswered, hrest]
  rfl

theorem Dev.fltAnswered_rest (d : Dev) (l : Fin 4) : ∃ lg sl ca, (d.fltAnswered l).faultHunt l = { d.fltFlushed l with legs := lg, slots := sl, causes := ca } := by
  obtain ⟨lg, sl, ca, hend⟩ := Dev.faultHunt_rest (d.fltAnswered l) l
  obtain ⟨_, _, hrest⟩ := Dev.foldl_answerFault_rest l (d.leg l).surveySlots (d.fltFlushed l)
  refine ⟨lg, sl, ca, ?_⟩
  rw [hend, Dev.fltAnswered, hrest]

theorem Dev.fltAnswered_record (d : Dev) (l : Fin 4) (r : Nat) : ((d.fltAnswered l).faultHunt l).record r = (d.fltFlushed l).record r := by
  obtain ⟨_, _, _, hrest⟩ := Dev.fltAnswered_rest d l
  rw [hrest]
  rfl

section
variable {d : Dev} {l : Fin 4} (hmaps : Dev.Mapped d l)
include hmaps

theorem Dev.Mapped.started : Dev.Started d (d.fltStarted l) l := Dev.fltAssert_started hmaps.recs l

theorem Dev.Mapped.ready : Dev.Ready (d.fltStarted l) l := hmaps.started.ready hmaps.slotMap

theorem Dev.Mapped.startedSlots : Sparse.wf Slot.idle (d.fltStarted l).slots = true := by
  rw [hmaps.started.slots]
  exact hmaps.slots

theorem Dev.Mapped.settlesStarted : Dev.Settles d (d.fltStarted l) :=
  .of_slots hmaps.slots hmaps.started.slots (.inl rfl) hmaps.started.set

theorem Dev.Mapped.settlesFlushed : Dev.Settles (d.fltStarted l) (d.fltFlushed l) := by
  have hheld := Dev.Settles.foldl (fun y i hy => Dev.Settles.flushHeld hy i) (d.leg l).holds hmaps.startedSlots
  exact hheld.trans (.foldl (fun y r hy => .halt hy r .legFault) _ hheld.wf)

theorem Dev.Mapped.settlesAnswered : Dev.Settles (d.fltFlushed l) (d.fltAnswered l) :=
  Dev.foldl_answerFault_settles hmaps.settlesFlushed.wf l _

theorem Dev.Mapped.settles : Dev.Settles d ((d.fltAnswered l).faultHunt l) :=
  ((hmaps.settlesStarted.trans hmaps.settlesFlushed).trans hmaps.settlesAnswered).trans (.faultHunt hmaps.settlesAnswered.wf l)

theorem Dev.Mapped.flushedLeg : ∃ m, (d.fltFlushed l).leg l = (d.leg l).faulted m := by
  obtain ⟨m, -, hleg⟩ := (hmaps.ready.flushed (d.leg l)).leg
  exact ⟨m, hleg.trans (by rw [hmaps.started.leg]; rfl)⟩

theorem Dev.Mapped.finalLeg :
    ∃ m, ((d.fltAnswered l).faultHunt l).leg l =
      if (d.leg l).hunt.phase = .idle then (d.leg l).faulted m else ((d.leg l).faulted m).huntEnded .legFault none := by
  obtain ⟨m, hleg⟩ := hmaps.flushedLeg
  exact ⟨m, by rw [Dev.faultHunt_leg hmaps.settlesAnswered.wf, Dev.fltAnswered_leg, hleg]; rfl⟩

theorem Dev.Mapped.finalBytes (k : Nat) : (((d.fltAnswered l).faultHunt l).leg l).slotByte k = ((d.fltFlushed l).leg l).slotByte k := by
  rw [Dev.faultHunt_leg hmaps.settlesAnswered.wf, Dev.fltAnswered_leg]
  split
  next => rfl
  next => rfl

theorem Dev.Mapped.finalLeg_ne {k : Fin 4} (hk : k ≠ l) : ((d.fltAnswered l).faultHunt l).leg k = (d.fltFlushed l).leg k :=
  (Dev.faultHunt_leg_ne hmaps.settlesAnswered.wf hk).trans (Dev.fltAnswered_leg d l k)

end

/-! ## The command slots (R52, R58, R132, R135, R141) -/

/-- The hunt of the leg is not the command's. -/
theorem Dev.faultHunt_slot {d : Dev} (hslots : Sparse.wf Slot.idle d.slots = true) {l : Fin 4} {n : Nat}
    (h : ¬ ((d.leg l).hunt.phase ≠ .idle ∧ (d.leg l).hunt.owner = some n)) : (d.faultHunt l).slot n = d.slot n := by
  by_cases hidle : (d.leg l).hunt.phase = .idle
  · rw [Dev.faultHunt_idle hidle]
  · rw [Dev.faultHunt_ends hidle]
    obtain ⟨-, -, -, -, -, -, hothers, -⟩ := Dev.endHunt_rules hslots l .legFault
    exact hothers n fun howner => h ⟨hidle, howner⟩

theorem Dev.faultHunt_owner {d : Dev} (hslots : Sparse.wf Slot.idle d.slots = true) {l : Fin 4} {n : Nat}
    (h : (d.leg l).hunt.phase ≠ .idle ∧ (d.leg l).hunt.owner = some n) :
    Dev.slotEnds d (d.faultHunt l) n .legFault (.hunt .legFault (d.leg l).hunt.steps none) := by
  rw [Dev.faultHunt_ends h.1]
  obtain ⟨-, -, -, -, -, -, -, hdone⟩ := Dev.endHunt_rules hslots l .legFault
  obtain ⟨hself, hset, -⟩ := hdone n h.2
  exact ⟨hself, hset⟩

/-- R58: a command has a directive in flight on the leg. -/
def Leg.flies (g : Leg) (n : Nat) : Prop := ∃ y, g.chan = .directive y ∧ y.origin = .cmd n

/-- R58: a command has a directive in the queue. -/
def Leg.queued (g : Leg) (n : Nat) : Prop := ∃ e ∈ g.queue, e.origin = .cmd n

/-- R58: the hunt is a command's. -/
def Leg.huntOf (g : Leg) (n : Nat) : Prop := g.hunt.phase ≠ .idle ∧ g.hunt.owner = some n

/-- What waits behind the directive in flight. -/
def Leg.kept (g : Leg) : List Held := g.queue.map .entry ++ g.waiting.map .waiter

theorem Leg.holds_eq (g : Leg) : g.holds = g.inFlight.toList.map .flight ++ g.kept := rfl

theorem Leg.mem_kept {g : Leg} {i : Held} : i ∈ g.kept ↔ (∃ e ∈ g.queue, i = .entry e) ∨ ∃ w ∈ g.waiting, i = .waiter w := by
  simp only [Leg.kept, List.mem_append, List.mem_map, @eq_comm Held _ i]

/-- A command's directives behind the one in flight are in the queue. -/
theorem Leg.kept_cmd {g : Leg} {i : Held} {n : Nat} (hi : i ∈ g.kept) (ho : i.origin = .cmd n) : g.queued n ∧ i.detail = .zero := by
  rcases Leg.mem_kept.1 hi with ⟨e, he, rfl⟩ | ⟨w, -, rfl⟩
  · exact ⟨⟨e, he, ho⟩, rfl⟩
  · cases ho

theorem Leg.flight_cmd {g : Leg} {i : Held} {n : Nat} (hi : i ∈ g.inFlight.toList.map Held.flight) (ho : i.origin = .cmd n) : g.flies n := by
  obtain ⟨x, hx, rfl⟩ := List.mem_map.1 hi
  exact ⟨x, Leg.inFlight_eq_some_iff.1 (Option.mem_toList.1 hx), ho⟩

theorem Dev.fltFlushed_slot (d : Dev) (l : Fin 4) (n : Nat) : (d.fltFlushed l).slot n = ((d.leg l).holds.foldl Dev.flushHeld (d.fltStarted l)).slot n :=
  congrArg (Sparse.get Slot.idle · n) (Dev.foldl_halt_slots _ .legFault ((d.leg l).holds.foldl Dev.flushHeld (d.fltStarted l)))

section
variable {d : Dev} {l : Fin 4} (hmaps : Dev.Mapped d l)
include hmaps

theorem Dev.Mapped.flushedEnds {n : Nat} {x : Detail}
    (h : Dev.slotEnds (d.fltStarted l) ((d.leg l).holds.foldl Dev.flushHeld (d.fltStarted l)) n .legFault x) :
    Dev.slotEnds d (d.fltFlushed l) n .legFault x := by
  have hheld := Dev.Settles.foldl (fun y i hy => Dev.Settles.flushHeld hy i) (d.leg l).holds hmaps.startedSlots
  exact Dev.slotEnds_of_params (Dev.slotEnds_of_slot h (Dev.fltFlushed_slot d l n)
    ((Dev.Settles.foldl (fun y r hy => .halt hy r .legFault) _ hheld.wf).set _)) (hmaps.settlesStarted.params n)

/-- A command without a directive on the leg. -/
theorem Dev.Mapped.flushed_stands {n : Nat} (hqueued : ¬ (d.leg l).queued n) (hflies : ¬ (d.leg l).flies n) :
    (d.fltFlushed l).slot n = d.slot n := by
  rw [Dev.fltFlushed_slot, Dev.foldl_flushHeld_slot hmaps.startedSlots]
  · exact congrArg (Sparse.get Slot.idle · n) hmaps.started.slots
  · intro i hi ho
    rw [Leg.holds_eq, List.mem_append] at hi
    rcases hi with hi | hi
    · exact hflies (Leg.flight_cmd hi ho)
    · exact hqueued (Leg.kept_cmd hi ho).1

/-- R58: a command with a directive in the queue. -/
theorem Dev.Mapped.flushed_queued {n : Nat} (hqueued : (d.leg l).queued n) : Dev.slotEnds d (d.fltFlushed l) n .legFault .zero := by
  refine hmaps.flushedEnds ?_
  rw [Leg.holds_eq, List.foldl_append]
  have hfirst := Dev.Settles.foldl (fun y i hy => Dev.Settles.flushHeld hy i) ((d.leg l).inFlight.toList.map Held.flight) hmaps.startedSlots
  obtain ⟨e, he, ho⟩ := hqueued
  have hends := Dev.foldl_flushHeld_ends (n := n) hfirst.wf ⟨.entry e, Leg.mem_kept.2 (.inl ⟨e, he, rfl⟩), ho⟩
    fun i hi hcmd => (Leg.kept_cmd hi hcmd).2
  exact Dev.slotEnds_of_params hends (hfirst.params n)

/-- R52, R58: a command whose one directive is in flight. -/
theorem Dev.Mapped.flushed_flies {n : Nat} (hqueued : ¬ (d.leg l).queued n) {f : InFlight} (hchan : (d.leg l).chan = .directive f)
    (ho : f.origin = .cmd n) : Dev.slotEnds d (d.fltFlushed l) n .legFault f.cutDetail := by
  refine hmaps.flushedEnds (Dev.foldl_flushHeld_ends hmaps.startedSlots ?_ fun i hi hcmd => ?_)
  · exact ⟨.flight f, Leg.mem_holds.2 (.inl ⟨f, hchan, rfl⟩), ho⟩
  · rw [Leg.holds_eq, List.mem_append] at hi
    rcases hi with hi | hi
    · obtain ⟨x, hx, rfl⟩ := List.mem_map.1 hi
      have hxf := Leg.inFlight_eq_some_iff.1 (Option.mem_toList.1 hx)
      rw [hchan, Chan.directive.injEq] at hxf
      rw [hxf]
      rfl
    · exact absurd (Leg.kept_cmd hi hcmd).1 hqueued

theorem Dev.Mapped.answeredHunt : ((d.fltAnswered l).leg l).hunt = (d.leg l).hunt := by
  obtain ⟨m, hleg⟩ := hmaps.flushedLeg
  rw [Dev.fltAnswered_leg, hleg]
  rfl

/-- R132: the hunt's end leaves the slots of others. -/
theorem Dev.Mapped.finalSlot {n : Nat} (h : ¬ (d.leg l).huntOf n) : ((d.fltAnswered l).faultHunt l).slot n = (d.fltAnswered l).slot n :=
  Dev.faultHunt_slot hmaps.settlesAnswered.wf (by rw [hmaps.answeredHunt]; exact h)

theorem Dev.Mapped.finalEnds {n : Nat} {res : ResultCode} {x : Detail} (h : ¬ (d.leg l).huntOf n)
    (hends : Dev.slotEnds d (d.fltAnswered l) n res x) : Dev.slotEnds d ((d.fltAnswered l).faultHunt l) n res x :=
  Dev.slotEnds_of_slot hends (hmaps.finalSlot h) ((Dev.Settles.faultHunt hmaps.settlesAnswered.wf l).set _)

/-- A command that has no survey on the leg. -/
theorem Dev.Mapped.answered_slot {n : Nat} (h : n ∉ (d.leg l).surveySlots) : (d.fltAnswered l).slot n = (d.fltFlushed l).slot n :=
  Dev.foldl_answerFault_slot hmaps.settlesFlushed.wf l h

/-- R141, R144: the hunt's owner. -/
theorem Dev.Mapped.final_owner {n : Nat} (h : (d.leg l).huntOf n) :
    Dev.slotEnds d ((d.fltAnswered l).faultHunt l) n .legFault (.hunt .legFault (d.leg l).hunt.steps none) := by
  have hends := Dev.faultHunt_owner (n := n) hmaps.settlesAnswered.wf (l := l) (by rw [hmaps.answeredHunt]; exact h)
  rw [hmaps.answeredHunt] at hends
  exact Dev.slotEnds_of_params hends
    (((hmaps.settlesStarted.trans hmaps.settlesFlushed).trans hmaps.settlesAnswered).params n)

/-- R132: a SURVEY of the leg. -/
theorem Dev.Mapped.final_survey {n : Nat} (h : ¬ (d.leg l).huntOf n) (hsurvey : n ∈ (d.leg l).surveySlots) (hparts : (d.slot n).parts = []) :
    Dev.slotEnds d ((d.fltAnswered l).faultHunt l) n .legFault (.survey l.val .none 0) := by
  have hbefore := hmaps.settlesStarted.trans hmaps.settlesFlushed
  exact hmaps.finalEnds h (Dev.slotEnds_of_params
    (Dev.foldl_answerFault_single hmaps.settlesFlushed.wf l hsurvey (hbefore.parts n hparts)) (hbefore.params n))

/-- R135: an all-legs SURVEY. -/
theorem Dev.Mapped.final_part {n : Nat} (h : ¬ (d.leg l).huntOf n) (hsurvey : n ∈ (d.leg l).surveySlots) (hparts : (d.slot n).parts ≠ [])
    (hnodup : (d.leg l).surveySlots.Nodup) (hqueued : ¬ (d.leg l).queued n) (hflies : ¬ (d.leg l).flies n) :
    let ps := (d.slot n).parts.set l.val (some (.legFault, 0))
    if ps.all Option.isSome then Dev.slotEnds d ((d.fltAnswered l).faultHunt l) n .ok (.allLegs ps)
    else ((d.fltAnswered l).faultHunt l).slot n = { d.slot n with parts := ps } := by
  have hsame := hmaps.flushed_stands hqueued hflies
  have hpart := Dev.foldl_answerFault_part hmaps.settlesFlushed.wf l hnodup hsurvey (by rw [hsame]; exact hparts)
  unfold Slot.faultedParts at hpart
  dsimp only at hpart ⊢
  rw [hsame] at hpart
  split at hpart
  next hall =>
    rw [if_pos hall]
    obtain ⟨hself, hset⟩ := hpart
    exact hmaps.finalEnds h ⟨hself.trans (by rw [hsame]), hset⟩
  next hall =>
    rw [if_neg hall, hmaps.finalSlot h]
    exact hpart

end

/-! ## The leg (R41, R58, R71, R144) -/

theorem Leg.windowOutcomeNow_hail {g : Leg} {w : HailWindow} (h : g.chan = .hail w) (hopen : w.opened ≠ none) : g.windowOutcomeNow = w.outcome := by
  unfold Leg.windowOutcomeNow
  rw [h]
  have hsome : w.opened.isSome = true := Option.isSome_iff_ne_none.2 hopen
  exact if_pos (by rw [hsome]; rfl)

theorem Leg.windowOutcomeNow_other {g : Leg} (h : ∀ w, g.chan ≠ .hail w) : g.windowOutcomeNow = g.lastWindow := by
  unfold Leg.windowOutcomeNow
  split
  next w hchan => exact absurd hchan (h w)
  next => rfl
  next => rfl
  next => rfl

/-- R149, R154: the detail of a directive that FLT cuts short. -/
theorem InFlight.cutDetail_eq (f : InFlight) : f.cutDetail = .groupCall f.sends (if f.dir.target.isMany then f.call else none) := by
  unfold InFlight.cutDetail
  split
  next => rfl
  next => rfl

/-! ## The other legs and the records -/

theorem Dev.Started.sameWorks {d d' : Dev} {l : Fin 4} (h : Dev.Started d d' l) (q : Nat) (k : Fin 4) :
    (d'.record q).works k ↔ (d.record q).works k := by
  obtain ⟨b, m, hrecord⟩ := h.record q
  rw [hrecord]
  exact Iff.rfl

section
variable {d : Dev} {l : Fin 4} (hmaps : Dev.Mapped d l)
include hmaps

/-- R44, R109, R110: what the other legs keep. -/
theorem Dev.Mapped.final_bare (hdirs : ∀ r, ((d.leg l).directivesOf r).length ≤ 1 ∧
    ((d.record r).enrol.leg ≠ l → (d.leg l).directivesOf r = [])) :
    let d' := (d.fltAnswered l).faultHunt l
    d'.fetches = d.fetches.filter (fun f => decide (f.leg ≠ l)) ∧ (∀ k, k ≠ l → (d.leg k).grows (d'.leg k)) ∧
      ((∀ r ∈ d.pinWait, (d.record r).enrol.leg = l) →
        d'.pinWait = [] ∧ (∀ k, k ≠ l → d'.leg k = d.leg k) ∧
        (∀ r, (d.record r).enrol.leg ≠ l → (∀ y, (d.leg l).chan = .directive y → y.origin ≠ .hunt r) → d'.record r = d.record r) ∧
        ∀ i, (∀ r, (d.record r).enrol.leg = l → (d.record r).pin ≠ some i) → d'.pin i = d.pin i) := by
  have hstart := hmaps.started
  have hrecord (q : Nat) : ((d.fltStarted l).record q).enrol.leg = (d.record q).enrol.leg ∧ ((d.fltStarted l).record q).pin = (d.record q).pin := by
    obtain ⟨b, m, hrecord⟩ := hstart.record q
    rw [hrecord]
    exact ⟨rfl, rfl⟩
  have hbare := hmaps.ready.flushed_bare (d.leg l) fun r => by rw [(hrecord r).1]; exact hdirs r
  obtain ⟨lg, sl, ca, hrest⟩ := Dev.fltAnswered_rest d l
  have hfetches : ((d.fltAnswered l).faultHunt l).fetches = (d.fltFlushed l).fetches := by rw [hrest]
  have hpinWait : ((d.fltAnswered l).faultHunt l).pinWait = (d.fltFlushed l).pinWait := by rw [hrest]
  have hpins (i : Nat) : ((d.fltAnswered l).faultHunt l).pin i = (d.fltFlushed l).pin i := by rw [hrest]; rfl
  refine ⟨hfetches.trans (hbare.fetches.trans hstart.fetches), fun k hk => ?_, fun honly => ?_⟩
  · rw [hmaps.finalLeg_ne hk, ← hstart.legs k hk]
    exact hbare.legs k hk
  · have hnone : (d.fltStarted l).pinWait = [] := by
      rw [hstart.pinWait, List.filter_eq_nil_iff]
      intro q hq
      rw [honly q hq, decide_eq_true rfl]
      exact Bool.false_ne_true
    have halone := hbare.alone hnone
    refine ⟨hpinWait.trans (hbare.nobody hnone), fun k hk => ?_, fun r hr hhunt => ?_, fun i hi => ?_⟩
    · rw [hmaps.finalLeg_ne hk, ← hstart.legs k hk]
      exact halone.legs k hk
    · have hnot : ¬ (d.leg l).unmutes r := by
        rintro ⟨y, hchan, -, ho | ho⟩
        · have hmem := Leg.mem_directivesOf.2 ⟨.flight y, Leg.mem_holds.2 (.inl ⟨y, hchan, rfl⟩), ho, rfl⟩
          rw [(hdirs r).2 hr] at hmem
          exact List.not_mem_nil hmem
        · exact hhunt y hchan ho
      rw [Dev.fltAnswered_record, ← hstart.stands r hr hnot]
      exact halone.record r (by rw [(hrecord r).1]; exact hr)
    · have hpin := halone.pin i fun q hq => by
        rw [(hrecord q).2]
        exact hi q ((hrecord q).1.symm.trans hq)
      exact (hpins i).trans (hpin.trans (congrArg (Sparse.get Pin.free · i) hstart.pins))

/-- R13, R59: a record that halts. -/
theorem Dev.Mapped.final_halts {r : Nat} (hleg : (d.record r).enrol.leg = l) (hstage : (d.record r).state.isStage = true)
    (hdirs : (d.leg l).directivesOf r = [] ∨
      ∃ dir, (d.leg l).directivesOf r = [dir] ∧ (dir.body.cls = .stage ∨ dir.body = .unmute)) :
    haltedWith d ((d.fltAnswered l).faultHunt l) r .legFault (d.record r).state := by
  obtain ⟨hplan, hset⟩ := hmaps.ready.flushed_halts (d.leg l) hmaps.startedSlots ((hmaps.started.sameWorks r l).2 ⟨hleg, hstage⟩) hdirs
  obtain ⟨b, m, hrecord⟩ := hmaps.started.record r
  rw [hrecord] at hplan
  refine ⟨?_, (hmaps.settlesAnswered.trans (.faultHunt hmaps.settlesAnswered.wf l)).set _ hset⟩
  rw [Dev.fltAnswered_record]
  exact hplan

/-- R19, R58: a record whose one directive is its DISMISS. -/
theorem Dev.Mapped.final_vacates {r : Nat} {dir : Directive} (hone : (d.leg l).directivesOf r = [dir]) (hdismiss : dir.body = .dismiss)
    (hleg : (d.record r).enrol.leg = l) : ((d.fltAnswered l).faultHunt l).record r = Rec.vacant := by
  rw [Dev.fltAnswered_record]
  refine hmaps.ready.flushed_vacates (d.leg l) hone hdismiss fun hmem => ?_
  rw [hmaps.started.pinWait, List.mem_filter, hleg, decide_eq_true rfl] at hmem
  exact Bool.false_ne_true hmem.2

/-- R52, R58, R124: a record that stands, with its slots. -/
theorem Dev.Mapped.final_stands {r : Nat} (hunmute : ∀ dir ∈ (d.leg l).directivesOf r, dir.body = .unmute)
    (hworks : ¬ ((d.record r).enrol.leg = l ∧ (d.record r).state.isStage = true)) :
    let d' := (d.fltAnswered l).faultHunt l
    (d'.record r).plan = (d.record r).plan ∧ (d'.record r).label = (d.record r).label ∧ (d'.record r).slotList = (d.record r).slotList ∧
      ∀ b, (∀ q, q ≠ r → (d.record q).enrol.leg = l → (d.record q).label ≠ some b) →
        ∀ k, (d.leg l).slotByte k = b → (d'.leg l).slotByte k = b := by
  obtain ⟨hsame, hbytes⟩ := hmaps.ready.flushed_stands (d.leg l) hunmute fun h => hworks ((hmaps.started.sameWorks r l).1 h)
  obtain ⟨b, m, hrecord⟩ := hmaps.started.record r
  obtain ⟨p, pw, w, hfinal⟩ := hsame
  dsimp only
  rw [Dev.fltAnswered_record]
  have hfinal' : (d.fltFlushed l).record r = _ := hfinal
  rw [hfinal', hrecord]
  refine ⟨rfl, rfl, rfl, fun b' hlabel k hbyte => ?_⟩
  rw [hmaps.finalBytes]
  refine hbytes b' k (fun q hq hleg => ?_) (by rw [hmaps.started.leg]; exact hbyte)
  obtain ⟨_, _, hq'⟩ := hmaps.started.record q
  rw [hq'] at hleg ⊢
  exact hlabel q hq hleg

/-- R4, R52: MUTED stands but for an UNMUTE in flight. -/
theorem Dev.Mapped.final_muted {r : Nat} (hleg : (d.record r).enrol.leg = l) (hdirs : ∀ dir ∈ (d.leg l).directivesOf r, dir.body ≠ .dismiss) :
    ((d.leg l).unmutes r → (((d.fltAnswered l).faultHunt l).record r).muted = false) ∧
      (¬ (d.leg l).unmutes r → (((d.fltAnswered l).faultHunt l).record r).muted = (d.record r).muted) := by
  obtain ⟨b, m, hrecord⟩ := hmaps.started.record r
  have hkeep := (hmaps.ready.flushed_keepsMuted (d.leg l) (r := r) (by rw [hrecord]; exact hleg) hdirs).2
  rw [Dev.fltAnswered_record]
  exact ⟨fun h => hkeep.trans (hmaps.started.unmuted r h), fun h => hkeep.trans (hmaps.started.muted r h)⟩

end

/-- Settles O24: FLT asserted on a leg in operation. -/
theorem fltAssertedFlushesTheLeg : Obligations.FltAssertedFlushesTheLeg := by
  intro s l hrun hinv g flies queued owns hst
  have hmaps : Dev.Mapped s.dev l := ⟨hinv.good.recs, hinv.good.slots, (hinv.good.leg l).2.2.2⟩
  have hsettles := hmaps.settles
  have hfault : ((s.dev.fltAnswered l).faultHunt l).isSet .legFault = true := by
    refine ((hmaps.settlesFlushed.trans hmaps.settlesAnswered).trans (.faultHunt hmaps.settlesAnswered.wf l)).set _ ?_
    rw [hmaps.started.set, decide_eq_true rfl, Bool.or_true]
  obtain ⟨lg, sl, ca, hrest⟩ := Dev.fltAnswered_rest s.dev l
  have hflush := hmaps.ready.flushed g
  refine ⟨_, (exec_fltAsserted hrun l).trans (State.next_dev_congr (Dev.fltAssert_eq hst)), hfault, ?_, fun hphase => ?_, ?_, ?_,
    hsettles.only, hsettles.set, hmaps.final_bare, fun r => ?_, fun n => ?_⟩
  · obtain ⟨m, hleg⟩ := hmaps.finalLeg
    intro h
    have hh : h = _ := hleg
    rw [hh]
    have hwindow (w : HailWindow) (hchan : g.chan = .hail w) (hopen : w.opened ≠ none) := Leg.windowOutcomeNow_hail hchan hopen
    have hother (hchan : ∀ w, g.chan ≠ .hail w) := Leg.windowOutcomeNow_other hchan
    by_cases hphase : g.hunt.phase = .idle
    · rw [if_pos hphase, if_pos hphase]
      exact ⟨rfl, rfl, rfl, rfl, rfl, rfl, rfl, rfl, rfl, rfl, rfl, rfl, rfl, rfl, rfl, rfl, hwindow, hother, rfl⟩
    · rw [if_neg hphase, if_neg hphase]
      exact ⟨rfl, rfl, rfl, rfl, rfl, rfl, rfl, rfl, rfl, rfl, rfl, rfl, rfl, rfl, rfl, rfl, hwindow, hother, rfl⟩
  · have hhunt : ((s.dev.fltAnswered l).leg l).hunt.phase ≠ .idle := by
      rw [hmaps.answeredHunt]
      exact hphase
    obtain ⟨-, -, -, hset, -⟩ := Dev.endHunt_rules hmaps.settlesAnswered.wf l .legFault
    rw [Dev.faultHunt_ends hhunt]
    exact hset
  · rw [hrest]
    exact hflush.ring.trans hmaps.started.ring
  · rw [hrest]
    exact hflush.intake.trans hmaps.started.intake
  · intro x unmuted
    refine ⟨fun hleg hstage hdirs => hmaps.final_halts hleg hstage hdirs, ?_, fun hunmute hworks => ?_, hmaps.final_muted⟩
    · rintro ⟨dir, hone, hdismiss⟩ hleg -
      exact hmaps.final_vacates hone hdismiss hleg
    · obtain ⟨hplan, hlabel, hlist, hbytes⟩ := hmaps.final_stands hunmute hworks
      exact ⟨hplan, hlabel, hlist, fun b _ _ hothers => hbytes b hothers⟩
  · intro y ended
    refine ⟨hmaps.final_owner, hmaps.final_survey, hmaps.final_part, fun hnot hsurvey hqueued => ?_,
      fun f hnot hsurvey hqueued hchan ho => ?_, fun hnot hsurvey hqueued hflies => ?_⟩
    · exact hmaps.finalEnds hnot (Dev.slotEnds_of_slot (hmaps.flushed_queued hqueued) (hmaps.answered_slot hsurvey)
        (hmaps.settlesAnswered.set _))
    · have hends := hmaps.finalEnds hnot (Dev.slotEnds_of_slot (hmaps.flushed_flies hqueued hchan ho) (hmaps.answered_slot hsurvey)
        (hmaps.settlesAnswered.set _))
      rw [InFlight.cutDetail_eq] at hends
      cases hcall : (if f.dir.target.isMany then f.call else none) with
      | none => rw [hcall] at hends; exact hends
      | some k => rw [hcall] at hends; exact hends
    · exact (hmaps.finalSlot hnot).trans ((hmaps.answered_slot hsurvey).trans (hmaps.flushed_stands hqueued hflies))

end Sys2Proof.Machine
end
